-- ==== Sys2Proof/Word.lean ====
section
/-! DEFINITION. The byte, and a table of a fixed number of like things (switches, features, drivers ...):
a list together with the proof of its length, so that a table of the wrong size cannot be built. -/

namespace Sys2Proof

/-- One byte of a bulletin payload or of the configuration image. -/
abbrev Byte := BitVec 8

/-- `n` like things, numbered 0 to n - 1. Plain data: the list of them, and that there are `n`. -/
structure Tab (n : Nat) (α : Type) where
  cells : List α
  size : cells.length = n
deriving DecidableEq, Repr

namespace Tab

variable {n : Nat} {α β : Type}

/-- The thing numbered `i`. -/
def get (t : Tab n α) (i : Fin n) : α := t.cells[i.val]'(by rw [t.size]; exact i.isLt)

/-- The table with `v` at number `i`. -/
def set (t : Tab n α) (i : Fin n) (v : α) : Tab n α :=
  ⟨t.cells.set i.val v, by rw [List.length_set, t.size]⟩

/-- The table with `f` applied at number `i`. -/
def modify (t : Tab n α) (i : Fin n) (f : α → α) : Tab n α := t.set i (f (t.get i))

/-- The table with `f` applied everywhere. -/
def map (f : α → β) (t : Tab n α) : Tab n β := ⟨t.cells.map f, by rw [List.length_map, t.size]⟩

/-- The table whose entry at number `i` is `f i`. -/
def ofFn (f : Fin n → α) : Tab n α :=
  ⟨(List.finRange n).map f, by rw [List.length_map, List.length_finRange]⟩

/-- `n` copies of one thing. -/
def fill (n : Nat) (v : α) : Tab n α := ⟨List.replicate n v, List.length_replicate⟩

/-- The sum of the numbers a table gives under `f`. -/
def sum (t : Tab n α) (f : α → Nat) : Nat := (t.cells.map f).sum

/-- How many entries satisfy `p`. -/
def count (t : Tab n α) (p : α → Bool) : Nat := t.cells.countP p

/-- Does some entry satisfy `p`? -/
def any (t : Tab n α) (p : α → Bool) : Bool := t.cells.any p

end Tab

/-- `f` applied for each number 0 to n - 1 in ascending order. -/
def eachUp (n : Nat) {σ : Type} (f : Fin n → σ → σ) (s : σ) : σ :=
  (List.finRange n).foldl (fun t i => f i t) s

/-- `x` taken into `lo .. hi`: below the range its low end, above it its high end. -/
def clamp (lo hi x : Nat) : Nat := max lo (min hi x)

end Sys2Proof
end

