-- ==== Sys2Proof/Syntax.lean ====
section
/-! DEFINITION. The commands of the PNC-12: one constructor of `Instr` for each row of
spec/opcode_table.json, with the operands an outside sender gives it (what a sample reads, what a bulletin
carries, which timer of a group expires). Payload fields stand as R64 lays them out, as received. -/

namespace Sys2Proof

/-- A station number, 0..15 (the four strap pins). -/
abbrev StationNo := Fin 16
/-- A switch of the 8 by 8 matrix, 0..63. -/
abbrev SwitchNo := Fin 64
/-- A feature, 0..31. -/
abbrev FeatureNo := Fin 32
/-- A mode id, 0..31. -/
abbrev ModeId := Fin 32
/-- A lock pocket, P0..P3. -/
abbrev PocketNo := Fin 4
/-- A target bank, 0..3. -/
abbrev BankNo := Fin 4
/-- A coil driver, D0..D7. -/
abbrev DriverNo := Fin 8
/-- A lamp output, L0..L15. -/
abbrev LampNo := Fin 16
/-- An analog channel, A0..A5. -/
abbrev ChannelNo := Fin 6
/-- A player, as the player's number less 1: player 1 is 0. -/
abbrev Player := Fin 4

/-- The five payload bytes of a LOCK (R64); the two zero bits of byte 0 are not read. -/
structure LockPayload where
  event : BitVec 4
  pocket : PocketNo
  player : Byte
  credit : Byte
  held : Byte
  stuck : Byte
deriving DecidableEq, Repr

/-- The ten payload bytes of an AWARD (R64). `switch` is byte 1: a switch number, 255 for a collect
settlement, or the merged count where the coalesced flag is set. -/
structure AwardPayload where
  coalesced : Bool
  settled : Bool
  combo : Bool
  player : Player
  switch : Byte
  amount : BitVec 32
  tally : BitVec 32
deriving DecidableEq, Repr

/-- The ten payload bytes of a CENSUS (R64). `player` and `players` are the current player and the player
count, each less 1; `trough` is 0..6, or 7 for none. -/
structure CensusPayload where
  state : BitVec 3
  trough : BitVec 3
  player : Player
  held : Tab 4 (Fin 4)
  stuck : Tab 4 (Fin 4)
  modes : Tab 32 Bool
  faults : Byte
  players : Player
  missing : BitVec 3
  signature : Byte
deriving DecidableEq, Repr

/-- The bulletins of the playfield link (R63), each with its payload (R64). The origin station is no part
of the payload. -/
inductive Bulletin where
  | tilt
  | lock (p : LockPayload)
  | trough (count reason : Byte)
  | gameStart (count : Byte)
  | gameEnd
  | playerUp (player : Byte)
  | serve (count : Byte)
  | modeStart (mode duration : Byte)
  | modeEnd (mode : Byte)
  | collect (mode player : Byte)
  | jackpotAdd (mode : Byte)
  | featureSet (target feature state player : Byte)
  | missing (count : Byte)
  | award (p : AwardPayload)
  | census (p : CensusPayload)
  | query (target item argument : Byte)
  | status (item : Byte) (data : List Byte)
  | fire (target driver : Byte)
  | clear (target what : Byte)
  | restart (target : Byte)
deriving DecidableEq, Repr

/-- The commands: one constructor for each row of spec/opcode_table.json, in the table's order. A
constructor of a bulletin's row stands for that bulletin completing on the link, from station `origin`. -/
inductive Instr where
  /-- POWER_ON (R180): power comes on; the strap pins read `strap`. -/
  | powerOn (strap : StationNo)
  /-- SELFTEST_COMPLETE (R180): the table-memory test ends, and passed or failed. -/
  | selftestComplete (pass : Bool)
  /-- RESET_LINE_ASSERT (R187). -/
  | resetLineAssert
  /-- RESET_LINE_RELEASE (R187). -/
  | resetLineRelease
  /-- LOAD_BURST_READ (R181): the serial memory gives 16 bytes; the final burst takes those up to the
  image length only. -/
  | loadBurstRead (bytes : Tab 16 Byte)
  /-- LOAD_POLL_EXPIRY (R181): the 10 ms poll spacing has run out and the memory is polled again;
  `acknowledged` is its answer to that poll. -/
  | loadPollExpiry (acknowledged : Bool)
  /-- STROBE (R1): one strobe line is driven; bit i of `returns` is set where return line i carries current. -/
  | strobe (returns : Byte)
  /-- SCAN_COMPLETION (R2). -/
  | scanCompletion
  /-- STUCK_TIMER_EXPIRY (R6). -/
  | stuckTimerExpiry (switch : SwitchNo)
  /-- BANK_CONFIRM_TIMER_EXPIRY (R36). -/
  | bankConfirmTimerExpiry (bank : BankNo)
  /-- SETTLE_WINDOW_EXPIRY (R115). -/
  | settleWindowExpiry (pocket : PocketNo)
  /-- KICKOUT_TIMER_EXPIRY (R116). -/
  | kickoutTimerExpiry (pocket : PocketNo)
  /-- CONVERSION (R10): the conversion in turn yields `result`, 0..1023. -/
  | conversion (result : BitVec 10)
  /-- ROUND_COMPLETION (R14). -/
  | roundCompletion
  /-- CONFIRM_WINDOW_EXPIRY (R120): of a pocket's eject. -/
  | confirmWindowExpiry (pocket : PocketNo)
  /-- REARM_TIMER_EXPIRY (R119). -/
  | rearmTimerExpiry (pocket : PocketNo)
  /-- TURN_TIMER_EXPIRY (R129). -/
  | turnTimerExpiry
  /-- TROUGH_SETTLE_TIMER_EXPIRY (R136). -/
  | troughSettleTimerExpiry
  /-- SERVE_WINDOW_EXPIRY (R141). -/
  | serveWindowExpiry
  /-- REST_GAP (R59): the line has been recessive for 12 cells. -/
  | restGap
  /-- LOST_ARBITRATION (R62): this sender reads back a 0 for a sent 1 in the arbitration field. -/
  | lostArbitration
  /-- CLASH (R70): this sender's read-back fails. -/
  | clash
  /-- CLASH_HOLD_END (R70): the 24 µs of dominant hold are over. -/
  | clashHoldEnd
  /-- RECEIVE_ERROR (R65): the bulletin on the line is found bad. -/
  | receiveError
  /-- TILT (R159). -/
  | tilt (origin : StationNo)
  /-- GAME_START (R155). -/
  | gameStart (origin : StationNo) (count : Byte)
  /-- GAME_END (R161). -/
  | gameEnd (origin : StationNo)
  /-- PLAYER_UP (R157). -/
  | playerUp (origin : StationNo) (player : Byte)
  /-- SERVE (R156). -/
  | serve (origin : StationNo) (count : Byte)
  /-- LOCK (R145). -/
  | lock (origin : StationNo) (payload : LockPayload)
  /-- TROUGH (R138). -/
  | trough (origin : StationNo) (count reason : Byte)
  /-- MISSING (R135). -/
  | missing (origin : StationNo) (count : Byte)
  /-- MODE_START (R96). -/
  | modeStart (origin : StationNo) (mode duration : Byte)
  /-- MODE_END (R102). -/
  | modeEnd (origin : StationNo) (mode : Byte)
  /-- COLLECT (R55). -/
  | collect (origin : StationNo) (mode player : Byte)
  /-- JACKPOT_ADD (R52). -/
  | jackpotAdd (origin : StationNo) (mode : Byte)
  /-- FEATURE_SET (R28). -/
  | featureSet (origin : StationNo) (target feature state player : Byte)
  /-- AWARD (R50). -/
  | award (origin : StationNo) (payload : AwardPayload)
  /-- CENSUS (R85). -/
  | census (origin : StationNo) (payload : CensusPayload)
  /-- STATUS (R66). -/
  | status (origin : StationNo) (item : Byte) (data : List Byte)
  /-- QUERY (R192). -/
  | query (origin : StationNo) (target item argument : Byte)
  /-- FIRE (R177). -/
  | fire (origin : StationNo) (target driver : Byte)
  /-- CLEAR_FAULTS (R188): a CLEAR of FAULTS. -/
  | clearFaults (origin : StationNo) (target : Byte)
  /-- CLEAR_COUNTS (R190): a CLEAR of COUNTS. -/
  | clearCounts (origin : StationNo) (target : Byte)
  /-- CLEAR_BOTH (R191): a CLEAR of BOTH. -/
  | clearBoth (origin : StationNo) (target : Byte)
  /-- RESTART (R187). -/
  | restart (origin : StationNo) (target : Byte)
  /-- COMBO_WINDOW_EXPIRY (R51). -/
  | comboWindowExpiry
  /-- SILENCE_TIMER_EXPIRY (R81): of the peer table's entry for `station`. -/
  | silenceTimerExpiry (station : StationNo)
  /-- CENSUS_TIMER_EXPIRY (R82). -/
  | censusTimerExpiry
  /-- JOINING_TIMER_EXPIRY (R186). -/
  | joiningTimerExpiry
  /-- MODE_TIMER_EXPIRY (R98). -/
  | modeTimerExpiry (mode : ModeId)
  /-- GRACE_TIMER_EXPIRY (R101). -/
  | graceTimerExpiry (mode : ModeId)
  /-- HURRY_TICK_EXPIRY (R53). -/
  | hurryTickExpiry (mode : ModeId)
  /-- QUIET_TIMER_EXPIRY (R147). -/
  | quietTimerExpiry
  /-- OFFSET_TIMER_EXPIRY (R148). -/
  | offsetTimerExpiry
  /-- SEARCH_SLOT_EXPIRY (R148). -/
  | searchSlotExpiry
  /-- PAUSE_TIMER_EXPIRY (R148). -/
  | pauseTimerExpiry
  /-- PULSE_START (R170): the pulses that can start now start. -/
  | pulseStart
  /-- PULSE_END (R171): the driver's scaled on-time has run out; `measured` is the measured on-time of
  R175, in microseconds. -/
  | pulseEnd (driver : DriverNo) (measured : Nat)
  /-- MAX_HOLD_EXPIRY (R172). -/
  | maxHoldExpiry (driver : DriverNo)
  /-- RECYCLE_TIMER_EXPIRY (R173). -/
  | recycleTimerExpiry (driver : DriverNo)
  /-- OPEN_DETECTED (R174). -/
  | openDetected (driver : DriverNo)
  /-- SHORT_DETECTED (R174). -/
  | shortDetected (driver : DriverNo)
  /-- BLINK_CLOCK_TICK (R179). -/
  | blinkClockTick
  /-- MODE_REMAINING_3S (R39): the remaining time of the mode's timed entry falls to 3 s. -/
  | modeRemaining3s (mode : ModeId)
  /-- SAMPLING_POINT (R58): the line is sampled 2 µs after a cell's edge; `dominant` is its level. -/
  | samplingPoint (dominant : Bool)
deriving DecidableEq, Repr

end Sys2Proof
end

