-- ==== Sys2Proof/Decode.lean ====
section
/-! DEFINITION. The decoder of table words. spec/opcode_table.json gives no row a bit pattern: the part has
no instruction words, and its commands are events and bulletins. A bulletin's cells are read in
Machine/Wire.lean. -/

namespace Sys2Proof

/-- The command that a table word spells: none, since no row of the table has bits. -/
def decodeTableWord (_nbits _w : Nat) : Option Instr := none

end Sys2Proof
end

