-- ==== Sys2Proof/Config.lean ====
section
/-! DEFINITION. What the configuration image gives the part, the spec's fixed times and limits, and the
free values.

The spec lays out the image header and the rule record (section 11.3) and names, but does not lay out, the
fields of the feature, bank, pocket, driver, mode and lamp records. How those records' bytes spell their
fields is therefore an uninterpreted function each (`Config.bankRecord` and its fellows, log entry 2): it
gives the fields as stored, and Machine/Corrections.lean corrects them as the rules say. -/

namespace Sys2Proof

/-! ## Names of kinds -/

/-- The six rule classes (R16). -/
inductive RuleClass where
  | unused | playfield | pocketEntry | trough | bankMember | direct
deriving DecidableEq, Repr, Inhabited

/-- A feature's resting or effective state (section 2.3). -/
inductive Resting where
  | off | dark | latent | lit | held
deriving DecidableEq, Repr, Inhabited

/-- The six action kinds of section 2.1, each with what it names. -/
inductive Action where
  | lightFeature (feature : FeatureNo)
  | startMode (mode : ModeId)
  | addJackpot (mode : ModeId)
  | collect (mode : ModeId)
  | remoteFeature (station : Byte) (feature : FeatureNo) (state : Resting)
  | advanceBank (bank : BankNo)
deriving DecidableEq, Repr

/-- The four mode kinds (R92). -/
inductive ModeKind where
  | plain | multiply | hurry | jackpot
deriving DecidableEq, Repr, Inhabited

/-- The two bank kinds (section 2.6); a DROP bank has its reset driver. -/
inductive BankKind where
  | drop (driver : DriverNo)
  | standup
deriving DecidableEq, Repr

/-- What a lamp shows (R39). -/
inductive Binding where
  | feature (f : FeatureNo)
  | mode (m : ModeId)
  | pocket (p : PocketNo)
  | faults
  | none
deriving DecidableEq, Repr

/-! ## Corrected records: what the blocks use from load until the next reset -/

/-- A rule record as R3 and R16 leave it. -/
structure Rule where
  cls : RuleClass
  closeCount : Nat
  openCount : Nat
  group : Fin 8
  feature : Option FeatureNo
  plain : Nat
  lit : Nat
  action : Option Action
  after : Resting
  combo : Bool
  activity : Bool
  driver : Option DriverNo
  index : Nat
deriving DecidableEq, Repr

/-- A feature's initial resting state and its mode link (R29). -/
structure FeatureCfg where
  initial : Resting
  link : Option ModeId
deriving DecidableEq, Repr

/-- A configured bank, as R31 leaves it. -/
structure BankCfg where
  kind : BankKind
  members : List SwitchNo
  completion : Nat
  value : Nat
  action : Option Action
deriving DecidableEq, Repr

/-- A fitted pocket, as R109 leaves it; the kickout delay is in ms. -/
structure PocketCfg where
  capacity : Nat
  feature : Option FeatureNo
  entry : Option SwitchNo
  opto : Option (Fin 4)
  driver : DriverNo
  kickout : Nat
deriving DecidableEq, Repr

/-- A driver record, as R165 leaves it; on-time, recycle and tolerance in ms, max hold in s. -/
structure DriverCfg where
  onTime : Nat
  power : Nat
  holdPower : Nat
  maxHold : Nat
  recycle : Nat
  tolerance : Nat
  binding : Option FeatureNo
  search : Bool
  trough : Bool
deriving DecidableEq, Repr

/-- A mode definition, as R92 and R57 leave it; duration in s (0 untimed), tick in ms. The parameters of
the other kinds are not read. -/
structure ModeDef where
  kind : ModeKind
  duration : Nat
  startsMulti : Bool
  endsMulti : Bool
  mask : BitVec 8
  factor : Nat
  start : Nat
  step : Nat
  floor : Nat
  tick : Nat
  base : Nat
  percent : Nat
  max : Nat
deriving DecidableEq, Repr

/-- An analog channel's enable and its two thresholds (R9, R11): on and off, or supply-ok and supply-low. -/
structure ChannelCfg where
  enabled : Bool
  upper : Nat
  lower : Nat
deriving DecidableEq, Repr

/-- The configuration image, corrected and signed (R183). Times in ms except the search delay, in s. -/
structure Image where
  format : Byte
  troughStation : Option StationNo
  installed : Nat
  threshold : Nat
  multiballBalls : Nat
  censusInterval : Nat
  comboWindow : Nat
  searchDelay : Nat
  averaging : Nat
  mask : Byte
  signature : Byte
  releaseSpacing : Nat
  rules : Tab 64 Rule
  features : Tab 32 FeatureCfg
  banks : Tab 4 (Option BankCfg)
  pockets : Tab 4 (Option PocketCfg)
  lockFeatures : Tab 4 (Option FeatureNo)  -- of each pocket record, fitted or not (R23, R109)
  drivers : Tab 8 DriverCfg
  modes : Tab 32 (Option ModeDef)
  lamps : Tab 16 Binding
  channels : Tab 6 ChannelCfg
deriving DecidableEq, Repr

/-! ## Records as stored -/

/-- An action as stored: its kind code 0..7, its argument (feature, mode id or bank), and, for REMOTE
FEATURE, the state and the station. -/
structure RawAction where
  kind : Nat
  argument : Nat
  state : Option Resting
  station : Byte
deriving DecidableEq, Repr, Inhabited

/-- A feature record as stored; `none` is a code that is none of the five states. -/
structure RawFeature where
  state : Option Resting
  link : Nat
deriving DecidableEq, Repr, Inhabited

/-- A bank record as stored: the kind (`some true` DROP, `some false` STANDUP, `none` neither), the listed
members, completion count, value, action, reset driver (8 and above: absent). -/
structure RawBank where
  drop : Option Bool
  members : List Nat
  completion : Nat
  value : BitVec 16
  action : RawAction
  driver : Nat
deriving DecidableEq, Repr, Inhabited

/-- A pocket record as stored; the delay and the spacing in ms; a number out of range is absent. -/
structure RawPocket where
  capacity : Nat
  feature : Nat
  entry : Nat
  opto : Nat
  driver : Nat
  kickout : Nat
  spacing : Nat
deriving DecidableEq, Repr, Inhabited

/-- A driver record as stored. -/
structure RawDriver where
  onTime : BitVec 8
  power : Nat
  holdPower : Nat
  maxHold : Nat
  recycle : BitVec 8
  tolerance : Nat
  binding : Nat
  search : Bool
  trough : Bool
deriving DecidableEq, Repr, Inhabited

/-- A mode record as stored; `kind` is `none` where it is none of the four kinds. -/
structure RawMode where
  id : Nat
  kind : Option ModeKind
  duration : BitVec 8
  startsMulti : Bool
  endsMulti : Bool
  mask : BitVec 8
  factor : Nat
  start : BitVec 16
  step : BitVec 16
  floor : BitVec 16
  tick : Nat
  base : Nat
  percent : Nat
  max : Nat
deriving DecidableEq, Repr, Inhabited

/-- The kinds a stored lamp binding may name. -/
inductive BindKind where
  | feature | mode | pocket | faults | none
deriving DecidableEq, Repr, Inhabited

/-- A lamp record as stored; `kind` is `none` where the code is none of the five. -/
structure RawLamp where
  kind : Option BindKind
  target : Nat
deriving DecidableEq, Repr, Inhabited

namespace Config

/-! ## Free values (uninterpreted: no proof can see what they are) -/

/-- FREE (log entry 2): the fields a 2-byte feature record spells. -/
opaque featureRecord : List Byte → RawFeature
/-- FREE (log entry 2): the fields a 12-byte bank record spells. -/
opaque bankRecord : List Byte → RawBank
/-- FREE (log entry 2): the fields an 8-byte pocket record spells. -/
opaque pocketRecord : List Byte → RawPocket
/-- FREE (log entry 2): the fields an 8-byte driver record spells. -/
opaque driverRecord : List Byte → RawDriver
/-- FREE (log entry 2): the fields a 12-byte mode record spells. -/
opaque modeRecord : List Byte → RawMode
/-- FREE (log entry 2): the fields a 2-byte lamp record spells. -/
opaque lampRecord : List Byte → RawLamp

/-- FREE (log entry 3): how a LOCK's credit flag byte reads where it is neither 1 (set) nor 0 (clear). -/
opaque creditReading : Byte → Bool
/-- FREE (log entry 4): the count 0..3 that a LOCK's held or stuck byte above 3 is kept as. -/
opaque countReading : Byte → Fin 4
/-- FREE (log entry 5): the T that bounds the shortfall of a multiball start, where T is unknown. -/
opaque shortfallReading : Nat → Nat

/-! ## Fixed times and limits -/

/-- R6: the stuck timer, 20 s, in ms. -/
def stuckMs : Nat := 20000
/-- R35: a bank's confirm timer. -/
def bankConfirmMs : Nat := 500
/-- R114: a pocket's settle window. -/
def settleMs : Nat := 300
/-- R118: a pocket's confirm window. -/
def ejectWindowMs : Nat := 400
/-- R118, R129: the re-arm time, and the turn timer between pockets. -/
def rearmMs : Nat := 600
/-- R136: the trough settle timer. -/
def troughSettleMs : Nat := 300
/-- R140: the serve confirm window. -/
def serveWindowMs : Nat := 1000
/-- R101: the grace timer of an ENDING entry. -/
def graceMs : Nat := 500
/-- R148: the search offset, per station number. -/
def searchOffsetMs : Nat := 250
/-- R148: a search slot. -/
def searchSlotMs : Nat := 500
/-- R148: the pause between search rounds. -/
def searchPauseMs : Nat := 2000
/-- R81: census intervals of silence before a peer is ABSENT. -/
def silentIntervals : Nat := 3
/-- R181: the spacing of the polls of the serial memory. -/
def pollMs : Nat := 10
/-- R181: polls of the serial memory for one burst. -/
def maxPolls : Nat := 8
/-- R41: the ceiling of a tally. -/
def tallyMax : Nat := 99999999
/-- R50: the ceiling of the combo count. -/
def comboMax : Nat := 5
/-- R44: the ceiling of the multiplier. -/
def multiplierMax : Nat := 10
/-- R93: the entries the mode table holds. -/
def modeMax : Nat := 12
/-- R68: the entries the transmit queue holds. -/
def txMax : Nat := 16
/-- R167: the entries the pulse queue holds. -/
def pulseMax : Nat := 8
/-- R170: the pulse slots. -/
def slotMax : Nat := 2
/-- R39: the remaining time at which a mode's lamp turns FAST, 3 s, in ms. -/
def lastMs : Nat := 3000
/-- R139: the most serves pending. -/
def serveMax : Nat := 6
/-- R145: the most lock credits of a player. -/
def creditMax : Nat := 4

end Config

end Sys2Proof
end

