-- ==== Sys2Proof/Machine/State.lean ====
section
/-! DEFINITION. The state of the PNC-12, block by block as the manual names them, and its values after
power-on. Plain data. INVENTORY.md lists every field with the rule that names it. A timer is `none` while
stopped, and the time left in ms while it runs. -/

namespace Sys2Proof.Machine

/-- A timer: stopped, or running with the ms left. -/
abbrev Timer := Option Nat

/-! ## Station Control -/

/-- The station states (section 11.1). `selftestFailed` is SELFTEST after a failed test, and `held` is the
hold of an asserted reset line before LOADING (R187). -/
inductive StationState where
  | selftest | selftestFailed | held | loading | listenOnly | joining | idle | ready | play | tilt
deriving DecidableEq, Repr

/-- R181: the image bytes read so far, the polls made for the burst in turn, whether the memory has
acknowledged the last of them, and the time to the next poll. -/
structure Load where
  bytes : List Byte
  polls : Nat
  acknowledged : Bool
  timer : Timer
deriving DecidableEq, Repr

/-- The seven latched fault flags (R188); DRIVER follows the drivers' details and is computed. -/
structure FaultFlags where
  link : Bool
  config : Bool
  ejector : Bool
  supply : Bool
  accounting : Bool
  transmit : Bool
  switch : Bool
deriving DecidableEq, Repr

/-- Station Control: straps, station state, the reset input, the load, the corrected image, flags, the
eight counters in the order of R190, the retained mark, the player count, the joining timer, and the level
of the fault line (`true` asserted). -/
structure Control where
  strap : StationNo
  station : StationState
  resetLine : Bool
  load : Load
  image : Image
  flags : FaultFlags
  counters : Tab 8 Nat
  retained : Bool
  playerCount : Nat
  joining : Timer
  faultLine : Bool
deriving DecidableEq, Repr

/-! ## Switch Scanner and Analog Monitor -/

/-- One switch (R2, R6): debounced state (`true` CLOSED), debounce count, stuck mark, stuck timer. -/
structure SwitchState where
  closed : Bool
  count : Nat
  stuck : Bool
  timer : Timer
deriving DecidableEq, Repr

/-- The Switch Scanner (R1, R4): whether it scans, the strobe line next in turn, whether line 7's strobe
has just ended, whether the baseline scan is done, raw samples (`true` CLOSED) and switches. -/
structure Scanner where
  running : Bool
  line : Fin 8
  scanEnd : Bool
  baseline : Bool
  raw : Tab 64 Bool
  switches : Tab 64 SwitchState
deriving DecidableEq, Repr

/-- One analog channel (R10): running sum, sample count, last average, level (`true` PRESENT, or OK). -/
structure ChannelState where
  sum : Nat
  count : Nat
  average : Nat
  level : Bool
deriving DecidableEq, Repr

/-- The Analog Monitor (R10, R14): whether it converts, the channel in turn, whether the round has just
ended, whether the first round since reset is done, and the channels. -/
structure Analog where
  running : Bool
  turn : ChannelNo
  roundEnd : Bool
  firstDone : Bool
  channels : Tab 6 ChannelState
deriving DecidableEq, Repr

/-! ## Rule Engine -/

/-- A bank's phase (R30). -/
inductive BankPhase where
  | counting | resetting | faulted
deriving DecidableEq, Repr

/-- A bank's reset (R30): phase, attempt 1 or 2, confirm timer, and whether CLEAR FAULTS began it (R37). -/
structure BankState where
  phase : BankPhase
  attempt : Nat
  timer : Timer
  restart : Bool
deriving DecidableEq, Repr

/-- A player context (R154): the resting states, and the marked members of the STANDUP banks. -/
structure Context where
  features : Tab 32 Resting
  marks : Tab 64 Bool
deriving DecidableEq, Repr

/-- The Rule Engine: tallies, combo count and window, current player, current feature table, the four
contexts, the live marks of bank members (a switch belongs to one bank at most), the banks' resets, and the
COLLECT-pending marks, each with its scoring group. -/
structure RuleEngine where
  tallies : Tab 4 Nat
  combo : Nat
  comboTimer : Timer
  current : Player
  features : Tab 32 Resting
  contexts : Tab 4 Context
  marks : Tab 64 Bool
  banks : Tab 4 BankState
  collects : Tab 32 (Option (Fin 8))
deriving DecidableEq, Repr

/-! ## Mode Unit -/

/-- An entry's remaining time (R93): untimed, running with the ms left, or run out (remaining time 0). -/
inductive ModeTime where
  | untimed
  | running (ms : Nat)
  | expired
deriving DecidableEq, Repr

/-- A mode table entry's fields (R93); the table is keyed by mode id. -/
structure ModeEntry where
  kind : ModeKind
  owner : StationNo
  ending : Bool
  time : ModeTime
  value : Option Nat
  tick : Timer
  grace : Timer
  endQueued : Bool
deriving DecidableEq, Repr

/-! ## Pocket Controller -/

/-- The nine activity states of a pocket (R111). -/
inductive PocketPhase where
  | empty | settling | stable | kickoutWait | releaseWait | ejectWait | ejecting | rearm | jammed
deriving DecidableEq, Repr

/-- A pocket (R110): counts, attempt number, deferred-entry mark, jam count, timers, activity state. -/
structure PocketState where
  held : Nat
  resting : Nat
  stuck : Nat
  through : Nat
  pending : Nat
  attempt : Nat
  deferred : Bool
  jam : Nat
  settle : Timer
  kickout : Timer
  window : Timer
  rearm : Timer
  phase : PocketPhase
deriving DecidableEq, Repr

/-- The release turn (R127): idle, waiting with its timer, or held by one pocket, whose turn mark is then
the one that is set. -/
inductive Turn where
  | idle
  | waiting (ms : Nat)
  | taken (pocket : PocketNo)
deriving DecidableEq, Repr

/-- The Pocket Controller: the four pockets, the release list and the release turn. -/
structure PocketCtl where
  pockets : Tab 4 PocketState
  release : List PocketNo
  turn : Turn
deriving DecidableEq, Repr

/-! ## Ball Accounting Unit and Trough Controller -/

/-- Another station's counts, per pocket (R133). -/
structure PeerCounts where
  held : Tab 4 Nat
  stuck : Tab 4 Nat
deriving DecidableEq, Repr

/-- The multiball phase. -/
inductive Phase where
  | single | multi
deriving DecidableEq, Repr

/-- The search state (R148). -/
inductive SearchPhase where
  | idle | offset | round | pause | done
deriving DecidableEq, Repr

/-- The accounting view (R133), lock credits, quiet timer, and the ball search: its state, round counter,
the drivers of the round still to be taken, and the timer of the state it is in (offset, slot or pause).
`peers` at this station's own number is not used: its own counts are the Pocket Controller's. -/
structure Balls where
  trough : Option Nat
  peers : Tab 16 PeerCounts
  missing : Nat
  inPlay : Nat
  phase : Phase
  credits : Tab 4 Nat
  quiet : Timer
  search : SearchPhase
  round : Nat
  todo : List DriverNo
  searchTimer : Timer
deriving DecidableEq, Repr

/-- The serve states (R140). -/
inductive ServePhase where
  | idle | waiting | serveWait | serving
deriving DecidableEq, Repr

/-- The Trough Controller (R136 to R141): trough count, settle timer, pending and unreported serves, serve
state, attempt, confirm window, and whether WAITING must first see a count taken (R140). -/
structure TroughCtl where
  count : Option Nat
  settle : Timer
  pending : Nat
  unreported : Nat
  phase : ServePhase
  attempt : Nat
  window : Timer
  recount : Bool
deriving DecidableEq, Repr

/-! ## Link Controller -/

/-- An entry of the transmit queue (R68): its bulletin, its attempt count, whether it is on the line. -/
structure TxEntry where
  bulletin : Bulletin
  attempts : Nat
  onLine : Bool
deriving DecidableEq, Repr

/-- The receive state (section 4.6): waiting for rest, at rest, or receiving, with the bits read after the
start cell, in order, and the check remainder formed over them. -/
inductive Receive where
  | waiting
  | atRest
  | receiving (bits : List Bool) (check : BitVec 16)
deriving DecidableEq, Repr

/-- The Link Controller: transmit queue, CENSUS held aside (R73), receive state, the clash record (R71:
sender of the bulletin on the line, read-back agreed so far), and the dominant hold of R70. -/
structure LinkCtl where
  queue : List TxEntry
  aside : Option CensusPayload
  receive : Receive
  sender : Bool
  agreed : Bool
  hold : Bool
deriving DecidableEq, Repr

/-! ## Peer View -/

/-- A peer's presence (R80). -/
inductive Presence where
  | unknown | present | absent
deriving DecidableEq, Repr

/-- The game states a census may report (R80). -/
inductive CensusState where
  | joining | idle | ready | play | tilt | listenOnly
deriving DecidableEq, Repr

/-- A census record (R80). -/
structure CensusRecord where
  state : CensusState
  trough : Option Nat
  player : Player
  held : Tab 4 Nat
  stuck : Tab 4 Nat
  modes : Tab 32 Bool
  players : Nat
  missing : Nat
  signature : Byte
deriving DecidableEq, Repr

/-- An entry of the peer table (R80). -/
structure Peer where
  presence : Presence
  silence : Timer
  record : Option CensusRecord
deriving DecidableEq, Repr

/-- The Peer View: the peer table and the census timer. -/
structure PeerView where
  table : Tab 16 Peer
  timer : Timer
deriving DecidableEq, Repr

/-! ## Driver Controller and lamps -/

/-- The bands of the pulse queue, in order (R167). -/
inductive Band where
  | direct | eject | reset | search
deriving DecidableEq, Repr

/-- A requester of pulses (R167). -/
inductive Requester where
  | rule
  | pocket (p : PocketNo)
  | trough
  | bank (b : BankNo)
  | search
  | fire
  | hold (d : DriverNo)
deriving DecidableEq, Repr

/-- An entry of the pulse queue (R167): its set of requesters stands in the order they joined it (log entry 48). -/
structure PulseEntry where
  driver : DriverNo
  band : Band
  percent : Nat
  requesters : List Requester
deriving DecidableEq, Repr

/-- The six driver states (R166). -/
inductive DriverPhase where
  | idle | queued | pulsing | holding | recycle | faulted
deriving DecidableEq, Repr

/-- A driver's detail (section 10.5). -/
inductive Detail where
  | none | opened | shorted | verify
deriving DecidableEq, Repr

/-- A driver: state, detail, the requesters and the scaled on-time (ms) of its pulse, recycle and max hold
timers, spent mark (R172). -/
structure DriverState where
  phase : DriverPhase
  detail : Detail
  requesters : List Requester
  onTime : Nat
  recycle : Timer
  maxHold : Timer
  spent : Bool
deriving DecidableEq, Repr

/-- The Driver Controller: drivers, pulse queue, waiting list (R169). A pulse slot is taken by each driver
that is PULSING. -/
structure DriverCtl where
  units : Tab 8 DriverState
  queue : List PulseEntry
  waiting : List Requester
deriving DecidableEq, Repr

/-- A lamp's pattern (section 2.10). -/
inductive Pattern where
  | off | on | slow | fast
deriving DecidableEq, Repr

/-- The lamps: patterns (R39), output levels (R179), and the blink clock in twelfths of a second. -/
structure Lamps where
  patterns : Tab 16 Pattern
  outputs : Tab 16 Bool
  blink : Nat
deriving DecidableEq, Repr

/-! ## The whole part -/

/-- The state of one PNC-12, and the queue of commands waiting, first in, first out. -/
structure State where
  pending : List Instr
  control : Control
  scanner : Scanner
  analog : Analog
  rules : RuleEngine
  modes : Tab 32 (Option ModeEntry)
  pockets : PocketCtl
  balls : Balls
  trough : TroughCtl
  link : LinkCtl
  peers : PeerView
  drivers : DriverCtl
  lamps : Lamps
deriving DecidableEq, Repr

/-- Why the part stops: it does not. The spec describes no event that stops it, so no constructor. -/
inductive Fault where
deriving DecidableEq, Repr

/-- Why a command has no meaning. -/
inductive Refusal where
  /-- Raised by an arm of `exec` for a command without a meaning yet; no arm raises it now. Safe. -/
  | notModelled (mnemonic : String)
deriving DecidableEq, Repr

/-! ## Values after power-on -/

/-- The image fields before a good load: nothing configured (R184); census interval 1,000 ms (R82); mask
all set (R184). The counts and numbers of a station with no settings are DESIGN CHOICE, log entry 6. -/
def unloadedImage : Image :=
  { format := 0, troughStation := none, installed := 1, threshold := 1, multiballBalls := 1,
    censusInterval := 1000, comboWindow := 500, searchDelay := 5, averaging := 2, mask := 255,
    signature := 0, releaseSpacing := 400,
    rules := .fill 64
      { cls := .unused, closeCount := 1, openCount := 1, group := 0, feature := none, plain := 0, lit := 0,
        action := none, after := .dark, combo := false, activity := false, driver := none, index := 0 },
    features := .fill 32 { initial := .off, link := none },
    banks := .fill 4 none, pockets := .fill 4 none, lockFeatures := .fill 4 none,
    drivers := .fill 8
      { onTime := 1, power := 1, holdPower := 0, maxHold := 1, recycle := 0, tolerance := 1,
        binding := none, search := false, trough := false },
    modes := .fill 32 none, lamps := .fill 16 .none,
    channels := .fill 6 { enabled := false, upper := 0, lower := 0 } }

/-- No fault flag set (R188). -/
def noFlags : FaultFlags :=
  { link := false, config := false, ejector := false, supply := false, accounting := false,
    transmit := false, switch := false }

/-- R4: the Switch Scanner after a reset. -/
def scannerReset : Scanner :=
  { running := false, line := 0, scanEnd := false, baseline := false, raw := .fill 64 false,
    switches := .fill 64 { closed := false, count := 0, stuck := false, timer := none } }

/-- R15: the Analog Monitor after a reset. -/
def analogReset : Analog :=
  { running := false, turn := 0, roundEnd := false, firstDone := false,
    channels := .fill 6 { sum := 0, count := 0, average := 0, level := false } }

/-- A bank COUNTING at attempt 1 with its timer stopped (R38). -/
def bankReset : BankState := { phase := .counting, attempt := 1, timer := none, restart := false }

/-- R152: a context before the load; the features read OFF until the load sets them (R192, log entry 6). -/
def contextReset : Context := { features := .fill 32 .off, marks := .fill 64 false }

/-- R38, R41, R51, R152: the Rule Engine after power-on. -/
def rulesReset : RuleEngine :=
  { tallies := .fill 4 0, combo := 0, comboTimer := none, current := 0, features := .fill 32 .off,
    contexts := .fill 4 contextReset, marks := .fill 64 false, banks := .fill 4 bankReset,
    collects := .fill 32 none }

/-- R132: a pocket after a reset. -/
def pocketReset : PocketState :=
  { held := 0, resting := 0, stuck := 0, through := 0, pending := 0, attempt := 1, deferred := false,
    jam := 0, settle := none, kickout := none, window := none, rearm := none, phase := .empty }

/-- R132: the Pocket Controller after a reset. -/
def pocketsReset : PocketCtl := { pockets := .fill 4 pocketReset, release := [], turn := .idle }

/-- R151: the Ball Accounting Unit after a reset. -/
def ballsReset : Balls :=
  { trough := none, peers := .fill 16 { held := .fill 4 0, stuck := .fill 4 0 }, missing := 0, inPlay := 0,
    phase := .single, credits := .fill 4 0, quiet := none, search := .idle, round := 0, todo := [],
    searchTimer := none }

/-- R151: the Trough Controller after a reset. -/
def troughReset : TroughCtl :=
  { count := none, settle := none, pending := 0, unreported := 0, phase := .idle, attempt := 1,
    window := none, recount := false }

/-- R79: the Link Controller after a reset. -/
def linkReset : LinkCtl :=
  { queue := [], aside := none, receive := .waiting, sender := false, agreed := false, hold := false }

/-- R90: the Peer View after a reset. -/
def peersReset : PeerView :=
  { table := .fill 16 { presence := .unknown, silence := none, record := none }, timer := none }

/-- R178: a driver after a reset. -/
def driverReset : DriverState :=
  { phase := .idle, detail := .none, requesters := [], onTime := 0, recycle := none, maxHold := none,
    spent := false }

/-- R178: the Driver Controller after a reset. -/
def driversReset : DriverCtl := { units := .fill 8 driverReset, queue := [], waiting := [] }

/-- R40, R179: the lamps after a reset: every pattern and output off, the blink clock stopped. R179 gives the
clock a value, 0, only on entering JOINING: the 0 it holds from a reset until then is DESIGN CHOICE, log
entry 18; it does not count and no output is read from it there. -/
def lampsReset : Lamps := { patterns := .fill 16 .off, outputs := .fill 16 false, blink := 0 }

/-- R180, R181: no byte read, the first poll of the first burst in turn. -/
def loadReset : Load := { bytes := [], polls := 1, acknowledged := false, timer := none }

/-- R180: Station Control after power-on, with the straps at `strap`. -/
def controlReset (strap : StationNo) : Control :=
  { strap := strap, station := .selftest, resetLine := false, load := loadReset, image := unloadedImage,
    flags := noFlags, counters := .fill 8 0, retained := false, playerCount := 1, joining := none,
    faultLine := false }

/-- The part right after power-on with the straps at `strap` (R180). -/
def powerOnState (strap : StationNo) : State :=
  { pending := [], control := controlReset strap, scanner := scannerReset, analog := analogReset,
    rules := rulesReset, modes := .fill 32 none, pockets := pocketsReset, balls := ballsReset,
    trough := troughReset, link := linkReset, peers := peersReset, drivers := driversReset,
    lamps := lampsReset }

/-- The part right after power-on, in SELFTEST, its straps at 0 (DESIGN CHOICE, log entry 1: the strap
pins are an input; POWER_ON reads them anew). -/
def State.reset : State := powerOnState 0

end Sys2Proof.Machine
end

