-- ==== Sys2Proof/Machine/Ops.lean ====
section
/-! DEFINITION. The named operations every block uses: the update of one block, the tests of the station
state, and the readings of the corrected image. -/

namespace Sys2Proof

/-- The DROP banks' reset driver, for a bank of that kind. -/
def BankCfg.resetDriver (b : BankCfg) : Option DriverNo :=
  match b.kind with
  | .drop d => some d
  | .standup => none

/-- Is the bank of the DROP kind? -/
def BankCfg.isDrop (b : BankCfg) : Bool :=
  match b.kind with
  | .drop _ => true
  | .standup => false

end Sys2Proof

namespace Sys2Proof.Machine

/-! ## Update of one block -/

/-- `s` with `f` applied to Station Control. -/
def State.mapControl (f : Control → Control) (s : State) : State := { s with control := f s.control }
/-- `s` with `f` applied to the Switch Scanner. -/
def State.mapScanner (f : Scanner → Scanner) (s : State) : State := { s with scanner := f s.scanner }
/-- `s` with `f` applied to the Analog Monitor. -/
def State.mapAnalog (f : Analog → Analog) (s : State) : State := { s with analog := f s.analog }
/-- `s` with `f` applied to the Rule Engine. -/
def State.mapRules (f : RuleEngine → RuleEngine) (s : State) : State := { s with rules := f s.rules }
/-- `s` with `f` applied to the mode table. -/
def State.mapModes (f : Tab 32 (Option ModeEntry) → Tab 32 (Option ModeEntry)) (s : State) : State :=
  { s with modes := f s.modes }
/-- `s` with `f` applied to the Pocket Controller. -/
def State.mapPockets (f : PocketCtl → PocketCtl) (s : State) : State := { s with pockets := f s.pockets }
/-- `s` with `f` applied to the Ball Accounting Unit. -/
def State.mapBalls (f : Balls → Balls) (s : State) : State := { s with balls := f s.balls }
/-- `s` with `f` applied to the Trough Controller. -/
def State.mapTrough (f : TroughCtl → TroughCtl) (s : State) : State := { s with trough := f s.trough }
/-- `s` with `f` applied to the Link Controller. -/
def State.mapLink (f : LinkCtl → LinkCtl) (s : State) : State := { s with link := f s.link }
/-- `s` with `f` applied to the Peer View. -/
def State.mapPeers (f : PeerView → PeerView) (s : State) : State := { s with peers := f s.peers }
/-- `s` with `f` applied to the Driver Controller. -/
def State.mapDrivers (f : DriverCtl → DriverCtl) (s : State) : State := { s with drivers := f s.drivers }
/-- `s` with `f` applied to the lamps. -/
def State.mapLamps (f : Lamps → Lamps) (s : State) : State := { s with lamps := f s.lamps }

/-- The station state becomes `st`. -/
def setStation (st : StationState) (s : State) : State := s.mapControl fun c => { c with station := st }

/-! ## Tests of the station state -/

/-- IDLE, READY, PLAY and TILT: the game states (R152). -/
def StationState.inGame : StationState → Bool
  | .idle | .ready | .play | .tilt => true
  | .selftest | .selftestFailed | .held | .loading | .listenOnly | .joining => false

/-- The states from a good load on: scanner, monitor, lamps and blink clock run (R185). -/
def StationState.running : StationState → Bool
  | .joining | .idle | .ready | .play | .tilt => true
  | .selftest | .selftestFailed | .held | .loading | .listenOnly => false

/-- The states in which the Link Controller works (R78). -/
def StationState.onLink : StationState → Bool
  | .listenOnly | .joining | .idle | .ready | .play | .tilt => true
  | .selftest | .selftestFailed | .held | .loading => false

/-- This station is in a game state. -/
def inGame (s : State) : Bool := s.control.station.inGame
/-- This station is in PLAY. -/
def inPlay (s : State) : Bool := s.control.station == .play
/-- This station is in JOINING. -/
def joining (s : State) : Bool := s.control.station == .joining

/-! ## Readings of the corrected image -/

/-- This station's strap number. -/
def strap (s : State) : StationNo := s.control.strap
/-- The corrected image. -/
def image (s : State) : Image := s.control.image
/-- This station is the trough station (section 8.3). -/
def isTrough (s : State) : Bool := s.control.image.troughStation == some s.control.strap
/-- The rule of a switch. -/
def ruleOf (s : State) (i : SwitchNo) : Rule := s.control.image.rules.get i
/-- The configured bank `b`, if it is configured. -/
def bankCfg (s : State) (b : BankNo) : Option BankCfg := s.control.image.banks.get b
/-- The fitted pocket `p`, if it is fitted. -/
def pocketCfg (s : State) (p : PocketNo) : Option PocketCfg := s.control.image.pockets.get p
/-- The record of driver `d`. -/
def driverCfg (s : State) (d : DriverNo) : DriverCfg := s.control.image.drivers.get d
/-- The definition of mode `m`, if it has one. -/
def modeDef (s : State) (m : ModeId) : Option ModeDef := s.control.image.modes.get m

/-- The trough eject driver (R165): the one whose trough mark is set, on the trough station only. -/
def troughDriver (s : State) : Option DriverNo :=
  (List.finRange 8).find? fun d => (driverCfg s d).trough

/-! ## Percentages of a repeated pulse -/

/-- R120: 100, 125 and 150 % for attempts 1, 2 and 3. -/
def attemptPercent (n : Nat) : Nat := if n ≤ 1 then 100 else if n = 2 then 125 else 150

/-- R120, R171: the configured on-time times the percentage, over 100 and rounded down, at most 255 ms. -/
def scaledOnTime (onTime percent : Nat) : Nat := min 255 (onTime * percent / 100)

/-! ## Outcomes -/

/-- The outcome of a command that the part takes: the next state. -/
def taken (s : State) : Host.Outcome State Fault Refusal := .next s

end Sys2Proof.Machine
end

