-- ==== Sys2Proof/Machine/Operands.lean ====
section
/-! DEFINITION. How a block reads the fields of a payload: each field judged against the ranges of the rule
of the block that takes it (R64). -/

namespace Sys2Proof

/-- The state code of R64. -/
def Resting.code : Resting → Nat
  | .off => 0
  | .dark => 1
  | .latent => 2
  | .lit => 3
  | .held => 4

end Sys2Proof

namespace Sys2Proof.Machine

/-- A number that names a bank or a pocket. -/
def fourOf (x : Nat) : Option (Fin 4) := if h : x < 4 then some ⟨x, h⟩ else none

/-- A byte that names a mode id 0..31. -/
def modeOf (b : Byte) : Option ModeId := if h : b.toNat < 32 then some ⟨b.toNat, h⟩ else none

/-- A byte that names a feature 0..31. -/
def featureOf (b : Byte) : Option FeatureNo := if h : b.toNat < 32 then some ⟨b.toNat, h⟩ else none

/-- A byte that names a driver 0..7. -/
def driverOf (b : Byte) : Option DriverNo := if h : b.toNat < 8 then some ⟨b.toNat, h⟩ else none

/-- A byte that names a player from 1 to the game's player count. -/
def playerOf (count : Nat) (b : Byte) : Option Player :=
  if h : 1 ≤ b.toNat ∧ b.toNat ≤ 4 then
    if b.toNat ≤ count then some ⟨b.toNat - 1, by omega⟩ else none
  else none

/-- R28, R64: a feature state by its code; HELD and the codes above 4 are none of the four that a FEATURE
SET may set. -/
def settable (b : Byte) : Option Resting :=
  match b.toNat with
  | 0 => some .off
  | 1 => some .dark
  | 2 => some .latent
  | 3 => some .lit
  | _ => none

/-- A target byte that addresses this station alone. -/
def targets (s : State) (b : Byte) : Bool := b.toNat == (strap s).val

/-- A target byte that addresses this station: its number, or 255 for every station. -/
def addressed (s : State) (b : Byte) : Bool := b.toNat == (strap s).val || b.toNat == 255

/-- A mode id as a payload byte. -/
def modeByte (m : ModeId) : Byte := BitVec.ofNat 8 m.val

/-- A player as the byte that names it, 1..4. -/
def playerByteOf (p : Player) : Byte := BitVec.ofNat 8 (p.val + 1)

/-- The codes of a LOCK's event (R64). -/
def lockHeld : BitVec 4 := 0
/-- LOCK RELEASED. -/
def lockReleased : BitVec 4 := 1
/-- LOCK KICK-THROUGH. -/
def lockKickThrough : BitVec 4 := 2
/-- LOCK JAMMED. -/
def lockJammed : BitVec 4 := 3
/-- LOCK FREED. -/
def lockFreed : BitVec 4 := 4
/-- LOCK LOST. -/
def lockLost : BitVec 4 := 5

/-- The codes of a TROUGH's reason (R64). -/
def reasonServe : Byte := 0
/-- TROUGH DRAIN. -/
def reasonDrain : Byte := 1
/-- TROUGH OTHER. -/
def reasonOther : Byte := 2

/-- A LOCK's credit flag: 1 set, 0 clear; any other byte is a FREE value (log entry 3). -/
def creditSet (b : Byte) : Bool :=
  if b.toNat = 1 then true else if b.toNat = 0 then false else Config.creditReading b

/-- A LOCK's held or stuck count; a byte above 3 is kept as a FREE value 0..3 (log entry 4). -/
def countOf (b : Byte) : Nat := if b.toNat ≤ 3 then b.toNat else (Config.countReading b).val

/-- R80: the game state of a census; a field outside 1..6 is kept as JOINING. -/
def censusStateOf (b : BitVec 3) : CensusState :=
  match b.toNat with
  | 2 => .idle
  | 3 => .ready
  | 4 => .play
  | 5 => .tilt
  | 6 => .listenOnly
  | _ => .joining

/-- R64: the code of a station state in census byte 0. States that send no census have none; 0 here. -/
def StationState.code : StationState → Nat
  | .joining => 1
  | .idle => 2
  | .ready => 3
  | .play => 4
  | .tilt => 5
  | .listenOnly => 6
  | .selftest | .selftestFailed | .held | .loading => 0

/-- R80: the record that a census payload is stored as. A missing field of 7 is outside its range 0..6 and
is kept as 6, which R135's ceiling of the installed balls then bounds. -/
def recordOf (p : CensusPayload) : CensusRecord :=
  { state := censusStateOf p.state
    trough := if p.trough.toNat = 7 then none else some p.trough.toNat
    player := p.player
    held := p.held.map Fin.val
    stuck := p.stuck.map Fin.val
    modes := p.modes
    players := p.players.val + 1
    missing := min 6 p.missing.toNat
    signature := p.signature }

end Sys2Proof.Machine
end

