-- ==== Sys2Proof/Machine/Wire.lean ====
section
/-! DEFINITION. A bulletin as cells on the line and back: classes, kinds and payload bytes (R60, R63, R64),
the check (R61), and the reading of the cells that a receiver has taken. A cell is `true` for a 1. -/

namespace Sys2Proof

/-! ## Bits -/

/-- The `w` low bits of a number, most significant first. -/
def bitsOf (w n : Nat) : List Bool := (List.range w).map fun i => n.testBit (w - 1 - i)

/-- The number that bits spell, most significant first. -/
def natOf (bits : List Bool) : Nat := bits.foldl (fun n b => 2 * n + b.toNat) 0

/-- Bytes as bits, each most significant bit first. -/
def bytesBits (bytes : List Byte) : List Bool := bytes.flatMap fun b => bitsOf 8 b.toNat

/-- The first `n` bytes that bits spell. -/
def bytesFrom : Nat → List Bool → List Byte
  | 0, _ => []
  | n + 1, bits => BitVec.ofNat 8 (natOf (bits.take 8)) :: bytesFrom n (bits.drop 8)

/-- A byte from its bits, the most significant first. -/
def byteOf (b7 b6 b5 b4 b3 b2 b1 b0 : Bool) : Byte :=
  BitVec.ofNat 8 (128 * b7.toNat + 64 * b6.toNat + 32 * b5.toNat + 16 * b4.toNat + 8 * b3.toNat +
    4 * b2.toNat + 2 * b1.toNat + b0.toNat)

/-! ## The check (R61) -/

/-- One bit taken into the check register: compared with its most significant bit, the register shifted,
and the terms x^12, x^5 and 1 inverted where the two differed. -/
def checkBit (r : BitVec 16) (b : Bool) : BitVec 16 :=
  if b = r.msb then r <<< 1 else (r <<< 1) ^^^ 0x1021#16

/-- The check formed over bits, from all ones. -/
def checkBits (bits : List Bool) : BitVec 16 := bits.foldl checkBit 0xFFFF#16

/-! ## Classes and kinds (R63) -/

/-- A kind's class: URGENT 0, GAME 1, AWARD 2, ROUTINE 3. -/
def Bulletin.cls : Bulletin → Nat
  | .tilt | .lock _ | .trough _ _ => 0
  | .gameStart _ | .gameEnd | .playerUp _ | .serve _ | .modeStart _ _ | .modeEnd _ | .collect _ _
  | .jackpotAdd _ | .featureSet _ _ _ _ | .missing _ => 1
  | .award _ => 2
  | .census _ | .query _ _ _ | .status _ _ | .fire _ _ | .clear _ _ | .restart _ => 3

/-- A kind's code. -/
def Bulletin.kindCode : Bulletin → Nat
  | .tilt => 1
  | .lock _ => 2
  | .trough _ _ => 3
  | .gameStart _ => 8
  | .gameEnd => 9
  | .playerUp _ => 10
  | .serve _ => 11
  | .modeStart _ _ => 12
  | .modeEnd _ => 13
  | .collect _ _ => 14
  | .jackpotAdd _ => 15
  | .featureSet _ _ _ _ => 16
  | .missing _ => 17
  | .award _ => 24
  | .census _ => 32
  | .query _ _ _ => 33
  | .status _ _ => 34
  | .fire _ _ => 35
  | .clear _ _ => 36
  | .restart _ => 37

/-! ## Payload bytes (R64) -/

/-- A number of four bytes, most significant first. -/
def fourBytes (n : Nat) : List Byte :=
  [BitVec.ofNat 8 (n / 16777216), BitVec.ofNat 8 (n / 65536), BitVec.ofNat 8 (n / 256), BitVec.ofNat 8 n]

/-- Four counts of two bits, P0 in bits 1..0 up to P3 in bits 7..6. -/
def countsByte (t : Tab 4 (Fin 4)) : Byte :=
  BitVec.ofNat 8 ((t.get 0).val + 4 * (t.get 1).val + 16 * (t.get 2).val + 64 * (t.get 3).val)

/-- One byte of a mode bitmap: modes 8k to 8k + 7, the lowest in bit 0. -/
def modesByte (t : Tab 32 Bool) (k : Fin 4) : Byte :=
  let bit (i : Nat) : Bool := t.cells.getD (8 * k.val + i) false
  byteOf (bit 7) (bit 6) (bit 5) (bit 4) (bit 3) (bit 2) (bit 1) (bit 0)

/-- The four bytes of a mode bitmap (census bytes 3..6). -/
def modesBytes (t : Tab 32 Bool) : List Byte := (List.finRange 4).map (modesByte t)

/-- The CENSUS payload. -/
def CensusPayload.bytes (p : CensusPayload) : List Byte :=
  [BitVec.ofNat 8 (32 * p.state.toNat + 4 * p.trough.toNat + p.player.val),
   countsByte p.held, countsByte p.stuck] ++
  modesBytes p.modes ++
  [p.faults, BitVec.ofNat 8 (64 * p.players.val + 8 * p.missing.toNat), p.signature]

/-- The AWARD payload. -/
def AwardPayload.bytes (p : AwardPayload) : List Byte :=
  [BitVec.ofNat 8 (64 * p.coalesced.toNat + 32 * p.settled.toNat + 16 * p.combo.toNat + p.player.val),
   p.switch] ++ fourBytes p.amount.toNat ++ fourBytes p.tally.toNat

/-- The LOCK payload. -/
def LockPayload.bytes (p : LockPayload) : List Byte :=
  [BitVec.ofNat 8 (16 * p.event.toNat + p.pocket.val), p.player, p.credit, p.held, p.stuck]

/-- A bulletin's payload bytes in sending order. -/
def Bulletin.payload : Bulletin → List Byte
  | .tilt => []
  | .lock p => p.bytes
  | .trough count reason => [count, reason]
  | .gameStart count => [count]
  | .gameEnd => []
  | .playerUp player => [player]
  | .serve count => [count]
  | .modeStart mode duration => [mode, duration]
  | .modeEnd mode => [mode]
  | .collect mode player => [mode, player]
  | .jackpotAdd mode => [mode]
  | .featureSet target feature state player => [target, feature, state, player]
  | .missing count => [count]
  | .award p => p.bytes
  | .census p => p.bytes
  | .query target item argument => [target, item, argument]
  | .status item data => item :: data
  | .fire target driver => [target, driver]
  | .clear target what => [target, what]
  | .restart target => [target]

/-! ## Cells (R60) -/

/-- Arbitration field, length and payload of a bulletin from `origin`: what the check runs over. -/
def bulletinBits (origin : StationNo) (b : Bulletin) : List Bool :=
  bitsOf 2 b.cls ++ bitsOf 6 b.kindCode ++ bitsOf 4 origin.val ++ bitsOf 4 b.payload.length ++
    bytesBits b.payload

/-- The cells after the start cell. -/
def bulletinCells (origin : StationNo) (b : Bulletin) : List Bool :=
  bulletinBits origin b ++ bitsOf 16 (checkBits (bulletinBits origin b)).toNat

/-! ## Reading payload bytes -/

/-- Four counts of two bits from census byte 1 or 2. -/
def countsFrom (b : Byte) : Tab 4 (Fin 4) :=
  .ofFn fun i => ⟨b.toNat / 4 ^ i.val % 4, Nat.mod_lt _ (by decide)⟩

/-- A mode bitmap from its four bytes. -/
def modesFrom (bytes : List Byte) : Tab 32 Bool :=
  .ofFn fun m => (bytes.getD (m.val / 8) 0).getLsbD (m.val % 8)

/-- A number of two bits, as a player less 1. -/
def lowPlayer (n : Nat) : Player := ⟨n % 4, Nat.mod_lt _ (by decide)⟩

/-- A four-byte number. -/
def numberFrom (bytes : List Byte) : Nat := bytes.foldl (fun n b => 256 * n + b.toNat) 0

/-- The bulletin that a class, a kind code and payload bytes spell, where R63 makes it valid: the kind known,
in its own class, with its own length. -/
def readBulletin (cls kind : Nat) (bytes : List Byte) : Option Bulletin :=
  match cls, kind, bytes with
  | 0, 1, [] => some .tilt
  | 0, 2, [b0, b1, b2, b3, b4] =>
      some (.lock { event := BitVec.ofNat 4 (b0.toNat / 16), pocket := lowPlayer b0.toNat, player := b1,
                    credit := b2, held := b3, stuck := b4 })
  | 0, 3, [b0, b1] => some (.trough b0 b1)
  | 1, 8, [b0] => some (.gameStart b0)
  | 1, 9, [] => some .gameEnd
  | 1, 10, [b0] => some (.playerUp b0)
  | 1, 11, [b0] => some (.serve b0)
  | 1, 12, [b0, b1] => some (.modeStart b0 b1)
  | 1, 13, [b0] => some (.modeEnd b0)
  | 1, 14, [b0, b1] => some (.collect b0 b1)
  | 1, 15, [b0] => some (.jackpotAdd b0)
  | 1, 16, [b0, b1, b2, b3] => some (.featureSet b0 b1 b2 b3)
  | 1, 17, [b0] => some (.missing b0)
  | 2, 24, [b0, b1, b2, b3, b4, b5, b6, b7, b8, b9] =>
      some (.award { coalesced := b0.getLsbD 6, settled := b0.getLsbD 5, combo := b0.getLsbD 4,
                     player := lowPlayer b0.toNat, switch := b1,
                     amount := BitVec.ofNat 32 (numberFrom [b2, b3, b4, b5]),
                     tally := BitVec.ofNat 32 (numberFrom [b6, b7, b8, b9]) })
  | 3, 32, [b0, b1, b2, b3, b4, b5, b6, b7, b8, b9] =>
      some (.census { state := BitVec.ofNat 3 (b0.toNat / 32), trough := BitVec.ofNat 3 (b0.toNat / 4),
                      player := lowPlayer b0.toNat, held := countsFrom b1, stuck := countsFrom b2,
                      modes := modesFrom [b3, b4, b5, b6], faults := b7,
                      players := lowPlayer (b8.toNat / 64), missing := BitVec.ofNat 3 (b8.toNat / 8),
                      signature := b9 })
  | 3, 33, [b0, b1, b2] => some (.query b0 b1 b2)
  | 3, 34, b0 :: data => if data.length ≤ 9 then some (.status b0 data) else none
  | 3, 35, [b0, b1] => some (.fire b0 b1)
  | 3, 36, [b0, b1] => some (.clear b0 b1)
  | 3, 37, [b0] => some (.restart b0)
  | _, _, _ => none

/-! ## Reading the cells taken so far -/

/-- R60: the length field, once the 16 bits of arbitration field and length are in. -/
def lengthField (bits : List Bool) : Option Nat :=
  if 16 ≤ bits.length then some (natOf ((bits.drop 12).take 4)) else none

/-- R60: the cells after the start cell that a bulletin takes, once its length is in. -/
def cellsDue (bits : List Bool) : Option Nat := (lengthField bits).map fun n => 32 + 8 * n

/-- The next bit lies in the arbitration field, the length or the payload, and so goes into the check. -/
def checked (bits : List Bool) : Bool :=
  match lengthField bits with
  | none => true
  | some n => bits.length < 16 + 8 * n

/-- The last check cell has been read. -/
def cellsComplete (bits : List Bool) : Bool :=
  match cellsDue bits with
  | none => false
  | some n => n ≤ bits.length

/-- R65, R66: the origin and the bulletin that the bits spell, where they are complete, the check they end
with is the remainder `check` formed over them, and R63 makes the bulletin valid. -/
def spelled (bits : List Bool) (check : BitVec 16) : Option (StationNo × Bulletin) :=
  match lengthField bits with
  | none => none
  | some n =>
    if 10 < n ∨ bits.length ≠ 32 + 8 * n then none
    else if natOf (bits.drop (16 + 8 * n)) ≠ check.toNat then none
    else
      (readBulletin (natOf (bits.take 2)) (natOf ((bits.drop 2).take 6))
          (bytesFrom n (bits.drop 16))).map fun b =>
        (⟨natOf ((bits.drop 8).take 4) % 16, Nat.mod_lt _ (by decide)⟩, b)

end Sys2Proof

namespace Sys2Proof.Machine

/-- One sampled bit of a bulletin taken in: the bit added, and the remainder formed while the bit is not of
the check itself (R61). Past the last check cell nothing is taken (R65). -/
def takeBit (bits : List Bool) (check : BitVec 16) (b : Bool) : Receive :=
  if cellsComplete bits then .receiving bits check
  else .receiving (bits ++ [b]) (if checked bits then checkBit check b else check)

end Sys2Proof.Machine
end

