-- ==== Sys2Proof/Machine/Flags.lean ====
section
/-! DEFINITION. The fault flags, the fault line and the eight counters of Station Control (R188 to R190). -/

namespace Sys2Proof.Machine

/-- The seven latched flags (R188). -/
inductive Flag where
  | link | config | ejector | supply | accounting | transmit | switch
deriving DecidableEq, Repr

/-- The flags with `f` set. -/
def FaultFlags.raise (f : Flag) (x : FaultFlags) : FaultFlags :=
  match f with
  | .link => { x with link := true }
  | .config => { x with config := true }
  | .ejector => { x with ejector := true }
  | .supply => { x with supply := true }
  | .accounting => { x with accounting := true }
  | .transmit => { x with transmit := true }
  | .switch => { x with switch := true }

/-- Station Control is asked to set flag `f`, which latches (R188). -/
def setFlag (f : Flag) (s : State) : State := s.mapControl fun c => { c with flags := c.flags.raise f }

/-- R176: DRIVER is set while any driver's detail is other than none. -/
def driverFlag (s : State) : Bool := s.drivers.units.any fun d => d.detail != .none

/-- The eight fault flags in the order of census byte 7 (R64): bit 0 LINK up to bit 7 SWITCH. -/
def faultByte (s : State) : Byte :=
  let f := s.control.flags
  byteOf f.switch f.transmit f.accounting f.supply f.ejector (driverFlag s) f.config f.link

/-- The fault-line mask (R189): header byte 18, and every bit set in LISTEN-ONLY. -/
def maskByte (s : State) : Byte :=
  if s.control.station = .listenOnly then 255 else s.control.image.mask

/-- R187, R189: the fault line is asserted while a flag is set whose mask bit is set, and after a failed
self-test; a station held at the reset line releases it. -/
def faultLineLevel (s : State) : Bool :=
  match s.control.station with
  | .selftestFailed => true
  | .held => false
  | _ => (faultByte s &&& maskByte s) != 0

/-- The eight counters in the order of R190. -/
inductive Counter where
  | checkErrors | clashes | txDrops | modeRefusals | pulseDrops | backstopEnds | stuckSwitches | retriedEjects
deriving DecidableEq, Repr

/-- A counter's place in the order of R190. -/
def Counter.place : Counter → Fin 8
  | .checkErrors => 0
  | .clashes => 1
  | .txDrops => 2
  | .modeRefusals => 3
  | .pulseDrops => 4
  | .backstopEnds => 5
  | .stuckSwitches => 6
  | .retriedEjects => 7

/-- A counter's value. -/
def counter (s : State) (c : Counter) : Nat := s.control.counters.get c.place

/-- R190: a raise adds 1 and saturates at 255. -/
def raiseCounter (c : Counter) (s : State) : State :=
  s.mapControl fun k => { k with counters := k.counters.modify c.place fun n => min 255 (n + 1) }

/-- CLEAR FAULTS clears the seven latched flags (R188). -/
def clearFlags (s : State) : State := s.mapControl fun c => { c with flags := noFlags }

/-- CLEAR COUNTS sets all eight counters to 0 (R190). -/
def clearCounters (s : State) : State := s.mapControl fun c => { c with counters := .fill 8 0 }

end Sys2Proof.Machine
end

