-- ==== Sys2Proof/Machine/Coils.lean ====
section
/-! DEFINITION. The pulse queue and its requests (R167 to R169), the recycle of a driver (R173), and the
driver tests that pulses use. -/

namespace Sys2Proof.Machine

/-- A band's place in the order of R167. -/
def Band.rank : Band → Nat
  | .direct => 0
  | .eject => 1
  | .reset => 2
  | .search => 3

/-- The state of driver `d`. -/
def unit (s : State) (d : DriverNo) : DriverState := s.drivers.units.get d

/-- Driver `d` with `f` applied to its state. -/
def mapUnit (d : DriverNo) (f : DriverState → DriverState) (s : State) : State :=
  s.mapDrivers fun c => { c with units := c.units.modify d f }

/-- An entry for driver `d` waits in the pulse queue. -/
def pulseQueued (s : State) (d : DriverNo) : Bool := s.drivers.queue.any fun e => e.driver == d

/-- R167: an entry takes its place behind every entry of its band or one ahead of it. -/
def placePulse (e : PulseEntry) : List PulseEntry → List PulseEntry
  | [] => [e]
  | x :: xs => if x.band.rank ≤ e.band.rank then x :: placePulse e xs else e :: x :: xs

/-- R168, R169: a requester joins a set, or the waiting list, behind those in it; one that is in it already stays
where it stands. R167 gives a set no order: that its requesters are told in this one is a DESIGN CHOICE, log
entry 48. -/
def joinSet (r : Requester) (rs : List Requester) : List Requester := if r ∈ rs then rs else rs ++ [r]

/-- R168 step 3: the request merged into entry `e`. -/
def mergePulse (band : Band) (percent : Nat) (r : Requester) (e : PulseEntry) : PulseEntry :=
  { e with percent := max e.percent percent, requesters := joinSet r e.requesters,
           band := if band.rank < e.band.rank then band else e.band }

/-- R168 step 3: the queue with the request merged into the entry `e` for its driver: moved to the end of
the request's band where that ranks ahead, otherwise in its place. -/
def mergeQueue (band : Band) (percent : Nat) (r : Requester) (e : PulseEntry) (q : List PulseEntry) :
    List PulseEntry :=
  if band.rank < e.band.rank then
    placePulse (mergePulse band percent r e) (q.filter fun x => x.driver != e.driver)
  else q.map fun x => if x.driver = e.driver then mergePulse band percent r x else x

/-- The Driver Controller's answers to a request (R168). -/
inductive Answer where
  | faulted | dropped | merged | refused | skipped | queued
deriving DecidableEq, Repr

/-- Which step of R168 decides a request for driver `d` in `band`. -/
def answer (d : DriverNo) (band : Band) (s : State) : Answer :=
  let u := unit s d
  if u.phase = .faulted then .faulted
  else if band = .direct ∧ (u.phase = .pulsing ∨ u.phase = .holding ∨ u.phase = .recycle) then .dropped
  else if pulseQueued s d then .merged
  else if Config.pulseMax ≤ s.drivers.queue.length then
    match band with
    | .direct => .dropped
    | .eject | .reset => .refused
    | .search => .skipped
  else .queued

/-- R168: a request for driver `d` in `band` at `percent` by `r`, taken as its answer says. -/
def request (d : DriverNo) (band : Band) (percent : Nat) (r : Requester) (s : State) : State :=
  match answer d band s with
  | .faulted | .skipped => s
  | .dropped => raiseCounter .pulseDrops s
  | .merged =>
    match s.drivers.queue.find? fun e => e.driver == d with
    | some e => s.mapDrivers fun c => { c with queue := mergeQueue band percent r e c.queue }
    | none => s
  | .refused => s.mapDrivers fun c => { c with waiting := joinSet r c.waiting }
  | .queued =>
    mapUnit d (fun u => if u.phase = .idle then { u with phase := .queued } else u)
      (s.mapDrivers fun c =>
        { c with queue := placePulse { driver := d, band := band, percent := percent, requesters := [r] } c.queue })

/-- R173: the driver leaves RECYCLE: QUEUED where an entry for it waits, otherwise IDLE. -/
def leaveRecycle (d : DriverNo) (s : State) : State :=
  mapUnit d (fun u => { u with phase := if pulseQueued s d then .queued else .idle, recycle := none }) s

/-- R173: the driver enters RECYCLE, not energized; a recycle time of 0 expires at once. -/
def enterRecycle (d : DriverNo) (s : State) : State :=
  let t := (driverCfg s d).recycle
  let s := mapUnit d (fun u => { u with phase := .recycle, recycle := some t, maxHold := none }) s
  if t = 0 then leaveRecycle d s else s

/-- How many drivers are PULSING: the pulse slots taken (R170). -/
def slotsTaken (s : State) : Nat := s.drivers.units.count fun u => u.phase == .pulsing

/-- R170: the entries whose pulses start now, in queue order: those whose driver is QUEUED, as many as
there are free slots, and none while the supply level is LOW. -/
def startable (s : State) : List PulseEntry :=
  if (s.analog.channels.get 5).level then
    (s.drivers.queue.filter fun e => (unit s e.driver).phase == .queued).take (Config.slotMax - slotsTaken s)
  else []

end Sys2Proof.Machine
end

