-- ==== Sys2Proof/Machine/Features.lean ====
section
/-! DEFINITION. Features: effective state (R20), and the changes of it that hold bindings follow (R172).
`changeLit` wraps every change of the feature table or the mode table. -/

namespace Sys2Proof.Machine

/-- Mode `m` has an entry in the mode table, ACTIVE or ENDING. -/
def modeIn (s : State) (m : ModeId) : Bool := (s.modes.get m).isSome

/-- The linked mode of feature `f` has an entry. -/
def overlaid (s : State) (f : FeatureNo) : Bool :=
  match (s.control.image.features.get f).link with
  | some m => modeIn s m
  | none => false

/-- The resting state of feature `f` in the current table. -/
def resting (s : State) (f : FeatureNo) : Resting := s.rules.features.get f

/-- R20: the effective state of feature `f`. -/
def effective (s : State) (f : FeatureNo) : Resting :=
  match resting s f with
  | .off => .off
  | .held => .held
  | r => if overlaid s f then .lit else r

/-- The feature is effectively LIT. -/
def isLit (s : State) (f : FeatureNo) : Bool := effective s f == .lit

/-- R20: the feature is lit by mode overlay. -/
def litByOverlay (s : State) (f : FeatureNo) : Bool :=
  isLit s f && (resting s f == .dark || resting s f == .latent)

/-! ## Hold bindings (R172) -/

/-- R172: the hold binding of `d` requests it, in the EJECT band at 100 %, unless its spent mark is set. -/
def requestHold (d : DriverNo) (s : State) : State :=
  if (unit s d).spent then s else request d .eject 100 (.hold d) s

/-- R172: the bound feature has left LIT: a HOLDING driver is released, and the spent mark is cleared. -/
def releaseHold (d : DriverNo) (s : State) : State :=
  let s := mapUnit d (fun u => { u with spent := false }) s
  if (unit s d).phase = .holding then enterRecycle d s else s

/-- R172: driver `d` follows the effective state of its bound feature from `before` to `after`. -/
def followLit (before after : State) (d : DriverNo) (s : State) : State :=
  match (driverCfg s d).binding with
  | none => s
  | some f =>
    if isLit before f = isLit after f then s
    else if isLit after f then requestHold d s else releaseHold d s

/-- A change `g` of the feature table or the mode table, followed by the hold bindings at that moment, in ascending
driver number (DESIGN CHOICE, log entry 41). -/
def changeLit (g : State → State) (s : State) : State :=
  let t := g s
  eachUp 8 (followLit s t) t

/-- The resting state of feature `f` in the current table becomes `r`. -/
def setFeature (f : FeatureNo) (r : Resting) (s : State) : State :=
  changeLit (fun s => s.mapRules fun e => { e with features := e.features.set f r }) s

end Sys2Proof.Machine
end

