-- ==== Sys2Proof/Machine/Transmit.lean ====
section
/-! DEFINITION. The transmit queue (R68 to R76): how a bulletin enters it, what a full queue does, and how a
transmission begins and ends. -/

namespace Sys2Proof.Machine

/-! ## The queue as a list -/

/-- A fresh entry (R68): attempt count 0, not on the line. -/
def freshEntry (b : Bulletin) : TxEntry := { bulletin := b, attempts := 0, onLine := false }

/-- R68: an entry takes its place behind every entry of its class or a lower one. -/
def place (e : TxEntry) : List TxEntry → List TxEntry
  | [] => [e]
  | x :: xs => if x.bulletin.cls ≤ e.bulletin.cls then x :: place e xs else e :: x :: xs

/-- The youngest entry that satisfies `p` (the last in the queue), and the queue without it. -/
def takeYoungest (p : TxEntry → Bool) : List TxEntry → Option (TxEntry × List TxEntry)
  | [] => none
  | x :: xs =>
    match takeYoungest p xs with
    | some (e, rest) => some (e, x :: rest)
    | none => if p x then some (x, xs) else none

/-- The queue with `f` applied to the youngest entry that satisfies `p`. -/
def changeYoungest (p : TxEntry → Bool) (f : TxEntry → TxEntry) : List TxEntry → Option (List TxEntry)
  | [] => none
  | x :: xs =>
    match changeYoungest p f xs with
    | some rest => some (x :: rest)
    | none => if p x then some (f x :: xs) else none

/-- The entry is a CENSUS. -/
def TxEntry.isCensus (e : TxEntry) : Bool :=
  match e.bulletin with
  | .census _ => true
  | _ => false

/-- The entry is a STATUS. -/
def TxEntry.isStatus (e : TxEntry) : Bool :=
  match e.bulletin with
  | .status _ _ => true
  | _ => false

/-- The entry is an AWARD of player `p`. -/
def TxEntry.isAwardOf (p : Player) (e : TxEntry) : Bool :=
  match e.bulletin with
  | .award a => a.player == p
  | _ => false

/-- The entry is a COLLECT for the mode that byte `m` names. -/
def TxEntry.isCollectOf (m : Byte) (e : TxEntry) : Bool :=
  match e.bulletin with
  | .collect n _ => n == m
  | _ => false

/-- R74: how many AWARDs an AWARD stands for. -/
def awardCount (a : AwardPayload) : Nat := if a.coalesced then a.switch.toNat else 1

/-- R74, R75: `newer` merged into `older`: amounts summed, the newer tally, either's flags, the coalesced
flag set, the merged count up to 255. -/
def mergeAwards (older newer : AwardPayload) : AwardPayload :=
  { coalesced := true, settled := older.settled || newer.settled, combo := older.combo || newer.combo,
    player := older.player, switch := BitVec.ofNat 8 (min 255 (awardCount older + awardCount newer)),
    amount := older.amount + newer.amount, tally := newer.tally }

/-- R74: the AWARD `a` merged into the youngest AWARD of its player that is not on the line. -/
def mergeInto (a : AwardPayload) (q : List TxEntry) : Option (List TxEntry) :=
  changeYoungest (fun e => !e.onLine && e.isAwardOf a.player)
    (fun e => match e.bulletin with
      | .award b => { e with bulletin := .award (mergeAwards b a) }
      | _ => e) q

/-- R73: the queued CENSUS takes new contents in place, its attempt count returning to 0. -/
def replaceCensus (c : CensusPayload) (q : List TxEntry) : List TxEntry :=
  q.map fun e => if e.isCensus then { e with bulletin := .census c, attempts := 0 } else e

/-! ## Offers -/

/-- What an offer came to: the queue and the CENSUS held aside after it, whether the bulletin was taken,
whether TX DROPS rises, whether TRANSMIT is set. -/
structure Offer where
  queue : List TxEntry
  aside : Option CensusPayload
  taken : Bool
  drop : Bool
  refused : Bool
deriving DecidableEq, Repr

/-- R75: an entry evicted for an URGENT or GAME bulletin: the youngest ROUTINE entry not on the line, else
the youngest AWARD not on the line, which merges if it can. Answers the queue and whether TX DROPS rises. -/
def evict (q : List TxEntry) : Option (List TxEntry × Bool) :=
  match takeYoungest (fun e => !e.onLine && e.bulletin.cls == 3) q with
  | some (_, rest) => some (rest, true)
  | none =>
    match takeYoungest (fun e => !e.onLine && e.bulletin.cls == 2) q with
    | none => none
    | some (e, rest) =>
      match e.bulletin with
      | .award a =>
        match mergeInto a rest with
        | some merged => some (merged, false)
        | none => some (rest, true)
      | _ => some (rest, true)

/-- R74 to R76: a bulletin offered to a full queue, by its class. -/
def offerFull (b : Bulletin) (l : LinkCtl) : Offer :=
  let q := l.queue
  let entered (rest : List TxEntry) (drop : Bool) : Offer :=
    { queue := place (freshEntry b) rest, aside := l.aside, taken := true, drop := drop, refused := false }
  let dropped : Offer := { queue := q, aside := l.aside, taken := false, drop := true, refused := false }
  match b with
  | .award a =>
    match mergeInto a q with
    | some merged => { queue := merged, aside := l.aside, taken := true, drop := false, refused := false }
    | none =>
      match takeYoungest (fun e => !e.onLine && e.bulletin.cls == 3 && !e.isCensus) q with
      | some (_, rest) => entered rest true
      | none => dropped
  | .census _ =>
    match takeYoungest (fun e => !e.onLine && e.isStatus) q with
    | some (_, rest) => entered rest true
    | none => dropped
  | b =>
    if b.cls = 3 then dropped
    else
      match evict q with
      | some (rest, drop) => entered rest drop
      | none => { queue := q, aside := l.aside, taken := false, drop := true, refused := true }

/-- R72, R73: a bulletin offered to the queue. -/
def offerTo (b : Bulletin) (l : LinkCtl) : Offer :=
  let entering : Offer :=
    if l.queue.length < Config.txMax then
      { queue := place (freshEntry b) l.queue, aside := l.aside, taken := true, drop := false, refused := false }
    else offerFull b l
  match b with
  | .collect m _ =>
    if l.queue.any (TxEntry.isCollectOf m) then
      { queue := l.queue, aside := l.aside, taken := false, drop := false, refused := false }
    else entering
  | .census c =>
    if l.queue.any fun e => e.isCensus && e.onLine then
      { queue := l.queue, aside := some c, taken := true, drop := false, refused := false }
    else if l.queue.any TxEntry.isCensus then
      { queue := replaceCensus c l.queue, aside := none, taken := true, drop := false, refused := false }
    else entering
  | _ => entering

/-- R59: where the queue holds an entry, its head's bulletin is begun: it is on the line, and the clash
record shows this station its sender. -/
def beginHead (l : LinkCtl) : LinkCtl :=
  match l.queue with
  | [] => l
  | e :: rest => { l with queue := { e with onLine := true } :: rest, sender := true, agreed := true }

/-- R59: a queue that takes its first entry while the line is at rest begins at that moment. -/
def beginIfAtRest (l : LinkCtl) : LinkCtl :=
  if l.receive = .atRest ∧ l.sender = false ∧ l.hold = false then beginHead l else l

/-- A block offers bulletin `b` (section 4.8): its entry, the counter and flag of R77, and the begin of
R59. -/
def offer (b : Bulletin) (s : State) : State :=
  let o := offerTo b s.link
  let s := s.mapLink fun l => beginIfAtRest { l with queue := o.queue, aside := o.aside }
  let s := if o.drop then raiseCounter .txDrops s else s
  if o.refused then setFlag .transmit s else s

/-- The answer a block gets at once to an offer of `b`: whether the queue takes it. -/
def offerTaken (b : Bulletin) (s : State) : Bool := (offerTo b s.link).taken

/-! ## The end of a transmission -/

/-- The bulletin on the line that this station is sending. -/
def onLineBulletin (l : LinkCtl) : Option Bulletin := (l.queue.find? fun e => e.onLine).map (·.bulletin)

/-- No entry is on the line. -/
def offLine (q : List TxEntry) : List TxEntry := q.map fun e => { e with onLine := false }

/-- R73: a CENSUS held aside replaces the queued one in place, its transmission having ended otherwise than
by completion or a third clash. -/
def asideInPlace (l : LinkCtl) : LinkCtl :=
  match l.aside with
  | some c => { l with queue := replaceCensus c l.queue, aside := none }
  | none => l

/-- R69: this station's transmission ends by lost arbitration: its entry keeps its place and its count. -/
def yieldLine (l : LinkCtl) : LinkCtl :=
  asideInPlace { l with queue := offLine l.queue, sender := false, agreed := false }

/-- R69: the entry on the line leaves the queue, by completion or by its third clash. -/
def dropOnLine (l : LinkCtl) : LinkCtl :=
  { l with queue := l.queue.filter fun e => !e.onLine, sender := false, agreed := false }

/-- R73: a CENSUS held aside is offered as a new bulletin, the one on the line having completed or been
dropped at its third clash. -/
def offerAside (s : State) : State :=
  match s.link.aside with
  | some c => offer (.census c) (s.mapLink fun l => { l with aside := none })
  | none => s

end Sys2Proof.Machine
end

