-- ==== Sys2Proof/Machine/Accounting.lean ====
section
/-! DEFINITION. The accounting view (R133, R134), the quiet timer (R147) and the ball search (R148). -/

namespace Sys2Proof.Machine

/-! ## Totals and the in-play count -/

/-- This station's own pocket `p`. -/
def pocket (s : State) (p : PocketNo) : PocketState := s.pockets.pockets.get p

/-- This station's own held total (R89). -/
def ownHeld (s : State) : Nat := s.pockets.pockets.sum fun p => p.held
/-- This station's own stuck total. -/
def ownStuck (s : State) : Nat := s.pockets.pockets.sum fun p => p.stuck

/-- The held total of station `j` in this station's view (R89). -/
def heldAt (s : State) (j : StationNo) : Nat :=
  if j = strap s then ownHeld s else (s.balls.peers.get j).held.sum id

/-- The stuck total of station `j` in this station's view. -/
def stuckAt (s : State) (j : StationNo) : Nat :=
  if j = strap s then ownStuck s else (s.balls.peers.get j).stuck.sum id

/-- R133: the total held, over every pocket of every station. -/
def totalHeld (s : State) : Nat := ((List.finRange 16).map (heldAt s)).sum
/-- R133: the total stuck. -/
def totalStuck (s : State) : Nat := ((List.finRange 16).map (stuckAt s)).sum

/-- The balls that R134 subtracts from the installed balls, T known as `t`. -/
def ballsAway (s : State) (t : Nat) : Nat := s.balls.missing + t + totalHeld s + totalStuck s

/-- R134: T is known and the subtraction gives less than 0. -/
def sumNegative (s : State) : Bool :=
  match s.balls.trough with
  | none => false
  | some t => s.control.image.installed < ballsAway s t

/-- R134: the in-play count that the view gives. -/
def inPlayCount (s : State) : Nat :=
  match s.balls.trough with
  | none => 0
  | some t => s.control.image.installed - ballsAway s t

/-! ## The ball search and the quiet timer -/

/-- R148: the search ends: IDLE, round 0, every search timer stopped. -/
def endSearch (s : State) : State :=
  s.mapBalls fun b => { b with search := .idle, round := 0, todo := [], searchTimer := none }

/-- R134: B is recomputed; a negative sum sets ACCOUNTING; a B of 0 ends a search (R148). -/
def recomputeB (s : State) : State :=
  let s := s.mapBalls fun b => { b with inPlay := inPlayCount s }
  let s := if sumNegative s then setFlag .accounting s else s
  if s.balls.inPlay = 0 then endSearch s else s

/-- R147: the quiet timer restarts at the search delay in the game states, and a search in progress ends. -/
def restartQuiet (s : State) : State :=
  if inGame s then
    endSearch (s.mapBalls fun b => { b with quiet := some (s.control.image.searchDelay * 1000) })
  else s

/-- R148: the search list: the drivers marked for search, except the trough eject driver. -/
def searchList (s : State) : List DriverNo :=
  (List.finRange 8).filter fun d => (driverCfg s d).search && !(driverCfg s d).trough

/-- The fitted pocket whose eject driver is `d`. -/
def pocketOfDriver (s : State) (d : DriverNo) : Option PocketNo :=
  (List.finRange 4).find? fun p =>
    match pocketCfg s p with
    | some c => c.driver == d
    | none => false

/-- R125, R148: how the search takes driver `d`: at which percentage it is requested, `none` where its
pocket skips it. -/
def searchPercent (s : State) (d : DriverNo) : Option Nat :=
  match pocketOfDriver s d with
  | none => some 100
  | some p =>
    match (pocket s p).phase with
    | .empty => some 100
    | .jammed => some 150
    | _ => none

/-- R148: the round goes on with the drivers still to be taken: skipped drivers are passed at once, the
first requested one opens a slot, and with none left the pause starts. -/
def searchOn (todo : List DriverNo) (s : State) : State :=
  match todo with
  | [] => s.mapBalls fun b => { b with search := .pause, todo := [], searchTimer := some Config.searchPauseMs }
  | d :: rest =>
    match searchPercent s d with
    | none => searchOn rest s
    | some percent =>
      (request d .search percent .search s).mapBalls fun b =>
        { b with search := .round, todo := rest, searchTimer := some Config.searchSlotMs }

/-- R148: the next round begins. -/
def searchRound (s : State) : State :=
  searchOn (searchList s) (s.mapBalls fun b => { b with round := b.round + 1 })

end Sys2Proof.Machine
end

