-- ==== Sys2Proof/Machine/ModeTable.lean ====
section
/-! DEFINITION. The mode table: entries made, extended and ended (R94 to R102), and the values of HURRY and
JACKPOT entries (R52, R53). -/

namespace Sys2Proof.Machine

/-- The number of entries in the mode table. -/
def modeCount (s : State) : Nat := s.modes.count Option.isSome

/-- The ModeTime that `seconds` stand for: 0 untimed (R92, R96). -/
def timeOf (seconds : Nat) : ModeTime := if seconds = 0 then .untimed else .running (seconds * 1000)

/-- R94, R52, R53: a fresh entry of a definition. -/
def freshMode (d : ModeDef) (owner : StationNo) (time : ModeTime) : ModeEntry :=
  { kind := d.kind, owner := owner, ending := false, time := time,
    value := match d.kind with
      | .hurry => some d.start
      | .jackpot => some d.base
      | .plain | .multiply => none
    tick := if d.kind = .hurry then some d.tick else none,
    grace := none, endQueued := false }

/-- The mode table with `e` at mode `m`, and nothing else. -/
def putMode (m : ModeId) (e : Option ModeEntry) (s : State) : State := s.mapModes fun t => t.set m e

/-- R94: the entry of mode `m` is made, by definition `d`. -/
def makeMode (m : ModeId) (d : ModeDef) (owner : StationNo) (time : ModeTime) (s : State) : State :=
  changeLit (putMode m (some (freshMode d owner time))) s

/-- R95: the entry of mode `m` ends. -/
def endMode (m : ModeId) (s : State) : State := changeLit (putMode m none) s

/-- R95: every entry that satisfies `p` ends, in ascending mode id. -/
def endModes (p : ModeId → ModeEntry → Bool) (s : State) : State :=
  eachUp 32 (fun m t =>
    match t.modes.get m with
    | some e => if p m e then endMode m t else t
    | none => t) s

/-- R97: the larger of a remaining time and a resolved duration; untimed is longer than any. -/
def longer (a b : ModeTime) : ModeTime :=
  match a, b with
  | .untimed, _ => .untimed
  | _, .untimed => .untimed
  | .running x, .running y => .running (max x y)
  | .expired, .running y => .running y
  | .running x, .expired => .running x
  | .expired, .expired => .expired

/-- R97: an entry extended by a MODE START of the resolved duration `time`. -/
def extendMode (time : ModeTime) (e : ModeEntry) : ModeEntry :=
  { e with time := longer e.time time, ending := false, grace := none }

/-- R96, R97, R103: a MODE START of mode `m` from `owner`, `seconds` 0 standing for the definition's
duration, taken in PLAY. -/
def startMode (m : ModeId) (owner : StationNo) (seconds : Nat) (s : State) : State :=
  match modeDef s m with
  | none => s
  | some d =>
    if inPlay s then
      let time := timeOf (if seconds = 0 then d.duration else seconds)
      match s.modes.get m with
      | some e => putMode m (some (extendMode time e)) s
      | none =>
        if modeCount s < Config.modeMax then makeMode m d owner time s else raiseCounter .modeRefusals s
    else s

/-- R105, R106: a mode that a census reports is made where it has no entry, has a definition, and the table
has room: owner the census origin, the definition's duration. -/
def makeFromCensus (wrap : (State → State) → State → State) (m : ModeId) (owner : StationNo) (s : State) : State :=
  match modeDef s m, s.modes.get m with
  | some d, none =>
    if modeCount s < Config.modeMax then
      wrap (putMode m (some (freshMode d owner (timeOf d.duration)))) s
    else s
  | _, _ => s

/-- R83: the mode is in this station's owned-and-active set. -/
def ownedActive (s : State) (m : ModeId) : Bool :=
  match s.modes.get m with
  | none => false
  | some e =>
    e.owner == strap s && !e.ending &&
      match e.time with
      | .untimed => true
      | .running r => 0 < r
      | .expired => false

/-- R52: the JACKPOT value after one ADD. -/
def jackpotAfterAdd (d : ModeDef) (v : Nat) : Nat := min d.max (v + d.base * d.percent / 100)

/-- R53: the HURRY value after one tick. -/
def hurryAfterTick (d : ModeDef) (v : Nat) : Nat := max (v - d.step) d.floor

/-- R99, R100: the owner offers a MODE END for `m`; a bulletin taken sets the end queued mark. -/
def offerModeEnd (m : ModeId) (s : State) : State :=
  let b := Bulletin.modeEnd (modeByte m)
  let got := offerTaken b s
  let s := offer b s
  match s.modes.get m with
  | some e => putMode m (some { e with endQueued := e.endQueued || got }) s
  | none => s

end Sys2Proof.Machine
end

