-- ==== Sys2Proof/Machine/Census.lean ====
section
/-! DEFINITION. The CENSUS a station builds (R83) and keeps current (R84), the peer table (R80, R81), and the
lamps and the fault line that follow the state (R39, R40, R179, R189). -/

namespace Sys2Proof.Machine

/-! ## Building the CENSUS -/

/-- A count as the two bits a census gives it. -/
def twoBits (n : Nat) : Fin 4 := ⟨n % 4, Nat.mod_lt _ (by decide)⟩

/-- R83: the CENSUS built from the state as it stands, by the two columns of its table: `live` is every state but
LISTEN-ONLY. -/
def censusNow (s : State) : CensusPayload :=
  let live : Bool := s.control.station != .listenOnly
  let counts (f : PocketState → Nat) : Tab 4 (Fin 4) :=
    .ofFn fun p => if live && (pocketCfg s p).isSome then twoBits (f (pocket s p)) else 0
  { state := BitVec.ofNat 3 s.control.station.code
    trough := match s.trough.count with
      | some n => if live && isTrough s then BitVec.ofNat 3 n else 7
      | none => 7
    player := s.rules.current
    held := counts (·.held)
    stuck := counts (·.stuck)
    modes := .ofFn fun m => live && ownedActive s m
    faults := faultByte s
    players := twoBits (s.control.playerCount - 1)
    missing := if live then BitVec.ofNat 3 s.balls.missing else 0
    signature := if live then s.control.image.signature else 0 }

/-- The contents with which this station's queued CENSUS was last built: those held aside, else those
queued. -/
def lastCensus (l : LinkCtl) : Option CensusPayload :=
  match l.queue.findSome? fun e =>
      match e.bulletin with
      | .census c => some c
      | _ => none with
  | none => none
  | some c => some (l.aside.getD c)

/-- R84: while a CENSUS is queued and a field of it has changed, a fresh one is built and offered. -/
def refreshCensus (s : State) : State :=
  match lastCensus s.link with
  | some c => if c = censusNow s then s else offer (.census (censusNow s)) s
  | none => s

/-! ## Presence -/

/-- The peer table's entry for `j` with `f` applied. -/
def mapPeer (j : StationNo) (f : Peer → Peer) (s : State) : State :=
  s.mapPeers fun v => { v with table := v.table.modify j f }

/-- The peer table's entry for `j`. -/
def peer (s : State) (j : StationNo) : Peer := s.peers.table.get j

/-- R81: a bulletin of station `j` has completed: PRESENT, its silence timer at three census intervals. -/
def heard (j : StationNo) (s : State) : State :=
  mapPeer j (fun e =>
    { e with presence := .present,
             silence := some (Config.silentIntervals * s.control.image.censusInterval) }) s

/-- The census record of station `j` with `f` applied, where it is kept and did not report LISTEN-ONLY
(R88). -/
def mapRecord (j : StationNo) (f : CensusRecord → CensusRecord) (s : State) : State :=
  mapPeer j (fun e =>
    match e.record with
    | some r => if r.state = .listenOnly then e else { e with record := some (f r) }
    | none => e) s

/-! ## Lamps and the fault line -/

/-- R39: the pattern of an effective state. -/
def patternOf : Resting → Pattern
  | .off | .dark => .off
  | .latent => .slow
  | .lit => .on
  | .held => .fast

/-- R39: the pattern of a mode's lamp: FAST while a timed entry has 3 s or less. -/
def modePattern (s : State) (m : ModeId) : Pattern :=
  match s.modes.get m with
  | none => .off
  | some e =>
    match e.time with
    | .untimed => .on
    | .running r => if r ≤ Config.lastMs then .fast else .on
    | .expired => .fast

/-- R39: the pattern that a binding and the state it names give. -/
def bindingPattern (s : State) : Binding → Pattern
  | .feature f => patternOf (effective s f)
  | .mode m => modePattern s m
  | .pocket p => if 0 < (pocket s p).held then .on else .off
  | .faults => if faultByte s = 0 then .off else .on
  | .none => .off

/-- R39, R40: the pattern of lamp `l`: OFF until JOINING and in LISTEN-ONLY, its binding's from then on. -/
def lampPattern (s : State) (l : LampNo) : Pattern :=
  if s.control.station.running then bindingPattern s (s.control.image.lamps.get l) else .off

/-- R179: the output level that a pattern gives at `blink` twelfths of a second. -/
def patternLevel (blink : Nat) : Pattern → Bool
  | .off => false
  | .on => true
  | .slow => blink % 6 < 3
  | .fast => blink % 2 == 0

/-- R39, R179, R189: the lamps and the fault line as the state gives them. -/
def showOutputs (s : State) : State :=
  let s := s.mapControl fun c => { c with faultLine := faultLineLevel s }
  s.mapLamps fun x =>
    { x with patterns := .ofFn (lampPattern s), outputs := .ofFn fun l => patternLevel x.blink (lampPattern s l) }

/-- What every step ends with: a queued CENSUS brought up to date (R84), and the outputs as the state now
gives them (R39, R179, R189). -/
def finish (s : State) : State := showOutputs (refreshCensus s)

end Sys2Proof.Machine
end

