-- ==== Sys2Proof/Machine/Corrections.lean ====
section
/-! DEFINITION. The configuration image: what the bytes read in LOADING are judged by (R182), how they are
corrected once in the order of R183, and the configuration signature. The bytes are the image from byte 0. -/

namespace Sys2Proof.Machine

/-! ## Header and sections -/

/-- Byte `n` of the image as a number. -/
def imgByte (img : List Byte) (n : Nat) : Nat := (img.getD n 0).toNat

/-- The two-byte number at byte `n`, high byte first (section 11.3). -/
def imgWord (img : List Byte) (n : Nat) : Nat := 256 * imgByte img n + imgByte img (n + 1)

/-- R182: records and record size of the sections, in presence-bit order. -/
def sections : List (Nat × Nat) := [(64, 10), (32, 2), (4, 12), (4, 8), (8, 8), (32, 12), (16, 2), (6, 4)]

/-- R182: byte 5 marks section `k` present. -/
def present (img : List Byte) (k : Nat) : Bool := (imgByte img 5).testBit k

/-- The bytes that section `k` takes: none where it is marked absent. -/
def sectionLength (img : List Byte) (k : Nat) : Nat :=
  if present img k then (sections.getD k (0, 0)).1 * (sections.getD k (0, 0)).2 else 0

/-- Where section `k` begins: after the 24 header bytes and the sections before it. -/
def sectionStart (img : List Byte) (k : Nat) : Nat := 24 + ((List.range k).map (sectionLength img)).sum

/-- Record `i` of section `k`, where the section is present. -/
def record (img : List Byte) (k i : Nat) : Option (List Byte) :=
  if present img k then
    let size := (sections.getD k (0, 0)).2
    some ((img.drop (sectionStart img k + i * size)).take size)
  else none

/-- R182: the image length the header gives. -/
def imageLength (img : List Byte) : Nat := imgWord img 3

/-- R182: the findings judged after the first burst. -/
def headerGood (img : List Byte) : Bool :=
  imgByte img 0 == 167 && imgByte img 1 == 18 && imgByte img 2 == 1 &&
  24 ≤ imageLength img && imageLength img ≤ 2048 &&
  imageLength img == sectionStart img 8

/-- R182: the image check over bytes 0..21 and 24 to the end agrees with bytes 22 and 23. -/
def checkGood (img : List Byte) : Bool :=
  (checkBits (bytesBits (img.take 22 ++ (img.take (imageLength img)).drop 24))).toNat == imgWord img 22

/-- R183: the configuration signature, over header bytes 6..13 and the mode section as stored. -/
def signatureOf (img : List Byte) : Byte :=
  let modes := (img.drop (sectionStart img 5)).take (sectionLength img 5)
  let r := checkBits (bytesBits ((img.drop 6).take 8 ++ modes))
  (r.extractLsb' 8 8) ^^^ (r.extractLsb' 0 8)

/-! ## Corrections of header fields -/

/-- A value taken into a range, and down to a step. -/
def stepped (lo hi step x : Nat) : Nat := clamp lo hi x / step * step

/-- R10: 2, 4, 8 or 16. -/
def averagingOf (x : Nat) : Nat := if x < 4 then 2 else if x < 8 then 4 else if x < 16 then 8 else 16

/-- R150: 2 to the installed balls, or 1 with 1 installed ball. -/
def multiballOf (installed x : Nat) : Nat := if installed = 1 then 1 else clamp 2 installed x

/-- R150: above 15, no station is the trough station. -/
def troughStationOf (x : Nat) : Option StationNo := if h : x < 16 then some ⟨x, h⟩ else none

/-! ## Numbers that may name nothing -/

/-- A number that names a feature. -/
def feature? (x : Nat) : Option FeatureNo := if h : x < 32 then some ⟨x, h⟩ else none
/-- A number that names a mode id. -/
def mode? (x : Nat) : Option ModeId := if h : x < 32 then some ⟨x, h⟩ else none
/-- A number that names a switch. -/
def switch? (x : Nat) : Option SwitchNo := if h : x < 64 then some ⟨x, h⟩ else none
/-- A number that names a driver. -/
def driver? (x : Nat) : Option DriverNo := if h : x < 8 then some ⟨x, h⟩ else none

/-! ## The rule record as stored (section 11.3) -/

/-- The rule record fields as the layout of section 11.3 spells them. -/
structure RawRule where
  cls : Nat
  group : Fin 8
  combo : Bool
  activity : Bool
  closeCount : Nat
  openCount : Nat
  feature : Nat
  plain : Nat
  lit : Nat
  action : RawAction
  after : Nat
  index : Nat
deriving DecidableEq, Repr

/-- R183's reading of the REMOTE FEATURE state bits: OFF 0, DARK 1, LATENT 2, LIT 3. -/
def remoteState (x : Nat) : Option Resting :=
  match x with
  | 0 => some .off
  | 1 => some .dark
  | 2 => some .latent
  | 3 => some .lit
  | _ => none

/-- A 10-byte rule record (section 11.3). -/
def readRule (r : List Byte) : RawRule :=
  let b := imgByte r
  { cls := b 0 / 32, group := ⟨b 0 / 4 % 8, Nat.mod_lt _ (by decide)⟩,
    combo := (b 0).testBit 1, activity := (b 0).testBit 0,
    closeCount := b 1 / 16, openCount := b 1 % 16, feature := b 2,
    plain := imgWord r 3, lit := imgWord r 5,
    action := { kind := b 7 / 32, argument := b 7 % 32, state := remoteState (b 8 / 16 % 4),
                station := r.getD 9 0 },
    after := b 8 / 64, index := b 8 % 16 }

/-! ## Pockets, first part (R109 steps 1 to 3) -/

/-- The stored pocket records, where the section is present. -/
def rawPocket (img : List Byte) (p : PocketNo) : Option RawPocket :=
  (record img 3 p.val).map Config.pocketRecord

/-- R109 steps 1 to 3: which pockets are fitted, and with which eject driver: capacity above 0, a driver
D0..D7, not already named by a lower-numbered fitted pocket. -/
def fittedDrivers (img : List Byte) : List (PocketNo × DriverNo) :=
  (List.finRange 4).foldl (init := []) fun fit p =>
    match rawPocket img p with
    | none => fit
    | some r =>
      match driver? r.driver with
      | none => fit
      | some d => if r.capacity = 0 ∨ fit.any (fun x => x.2 == d) then fit else fit ++ [(p, d)]

/-- The pocket is fitted by steps 1 to 3 of R109. -/
def fitted (img : List Byte) (p : PocketNo) : Bool := (fittedDrivers img).any fun x => x.1 == p

/-! ## Banks (R31) -/

/-- R31: a bank's members: at most 8, none above 63, none twice, each with a BANK-MEMBER rule (class code 4)
whose index names the bank, as stored. -/
def bankMembers (img : List Byte) (b : BankNo) (listed : List Nat) : List SwitchNo :=
  ((listed.take 8).filterMap switch?).foldl (init := []) fun got i =>
    match record img 0 i.val with
    | none => got
    | some r =>
      if (readRule r).cls = 4 ∧ (readRule r).index = b.val ∧ i ∉ got then got ++ [i] else got

/-- A configured bank, its completion action still as stored. -/
structure JudgedBank where
  kind : BankKind
  members : List SwitchNo
  completion : Nat
  value : Nat
  action : RawAction
deriving DecidableEq, Repr

/-- R31: the judgement of bank `b`, `none` where it is not configured. -/
def judgeBank (img : List Byte) (b : BankNo) : Option JudgedBank :=
  match (record img 2 b.val).map Config.bankRecord with
  | none => none
  | some r =>
    let members := bankMembers img b r.members
    let n := members.length
    let kind : Option BankKind :=
      match r.drop with
      | some true => (driver? r.driver).map .drop
      | some false => some .standup
      | none => none
    match kind with
    | none => none
    | some k =>
      if n < 2 then none
      else some { kind := k, members := members,
                  completion := if r.completion = 0 ∨ n < r.completion then n else r.completion,
                  value := r.value.toNat, action := r.action }

/-- The bank is configured and of the STANDUP kind. -/
def isStandup (img : List Byte) (b : BankNo) : Bool :=
  match judgeBank img b with
  | some j => j.kind == .standup
  | none => false

/-! ## Actions (R16) -/

/-- R16: an action as corrected, `none` where it is taken as absent. -/
def actionOf (img : List Byte) (a : RawAction) : Option Action :=
  match a.kind with
  | 1 => (feature? a.argument).map .lightFeature
  | 2 => (mode? a.argument).map .startMode
  | 3 => (mode? a.argument).map .addJackpot
  | 4 => (mode? a.argument).map .collect
  | 5 =>
    match feature? a.argument, a.state with
    | some f, some st =>
      if st = .held ∨ (15 < a.station.toNat ∧ a.station.toNat ≠ 255) then none
      else some (.remoteFeature a.station f st)
    | _, _ => none
  | 6 =>
    match fourOf a.argument with
    | some b => if isStandup img b then some (.advanceBank b) else none
    | none => none
  | _ => none

/-- R31: bank `b` as corrected; an ADVANCE BANK naming the bank itself is taken as absent. -/
def bankOf (img : List Byte) (b : BankNo) : Option BankCfg :=
  (judgeBank img b).map fun j =>
    { kind := j.kind, members := j.members, completion := j.completion, value := j.value,
      action := match actionOf img j.action with
        | some (.advanceBank c) => if c = b then none else some (.advanceBank c)
        | a => a }

/-! ## Rules (R3, R16, R17) -/

/-- R16: the class a stored rule of switch `i` is taken as, and its direct driver. -/
def classOf (img : List Byte) (i : SwitchNo) (r : RawRule) : RuleClass × Option DriverNo :=
  match r.cls with
  | 1 => (.playfield, none)
  | 2 =>
    match fourOf r.index with
    | some p => (if fitted img p then .pocketEntry else .playfield, none)
    | none => (.playfield, none)
  | 3 => (if 5 < r.index then .unused else .trough, none)
  | 4 =>
    match (fourOf r.index).bind (judgeBank img) with
    | some j => (if i ∈ j.members then .bankMember else .playfield, none)
    | none => (.playfield, none)
  | 5 =>
    match driver? r.index with
    | some d => (.direct, some d)
    | none => (.playfield, none)
  | _ => (.unused, none)

/-- R16: an after-state other than LIT, DARK or LATENT is taken as DARK. -/
def afterOf (x : Nat) : Resting :=
  match x with
  | 2 => .latent
  | 3 => .lit
  | _ => .dark

/-- R17: the default rule. -/
def defaultRule (img : List Byte) : Rule :=
  { cls := .playfield, closeCount := 2, openCount := 2, group := 0, feature := none,
    plain := imgWord img 16, lit := 0, action := none, after := .dark, combo := false, activity := true,
    driver := none, index := 0 }

/-- The corrected rule of switch `i` (R3, R16), or the default rule (R17). -/
def ruleFor (img : List Byte) (i : SwitchNo) : Rule :=
  match record img 0 i.val with
  | none => defaultRule img
  | some bytes =>
    let r := readRule bytes
    { cls := (classOf img i r).1, closeCount := max 1 r.closeCount, openCount := max 1 r.openCount,
      group := r.group, feature := feature? r.feature, plain := r.plain, lit := r.lit,
      action := actionOf img r.action, after := afterOf r.after, combo := r.combo, activity := r.activity,
      driver := (classOf img i r).2, index := r.index }

/-! ## Pockets, the rest (R109) -/

/-- R109: the lock feature of pocket `p`'s record, fitted or not; one above 31, or no record, gives none. -/
def lockFeatureOf (img : List Byte) (p : PocketNo) : Option FeatureNo :=
  (rawPocket img p).bind fun r => feature? r.feature

/-- R109: pocket `p` as corrected against the rules, `none` where it is not fitted. -/
def pocketOf (img : List Byte) (p : PocketNo) : Option PocketCfg :=
  match rawPocket img p, (fittedDrivers img).find? fun x => x.1 == p with
  | some r, some (_, d) =>
    let entry := (switch? r.entry).bind fun i =>
      let rule := ruleFor img i
      if rule.cls = .pocketEntry ∧ rule.index = p.val then some i else none
    let opto := fourOf r.opto
    if entry = none ∧ opto = none then none
    else some { capacity := if entry = none then 1 else min 3 r.capacity, feature := lockFeatureOf img p,
                entry := entry, opto := opto, driver := d, kickout := stepped 500 5000 100 r.kickout }
  | _, _ => none

/-- R109: the release spacing of P0's record, fitted or not; 400 ms where the section is absent (R182). -/
def spacingOf (img : List Byte) : Nat :=
  match rawPocket img 0 with
  | some r => stepped 400 2000 100 r.spacing
  | none => 400

/-! ## Features, drivers, modes, lamps, channels -/

/-- R29, R182: a feature's initial state and mode link. -/
def featureCfgOf (img : List Byte) (f : FeatureNo) : FeatureCfg :=
  match (record img 1 f.val).map Config.featureRecord with
  | none => { initial := .dark, link := none }
  | some r =>
    { initial := match r.state with
        | none | some .held => .dark
        | some st => st
      link := mode? r.link }

/-- R182: an absent driver section gives records of zeros. -/
def zeroDriver : RawDriver :=
  { onTime := 0, power := 0, holdPower := 0, maxHold := 0, recycle := 0, tolerance := 0, binding := 0,
    search := false, trough := false }

/-- The stored record of driver `d`. -/
def rawDriver (img : List Byte) (d : DriverNo) : RawDriver :=
  ((record img 4 d.val).map Config.driverRecord).getD zeroDriver

/-- R165: the trough eject driver: the lowest-numbered with its trough mark set, on the trough station. -/
def troughEject (strap : StationNo) (img : List Byte) : Option DriverNo :=
  if troughStationOf (imgByte img 6) = some strap then
    (List.finRange 8).find? fun d => (rawDriver img d).trough
  else none

/-- R165: the driver has another use that leaves no place for a hold binding. -/
def otherwiseUsed (strap : StationNo) (img : List Byte) (d : DriverNo) : Bool :=
  ((List.finRange 4).any fun p =>
    match pocketOf img p with
    | some c => c.driver == d
    | none => false) ||
  ((List.finRange 4).any fun b =>
    match bankOf img b with
    | some c => c.resetDriver == some d
    | none => false) ||
  ((List.finRange 64).any fun i => (ruleFor img i).driver == some d) ||
  troughEject strap img == some d

/-- R165: driver `d` as corrected. -/
def driverCfgOf (strap : StationNo) (img : List Byte) (d : DriverNo) : DriverCfg :=
  let r := rawDriver img d
  { onTime := max 1 r.onTime.toNat, power := clamp 1 8 r.power, holdPower := min 8 r.holdPower,
    maxHold := clamp 1 60 r.maxHold, recycle := r.recycle.toNat, tolerance := clamp 1 15 r.tolerance,
    binding := if r.holdPower = 0 ∨ otherwiseUsed strap img d then none else feature? r.binding,
    search := r.search, trough := troughEject strap img == some d }

/-- R92, R57: the definition of mode `m`, `none` where the record gives it none. -/
def modeDefOf (img : List Byte) (m : ModeId) : Option ModeDef :=
  match (record img 5 m.val).map Config.modeRecord with
  | none => none
  | some r =>
    if r.id ≠ m.val then none
    else r.kind.map fun k =>
      let base := clamp 1 1000000 r.base
      { kind := k, duration := r.duration.toNat, startsMulti := r.startsMulti, endsMulti := r.endsMulti,
        mask := r.mask, factor := clamp 2 5 r.factor, start := r.start.toNat, step := r.step.toNat,
        floor := min r.start.toNat r.floor.toNat, tick := stepped 100 1000 10 r.tick, base := base,
        percent := clamp 1 100 r.percent, max := clamp base 9999999 r.max }

/-- R39: lamp `l`'s binding; one that names nothing the station has is taken as None. -/
def bindingOf (img : List Byte) (l : LampNo) : Binding :=
  match (record img 6 l.val).map Config.lampRecord with
  | none => .none
  | some r =>
    match r.kind with
    | some .feature => ((feature? r.target).map Binding.feature).getD .none
    | some .mode => ((mode? r.target).map Binding.mode).getD .none
    | some .pocket =>
      match fourOf r.target with
      | some p => if (pocketOf img p).isSome then .pocket p else .none
      | none => .none
    | some .faults => .faults
    | some .none | none => .none

/-- R9, R11: channel `c`. Its record holds two numbers, the on-threshold or supply-ok first (DEDUCED from
section 1.6, log entry 2); an absent section gives zeros (R182). -/
def channelOf (strap : StationNo) (img : List Byte) (c : ChannelNo) : ChannelCfg :=
  let r := (record img 7 c.val).getD []
  let first := imgWord r 0
  let second := imgWord r 2
  if c.val = 5 then
    let ok := clamp 0 1023 first
    { enabled := true, upper := ok, lower := min ok second }
  else
    let on := clamp 1 1023 first
    { enabled := if c.val = 4 then troughStationOf (imgByte img 6) == some strap
                 else (List.finRange 4).any fun p =>
                   match pocketOf img p with
                   | some k => k.opto.map Fin.val == some c.val
                   | none => false
      upper := on, lower := min (on - 1) second }

/-! ## The whole image (R183) -/

/-- R183: the image as corrected and signed. -/
def buildImage (strap : StationNo) (img : List Byte) : Image :=
  let installed := clamp 1 6 (imgByte img 7)
  { format := BitVec.ofNat 8 (imgByte img 2)
    troughStation := troughStationOf (imgByte img 6)
    installed := installed
    threshold := clamp 1 4 (imgByte img 8)
    multiballBalls := multiballOf installed (imgByte img 9)
    censusInterval := stepped 250 2500 250 (imgWord img 10)
    comboWindow := stepped 500 5000 100 (imgWord img 12)
    searchDelay := clamp 5 60 (imgByte img 14)
    averaging := averagingOf (imgByte img 15)
    mask := BitVec.ofNat 8 (imgByte img 18)
    signature := signatureOf img
    releaseSpacing := spacingOf img
    rules := .ofFn (ruleFor img)
    features := .ofFn (featureCfgOf img)
    banks := .ofFn (bankOf img)
    pockets := .ofFn (pocketOf img)
    lockFeatures := .ofFn (lockFeatureOf img)
    drivers := .ofFn (driverCfgOf strap img)
    modes := .ofFn (modeDefOf img)
    lamps := .ofFn (bindingOf img)
    channels := .ofFn (channelOf strap img) }

end Sys2Proof.Machine
end

