-- ==== Sys2Proof/Machine/Pockets.lean ====
section
/-! DEFINITION. Lock pockets (R110 to R132): a ball's entry, the eject sequence, jams and balls that leave
unseen, the restart of CLEAR FAULTS, and the multiball release. Each operation is given the pocket's
configuration `c`, so that it acts on a fitted pocket. -/

namespace Sys2Proof.Machine

/-! ## Counts and states -/

/-- Pocket `p` with `f` applied. -/
def mapPocket (p : PocketNo) (f : PocketState → PocketState) (s : State) : State :=
  s.mapPockets fun c => { c with pockets := c.pockets.modify p f }

/-- R110: a change of counts, handed to the Ball Accounting Unit at once. -/
def countPocket (p : PocketNo) (f : PocketState → PocketState) (s : State) : State := recomputeB (mapPocket p f s)

/-- R111: EJECT-WAIT, EJECTING and RE-ARM are the eject sequence. -/
def PocketPhase.ejects : PocketPhase → Bool
  | .ejectWait | .ejecting | .rearm => true
  | .empty | .settling | .stable | .kickoutWait | .releaseWait | .jammed => false

/-- R111: the state a pocket's counts give. -/
def PocketState.byCounts (x : PocketState) : PocketPhase :=
  if x.resting = 1 ∧ x.kickout.isSome then .kickoutWait else if 0 < x.held then .stable else .empty

/-- The pocket in the state its counts give. -/
def PocketState.rest (x : PocketState) : PocketState := { x with phase := x.byCounts }

/-- Every count of the pocket, and its pending count, is 0. -/
def PocketState.clear (x : PocketState) : Bool :=
  x.held == 0 && x.resting == 0 && x.stuck == 0 && x.through == 0 && x.pending == 0

/-- R118: one ball counted out: the through ball, a resting ball whose kickout is owed, a held ball, a
resting ball whose kickout timer still runs. The flag says that it was a held ball. -/
def PocketState.countOut (x : PocketState) : PocketState × Bool :=
  if x.through = 1 then ({ x with through := 0 }, false)
  else if x.resting = 1 ∧ x.kickout = none then ({ x with resting := 0 }, false)
  else if 0 < x.held then ({ x with held := x.held - 1 }, true)
  else if x.resting = 1 then ({ x with resting := 0, kickout := none }, false)
  else (x, false)

/-- R130: the LOCK of an event at pocket `p`, with its counts as they now stand. -/
def lockOf (event : BitVec 4) (credit : Byte) (p : PocketNo) (s : State) : LockPayload :=
  { event := event, pocket := p, player := playerByteOf s.rules.current, credit := credit,
    held := BitVec.ofNat 8 (pocket s p).held, stuck := BitVec.ofNat 8 (pocket s p).stuck }

/-- R130: a LOCK is queued; one that the queue refuses is not offered again (R131). -/
def offerLock (event : BitVec 4) (credit : Byte) (p : PocketNo) (s : State) : State :=
  offer (.lock (lockOf event credit p s)) s

/-- R129: the turn passes where pocket `p` holds it: the turn timer starts while the list holds pockets,
otherwise the release is over. -/
def passTurn (p : PocketNo) (s : State) : State :=
  s.mapPockets fun c =>
    if c.turn = .taken p then
      { c with turn := if c.release = [] then .idle else .waiting Config.rearmMs }
    else c

/-! ## Jams and ejects -/

/-- R121: the pocket's balls are stuck: held and resting, or the through ball where there is neither. -/
def PocketState.jammed (x : PocketState) : PocketState :=
  { x with held := 0, resting := 0, stuck := if x.held + x.resting = 0 then 1 else x.held + x.resting,
           through := 0, jam := x.pending, pending := 0, deferred := false, attempt := 1, kickout := none,
           window := none, rearm := none, phase := .jammed }

/-- R121: pocket `p` jams. -/
def jamPocket (p : PocketNo) (s : State) : State :=
  passTurn p (setFlag .ejector (offerLock lockJammed 0 p (countPocket p PocketState.jammed s)))

/-- R121, R174: the eject driver of pocket `p` has become FAULTED by an OPEN or SHORT in a pulse, or with an
entry, of the pocket's: it jams in whatever state it stands, but JAMMED, leaves the release list, and its settle
window stops (DEDUCED, log entry 42). -/
def jamAtFault (p : PocketNo) (s : State) : State :=
  if (pocket s p).phase = .jammed then s
  else
    jamPocket p (s.mapPockets fun k =>
      { k with release := k.release.filter (· ≠ p), pockets := k.pockets.modify p fun x => { x with settle := none } })

/-- R117: pocket `p` requests its eject driver at its attempt's percentage; a FAULTED driver jams it. -/
def askEject (p : PocketNo) (c : PocketCfg) (s : State) : State :=
  if answer c.driver .eject s = .faulted then jamPocket p s
  else request c.driver .eject (attemptPercent (pocket s p).attempt) (.pocket p) s

/-- R117: pocket `p` starts an eject at attempt `n`: EJECT-WAIT. -/
def startEject (p : PocketNo) (c : PocketCfg) (n : Nat) (s : State) : State :=
  askEject p c (mapPocket p (fun x => { x with phase := .ejectWait, attempt := n, window := none, rearm := none }) s)

/-- R120: the attempt of pocket `p` has failed: the next one, or after attempt 3 a jam. -/
def failEject (p : PocketNo) (c : PocketCfg) (s : State) : State :=
  let n := (pocket s p).attempt
  if n < 3 then startEject p c (n + 1) (raiseCounter .retriedEjects s) else jamPocket p s

/-! ## A ball enters -/

/-- R113: a kick-through, with credit where the lock condition holds; a pocket not in an eject sequence
starts one. -/
def kickThrough (p : PocketNo) (c : PocketCfg) (credit inSequence : Bool) (s : State) : State :=
  let s := mapPocket p (fun x => { x with through := 1, pending := x.pending + 1 }) s
  let s := if credit then offerLock lockKickThrough 1 p s else s
  if inSequence then s else startEject p c 1 s

/-- R112: the lock condition: PLAY, and the pocket's feature effectively LIT. -/
def lockCondition (c : PocketCfg) (s : State) : Bool :=
  inPlay s &&
    match c.feature with
    | some f => isLit s f
    | none => false

/-- R112: a ball has entered pocket `p`. -/
def ballEnters (p : PocketNo) (c : PocketCfg) (inSequence : Bool) (s : State) : State :=
  let x := pocket s p
  let lock := lockCondition c s
  let settle (x : PocketState) : PocketState := if inSequence then x else x.rest
  if c.capacity ≤ x.held + x.resting then kickThrough p c lock inSequence s
  else if lock then
    offerLock lockHeld 1 p (countPocket p (fun x => settle { x with held := x.held + 1 }) s)
  else if x.resting = 0 then
    mapPocket p (fun x => settle { x with resting := 1, kickout := some c.kickout }) s
  else kickThrough p c false inSequence s

/-- R114: a close of the entry switch of an EMPTY pocket. -/
def closeInEmpty (p : PocketNo) (c : PocketCfg) (s : State) : State :=
  if c.opto.isSome then
    mapPocket p (fun x => { x with phase := .settling, settle := some Config.settleMs }) s
  else ballEnters p c false s

/-- R114: a close of pocket `p`'s entry switch, by the pocket's state. -/
def entryCloses (p : PocketNo) (c : PocketCfg) (s : State) : State :=
  match (pocket s p).phase with
  | .empty => closeInEmpty p c s
  | .settling => s
  | .stable | .kickoutWait => ballEnters p c false s
  | .releaseWait | .ejectWait | .ejecting | .rearm => mapPocket p (fun x => { x with deferred := true }) s
  | .jammed =>
    if (pocket s p).stuck < c.capacity then
      offerLock lockJammed 0 p (countPocket p (fun x => { x with stuck := x.stuck + 1 }) s)
    else s

/-- R115: the ball of a SETTLING or EMPTY pocket has entered; the settle window stops. -/
def seenEntering (p : PocketNo) (c : PocketCfg) (s : State) : State :=
  ballEnters p c false (mapPocket p (fun x => { x with settle := none, phase := .empty }) s)

/-! ## The confirm of an eject -/

/-- R118: the sequence goes on in RE-ARM while ejects are owed, or ends, and the turn passes. -/
def afterConfirm (p : PocketNo) (s : State) : State :=
  if 0 < (pocket s p).pending then
    mapPocket p (fun x => { x with phase := .rearm, rearm := some Config.rearmMs }) s
  else passTurn p (mapPocket p PocketState.rest s)

/-- R118: the eject of pocket `p` is confirmed: one ball counted out, pending down by 1, the deferred entry taken.
A pending of 0, as a restart may leave it, stays 0 (DESIGN CHOICE, log entry 43). A deferred close that finds
every count 0 is taken in EMPTY, once the sequence has ended and the turn has passed, so that a settle window it
starts stands (DEDUCED, log entry 39). -/
def confirmEject (p : PocketNo) (c : PocketCfg) (s : State) : State :=
  let out := (pocket s p).countOut
  let deferred := (pocket s p).deferred
  let s := countPocket p (fun _ => { out.1 with window := none }) s
  let s := if out.2 then offerLock lockReleased 0 p s else s
  let s := mapPocket p (fun x => { x with pending := x.pending - 1, attempt := 1, deferred := false }) s
  if deferred then
    if (pocket s p).clear then closeInEmpty p c (afterConfirm p s) else afterConfirm p (ballEnters p c true s)
  else afterConfirm p s

/-! ## Balls that leave unseen -/

/-- R122: a RELEASE-WAIT pocket has lost a ball; at pending 0 it leaves the release list and takes a
deferred entry. -/
def lostInRelease (p : PocketNo) (c : PocketCfg) (s : State) : State :=
  let out := (pocket s p).countOut
  let s := countPocket p (fun _ => out.1) s
  let s := if out.2 then offerLock lockLost 0 p s else s
  let s := mapPocket p (fun x => { x with pending := x.pending - 1 }) s
  if (pocket s p).pending = 0 then
    let deferred := (pocket s p).deferred
    let s := mapPocket p (fun x => { x.rest with deferred := false }) s
    let s := s.mapPockets fun k => { k with release := k.release.filter (· ≠ p) }
    if deferred then if (pocket s p).clear then closeInEmpty p c s else ballEnters p c false s else s
  else s

/-- R122: the opto of pocket `p` has turned ABSENT outside an eject sequence. -/
def leftUnseen (p : PocketNo) (c : PocketCfg) (s : State) : State :=
  match (pocket s p).phase with
  | .stable =>
    offerLock lockLost 0 p (countPocket p (fun x => ({ x with held := x.held - 1 } : PocketState).rest) s)
  | .kickoutWait =>
    mapPocket p (fun x => ({ x with resting := 0, kickout := none } : PocketState).rest) s
  | .releaseWait => lostInRelease p c s
  | _ => s

/-- R123: a JAMMED pocket is freed. -/
def freePocket (p : PocketNo) (s : State) : State :=
  offerLock lockFreed 0 p (countPocket p (fun x => { x with stuck := 0, jam := 0, phase := .empty }) s)

/-! ## Round completions -/

/-- R132: at the first round after a reset, a pocket with no ball whose opto reads PRESENT is re-sensed. -/
def resense (p : PocketNo) (s : State) : State :=
  if (pocket s p).clear ∧ (pocket s p).phase = .empty then
    countPocket p (fun x => { x with held := 1, phase := .stable }) s
  else s

/-- R115, R118, R122, R123, R132: pocket `p` is given its opto's level after a round: whether it is
PRESENT, whether this round changed it, whether this is the first round since the last reset. -/
def pocketRound (p : PocketNo) (c : PocketCfg) (level changed first : Bool) (s : State) : State :=
  if first then if level then resense p s else s
  else if !inGame s then s
  else
    match (pocket s p).phase, level, changed with
    | .settling, true, _ => seenEntering p c s
    | .empty, true, true => seenEntering p c s
    | .ejecting, false, _ => confirmEject p c s
    | .jammed, false, _ => freePocket p s
    | _, false, true => leftUnseen p c s
    | _, _, _ => s

/-! ## CLEAR FAULTS, the end of joining -/

/-- R124: a JAMMED pocket restarts. One that jammed after its ball had left (log entry 42) may have jam count 0:
it starts its eject all the same, with pending 0 (DESIGN CHOICE, log entry 43). -/
def restartPocket (p : PocketNo) (c : PocketCfg) (s : State) : State :=
  if (pocket s p).phase = .jammed then
    let idle := s.control.station = .idle
    let s := countPocket p (fun x =>
      let rest := if idle ∧ 0 < x.stuck then 1 else 0
      { x with stuck := 0, held := x.stuck - rest, resting := rest, kickout := none,
               pending := min x.jam x.stuck }) s
    startEject p c 1 (offerLock lockFreed 0 p s)
  else s

/-- The level of pocket `p`'s opto: `none` where it has none. -/
def optoLevel (s : State) (c : PocketCfg) : Option Bool :=
  c.opto.map fun a => (s.analog.channels.get (a.castLE (by decide))).level

/-- R132: pocket `p` is judged at the end of the joining period. -/
def judgeAtJoin (p : PocketNo) (c : PocketCfg) (s : State) : State :=
  match optoLevel s c with
  | some true => if (pocket s p).clear then ballEnters p c false s else s
  | some false =>
    if 0 < (pocket s p).held then
      offerLock lockLost 0 p (countPocket p (fun x => { x with held := 0, phase := .empty }) s)
    else s
  | none => s

/-! ## The multiball release -/

/-- R128: a pocket that holds balls takes up the release: every ball it keeps is owed an eject, and a
pocket in STABLE or KICKOUT-WAIT joins the release list. -/
def joinRelease (p : PocketNo) (s : State) : State :=
  let x := pocket s p
  if (pocketCfg s p).isSome ∧ 0 < x.held then
    let waits := x.phase = .stable ∨ x.phase = .kickoutWait
    let s := mapPocket p (fun x =>
      { x with kickout := none, pending := x.through + x.held + x.resting,
               phase := if waits then .releaseWait else x.phase }) s
    if waits then s.mapPockets fun k => { k with release := k.release ++ [p] } else s
  else s

/-- R128: a release begins at this station with the rank of R89. -/
def beginRelease (rank : Nat) (s : State) : State :=
  let s := eachUp 4 joinRelease s
  s.mapPockets fun k =>
    if k.turn = .idle then { k with turn := .waiting (rank * s.control.image.releaseSpacing) } else k

/-- R129: the turn timer has expired: the head of the release list takes the turn and its deferred entry,
and starts an eject; with an empty list the release is over. -/
def takeTurn (s : State) : State :=
  match s.pockets.release with
  | [] => s.mapPockets fun k => { k with turn := .idle }
  | p :: rest =>
    let s := s.mapPockets fun k => { k with release := rest, turn := .taken p }
    match pocketCfg s p with
    | none => s
    | some c =>
      let deferred := (pocket s p).deferred
      let s := mapPocket p (fun x => { x with deferred := false }) s
      startEject p c 1 (if deferred then ballEnters p c true s else s)

end Sys2Proof.Machine
end

