-- ==== Sys2Proof/Machine/Serves.lean ====
section
/-! DEFINITION. The Trough Controller (R136 to R141): the trough count and its reports, and the serve. -/

namespace Sys2Proof.Machine

/-- R136: the trough positions 0..5 at which a TROUGH-class switch is debounced CLOSED. -/
def troughPositions (s : State) : Nat :=
  ((List.range 6).filter fun k =>
    (List.finRange 64).any fun i =>
      (ruleOf s i).cls == .trough && (ruleOf s i).index == k && (s.scanner.switches.get i).closed).length

/-- R141: the serve has failed: EJECTOR set, nothing pending, IDLE at attempt 1. -/
def failServe (s : State) : State :=
  setFlag .ejector
    (s.mapTrough fun t => { t with pending := 0, attempt := 1, phase := .idle, window := none, recount := false })

/-- R140, R141: in SERVE-WAIT the trough eject driver is requested at the attempt's percentage; with no such
driver, or a FAULTED one, the serve fails at once: on entering SERVE-WAIT, and not in WAITING, while the trough
count is 0, unknown or still to be taken again (DESIGN CHOICE, log entry 44). -/
def askServe (s : State) : State :=
  match troughDriver s with
  | none => failServe s
  | some d =>
    if answer d .eject s = .faulted then failServe s
    else request d .eject (attemptPercent s.trough.attempt) .trough s

/-- R140: the controller enters SERVE-WAIT at attempt `n` and requests the pulse. -/
def startServe (n : Nat) (s : State) : State :=
  askServe (s.mapTrough fun t => { t with phase := .serveWait, attempt := n, window := none })

/-- R140: with no serve in progress: IDLE while nothing is pending; SERVE-WAIT once the trough count is
known and above 0, and has been taken since the last confirm; WAITING otherwise. -/
def serveNext (s : State) : State :=
  if s.trough.phase = .idle ∨ s.trough.phase = .waiting then
    if s.trough.pending = 0 then s.mapTrough fun t => { t with phase := .idle, recount := false }
    else if s.trough.recount = false ∧ 0 < s.trough.count.getD 0 then startServe 1 s
    else s.mapTrough fun t => { t with phase := .waiting }
  else s

/-- R139: pending serves rise by `n` on the trough station, to at most 6. -/
def oweServes (n : Nat) (s : State) : State :=
  if isTrough s then serveNext (s.mapTrough fun t => { t with pending := min Config.serveMax (t.pending + n) })
  else s

/-- R139: every pending serve not yet requested is cleared; one in SERVE-WAIT or SERVING stays. -/
def clearServes (s : State) : State :=
  serveNext (s.mapTrough fun t =>
    { t with pending := if t.phase = .serveWait ∨ t.phase = .serving then min 1 t.pending else 0 })

/-- R140: the serve is confirmed. -/
def confirmServe (s : State) : State :=
  s.mapTrough fun t =>
    { t with window := none, pending := t.pending - 1, unreported := min Config.serveMax (t.unreported + 1),
             attempt := 1, phase := if 1 < t.pending then .waiting else .idle, recount := decide (1 < t.pending) }

/-- R140: A4 turns PRESENT while SERVING. -/
def laneTurnsPresent (s : State) : State := if s.trough.phase = .serving then serveNext (confirmServe s) else s

/-- R141: the attempt has failed: the next one, or after attempt 3 the serve. -/
def failServeAttempt (s : State) : State :=
  if s.trough.attempt < 3 then startServe (s.trough.attempt + 1) (raiseCounter .retriedEjects s)
  else failServe s

/-- R137: the reason of a TROUGH for a count `new` after `old`. -/
def troughReason (old : Option Nat) (new unreported : Nat) : Byte :=
  match old with
  | none => reasonOther
  | some o => if o < new then reasonDrain else if 0 < unreported then reasonServe else reasonOther

/-- R137: the offers for a taken count that differs from the one before it: a TROUGH, and after a rise with
balls missing a MISSING; a fall lowers the unreported serves. -/
def reportTrough (old : Option Nat) (new : Nat) (s : State) : State :=
  let s := offer (.trough (BitVec.ofNat 8 new) (troughReason old new s.trough.unreported)) s
  match old with
  | none => s
  | some o =>
    let m := s.balls.missing
    let s := s.mapTrough fun t => { t with unreported := t.unreported - (o - new) }
    if o < new ∧ 0 < m then offer (.missing (BitVec.ofNat 8 (m - min (new - o) m))) s else s

/-- R136, R137, R140: the settle timer has expired: the count is taken; a fall confirms a serve, a change is
reported, and a serve that waited for a count may go on. -/
def takeTroughCount (s : State) : State :=
  let old := s.trough.count
  let new := troughPositions s
  let s := s.mapTrough fun t => { t with settle := none, count := some new }
  let fell : Bool := match old with
    | some o => decide (new < o)
    | none => false
  let s := if fell ∧ s.trough.phase = .serving then confirmServe s else s
  let s := s.mapTrough fun t => { t with recount := false }
  let s := if old = some new then s else reportTrough old new s
  serveNext s

/-- An entry of the transmit queue is a TROUGH. -/
def TxEntry.isTrough (e : TxEntry) : Bool :=
  match e.bulletin with
  | .trough _ _ => true
  | _ => false

/-- R137: at a census interval the trough station offers a TROUGH where none of its own is queued and its
T differs from its trough count; while that count is unknown it offers none, also where T is known (DESIGN CHOICE,
log entry 46). -/
def repeatTrough (s : State) : State :=
  match s.trough.count with
  | none => s
  | some n =>
    if s.balls.trough = some n ∨ s.link.queue.any TxEntry.isTrough then s
    else
      let reason := match s.balls.trough with
        | some t => if t < n then reasonDrain else reasonOther
        | none => reasonOther
      offer (.trough (BitVec.ofNat 8 n) reason) s

end Sys2Proof.Machine
end

