-- ==== Sys2Proof/Machine/Judgement.lean ====
section
/-! DEFINITION. The judgements at a completion: the multiball phase (R142), a B of 0 (R143), ball over
(R144), lock credits (R145) and the multiball start (R146). -/

namespace Sys2Proof.Machine

/-- The multiball phase becomes `p`. -/
def setPhase (p : Phase) (s : State) : State := s.mapBalls fun b => { b with phase := p }

/-- R103: the phase has turned MULTI: every mode with STARTS-WITH-MULTIBALL is started from the trough
station, in ascending mode id, with its definition's duration. Where no station is the trough station none is
started (DESIGN CHOICE, log entry 37). -/
def startMultiModes (s : State) : State :=
  match s.control.image.troughStation with
  | none => s
  | some owner =>
    eachUp 32 (fun m t =>
      match modeDef t m with
      | some d => if d.startsMulti then startMode m owner 0 t else t
      | none => t) s

/-- R104: the phase has turned SINGLE: every entry whose definition has ENDS-WITH-MULTIBALL ends. -/
def endMultiModes (s : State) : State :=
  endModes (fun m _ =>
    match modeDef s m with
    | some d => d.endsMulti
    | none => false) s

/-- R142: the phase judged after B has been recomputed. -/
def judgePhase (s : State) : State :=
  if s.balls.phase = .single ∧ inPlay s ∧ 2 ≤ s.balls.inPlay then startMultiModes (setPhase .multi s)
  else if s.balls.phase = .multi ∧ s.balls.inPlay ≤ 1 then endMultiModes (setPhase .single s)
  else s

/-- R51: the combo count becomes 0 and its window stops. -/
def endCombo (s : State) : State := s.mapRules fun r => { r with combo := 0, comboTimer := none }

/-- R104: every entry of the mode table ends. -/
def endAllModes (s : State) : State := endModes (fun _ _ => true) s

/-- R144, R160: ball over, in the order of R144. -/
def ballOver (s : State) : State :=
  setStation .ready (endSearch (clearServes (endCombo (endAllModes (setPhase .single s)))))

/-- What a judged completion or hand-over is, for a B of 0 (R143). -/
inductive ZeroCause where
  | drain      -- a DRAIN, or a census rise of the trough count
  | away       -- LOCK HELD or JAMMED, MISSING, a census that raises held or stuck counts
  | drainAway  -- a census that does both
  | tilt       -- the TILT completion
  | other      -- any other LOCK, TROUGH, MISSING or census
deriving DecidableEq, Repr

/-- R143: the cause is a drain. -/
def ZeroCause.drains : ZeroCause → Bool
  | .drain | .drainAway => true
  | .away | .tilt | .other => false

/-- R143: the cause calls for a replacement. -/
def ZeroCause.replaces : ZeroCause → Bool
  | .away | .drainAway => true
  | .drain | .tilt | .other => false

/-- R143: one ball replaced, by the trough station, unless its pending is above 0 or this completion has
started a multiball. -/
def replaceBall (started : Bool) (s : State) : State :=
  if s.trough.pending = 0 ∧ !started then oweServes 1 s else s

/-- R143: a B of 0 judged, after a completion before which B was `before`. A census that fits both the first
row of the table and the second is ball over in PLAY (DESIGN CHOICE, log entry 40). -/
def judgeZero (cause : ZeroCause) (before : Nat) (started : Bool) (s : State) : State :=
  if s.balls.trough = none ∨ s.balls.inPlay ≠ 0 then s
  else
    match s.control.station with
    | .tilt => ballOver s
    | .play =>
      if cause.drains ∧ 0 < before then ballOver s
      else if cause.replaces then replaceBall started s
      else s
    | _ => s

/-- R145: the credit of player `p` rises by 1, to at most 4. -/
def raiseCredit (p : Player) (s : State) : State :=
  s.mapBalls fun b => { b with credits := b.credits.modify p fun n => min Config.creditMax (n + 1) }

/-- R89: this station's rank: the stations numbered below it that hold balls in its view. -/
def releaseRank (s : State) : Nat :=
  ((List.finRange 16).filter fun j => decide (j < strap s) && decide (0 < heldAt s j)).length

/-- R146: the balls that the trough station owes at a multiball start: the multiball ball count less B and the
total held, at most T; where T is unknown, at most a FREE value (DESIGN CHOICE, log entry 5). -/
def shortfall (s : State) : Nat :=
  let n := s.control.image.multiballBalls - (s.balls.inPlay + totalHeld s)
  min (s.balls.trough.getD (Config.shortfallReading n)) n

/-- R146: a multiball start: credit 0, the release, the shortfall owed; with 1 installed ball the credit
alone. -/
def startMultiball (s : State) : State :=
  let s := s.mapBalls fun b => { b with credits := b.credits.set s.rules.current 0 }
  if s.control.image.installed = 1 then s
  else
    let owed := shortfall s
    let s := if 0 < ownHeld s then beginRelease (releaseRank s) s else s
    oweServes owed s

/-- R145: the multiball start is due after a raise of player `p`'s credit. -/
def multiballDue (p : Player) (s : State) : Bool :=
  inPlay s && p == s.rules.current && decide (s.control.image.threshold ≤ s.balls.credits.get p)

/-- R145: the player whose credit a LOCK raises: HELD or KICK-THROUGH, credit flag set, in READY, PLAY or
TILT, a player of the game. -/
def creditedPlayer (x : LockPayload) (s : State) : Option Player :=
  if (x.event = lockHeld ∨ x.event = lockKickThrough) ∧ creditSet x.credit ∧
      (s.control.station = .ready ∨ s.control.station = .play ∨ s.control.station = .tilt) then
    playerOf s.control.playerCount x.player
  else none

/-- R133: the counts that another station's LOCK carries. -/
def keepLockCounts (origin : StationNo) (x : LockPayload) (s : State) : State :=
  recomputeB (s.mapBalls fun b =>
    { b with peers := b.peers.modify origin fun k =>
        { held := k.held.set x.pocket (countOf x.held), stuck := k.stuck.set x.pocket (countOf x.stuck) } })

/-- R145, R146, R142, R143, R147: a completed LOCK taken, in a game state: counts, credit, phase, multiball
start, B of 0, quiet timer. -/
def takeLock (origin : StationNo) (x : LockPayload) (s : State) : State :=
  let before := s.balls.inPlay
  let s := if origin = strap s then s else keepLockCounts origin x s
  let who := creditedPlayer x s
  let s := match who with
    | some p => raiseCredit p s
    | none => s
  let s := judgePhase s
  let started := match who with
    | some p => multiballDue p s
    | none => false
  let s := if started then startMultiball s else s
  let cause : ZeroCause := if x.event = lockHeld ∨ x.event = lockJammed then .away else .other
  restartQuiet (judgeZero cause before started s)

/-- R138: missing balls recovered by a rise of the trough count to `n`, then T becomes `n` and B is
recomputed. -/
def takeTroughView (rises : Bool) (n : Nat) (s : State) : State :=
  recomputeB (s.mapBalls fun b =>
    let d := match b.trough with
      | some t => n - t
      | none => 0
    { b with missing := if rises then b.missing - min d b.missing else b.missing, trough := some n })

/-- R138: a completed TROUGH taken, in a game state. -/
def takeTrough (count reason : Byte) (s : State) : State :=
  let before := s.balls.inPlay
  let drain := reason == reasonDrain
  let s := takeTroughView drain (min 6 count.toNat) s
  restartQuiet (judgeZero (if drain then .drain else .other) before false (judgePhase s))

/-- R135: a completed MISSING taken, in a game state. -/
def takeMissing (count : Byte) (s : State) : State :=
  let before := s.balls.inPlay
  let s := recomputeB (s.mapBalls fun b => { b with missing := min s.control.image.installed count.toNat })
  judgeZero .away before false (judgePhase s)

/-- R87, R133: the census raises a held or stuck count that this station kept for its origin. -/
def raisesCounts (r : CensusRecord) (k : PeerCounts) : Bool :=
  (List.finRange 4).any fun p => decide (k.held.get p < r.held.get p) || decide (k.stuck.get p < r.stuck.get p)

/-- R87, R138: the counts of a peer's census handed to the Ball Accounting Unit. -/
def takeCensusCounts (origin : StationNo) (r : CensusRecord) (s : State) : State :=
  let before := s.balls.inPlay
  let raised := raisesCounts r (s.balls.peers.get origin)
  let s := s.mapBalls fun b => { b with peers := b.peers.set origin { held := r.held, stuck := r.stuck } }
  let reported := if s.control.image.troughStation = some origin then r.trough else none
  let rise : Bool := match reported, s.balls.trough with
    | some n, some t => decide (t < n)
    | _, _ => false
  let s := match reported with
    | some n => takeTroughView true n s
    | none => recomputeB s
  let cause : ZeroCause :=
    if rise then if raised then .drainAway else .drain else if raised then .away else .other
  judgeZero cause before false (judgePhase s)

/-- R105: the Mode Unit reconciles the modes owned by a census origin. -/
def reconcile (origin : StationNo) (modes : Tab 32 Bool) (s : State) : State :=
  eachUp 32 (fun m t =>
    if modes.get m then
      if t.control.station = .play ∨ t.control.station = .tilt then makeFromCensus changeLit m origin t else t
    else
      match t.modes.get m with
      | some e => if e.owner = origin then endMode m t else t
      | none => t) s

end Sys2Proof.Machine
end

