-- ==== Sys2Proof/Machine/Scoring.lean ====
section
/-! DEFINITION. The award (R42 to R48), actions (R24 to R27), target banks (R30 to R38) and the hit (R18 to
R23). -/

namespace Sys2Proof.Machine

/-! ## The award -/

/-- What a scoring event is (R42), with what its AWARD carries (R48). -/
inductive Scoring where
  | hit (switch : SwitchNo) (combo : Bool)
  | bank (switch : SwitchNo)
  | collect
deriving DecidableEq, Repr

/-- R44: the factor that an entry of mode `m` gives for scoring group `g`. -/
def modeFactor (s : State) (g : Fin 8) (m : ModeId) : Nat :=
  match s.modes.get m, modeDef s m with
  | some e, some d => if e.kind = .multiply ∧ d.mask.getLsbD g.val then d.factor else 1
  | _, _ => 1

/-- R44, stage 2: the multiplier for scoring group `g`. -/
def multiplier (s : State) (g : Fin 8) : Nat :=
  min Config.multiplierMax ((List.finRange 32).map (modeFactor s g)).prod

/-- R45, stage 3: the combo bonus. -/
def comboBonus (v m k : Nat) : Nat := v * m * k / 4

/-- R46, stage 4: the raw award. -/
def rawAward (s : State) (v : Nat) (g : Fin 8) (kind : Scoring) : Nat :=
  let m := multiplier s g
  match kind with
  | .hit _ true => v * m + comboBonus v m s.rules.combo
  | _ => v * m

/-- R47, stage 5: the amount added to a tally. -/
def amountAdded (tally raw : Nat) : Nat := min raw (Config.tallyMax - tally)

/-- R48: the AWARD of a scoring event. -/
def awardFor (p : Player) (kind : Scoring) (amount tally : Nat) : AwardPayload :=
  { coalesced := false
    settled := kind == .collect
    combo := match kind with
      | .hit _ c => c
      | _ => false
    player := p
    switch := match kind with
      | .hit i _ | .bank i => BitVec.ofNat 8 i.val
      | .collect => 255
    amount := BitVec.ofNat 32 amount
    tally := BitVec.ofNat 32 tally }

/-- R48: whether the award queues an AWARD. -/
def awardOffered (kind : Scoring) (amount : Nat) : Bool :=
  0 < amount ||
    match kind with
    | .hit _ c => c
    | _ => false

/-- R42 to R48: the five stages of an award of value `v` in group `g` for player `p`, then its AWARD. -/
def award (p : Player) (v : Nat) (g : Fin 8) (kind : Scoring) (s : State) : State :=
  let old := s.rules.tallies.get p
  let added := amountAdded old (rawAward s v g kind)
  let s := s.mapRules fun r => { r with tallies := r.tallies.set p (old + added) }
  if awardOffered kind added then offer (.award (awardFor p kind added (old + added))) s else s

/-! ## Banks -/

/-- Bank `b`'s reset state. -/
def bank (s : State) (b : BankNo) : BankState := s.rules.banks.get b

/-- Bank `b` with `f` applied to its reset state. -/
def mapBank (b : BankNo) (f : BankState → BankState) (s : State) : State :=
  s.mapRules fun r => { r with banks := r.banks.modify b f }

/-- The features of a bank's member rules. -/
def memberFeatures (s : State) (c : BankCfg) : List FeatureNo := c.members.filterMap fun i => (ruleOf s i).feature

/-- How many members of the bank are marked. -/
def markedCount (s : State) (c : BankCfg) : Nat := c.members.countP fun i => s.rules.marks.get i

/-- Every member switch is debounced OPEN. -/
def membersOpen (s : State) (c : BankCfg) : Bool :=
  c.members.all fun i => !(s.scanner.switches.get i).closed

/-- The mark of switch `i` is set or cleared. -/
def setMark (i : SwitchNo) (v : Bool) (s : State) : State :=
  s.mapRules fun r => { r with marks := r.marks.set i v }

/-- Every feature of a list that satisfies `p` takes resting state `r`. The spec orders no two member features of
one event: they change in member-list order, the hold bindings of each following it before the next changes
(DESIGN CHOICE, log entry 41). -/
def setFeatures (p : Resting → Bool) (r : Resting) (fs : List FeatureNo) (s : State) : State :=
  fs.foldl (fun t f => if p (resting t f) then setFeature f r t else t) s

/-- R36: bank `b` becomes FAULTED: EJECTOR set, every member feature OFF. -/
def faultBank (b : BankNo) (c : BankCfg) (s : State) : State :=
  setFeatures (fun _ => true) .off (memberFeatures s c)
    (setFlag .ejector (mapBank b (fun k => { k with phase := .faulted, timer := none }) s))

/-- R33, R36: the bank requests its reset driver in the RESET band at 100 %; a FAULTED driver faults it. -/
def askReset (b : BankNo) (c : BankCfg) (s : State) : State :=
  match c.resetDriver with
  | none => s
  | some d =>
    if answer d .reset s = .faulted then faultBank b c s else request d .reset 100 (.bank b) s

/-- R33, R34, R37: bank `b` begins a reset at attempt 1. -/
def beginReset (b : BankNo) (c : BankCfg) (restart : Bool) (s : State) : State :=
  askReset b c (mapBank b (fun _ => { phase := .resetting, attempt := 1, timer := none, restart := restart }) s)

/-- R33, R34: the physical part of a DROP bank's completion: member features HELD, then the reset. -/
def dropCompletes (b : BankNo) (c : BankCfg) (s : State) : State :=
  beginReset b c false (setFeatures (fun _ => true) .held (memberFeatures s c) s)

/-- R35, R37: bank `b` is confirmed: COUNTING, attempt 1, its HELD member features DARK, and after a restart
its OFF ones as well. -/
def confirmBank (b : BankNo) (c : BankCfg) (s : State) : State :=
  let restart := (bank s b).restart
  setFeatures (fun r => r == .held || (restart && r == .off)) .dark (memberFeatures s c)
    (mapBank b (fun _ => bankReset) s)

/-! ## Actions and completions -/

/-- R33: the STANDUP bank's marks are all cleared. -/
def clearMarks (c : BankCfg) (s : State) : State := c.members.foldl (fun t i => setMark i false t) s

/-- R26: a COLLECT of mode `m` is queued and its mark set with group `g`, unless the mark is set. -/
def collectAction (m : ModeId) (g : Fin 8) (s : State) : State :=
  match s.rules.collects.get m with
  | some _ => s
  | none =>
    let b := Bulletin.collect (modeByte m) (playerByteOf s.rules.current)
    let got := offerTaken b s
    let s := offer b s
    if got then s.mapRules fun r => { r with collects := r.collects.set m (some g) } else s

/-- R24: LIGHT FEATURE. -/
def lightFeature (f : FeatureNo) (s : State) : State :=
  match resting s f with
  | .dark | .latent => setFeature f .lit s
  | _ => s

/-- R33: a scored completion of bank `b` by member `i`; `act` takes the bank's action, in the group of the
member's rule. -/
def scoredCompletion (act : Action → Fin 8 → State → State) (b : BankNo) (c : BankCfg) (i : SwitchNo)
    (s : State) : State :=
  let g := (ruleOf s i).group
  let s := award s.rules.current c.value g (.bank i) s
  let s := match c.action with
    | some a => act a g s
    | none => s
  if c.isDrop then dropCompletes b c s else clearMarks c s

/-- R32 to R34: member `i` of bank `b` is marked; a mark that brings a COUNTING bank up to its completion
count completes it: scored in PLAY, unscored in the other game states, not judged in JOINING. -/
def markMember (act : Action → Fin 8 → State → State) (b : BankNo) (c : BankCfg) (i : SwitchNo)
    (s : State) : State :=
  if s.rules.marks.get i then s
  else
    let s := setMark i true s
    if (bank s b).phase = .counting ∧ markedCount s c = c.completion then
      if inPlay s then scoredCompletion act b c i s
      else if inGame s ∧ c.isDrop then dropCompletes b c s
      else s
    else s

/-- R32: the lowest-numbered member, in list order, that is not yet marked. -/
def firstUnmarked (s : State) (c : BankCfg) : Option SwitchNo := c.members.find? fun i => !s.rules.marks.get i

/-- R24 to R27, R32: an action taken, in scoring group `g`. A bank's completion may itself carry an ADVANCE
BANK; a bank whose completion is being taken cannot complete again (R32), so four banks bound the chain. -/
def takeAction : Nat → Action → Fin 8 → State → State
  | _, .lightFeature f, _, s => lightFeature f s
  | _, .startMode m, _, s => offer (.modeStart (modeByte m) 0) s
  | _, .addJackpot m, _, s => offer (.jackpotAdd (modeByte m)) s
  | _, .collect m, g, s => collectAction m g s
  | _, .remoteFeature st f r, _, s =>
      offer (.featureSet st (BitVec.ofNat 8 f.val) (BitVec.ofNat 8 r.code) 0) s
  | 0, .advanceBank _, _, s => s
  | n + 1, .advanceBank b, _, s =>
    match bankCfg s b with
    | none => s
    | some c =>
      match firstUnmarked s c with
      | none => s
      | some i => markMember (takeAction n) b c i s

/-- An action with room for the longest chain of bank completions. -/
def doAction (a : Action) (g : Fin 8) (s : State) : State := takeAction 5 a g s

/-! ## The hit -/

/-- R23: the rule names the same feature as the pocket record that its POCKET-ENTRY index names, whether or not
R109 leaves that pocket fitted. -/
def isLockLight (s : State) (r : Rule) (f : FeatureNo) : Bool :=
  r.cls == .pocketEntry &&
    match fourOf r.index with
    | some p => s.control.image.lockFeatures.get p == some f
    | none => false

/-- R35: the rule is that of a member of a DROP bank in RESETTING. -/
def memberResetting (s : State) (r : Rule) : Bool :=
  r.cls == .bankMember &&
    match fourOf r.index with
    | some b => (bankCfg s b).any BankCfg.isDrop && (bank s b).phase == .resetting
    | none => false

/-- R21, R22: the value a hit hands to the award, `none` where it hands none. R35: a member that closes while its
DROP bank is RESETTING scores nothing, whatever R21 or R22 gives its feature: the rule is taken at every such
close, and the hit as one on a HELD feature (DESIGN CHOICE, log entry 50). -/
def hitValue (s : State) (r : Rule) : Option Nat :=
  if memberResetting s r then none
  else
    match r.feature with
    | none => some r.plain
    | some f =>
      match effective s f with
      | .off | .held => none
      | .dark | .latent => some r.plain
      | .lit => some r.lit

/-- R21, R23: the resting state of the hit feature afterwards. -/
def restingAfter (s : State) (r : Rule) (f : FeatureNo) : Resting :=
  match effective s f with
  | .latent => .lit
  | .lit => if resting s f = .lit ∧ !isLockLight s r f then r.after else resting s f
  | _ => resting s f

/-- R21, R22: the action is taken at this hit. -/
def actionDue (s : State) (r : Rule) : Bool :=
  match r.feature with
  | none => true
  | some f => isLit s f

/-- R32: the hit's STANDUP mark, where its switch is a member of a STANDUP bank. -/
def standupMark (i : SwitchNo) (r : Rule) (s : State) : State :=
  if r.cls = .bankMember then
    match fourOf r.index with
    | none => s
    | some b =>
      match bankCfg s b with
      | some c => if c.isDrop then s else markMember doAction b c i s
      | none => s
  else s

/-- R19: a hit on a DIRECT switch requests its driver. -/
def directPulse (r : Rule) (s : State) : State :=
  match r.driver with
  | some d => if r.cls = .direct then request d .direct 100 .rule s else s
  | none => s

/-- R19, R21 to R23, R32, R35: a hit on switch `i`: the direct pulse, then the value to the award, the resting
state, the action, and the STANDUP mark, in this order; a hit that is handed no value ends there. -/
def hit (i : SwitchNo) (s : State) : State :=
  let r := ruleOf s i
  let s := directPulse r s
  match hitValue s r with
  | none => s
  | some v =>
    let due := actionDue s r
    let after := r.feature.map fun f => (f, restingAfter s r f)
    let s := award s.rules.current v r.group (.hit i r.combo) s
    let s := match after with
      | some (f, st) => if resting s f = st then s else setFeature f st s
      | none => s
    let s := match r.action with
      | some a => if due then doAction a r.group s else s
      | none => s
    standupMark i r s

/-- R32: a DROP member's mark follows its switch. -/
def dropMark (i : SwitchNo) (closes : Bool) (s : State) : State :=
  let r := ruleOf s i
  if r.cls = .bankMember then
    match fourOf r.index with
    | none => s
    | some b =>
      match bankCfg s b with
      | some c =>
        if c.isDrop then if closes then markMember doAction b c i s else setMark i false s else s
      | none => s
  else s

/-- R18, R32: what the Rule Engine does with a switch event: a close in PLAY is a hit, and the marks of a
DROP bank follow the level in every station state. -/
def ruleTakes (i : SwitchNo) (closes : Bool) (s : State) : State :=
  dropMark i closes (if closes ∧ inPlay s then hit i s else s)

/-- R35: at a scan completion inside the confirm window, a RESETTING bank with every member OPEN is
confirmed. -/
def confirmAtScan (b : BankNo) (s : State) : State :=
  match bankCfg s b with
  | some c =>
    if (bank s b).phase = .resetting ∧ (bank s b).timer.isSome ∧ membersOpen s c then confirmBank b c s else s
  | none => s

end Sys2Proof.Machine
end

