-- ==== Sys2Proof/Machine/Reports.lean ====
section
/-! DEFINITION. What the Driver Controller reports to requesters (R169): a free place in the queue, the
start and the end of a pulse, a FAULTED driver; and each requester's response. -/

namespace Sys2Proof.Machine

/-- R169: a requester that was refused is told that an entry has left the queue, and asks again where it still
waits (DEDUCED, log entry 21). -/
def askAgain (r : Requester) (s : State) : State :=
  match r with
  | .pocket p =>
    match pocketCfg s p with
    | some c => if (pocket s p).phase = .ejectWait then askEject p c s else s
    | none => s
  | .trough => if s.trough.phase = .serveWait then askServe s else s
  | .bank b =>
    match bankCfg s b with
    | some c => if (bank s b).phase = .resetting then askReset b c s else s
    | none => s
  | .hold d =>
    match (driverCfg s d).binding with
    | some f => if isLit s f then requestHold d s else s
    | none => s
  | .rule | .search | .fire => s

/-- R169: an entry has left the queue: the waiting list empties, and each of its requesters asks again. -/
def tellWaiting (s : State) : State :=
  s.drivers.waiting.foldl (fun t r => askAgain r t) (s.mapDrivers fun c => { c with waiting := [] })

/-- R118, R140: the start of a pulse reported to a requester of its entry. -/
def pulseStarted (r : Requester) (s : State) : State :=
  match r with
  | .pocket p =>
    if (pocket s p).phase = .ejectWait then
      mapPocket p (fun x => { x with phase := .ejecting, window := some Config.ejectWindowMs }) s
    else s
  | .trough =>
    if s.trough.phase = .serveWait then
      s.mapTrough fun t => { t with phase := .serving, window := some Config.serveWindowMs }
    else s
  | .rule | .bank _ | .search | .fire | .hold _ => s

/-- R35, R118: the end of a pulse, with whatever detail, reported to a requester of it. -/
def pulseEnded (r : Requester) (s : State) : State :=
  match r with
  | .pocket p =>
    match pocketCfg s p with
    | some c => if (pocket s p).phase = .ejecting ∧ c.opto = none then confirmEject p c s else s
    | none => s
  | .bank b =>
    if (bank s b).phase = .resetting then mapBank b (fun k => { k with timer := some Config.bankConfirmMs }) s
    else s
  | .rule | .trough | .search | .fire | .hold _ => s

/-- R174, R121, R36, R141: a FAULTED driver reported to a requester of its pulse or its entry. -/
def driverFaulted (r : Requester) (s : State) : State :=
  match r with
  | .pocket p => jamAtFault p s
  | .trough => if s.trough.phase = .serveWait ∨ s.trough.phase = .serving then failServe s else s
  | .bank b =>
    match bankCfg s b with
    | some c => if (bank s b).phase = .resetting then faultBank b c s else s
    | none => s
  | .rule | .search | .fire | .hold _ => s

/-- R171: the entry's pulse starts: it leaves the queue and its driver is PULSING. -/
def energize (e : PulseEntry) (s : State) : State :=
  mapUnit e.driver
    (fun u => { u with phase := .pulsing, requesters := e.requesters,
                       onTime := scaledOnTime (driverCfg s e.driver).onTime e.percent })
    (s.mapDrivers fun c => { c with queue := c.queue.filter fun x => x.driver != e.driver })

/-- R170, R171: the pulses that can start now start, both at one moment where both slots are free; then the
waiting list is told, once, and after it has asked again the starts are reported (DESIGN CHOICE, log entry 10),
to the requesters of each set in the order they joined it (DESIGN CHOICE, log entry 48). -/
def startPulses (s : State) : State :=
  match startable s with
  | [] => s
  | es =>
    let s := es.foldl (fun t e => energize e t) s
    let s := tellWaiting s
    es.foldl (fun t e => e.requesters.foldl (fun t r => pulseStarted r t) t) s

/-- R171: the pulse of a driver leads into a hold. -/
def leadsToHold (d : DriverNo) (s : State) : Bool :=
  let u := unit s d
  u.requesters.contains (.hold d) && decide (0 < (driverCfg s d).holdPower) && !u.spent &&
    match (driverCfg s d).binding with
    | some f => isLit s f
    | none => false

/-- R175: the measured on-time (µs) and the scaled one (ms) differ by more than the tolerance (ms). -/
def mistimed (measured onTime tolerance : Nat) : Bool :=
  decide (tolerance * 1000 < measured - onTime * 1000) || decide (tolerance * 1000 < onTime * 1000 - measured)

/-- R175: a detail after a mistimed pulse. -/
def Detail.mistime : Detail → Detail
  | .none | .verify => .verify
  | .opened => .opened
  | .shorted => .shorted

/-- R171, R175: the pulse of driver `d` ends: verified, reported to the requesters of its set in the order they
joined it (DESIGN CHOICE, log entry 48), and into HOLDING or RECYCLE. -/
def endPulse (d : DriverNo) (measured : Nat) (s : State) : State :=
  let rs := (unit s d).requesters
  let late := mistimed measured (unit s d).onTime (driverCfg s d).tolerance
  let s := mapUnit d (fun u => { u with detail := if late then u.detail.mistime else u.detail }) s
  let s := rs.foldl (fun t r => pulseEnded r t) s
  let hold := leadsToHold d s
  let s := mapUnit d (fun u => { u with requesters := [], onTime := 0 }) s
  if hold then
    mapUnit d (fun u => { u with phase := .holding, maxHold := some ((driverCfg s d).maxHold * 1000) }) s
  else enterRecycle d s

/-- R174: driver `d` is FAULTED with detail `why`: the drive is cut, the requesters of its pulse are told, and
then any entry for it is removed (that order is DEDUCED from R174's sentences, log entry 49). R174 makes the
removal the moment of R169's notice, and does not say which comes first: the requesters of the removed entry
are told of the fault before the waiting list asks again (DESIGN CHOICE, log entry 49). The requesters of one
set are told in the order they joined it (DESIGN CHOICE, log entry 48). -/
def faultDriver (d : DriverNo) (why : Detail) (s : State) : State :=
  let rs := (unit s d).requesters
  let s := mapUnit d (fun u =>
    { u with phase := .faulted, detail := why, requesters := [], onTime := 0, recycle := none, maxHold := none }) s
  let s := rs.foldl (fun t r => driverFaulted r t) s
  match s.drivers.queue.find? fun e => e.driver == d with
  | none => s
  | some e =>
    let s := s.mapDrivers fun c => { c with queue := c.queue.filter fun x => x.driver != d }
    tellWaiting (e.requesters.foldl (fun t r => driverFaulted r t) s)

/-- R176, R172: CLEAR FAULTS at driver `d`: a FAULTED driver is IDLE again, every detail none; the hold
binding of a driver returned to IDLE requests it where its feature is effectively LIT. -/
def clearDriver (d : DriverNo) (s : State) : State :=
  let was := (unit s d).phase = .faulted
  let s := mapUnit d (fun u => { u with detail := .none, phase := if was then .idle else u.phase }) s
  if was then askAgain (.hold d) s else s

end Sys2Proof.Machine
end

