-- ==== Sys2Proof/Machine/Stations.lean ====
section
/-! DEFINITION. Station Control's commands: power-on, self-test, the reset line, the load of the image, and
the end of the joining period (R180 to R187). -/

namespace Sys2Proof.Machine

/-! ## Resets -/

/-- R181: LOADING begins: the memory is addressed for byte 0, the first poll of the first burst, and the next poll
is 10 ms away. -/
def beginLoading (s : State) : State :=
  setStation .loading (s.mapControl fun c => { c with load := { loadReset with timer := some Config.pollMs } })

/-- R187: the state while the reset line is asserted: the power-on values, but for the tallies, the player count
and CHECK ERRORS, which are kept, and the retained mark, which is set. -/
def lineReset (s : State) : State :=
  let fresh := powerOnState s.control.strap
  { fresh with
    pending := s.pending
    control := { fresh.control with
      station := .held, resetLine := s.control.resetLine, retained := true,
      playerCount := s.control.playerCount,
      counters := fresh.control.counters.set Counter.checkErrors.place (counter s .checkErrors) }
    rules := { fresh.rules with tallies := s.rules.tallies } }

/-- R180: every piece of state takes its power-on value, the straps reading `strap`. The level of the reset
input is the outside's, and stays. -/
def powerUp (strap : StationNo) (s : State) : State :=
  let fresh := powerOnState strap
  { fresh with
    pending := s.pending
    control := { fresh.control with resetLine := s.control.resetLine } }

/-- R180: the self-test ends. A pass enters LOADING, or the hold of a reset line still asserted. -/
def endSelftest (pass : Bool) (s : State) : State :=
  if s.control.station = .selftest then
    if pass then if s.control.resetLine then setStation .held s else beginLoading s
    else setStation .selftestFailed s
  else s

/-- The level of the reset input. -/
def setResetLine (v : Bool) (s : State) : State := s.mapControl fun c => { c with resetLine := v }

/-- R187, R180: the reset line is asserted: the station is held with the values of a reset; not taken in
SELFTEST. -/
def assertLine (s : State) : State :=
  match s.control.station with
  | .selftest | .selftestFailed | .held => setResetLine true s
  | _ => lineReset (setResetLine true s)

/-- R187: the reset line is released: a held station enters LOADING. -/
def releaseLine (s : State) : State :=
  let s := setResetLine false s
  if s.control.station = .held then beginLoading s else s

/-! ## The load -/

/-- R182, R184: the load fails: CONFIG is set and the station enters LISTEN-ONLY; the census timer starts
at the interval of a station with no image. -/
def failLoad (s : State) : State :=
  let s := setFlag .config (setStation .listenOnly s)
  s.mapPeers fun v => { v with timer := some s.control.image.censusInterval }

/-- The first enabled analog channel from number `n` on; A5 is always enabled (R9). -/
def enabledFrom (img : Image) (n : Nat) : ChannelNo :=
  ((List.finRange 6).find? fun c => decide (n ≤ c.val) && (img.channels.get c).enabled).getD 5

/-- R29: the initial resting states of the features section. -/
def initialFeatures (img : Image) : Tab 32 Resting := img.features.map (·.initial)

/-- R183, R185: the load succeeds: the image is corrected, and the station enters JOINING with its joining
and census timers started, scanning and converting, its features at their initial states. -/
def succeedLoad (bytes : List Byte) (s : State) : State :=
  let img := buildImage s.control.strap bytes
  let s := s.mapControl fun c =>
    { c with image := img, station := .joining, joining := some (2 * img.censusInterval) }
  let s := s.mapPeers fun v => { v with timer := some img.censusInterval }
  let s := s.mapScanner fun x => { x with running := true }
  let s := s.mapAnalog fun x => { x with running := true, turn := enabledFrom img 0 }
  let s := s.mapRules fun r =>
    { r with features := initialFeatures img
             contexts := r.contexts.map fun k => { k with features := initialFeatures img } }
  s.mapLamps fun x => { x with blink := 0 }

/-- R181: the image bytes read, once a burst of `burst` has been added: the first burst whole, a later one
up to the image length. -/
def withBurst (bytes : List Byte) (burst : Tab 16 Byte) : List Byte :=
  if bytes = [] then burst.cells else bytes ++ burst.cells.take (imageLength bytes - bytes.length)

/-- R181, R182: a burst has been read: the header is judged after the first, the image check after the
last, and otherwise the next burst begins, its first poll made and the next 10 ms away. -/
def takeBurst (burst : Tab 16 Byte) (s : State) : State :=
  if s.control.station = .loading then
    let bytes := withBurst s.control.load.bytes burst
    let s := s.mapControl fun c => { c with load := { loadReset with bytes := bytes } }
    if !headerGood bytes then failLoad s
    else if bytes.length < imageLength bytes then
      s.mapControl fun c => { c with load := { c.load with timer := some Config.pollMs } }
    else if checkGood bytes then succeedLoad bytes s
    else failLoad s
  else s

/-- R181: the poll timer expires and the memory is polled again. Acknowledged, it stops for the burst to be read;
unacknowledged, it restarts at 10 ms, or at the eighth poll of the burst the load fails. -/
def pollAgain (acknowledged : Bool) (s : State) : State :=
  if s.control.station = .loading ∧ s.control.load.acknowledged = false ∧ s.control.load.timer.isSome then
    let n := s.control.load.polls + 1
    let last : Bool := acknowledged || decide (Config.maxPolls ≤ n)
    let s := s.mapControl fun c =>
      { c with load := { c.load with
          polls := n, acknowledged := acknowledged, timer := if last then none else some Config.pollMs } }
    if !acknowledged && last then failLoad s else s
  else s

/-! ## The end of the joining period (R186) -/

/-- The game state that a census state reports, where it is READY, PLAY or TILT. -/
def CensusState.playing : CensusState → Option StationState
  | .ready => some .ready
  | .play => some .play
  | .tilt => some .tilt
  | .joining | .idle | .listenOnly => none

/-- R88: the candidate: the lowest-numbered PRESENT station whose record reports READY, PLAY or TILT, with
that game state. -/
def candidate (s : State) : Option (StationState × CensusRecord) :=
  (List.finRange 16).findSome? fun j =>
    let e := peer s j
    if e.presence = .present then
      e.record.bind fun r => r.state.playing.map fun st => (st, r)
    else none

/-- R186 step 1: the game state, the current player and the player count. -/
def enterGame (s : State) : State :=
  match candidate s with
  | some (st, r) =>
    (s.mapControl fun c => { c with station := st, playerCount := r.players }).mapRules fun e =>
      { e with current := r.player }
  | none => setStation .idle s

/-- The record of the configured trough station, if it is kept. -/
def troughRecord (s : State) : Option CensusRecord :=
  s.control.image.troughStation.bind fun j => (peer s j).record

/-- R88: the largest missing count among the records that report READY, PLAY or TILT, or 0. -/
def largestMissing (s : State) : Nat :=
  ((List.finRange 16).map fun j =>
    match (peer s j).record with
    | some r => if r.state.playing.isSome then r.missing else 0
    | none => 0).foldl max 0

/-- R88: the missing count handed over. -/
def missingAtJoin (s : State) : Nat :=
  min s.control.image.installed
    (match troughRecord s with
     | some r => r.missing
     | none => largestMissing s)

/-- R88: the counts handed over for station `j`: those of its record, unless it reports LISTEN-ONLY. -/
def countsAtJoin (s : State) (j : StationNo) : PeerCounts :=
  match (peer s j).record with
  | some r => if r.state = .listenOnly then s.balls.peers.get j else { held := r.held, stuck := r.stuck }
  | none => s.balls.peers.get j

/-- R88, R186 step 2: the accounting view handed over, B recomputed, the phase set, the quiet timer
started. -/
def accountAtJoin (s : State) : State :=
  let s := recomputeB (s.mapBalls fun b =>
    { b with peers := .ofFn (countsAtJoin s)
             trough := match (troughRecord s).bind (·.trough) with
               | some t => some t
               | none => b.trough
             missing := missingAtJoin s })
  let playing := s.control.station = .play ∨ s.control.station = .tilt
  restartQuiet (setPhase (if playing ∧ 2 ≤ s.balls.inPlay then .multi else .single) s)

/-- R106: the modes of every record's owned-and-active set are made, in PLAY and TILT; the hold bindings
wait for step 6 of R186 (log entry 29). A record that reports LISTEN-ONLY has its set taken as it was sent
(DEDUCED, log entry 38). -/
def modesAtJoin (s : State) : State :=
  if s.control.station = .play ∨ s.control.station = .tilt then
    eachUp 16 (fun j t =>
      match (peer t j).record with
      | some r => eachUp 32 (fun m u => if r.modes.get m then makeFromCensus (fun g => g) m j u else u) t
      | none => t) s
  else s

/-- R34: a DROP bank whose marks reach its completion count at the end of joining completes, unscored. -/
def bankAtJoin (b : BankNo) (s : State) : State :=
  match bankCfg s b with
  | some c =>
    if c.isDrop ∧ (bank s b).phase = .counting ∧ c.completion ≤ markedCount s c then dropCompletes b c s else s
  | none => s

/-- An operation on each fitted pocket, P0 to P3. -/
def eachPocket (f : PocketNo → PocketCfg → State → State) (s : State) : State :=
  eachUp 4 (fun p t =>
    match pocketCfg t p with
    | some c => f p c t
    | none => t) s

/-- R186: the end of the joining period, in its six steps; within a step pockets, banks and drivers are taken in
ascending number (DESIGN CHOICE, log entry 41). -/
def endJoining (s : State) : State :=
  if s.control.station = .joining ∧ s.control.joining.isSome then
    let s := s.mapControl fun c => { c with joining := none }
    let s := enterGame s
    let s := accountAtJoin s
    let s := modesAtJoin s
    let s := eachPocket judgeAtJoin s
    let s := eachUp 4 bankAtJoin s
    eachUp 8 (fun d t => askAgain (.hold d) t) s
  else s

/-! ## The commands -/

/-- POWER_ON (R180). -/
def execPowerOn (strap : StationNo) (s : State) : Host.Outcome State Fault Refusal :=
  taken (finish (powerUp strap s))

/-- SELFTEST_COMPLETE (R180). -/
def execSelftestComplete (pass : Bool) (s : State) : Host.Outcome State Fault Refusal :=
  taken (finish (endSelftest pass s))

/-- RESET_LINE_ASSERT (R187). -/
def execResetLineAssert (s : State) : Host.Outcome State Fault Refusal := taken (finish (assertLine s))

/-- RESET_LINE_RELEASE (R187). -/
def execResetLineRelease (s : State) : Host.Outcome State Fault Refusal := taken (finish (releaseLine s))

/-- LOAD_BURST_READ (R181). -/
def execLoadBurstRead (bytes : Tab 16 Byte) (s : State) : Host.Outcome State Fault Refusal :=
  taken (finish (takeBurst bytes s))

/-- LOAD_POLL_EXPIRY (R181). -/
def execLoadPollExpiry (acknowledged : Bool) (s : State) : Host.Outcome State Fault Refusal :=
  taken (finish (pollAgain acknowledged s))

/-- JOINING_TIMER_EXPIRY (R186). -/
def execJoiningTimerExpiry (s : State) : Host.Outcome State Fault Refusal := taken (finish (endJoining s))

end Sys2Proof.Machine
end

