-- ==== Sys2Proof/Machine/Sense.lean ====
section
/-! DEFINITION. The Switch Scanner's and the Analog Monitor's commands (R1 to R15): strobes and scan
completions, the delivery of switch events, stuck switches, conversions and round completions. -/

namespace Sys2Proof.Machine

/-! ## Strobes -/

/-- The switch at strobe line `line` and return line `i` (section 1.1). -/
def switchAt (line i : Fin 8) : SwitchNo := ⟨8 * line.val + i.val, by omega⟩

/-- R1: the eight switches of the strobe line in turn take their raw samples, and the next line is in turn;
the scan is complete at the end of line 7. A strobe commanded while a scan completion is still due is taken and
that completion is lost (DESIGN CHOICE, log entry 33). -/
def strobeLine (returns : Byte) (s : State) : State :=
  if s.scanner.running then
    s.mapScanner fun x =>
      { x with raw := eachUp 8 (fun i t => t.set (switchAt x.line i) (returns.getLsbD i.val)) x.raw
               line := x.line + 1
               scanEnd := x.line == 7 }
  else s

/-! ## Debounce -/

/-- R6: the switch is never timed for sticking: UNUSED (R3), TROUGH, or a member of a DROP bank. -/
def stuckExempt (s : State) (i : SwitchNo) : Bool :=
  let r := ruleOf s i
  match r.cls with
  | .unused | .trough => true
  | .bankMember =>
    match (fourOf r.index).bind (bankCfg s) with
    | some c => c.isDrop
    | none => false
  | .playfield | .pocketEntry | .direct => false

/-- The stuck timer of a switch that has just been found CLOSED. -/
def stuckTimer (s : State) (i : SwitchNo) : Timer := if stuckExempt s i then none else some Config.stuckMs

/-- Switch `i`. -/
def switch (s : State) (i : SwitchNo) : SwitchState := s.scanner.switches.get i

/-- R2, R6, R7: one switch after a scan completion: the count, or at its count the change of state, with the
stuck timer started or stopped and the stuck mark cleared. -/
def debounced (s : State) (i : SwitchNo) : SwitchState :=
  let x := switch s i
  let raw := s.scanner.raw.get i
  let r := ruleOf s i
  if raw = x.closed then { x with count := 0 }
  else if x.count + 1 < (if x.closed then r.openCount else r.closeCount) then { x with count := x.count + 1 }
  else if raw then { x with closed := true, count := 0, timer := stuckTimer s i }
  else { closed := false, count := 0, stuck := false, timer := none }

/-- R4: one switch after the baseline scan. -/
def baselined (s : State) (i : SwitchNo) : SwitchState :=
  let raw := s.scanner.raw.get i
  { closed := raw, count := 0, stuck := false, timer := if raw then stuckTimer s i else none }

/-- Every switch replaced by what `f` makes of it, the scan taken. -/
def scanWith (f : State → SwitchNo → SwitchState) (s : State) : State :=
  s.mapScanner fun x => { x with switches := .ofFn (f s), scanEnd := false, baseline := true }

/-! ## Delivery (R5) -/

/-- R5: the event restarts the quiet timer: the activity flag is set, and it is no release of a stuck
switch. -/
def activityOf (s : State) (i : SwitchNo) (stuckRelease : Bool) : Bool :=
  (ruleOf s i).activity && !stuckRelease

/-- R114: the Pocket Controller takes a close of a pocket's own entry switch, in the game states. -/
def pocketTakes (i : SwitchNo) (closes : Bool) (s : State) : State :=
  let r := ruleOf s i
  if closes ∧ r.cls = .pocketEntry ∧ inGame s then
    match fourOf r.index with
    | none => s
    | some p =>
      match pocketCfg s p with
      | some c => if c.entry = some i then entryCloses p c s else s
      | none => s
  else s

/-- R136: the Trough Controller restarts its settle timer at an event of a TROUGH-class switch. -/
def troughTakes (i : SwitchNo) (s : State) : State :=
  if (ruleOf s i).cls = .trough ∧ isTrough s then
    s.mapTrough fun t => { t with settle := some Config.troughSettleMs }
  else s

/-- R5: one switch event delivered to every receiver of its class: the Rule Engine, the Pocket Controller
after it (R114), the Trough Controller, the quiet timer. -/
def deliver (i : SwitchNo) (closes stuckRelease : Bool) (s : State) : State :=
  let s := troughTakes i (pocketTakes i closes (ruleTakes i closes s))
  if activityOf s i stuckRelease then restartQuiet s else s

/-- The event of switch `i` between the scans `before` and `after`: none where the state stands as it was
or the class is UNUSED (R3). -/
def deliverChange (before after : State) (i : SwitchNo) (s : State) : State :=
  let x := switch before i
  let y := switch after i
  if x.closed = y.closed ∨ (ruleOf before i).cls = .unused then s else deliver i y.closed (x.stuck && !y.closed) s

/-! ## Scan completions -/

/-- R32: the members of DROP bank `b` that the baseline scan finds CLOSED are marked. -/
def baselineMarks (b : BankNo) (s : State) : State :=
  match bankCfg s b with
  | some c => if c.isDrop then c.members.foldl (fun t i => setMark i (switch t i).closed t) s else s
  | none => s

/-- R4, R136: the baseline scan: states set directly, no events, the trough settle timer started. -/
def baselineScan (s : State) : State :=
  let s := eachUp 4 baselineMarks (scanWith baselined s)
  if isTrough s then s.mapTrough fun t => { t with settle := some Config.troughSettleMs } else s

/-- R2, R5, R35: a scan after the baseline: every switch debounced, the events delivered in switch order,
then the banks inside their confirm windows judged, after every hit of the scan (DESIGN CHOICE, log entry 35). -/
def laterScan (s : State) : State :=
  let t := scanWith debounced s
  eachUp 4 confirmAtScan (eachUp 64 (deliverChange s t) t)

/-- R2, R4: a scan completion. -/
def completeScan (s : State) : State :=
  if s.scanner.running ∧ s.scanner.scanEnd then
    if s.scanner.baseline then laterScan s else baselineScan s
  else s

/-- R6: the stuck timer of switch `i` expires: marked stuck, SWITCH set, STUCK SWITCHES raised. -/
def markStuck (i : SwitchNo) (s : State) : State :=
  if (switch s i).timer.isSome then
    raiseCounter .stuckSwitches (setFlag .switch (s.mapScanner fun x =>
      { x with switches := x.switches.modify i fun y => { y with stuck := true, timer := none } }))
  else s

/-! ## Conversions and rounds -/

/-- R10: one conversion of channel `c`: the sum and the count, and at the count N the average. -/
def ChannelState.take (n result : Nat) (x : ChannelState) : ChannelState :=
  let sum := x.sum + result
  let count := x.count + 1
  { x with sum := sum, count := count, average := if n ≤ count then sum / n else x.average }

/-- R10: channel `c`'s turn begins. -/
def beginTurn (c : ChannelNo) (a : Analog) : Analog :=
  { a with turn := c, channels := a.channels.modify c fun x => { x with sum := 0, count := 0 } }

/-- R10: a conversion of the channel in turn; at its Nth the next enabled channel is in turn, and after the
last of them the round is complete and the next begins. A conversion commanded while a round completion is still
due is taken and that completion is lost (DESIGN CHOICE, log entry 33). -/
def convert (result : Nat) (s : State) : State :=
  if s.analog.running then
    let img := s.control.image
    s.mapAnalog fun a =>
      let c := a.turn
      let a := { a with channels := a.channels.modify c (ChannelState.take img.averaging result), roundEnd := false }
      if (a.channels.get c).count < img.averaging then a
      else if c.val = 5 then { beginTurn (enabledFrom img 0) a with roundEnd := true }
      else beginTurn (enabledFrom img (c.val + 1)) a
  else s

/-- R12, R13: the level that a channel's last average gives: an opto at or above its on-threshold PRESENT,
at or below its off-threshold ABSENT; the supply at or above supply-ok OK, below supply-low LOW; otherwise
as it was. -/
def levelAfter (c : ChannelNo) (cfg : ChannelCfg) (x : ChannelState) : Bool :=
  if !cfg.enabled then x.level
  else if cfg.upper ≤ x.average then true
  else if (if c.val = 5 then x.average < cfg.lower else x.average ≤ cfg.lower) then false
  else x.level

/-- The level of channel `c`. -/
def levelOf (s : State) (c : ChannelNo) : Bool := (s.analog.channels.get c).level

/-- R12, R13: every enabled channel judged at a round completion. -/
def judgeLevels (s : State) : State :=
  s.mapAnalog fun a =>
    { a with roundEnd := false, firstDone := true
             channels := .ofFn fun c =>
               let x := a.channels.get c
               { x with level := levelAfter c (s.control.image.channels.get c) x } }

/-- R14: pocket `p` is handed channel `c`, where it names that channel as its opto. -/
def handPocket (before : State) (c : ChannelNo) (p : PocketNo) (s : State) : State :=
  match pocketCfg s p with
  | some cfg =>
    if cfg.opto.map Fin.val = some c.val then
      pocketRound p cfg (levelOf s c) (levelOf s c != levelOf before c) (!before.analog.firstDone) s
    else s
  | none => s

/-- R14, R140, R13: channel `c` handed to its receivers after the round: pockets for A0 to A3, the Trough
Controller for A4, Station Control for A5. Pockets that name the same channel take it in the order P0 to P3
(DESIGN CHOICE, log entry 34). -/
def handChannel (before : State) (c : ChannelNo) (s : State) : State :=
  if c.val < 4 then eachUp 4 (handPocket before c) s
  else if c.val = 4 then
    if isTrough s ∧ levelOf s 4 = true ∧ levelOf before 4 = false then laneTurnsPresent s else s
  else if levelOf s 5 then s
  else setFlag .supply s

/-- R14: a round completion. -/
def completeRound (s : State) : State :=
  if s.analog.running ∧ s.analog.roundEnd then eachUp 6 (handChannel s) (judgeLevels s) else s

/-! ## The commands -/

/-- STROBE (R1). -/
def execStrobe (returns : Byte) (s : State) : Host.Outcome State Fault Refusal :=
  taken (finish (strobeLine returns s))

/-- SCAN_COMPLETION (R2). -/
def execScanCompletion (s : State) : Host.Outcome State Fault Refusal := taken (finish (completeScan s))

/-- STUCK_TIMER_EXPIRY (R6). -/
def execStuckTimerExpiry (i : SwitchNo) (s : State) : Host.Outcome State Fault Refusal :=
  taken (finish (markStuck i s))

/-- CONVERSION (R10). -/
def execConversion (result : BitVec 10) (s : State) : Host.Outcome State Fault Refusal :=
  taken (finish (convert result.toNat s))

/-- ROUND_COMPLETION (R14). -/
def execRoundCompletion (s : State) : Host.Outcome State Fault Refusal := taken (finish (completeRound s))

end Sys2Proof.Machine
end

