-- ==== Sys2Proof/Machine/Timers.lean ====
section
/-! DEFINITION. The timers of pockets, banks, trough, modes, peers, search and drivers, and the blink clock.
Each expiry acts on the timer that runs; an expiry named while its timer is stopped changes nothing (log
entry 7). -/

namespace Sys2Proof.Machine

/-! ## Banks (R36) -/

/-- R36: the confirm timer of bank `b` expires: with a member still CLOSED the reset is tried again, or the
bank is FAULTED; with every member OPEN it is confirmed, as R35's next scan would (DEDUCED, log entry 17). -/
def bankTimerExpires (b : BankNo) (s : State) : State :=
  match bankCfg s b with
  | none => s
  | some c =>
    if (bank s b).phase = .resetting ∧ (bank s b).timer.isSome then
      if membersOpen s c then confirmBank b c s
      else if (bank s b).attempt < 2 then
        askReset b c (mapBank b (fun k => { k with attempt := 2, timer := none }) s)
      else faultBank b c s
    else s

/-! ## Pockets (R115, R116, R119, R120, R129) -/

/-- An expiry at pocket `p`, where it is fitted and `timer` of it runs. -/
def atPocket (p : PocketNo) (timer : PocketState → Timer) (f : PocketCfg → State → State) (s : State) : State :=
  match pocketCfg s p with
  | some c => if (timer (pocket s p)).isSome then f c s else s
  | none => s

/-- R115: the settle window of pocket `p` expires: a fly-by. -/
def settleExpires (p : PocketNo) (s : State) : State :=
  atPocket p PocketState.settle (fun _ =>
    mapPocket p fun x =>
      { x with settle := none, phase := if x.phase = .settling then .empty else x.phase }) s

/-- R116: the kickout timer of pocket `p` expires: one more eject is owed, and a pocket in KICKOUT-WAIT
starts it. -/
def kickoutExpires (p : PocketNo) (s : State) : State :=
  atPocket p PocketState.kickout (fun c s =>
    let waits := (pocket s p).phase = .kickoutWait
    let s := mapPocket p (fun x => { x with kickout := none, pending := x.pending + 1 }) s
    if waits then startEject p c 1 s else s) s

/-- R120: the confirm window of pocket `p` expires: its attempt has failed. -/
def windowExpires (p : PocketNo) (s : State) : State :=
  atPocket p PocketState.window (fun c s =>
    if (pocket s p).phase = .ejecting then failEject p c s else s) s

/-- R119: the re-arm timer of pocket `p` expires: its next eject starts. -/
def rearmExpires (p : PocketNo) (s : State) : State :=
  atPocket p PocketState.rearm (fun c s => if (pocket s p).phase = .rearm then startEject p c 1 s else s) s

/-- R129: the turn timer expires. -/
def turnExpires (s : State) : State :=
  match s.pockets.turn with
  | .waiting _ => takeTurn s
  | .idle | .taken _ => s

/-! ## Trough and combo (R136, R141, R51) -/

/-- R136: the trough settle timer expires. -/
def troughSettles (s : State) : State := if s.trough.settle.isSome then takeTroughCount s else s

/-- R141: the serve window expires. -/
def serveWindowExpires (s : State) : State :=
  if s.trough.phase = .serving ∧ s.trough.window.isSome then failServeAttempt s else s

/-- R51: the combo window expires. -/
def comboExpires (s : State) : State := if s.rules.comboTimer.isSome then endCombo s else s

/-! ## Peers and census (R81, R82, R100, R137) -/

/-- R81: the silence timer of station `j` expires: ABSENT. -/
def silenceExpires (j : StationNo) (s : State) : State :=
  if (peer s j).silence.isSome then mapPeer j (fun e => { e with presence := .absent, silence := none }) s else s

/-- R100: the mode is owned here, its remaining time is 0 and its end queued mark is clear. -/
def endOwed (s : State) (m : ModeId) : Bool :=
  match s.modes.get m with
  | some e => e.owner == strap s && e.time == .expired && !e.endQueued
  | none => false

/-- R100: at a census interval the owner offers its MODE ENDs again, in ascending mode id. -/
def reofferModeEnds (s : State) : State := eachUp 32 (fun m t => if endOwed t m then offerModeEnd m t else t) s

/-- R82: the census timer expires: it restarts, a CENSUS is offered, and in the game states the Mode Unit
and the Trough Controller are told that an interval has passed: the CENSUS, the MODE ENDs and the TROUGH are
offered in this order (DESIGN CHOICE, log entry 36). -/
def censusDue (s : State) : State :=
  if s.peers.timer.isSome then
    let s := s.mapPeers fun v => { v with timer := some s.control.image.censusInterval }
    let s := offer (.census (censusNow s)) s
    if inGame s then
      let s := reofferModeEnds s
      if isTrough s then repeatTrough s else s
    else s
  else s

/-! ## Modes (R98, R99, R101, R53, R39) -/

/-- R98, R99, R101: the timer of the entry of mode `m` expires. -/
def modeExpires (m : ModeId) (s : State) : State :=
  match s.modes.get m with
  | some e =>
    match e.time with
    | .running _ =>
      if e.owner = strap s then offerModeEnd m (putMode m (some { e with time := .expired }) s)
      else putMode m (some { e with time := .expired, ending := true, grace := some Config.graceMs }) s
    | .untimed | .expired => s
  | none => s

/-- R101: the grace timer of the entry of mode `m` expires: it ends, counted in BACKSTOP ENDS. -/
def graceExpires (m : ModeId) (s : State) : State :=
  match s.modes.get m with
  | some e => if e.grace.isSome then raiseCounter .backstopEnds (endMode m s) else s
  | none => s

/-- R53: a tick of the HURRY entry of mode `m`. -/
def hurryTicks (m : ModeId) (s : State) : State :=
  match s.modes.get m, modeDef s m with
  | some e, some d =>
    if e.kind = .hurry ∧ e.tick.isSome then
      putMode m (some { e with value := e.value.map (hurryAfterTick d), tick := some d.tick }) s
    else s
  | _, _ => s

/-- R39: the remaining time of the entry of mode `m` falls to 3 s. -/
def modeNearsEnd (m : ModeId) (s : State) : State :=
  match s.modes.get m with
  | some e =>
    match e.time with
    | .running r => putMode m (some { e with time := .running (min r Config.lastMs) }) s
    | .untimed | .expired => s
  | none => s

/-! ## The quiet timer and the search (R147, R148) -/

/-- R147, R148: the quiet timer expires: it stops, and a search begins in PLAY or TILT with B above 0. -/
def quietExpires (s : State) : State :=
  if s.balls.quiet.isSome then
    let s := s.mapBalls fun b => { b with quiet := none }
    if (s.control.station = .play ∨ s.control.station = .tilt) ∧ 0 < s.balls.inPlay then
      s.mapBalls fun b =>
        { b with search := .offset, round := 0, todo := [],
                 searchTimer := some ((strap s).val * Config.searchOffsetMs) }
    else s
  else s

/-- The search is in state `p` with its timer running. -/
def searching (p : SearchPhase) (s : State) : Bool := s.balls.search == p && s.balls.searchTimer.isSome

/-- R148: the offset timer expires: round 1 begins. -/
def offsetExpires (s : State) : State := if searching .offset s then searchRound s else s

/-- R148: a slot ends: the next driver is taken. -/
def slotExpires (s : State) : State := if searching .round s then searchOn s.balls.todo s else s

/-- R148: the search is DONE: the trough station declares one more ball missing. -/
def searchDone (s : State) : State :=
  let s := s.mapBalls fun b => { b with search := .done, searchTimer := none }
  if isTrough s ∧ s.balls.missing ≠ s.control.image.installed then
    offer (.missing (BitVec.ofNat 8 (s.balls.missing + 1))) s
  else s

/-- R148: the pause ends: the next round begins, or after round 3 the search is DONE. -/
def pauseExpires (s : State) : State :=
  if searching .pause s then if s.balls.round < 3 then searchRound s else searchDone s else s

/-! ## Drivers and lamps (R171 to R174, R179) -/

/-- R171: the scaled on-time of driver `d` has run. -/
def pulseEnds (d : DriverNo) (measured : Nat) (s : State) : State :=
  if (unit s d).phase = .pulsing then endPulse d measured s else s

/-- R172: the max hold timer of driver `d` expires: released, and spent. -/
def maxHoldExpires (d : DriverNo) (s : State) : State :=
  if (unit s d).phase = .holding ∧ (unit s d).maxHold.isSome then
    enterRecycle d (mapUnit d (fun u => { u with spent := true }) s)
  else s

/-- R173: the recycle timer of driver `d` expires. -/
def recycleExpires (d : DriverNo) (s : State) : State :=
  if (unit s d).phase = .recycle ∧ (unit s d).recycle.isSome then leaveRecycle d s else s

/-- R174: the pulse of driver `d` shows no current. -/
def openFound (d : DriverNo) (s : State) : State :=
  if (unit s d).phase = .pulsing then faultDriver d .opened s else s

/-- R174: overcurrent in driver `d` while PULSING or HOLDING. -/
def shortFound (d : DriverNo) (s : State) : State :=
  if (unit s d).phase = .pulsing ∨ (unit s d).phase = .holding then faultDriver d .shorted s else s

/-- R179: one twelfth of a second of the blink clock; kept within one second, which every pattern's period
divides. -/
def blinkTick (s : State) : State :=
  if s.control.station.running then s.mapLamps fun x => { x with blink := (x.blink + 1) % 12 } else s

/-! ## The commands -/

/-- BANK_CONFIRM_TIMER_EXPIRY (R36). -/
def execBankConfirmTimerExpiry (b : BankNo) (s : State) : Host.Outcome State Fault Refusal :=
  taken (finish (bankTimerExpires b s))

/-- SETTLE_WINDOW_EXPIRY (R115). -/
def execSettleWindowExpiry (p : PocketNo) (s : State) : Host.Outcome State Fault Refusal :=
  taken (finish (settleExpires p s))

/-- KICKOUT_TIMER_EXPIRY (R116). -/
def execKickoutTimerExpiry (p : PocketNo) (s : State) : Host.Outcome State Fault Refusal :=
  taken (finish (kickoutExpires p s))

/-- CONFIRM_WINDOW_EXPIRY (R120). -/
def execConfirmWindowExpiry (p : PocketNo) (s : State) : Host.Outcome State Fault Refusal :=
  taken (finish (windowExpires p s))

/-- REARM_TIMER_EXPIRY (R119). -/
def execRearmTimerExpiry (p : PocketNo) (s : State) : Host.Outcome State Fault Refusal :=
  taken (finish (rearmExpires p s))

/-- TURN_TIMER_EXPIRY (R129). -/
def execTurnTimerExpiry (s : State) : Host.Outcome State Fault Refusal := taken (finish (turnExpires s))

/-- TROUGH_SETTLE_TIMER_EXPIRY (R136). -/
def execTroughSettleTimerExpiry (s : State) : Host.Outcome State Fault Refusal := taken (finish (troughSettles s))

/-- SERVE_WINDOW_EXPIRY (R141). -/
def execServeWindowExpiry (s : State) : Host.Outcome State Fault Refusal := taken (finish (serveWindowExpires s))

/-- COMBO_WINDOW_EXPIRY (R51). -/
def execComboWindowExpiry (s : State) : Host.Outcome State Fault Refusal := taken (finish (comboExpires s))

/-- SILENCE_TIMER_EXPIRY (R81). -/
def execSilenceTimerExpiry (j : StationNo) (s : State) : Host.Outcome State Fault Refusal :=
  taken (finish (silenceExpires j s))

/-- CENSUS_TIMER_EXPIRY (R82). -/
def execCensusTimerExpiry (s : State) : Host.Outcome State Fault Refusal := taken (finish (censusDue s))

/-- MODE_TIMER_EXPIRY (R98). -/
def execModeTimerExpiry (m : ModeId) (s : State) : Host.Outcome State Fault Refusal :=
  taken (finish (modeExpires m s))

/-- GRACE_TIMER_EXPIRY (R101). -/
def execGraceTimerExpiry (m : ModeId) (s : State) : Host.Outcome State Fault Refusal :=
  taken (finish (graceExpires m s))

/-- HURRY_TICK_EXPIRY (R53). -/
def execHurryTickExpiry (m : ModeId) (s : State) : Host.Outcome State Fault Refusal :=
  taken (finish (hurryTicks m s))

/-- MODE_REMAINING_3S (R39). -/
def execModeRemaining3s (m : ModeId) (s : State) : Host.Outcome State Fault Refusal :=
  taken (finish (modeNearsEnd m s))

/-- QUIET_TIMER_EXPIRY (R147). -/
def execQuietTimerExpiry (s : State) : Host.Outcome State Fault Refusal := taken (finish (quietExpires s))

/-- OFFSET_TIMER_EXPIRY (R148). -/
def execOffsetTimerExpiry (s : State) : Host.Outcome State Fault Refusal := taken (finish (offsetExpires s))

/-- SEARCH_SLOT_EXPIRY (R148). -/
def execSearchSlotExpiry (s : State) : Host.Outcome State Fault Refusal := taken (finish (slotExpires s))

/-- PAUSE_TIMER_EXPIRY (R148). -/
def execPauseTimerExpiry (s : State) : Host.Outcome State Fault Refusal := taken (finish (pauseExpires s))

/-- PULSE_START (R170). -/
def execPulseStart (s : State) : Host.Outcome State Fault Refusal := taken (finish (startPulses s))

/-- PULSE_END (R171). -/
def execPulseEnd (d : DriverNo) (measured : Nat) (s : State) : Host.Outcome State Fault Refusal :=
  taken (finish (pulseEnds d measured s))

/-- MAX_HOLD_EXPIRY (R172). -/
def execMaxHoldExpiry (d : DriverNo) (s : State) : Host.Outcome State Fault Refusal :=
  taken (finish (maxHoldExpires d s))

/-- RECYCLE_TIMER_EXPIRY (R173). -/
def execRecycleTimerExpiry (d : DriverNo) (s : State) : Host.Outcome State Fault Refusal :=
  taken (finish (recycleExpires d s))

/-- OPEN_DETECTED (R174). -/
def execOpenDetected (d : DriverNo) (s : State) : Host.Outcome State Fault Refusal :=
  taken (finish (openFound d s))

/-- SHORT_DETECTED (R174). -/
def execShortDetected (d : DriverNo) (s : State) : Host.Outcome State Fault Refusal :=
  taken (finish (shortFound d s))

/-- BLINK_CLOCK_TICK (R179). -/
def execBlinkClockTick (s : State) : Host.Outcome State Fault Refusal := taken (finish (blinkTick s))

end Sys2Proof.Machine
end

