-- ==== Sys2Proof/Machine/LinkEvents.lean ====
section
/-! DEFINITION. The line itself (R58 to R71): rest gaps, sampled cells, lost arbitration, clashes and receive
errors; and what a completion does at the link before the blocks take it. -/

namespace Sys2Proof.Machine

/-- This station's Link Controller works (R78). -/
def onLink (s : State) : Bool := s.control.station.onLink

/-! ## Rest gaps and sampled cells -/

/-- R59: the line has been recessive for 12 cells: it is at rest, and the head of the queue is begun. A
station that is sending, receiving or holding the line dominant sees no rest. -/
def restGapSeen (s : State) : State :=
  match s.link.receive with
  | .receiving _ _ => s
  | .waiting | .atRest =>
    if onLink s ∧ s.link.sender = false ∧ s.link.hold = false then
      s.mapLink fun l => beginHead { l with receive := .atRest }
    else s

/-- The bit that this station sends at a cell, the start cell being cell 0; past the end of its bulletin, a
recessive line. -/
def sentBit (s : State) (cell : Nat) : Bool :=
  match onLineBulletin s.link with
  | some b => (false :: bulletinCells (strap s) b).getD cell true
  | none => true

/-- R71: the read-back of one cell, kept in the clash record. -/
def readBack (sent read : Bool) (l : LinkCtl) : LinkCtl :=
  { l with agreed := l.agreed && (!l.sender || sent == read) }

/-- R58, R59, R61, R65: one sampling point: at rest a dominant sample is a start cell; while a bulletin is
received the bit joins it and the remainder; while waiting for rest no cell is taken. A sample past the last check
cell is no cell of the bulletin: it joins nothing, and a sender's read-back stays as the last check cell left it
(DESIGN CHOICE, log entry 13). -/
def sample (dominant : Bool) (s : State) : State :=
  if onLink s then
    let bit := !dominant
    match s.link.receive with
    | .waiting => s
    | .atRest =>
      s.mapLink fun l =>
        { readBack (sentBit s 0) bit l with
          receive := if dominant then .receiving [] 0xFFFF#16 else .atRest }
    | .receiving bits check =>
      if cellsComplete bits then s
      else
        s.mapLink fun l =>
          { readBack (sentBit s (bits.length + 1)) bit l with receive := takeBit bits check bit }
  else s

/-! ## Lost arbitration, clashes, receive errors -/

/-- R62: the cells sampled show the loss: within the 12 cells of the arbitration field, the last bit read
is a 0 where a 1 was sent. With no cell sampled the command itself says so (log entry 11). -/
def showsLoss (s : State) : Bool :=
  match s.link.receive with
  | .receiving bits _ =>
    bits == [] || (decide (bits.length ≤ 12) && bits.getLast? == some false && sentBit s bits.length)
  | .waiting | .atRest => true

/-- R62, R69: arbitration lost: the station stops driving and takes the rest as a receiver; its entry keeps
its place and its attempt count. -/
def loseArbitration (s : State) : State :=
  if s.link.sender ∧ showsLoss s then
    s.mapLink fun l =>
      { yieldLine l with
        receive := match l.receive with
          | .receiving bits check => .receiving bits check
          | .waiting | .atRest => .receiving [] 0xFFFF#16 }
  else s

/-- R70: the entry on the line with its attempt count raised, and off the line. -/
def retryOnLine (l : LinkCtl) : LinkCtl :=
  asideInPlace
    { l with queue := l.queue.map fun e =>
               if e.onLine then { e with attempts := e.attempts + 1, onLine := false } else e
             sender := false, agreed := false }

/-- R70, R26, R100, R73: the block that queued `b` is told that its third clash has dropped it. -/
def toldDropped (b : Bulletin) (s : State) : State :=
  match b with
  | .collect m _ =>
    match modeOf m with
    | some m => s.mapRules fun r => { r with collects := r.collects.set m none }
    | none => s
  | .modeEnd m =>
    match modeOf m with
    | some m =>
      match s.modes.get m with
      | some e => putMode m (some { e with endQueued := false }) s
      | none => s
    | none => s
  | .census _ => offerAside s
  | _ => s

/-- R70: a clash: the line is held dominant, CLASHES rises, the attempt count rises, and the third clash
drops the entry and sets LINK. -/
def takeClash (s : State) : State :=
  if s.link.sender then
    let s := raiseCounter .clashes s
    match s.link.queue.find? fun e => e.onLine with
    | none => s.mapLink fun l => { l with sender := false, agreed := false, hold := true, receive := .waiting }
    | some e =>
      if e.attempts < 2 then
        s.mapLink fun l => { retryOnLine l with hold := true, receive := .waiting }
      else
        toldDropped e.bulletin (setFlag .link
          (s.mapLink fun l => { dropOnLine l with hold := true, receive := .waiting }))
  else s

/-- R70: the 24 µs are over: the line is released. -/
def endHold (s : State) : State := s.mapLink fun l => { l with hold := false }

/-- R60, R61, R63: the cells sampled spell a bulletin whole: its last check cell is read, its check has passed and
it is valid. It is then complete, whoever sent it. -/
def readWhole (s : State) : Bool :=
  match s.link.receive with
  | .receiving bits check => (spelled bits check).isSome
  | .waiting | .atRest => false

/-- R65: a receive error: CHECK ERRORS, LINK, and back to waiting for rest, where the bulletin discarded can no
longer complete. One bulletin gives one at most, a sender does not judge its own, and one that is read whole
and good has none left to give (DEDUCED, log entry 12). -/
def takeError (s : State) : State :=
  if onLink s ∧ s.link.sender = false ∧ s.link.receive ≠ .waiting ∧ readWhole s = false then
    raiseCounter .checkErrors (setFlag .link (s.mapLink fun l => { l with receive := .waiting }))
  else s

/-! ## Completions (R66, R67, R71) -/

/-- The cells sampled spell this bulletin; with the line at rest and no cell sampled the command itself says so
(log entry 11). R59, R65: a station that waits for rest takes no bulletin, so after a reset, a completion, a
clash or a receive error none completes before the next REST_GAP. -/
def cellsAgree (origin : StationNo) (b : Bulletin) (s : State) : Bool :=
  match s.link.receive with
  | .receiving bits check => bits == [] || spelled bits check == some (origin, b)
  | .atRest => true
  | .waiting => false

/-- R63: a payload is 0 to 10 bytes; only a STATUS of more than 9 data bytes is longer. -/
def sendable (b : Bulletin) : Bool := decide (b.payload.length ≤ 10)

/-- R67, R71: the completed bulletin is the one this station has been sending to its end. -/
def isOwn (origin : StationNo) (b : Bulletin) (s : State) : Bool :=
  s.link.sender && s.link.agreed && origin == strap s && onLineBulletin s.link == some b

/-- R69, R73: the end of a bulletin at the link: this station's own leaves the queue; another's completion
means that a sender here has lost arbitration; the line is no longer at rest. -/
def endOnLine (own : Bool) (s : State) : State :=
  let s := s.mapLink fun l => { l with receive := .waiting }
  if own then
    match onLineBulletin s.link with
    | some (.census _) => offerAside (s.mapLink dropOnLine)
    | _ => s.mapLink dropOnLine
  else if s.link.sender then s.mapLink yieldLine
  else s

/-- R71, R81: a bulletin of this station's own number that it was not sending sets LINK and raises CLASHES;
one of another station makes that station PRESENT. -/
def noteOrigin (origin : StationNo) (own : Bool) (s : State) : State :=
  if own then s
  else if origin = strap s then raiseCounter .clashes (setFlag .link s)
  else heard origin s

/-- R66, R67: bulletin `b` from `origin` completes. In the game states the blocks take it by `act`, and in
JOINING and LISTEN-ONLY the Peer View by `gather`, each told whether it is this station's own. -/
def complete (origin : StationNo) (b : Bulletin) (act gather : Bool → State → State) (s : State) : State :=
  if onLink s ∧ sendable b ∧ cellsAgree origin b s then
    let own := isOwn origin b s
    let t := noteOrigin origin own (endOnLine own s)
    if inGame t then act own t else gather own t
  else s

/-- No effect beyond the Peer View's presence. -/
def nothing (_own : Bool) (s : State) : State := s

/-- The table of commands has a row for the completion of this bulletin: every one but a CLEAR whose second byte
is not 1, 2 or 3. -/
def hasRow : Bulletin → Bool
  | .clear _ what => decide (1 ≤ what.toNat) && decide (what.toNat ≤ 3)
  | _ => true

/-- R60, R66, R191: a CLEAR that has no command of its own completes at the sampling point of its last check
cell: presence and the receive state are taken, and the CLEAR itself is ignored (DESIGN CHOICE, log entry 23). -/
def completeRowless (s : State) : State :=
  match s.link.receive with
  | .receiving bits check =>
    match spelled bits check with
    | some (origin, b) => if hasRow b then s else complete origin b nothing nothing s
    | none => s
  | .waiting | .atRest => s

/-! ## The commands -/

/-- REST_GAP (R59). -/
def execRestGap (s : State) : Host.Outcome State Fault Refusal := taken (finish (restGapSeen s))

/-- LOST_ARBITRATION (R62). -/
def execLostArbitration (s : State) : Host.Outcome State Fault Refusal := taken (finish (loseArbitration s))

/-- CLASH (R70). -/
def execClash (s : State) : Host.Outcome State Fault Refusal := taken (finish (takeClash s))

/-- CLASH_HOLD_END (R70). -/
def execClashHoldEnd (s : State) : Host.Outcome State Fault Refusal := taken (finish (endHold s))

/-- RECEIVE_ERROR (R65). -/
def execReceiveError (s : State) : Host.Outcome State Fault Refusal := taken (finish (takeError s))

/-- SAMPLING_POINT (R58). -/
def execSamplingPoint (dominant : Bool) (s : State) : Host.Outcome State Fault Refusal :=
  taken (finish (completeRowless (sample dominant s)))

end Sys2Proof.Machine
end

