-- ==== Sys2Proof/Machine/GameFlow.lean ====
section
/-! DEFINITION. The game bulletins at their completion (R152 to R162), FEATURE SET (R28, R162) and AWARD
(R50). -/

namespace Sys2Proof.Machine

/-! ## Banks and contexts -/

/-- Switch `i` is a member of a STANDUP bank. -/
def inStandup (s : State) (i : SwitchNo) : Bool :=
  (List.finRange 4).any fun b =>
    match bankCfg s b with
    | some c => !c.isDrop && c.members.contains i
    | none => false

/-- Feature `f` is a member feature of a FAULTED bank. -/
def inFaulted (s : State) (f : FeatureNo) : Bool :=
  (List.finRange 4).any fun b =>
    match bankCfg s b with
    | some c => (bank s b).phase == .faulted && (memberFeatures s c).contains f
    | none => false

/-- The context of player `p`. -/
def context (s : State) (p : Player) : Context := s.rules.contexts.get p

/-- R157 steps 1 and 2: what the current player's context becomes. -/
def savedContext (s : State) : Context :=
  { features := .ofFn fun f => if resting s f = .off ∧ inFaulted s f then .dark else resting s f
    marks := .ofFn fun i => s.rules.marks.get i && inStandup s i }

/-- R157 steps 3 and 4: player `p` is up: the features and the STANDUP marks of that player's context are
live; the marks of DROP banks stay. The hold bindings follow this load, before step 5 (DESIGN CHOICE, log
entry 29). -/
def loadPlayer (p : Player) (s : State) : State :=
  changeLit (fun s => s.mapRules fun r =>
    { r with current := p, features := (context s p).features
             marks := .ofFn fun i => if inStandup s i then (context s p).marks.get i else r.marks.get i }) s

/-- R157 step 5: the member features of FAULTED banks are OFF, the hold bindings following once more: the request
that a member loaded LIT made at step 4 stays queued (DESIGN CHOICE, log entry 29). -/
def darkenFaulted (b : BankNo) (s : State) : State :=
  match bankCfg s b with
  | some c => if (bank s b).phase = .faulted then setFeatures (fun _ => true) .off (memberFeatures s c) s else s
  | none => s

/-- R157: the change of player; the hold bindings follow its steps 4 and 5 each on its own, and FAULTED banks are
taken in ascending number (DESIGN CHOICE, log entries 29 and 41). -/
def swapPlayers (p : Player) (s : State) : State :=
  let s := s.mapRules fun r => { r with contexts := r.contexts.set r.current (savedContext s) }
  eachUp 4 darkenFaulted (loadPlayer p s)

/-- R158, R37: at PLAYER UP a COUNTING DROP bank begins its reset. -/
def raiseBank (b : BankNo) (s : State) : State :=
  match bankCfg s b with
  | some c => if c.isDrop ∧ (bank s b).phase = .counting then beginReset b c false s else s
  | none => s

/-- R34, R155: at GAME START a COUNTING DROP bank with a member marked begins its reset. -/
def raiseMarkedBank (b : BankNo) (s : State) : State :=
  match bankCfg s b with
  | some c =>
    if c.isDrop ∧ (bank s b).phase = .counting ∧ 0 < markedCount s c then beginReset b c false s else s
  | none => s

/-! ## The game bulletins -/

/-- R155 step 4: the features and every context at their initial states, and no STANDUP mark. -/
def freshContexts (s : State) : State :=
  changeLit (fun s => s.mapRules fun r =>
    { r with features := initialFeatures s.control.image
             contexts := .fill 4 { features := initialFeatures s.control.image, marks := .fill 64 false }
             marks := .ofFn fun i => if inStandup s i then false else r.marks.get i }) s

/-- R155: a new game for `count` players, in its seven steps; the DROP banks request their resets in ascending
bank number (DESIGN CHOICE, log entry 41). -/
def newGame (count : Nat) (s : State) : State :=
  let s := s.mapControl fun c => { c with playerCount := count, retained := false }
  let s := s.mapRules fun r => { r with tallies := .fill 4 0, current := 0 }
  let s := freshContexts s
  let s := s.mapBalls fun b => { b with credits := .fill 4 0, phase := .single }
  setStation .ready (eachUp 4 raiseMarkedBank s)

/-- R153, R155: GAME START. -/
def takeGameStart (count : Byte) (s : State) : State :=
  if s.control.station = .idle ∧ 1 ≤ count.toNat ∧ count.toNat ≤ 4 then newGame count.toNat s else s

/-- R153, R157, R158: PLAYER UP; the DROP banks request their resets in ascending bank number (DESIGN CHOICE, log
entry 41). -/
def takePlayerUp (player : Byte) (s : State) : State :=
  if s.control.station = .ready then
    match playerOf s.control.playerCount player with
    | some p => eachUp 4 raiseBank (swapPlayers p s)
    | none => s
  else s

/-- R153, R156: SERVE. -/
def takeServe (count : Byte) (s : State) : State :=
  if count.toNat = 0 then s
  else
    match s.control.station with
    | .ready => oweServes (min 6 count.toNat) (setStation .play s)
    | .play => oweServes (min 6 count.toNat) s
    | _ => s

/-- R153, R159: TILT. -/
def takeTilt (s : State) : State :=
  if s.control.station = .play then
    let s := clearServes (setStation .tilt s)
    judgeZero .tilt s.balls.inPlay false s
  else s

/-- R161: GAME END, in its six steps. -/
def takeGameEnd (s : State) : State :=
  setStation .idle (endSearch (clearServes (setPhase .single (endCombo (endAllModes s)))))

/-! ## FEATURE SET and AWARD -/

/-- R28, R162: the player that a FEATURE SET names: `some none` for the player now up. -/
def featurePlayer (s : State) (player : Byte) : Option (Option Player) :=
  if player.toNat = 0 then some none
  else (playerOf s.control.playerCount player).map fun p => if p = s.rules.current then none else some p

/-- R28, R162: FEATURE SET. -/
def takeFeatureSet (target feature state player : Byte) (s : State) : State :=
  if addressed s target then
    match featureOf feature, settable state, featurePlayer s player with
    | some f, some r, some none => setFeature f r s
    | some f, some r, some (some p) =>
      s.mapRules fun e =>
        { e with contexts := e.contexts.modify p fun k => { k with features := k.features.set f r } }
    | _, _, _ => s
  else s

/-- R50: a combo-flagged AWARD in PLAY raises the combo count and restarts its window. -/
def takeCombo (s : State) : State :=
  s.mapRules fun r =>
    { r with combo := min Config.comboMax (r.combo + 1), comboTimer := some s.control.image.comboWindow }

/-- R50, R147: AWARD. -/
def takeAward (p : AwardPayload) (s : State) : State :=
  restartQuiet (if p.combo ∧ inPlay s then takeCombo s else s)

/-! ## The commands -/

/-- TILT (R159). -/
def execTilt (origin : StationNo) (s : State) : Host.Outcome State Fault Refusal :=
  taken (finish (complete origin .tilt (fun _ => takeTilt) nothing s))

/-- GAME_START (R155). -/
def execGameStart (origin : StationNo) (count : Byte) (s : State) : Host.Outcome State Fault Refusal :=
  taken (finish (complete origin (.gameStart count) (fun _ => takeGameStart count) nothing s))

/-- GAME_END (R161). -/
def execGameEnd (origin : StationNo) (s : State) : Host.Outcome State Fault Refusal :=
  taken (finish (complete origin .gameEnd (fun _ => takeGameEnd) nothing s))

/-- PLAYER_UP (R157). -/
def execPlayerUp (origin : StationNo) (player : Byte) (s : State) : Host.Outcome State Fault Refusal :=
  taken (finish (complete origin (.playerUp player) (fun _ => takePlayerUp player) nothing s))

/-- SERVE (R156). -/
def execServe (origin : StationNo) (count : Byte) (s : State) : Host.Outcome State Fault Refusal :=
  taken (finish (complete origin (.serve count) (fun _ => takeServe count) nothing s))

/-- FEATURE_SET (R28). -/
def execFeatureSet (origin : StationNo) (target feature state player : Byte) (s : State) :
    Host.Outcome State Fault Refusal :=
  taken (finish (complete origin (.featureSet target feature state player)
    (fun _ => takeFeatureSet target feature state player) nothing s))

/-- AWARD (R50). -/
def execAward (origin : StationNo) (p : AwardPayload) (s : State) : Host.Outcome State Fault Refusal :=
  taken (finish (complete origin (.award p) (fun _ => takeAward p) nothing s))

end Sys2Proof.Machine
end

