-- ==== Sys2Proof/Machine/Completions.lean ====
section
/-! DEFINITION. The completions of the balls, the modes and the census: LOCK, TROUGH, MISSING (R133 to R146),
MODE START, MODE END, JACKPOT ADD, COLLECT (R52 to R56, R96 to R102) and CENSUS (R85 to R88). -/

namespace Sys2Proof.Machine

/-! ## What the Peer View gathers in JOINING (R88) -/

/-- R88: the records are kept current from a bulletin only while JOINING. -/
def gatherRecord (j : StationNo) (f : CensusRecord → CensusRecord) (s : State) : State :=
  if joining s then mapRecord j f s else s

/-- R88: a LOCK sets the counts of the pocket it names in its origin's record. -/
def gatherLock (origin : StationNo) (x : LockPayload) (s : State) : State :=
  gatherRecord origin (fun r =>
    { r with held := r.held.set x.pocket (countOf x.held), stuck := r.stuck.set x.pocket (countOf x.stuck) }) s

/-- R88: a TROUGH of the configured trough station sets its record's trough count; above 6 taken as 6. -/
def gatherTrough (origin : StationNo) (count : Byte) (s : State) : State :=
  if s.control.image.troughStation = some origin then
    gatherRecord origin (fun r => { r with trough := some (min 6 count.toNat) }) s
  else s

/-- R88: a MISSING of the configured trough station sets its record's missing count. -/
def gatherMissing (origin : StationNo) (count : Byte) (s : State) : State :=
  if s.control.image.troughStation = some origin then
    gatherRecord origin (fun r => { r with missing := min 6 count.toNat }) s
  else s

/-! ## CENSUS -/

/-- R85: the contents take the place of the origin's record. -/
def storeRecord (origin : StationNo) (r : CensusRecord) (s : State) : State :=
  mapPeer origin (fun e => { e with record := some r }) s

/-- R86: a signature that differs sets CONFIG, where both stations come from a good load. -/
def compareSignature (r : CensusRecord) (s : State) : State :=
  if s.control.station ≠ .listenOnly ∧ r.state ≠ .listenOnly ∧ r.signature ≠ s.control.image.signature then
    setFlag .config s
  else s

/-- R87: the contents of a peer's census handed on. -/
def handOn (origin : StationNo) (r : CensusRecord) (s : State) : State :=
  if r.state = .listenOnly then reconcile origin (.fill 32 false) s
  else reconcile origin r.modes (takeCensusCounts origin r s)

/-- R85: a CENSUS taken in a game state. -/
def takeCensus (origin : StationNo) (x : CensusPayload) (own : Bool) (s : State) : State :=
  let r := recordOf x
  if own then s
  else if origin = strap s then compareSignature r s
  else handOn origin r (compareSignature r (storeRecord origin r s))

/-- R85, R88: a CENSUS taken in JOINING or LISTEN-ONLY. -/
def gatherCensus (origin : StationNo) (x : CensusPayload) (own : Bool) (s : State) : State :=
  let r := recordOf x
  if own then s
  else if origin = strap s then compareSignature r s
  else compareSignature r (storeRecord origin r s)

/-! ## Modes and collects -/

/-- R96: MODE START. -/
def takeModeStart (origin : StationNo) (mode duration : Byte) (s : State) : State :=
  match modeOf mode with
  | some m => startMode m origin duration.toNat s
  | none => s

/-- R102: MODE END. -/
def takeModeEnd (mode : Byte) (s : State) : State :=
  match modeOf mode with
  | some m => if modeIn s m then endMode m s else s
  | none => s

/-- R52: JACKPOT ADD. -/
def takeJackpotAdd (mode : Byte) (s : State) : State :=
  match modeOf mode with
  | none => s
  | some m =>
    match s.modes.get m, modeDef s m with
    | some e, some d =>
      if e.kind = .jackpot then putMode m (some { e with value := e.value.map (jackpotAfterAdd d) }) s else s
    | _, _ => s

/-- R54: what the collector scores: the entry's value, the recorded group, the player credited. -/
def settlement (m : ModeId) (player : Byte) (s : State) : Option (Player × Nat × Fin 8) :=
  match s.modes.get m, s.rules.collects.get m, playerOf s.control.playerCount player with
  | some e, some g, some p =>
    if (e.kind = .jackpot ∨ e.kind = .hurry) ∧ inPlay s then e.value.map fun v => (p, v, g) else none
  | _, _, _ => none

/-- R54, R56: the collector settles, and in every case clears its mark. -/
def settleCollect (m : ModeId) (player : Byte) (s : State) : State :=
  let s := match settlement m player s with
    | some (p, v, g) => award p v g .collect s
    | none => s
  s.mapRules fun r => { r with collects := r.collects.set m none }

/-- R55: the effect of a COLLECT on the entry, at every station. -/
def collectEffect (m : ModeId) (s : State) : State :=
  match s.modes.get m, modeDef s m with
  | some e, some d =>
    match e.kind with
    | .jackpot => putMode m (some { e with value := some d.base }) s
    | .hurry => endMode m s
    | .plain | .multiply => s
  | _, _ => s

/-- R54, R55: COLLECT. -/
def takeCollect (mode player : Byte) (own : Bool) (s : State) : State :=
  match modeOf mode with
  | none => s
  | some m => collectEffect m (if own then settleCollect m player s else s)

/-! ## The commands -/

/-- LOCK (R145). -/
def execLock (origin : StationNo) (p : LockPayload) (s : State) : Host.Outcome State Fault Refusal :=
  taken (finish (complete origin (.lock p) (fun _ => takeLock origin p) (fun _ => gatherLock origin p) s))

/-- TROUGH (R138). -/
def execTrough (origin : StationNo) (count reason : Byte) (s : State) : Host.Outcome State Fault Refusal :=
  taken (finish (complete origin (.trough count reason) (fun _ => takeTrough count reason)
    (fun _ => gatherTrough origin count) s))

/-- MISSING (R135). -/
def execMissing (origin : StationNo) (count : Byte) (s : State) : Host.Outcome State Fault Refusal :=
  taken (finish (complete origin (.missing count) (fun _ => takeMissing count) (fun _ => gatherMissing origin count) s))

/-- MODE_START (R96). -/
def execModeStart (origin : StationNo) (mode duration : Byte) (s : State) : Host.Outcome State Fault Refusal :=
  taken (finish (complete origin (.modeStart mode duration) (fun _ => takeModeStart origin mode duration)
    nothing s))

/-- MODE_END (R102). -/
def execModeEnd (origin : StationNo) (mode : Byte) (s : State) : Host.Outcome State Fault Refusal :=
  taken (finish (complete origin (.modeEnd mode) (fun _ => takeModeEnd mode) nothing s))

/-- COLLECT (R55). -/
def execCollect (origin : StationNo) (mode player : Byte) (s : State) : Host.Outcome State Fault Refusal :=
  taken (finish (complete origin (.collect mode player) (takeCollect mode player) nothing s))

/-- JACKPOT_ADD (R52). -/
def execJackpotAdd (origin : StationNo) (mode : Byte) (s : State) : Host.Outcome State Fault Refusal :=
  taken (finish (complete origin (.jackpotAdd mode) (fun _ => takeJackpotAdd mode) nothing s))

/-- CENSUS (R85). -/
def execCensus (origin : StationNo) (p : CensusPayload) (s : State) : Host.Outcome State Fault Refusal :=
  taken (finish (complete origin (.census p) (takeCensus origin p) (gatherCensus origin p) s))

end Sys2Proof.Machine
end

