-- ==== Sys2Proof/Machine/Service.lean ====
section
/-! DEFINITION. The service bulletins (R177, R188 to R192): QUERY and its STATUS, CLEAR, FIRE, RESTART. -/

namespace Sys2Proof.Machine

/-! ## STATUS data (R192) -/

/-- A number as one byte. -/
def byte (n : Nat) : Byte := BitVec.ofNat 8 n

/-- R192: the two bits of a driver's detail. -/
def Detail.code : Detail → Nat
  | .none => 0
  | .opened => 1
  | .shorted => 2
  | .verify => 3

/-- R192 item 1: the details of drivers D4k to D4k+3, the lowest in bits 1..0. -/
def detailsByte (s : State) (k : Nat) : Byte :=
  let code (i : Nat) : Nat := ((s.drivers.units.cells.map fun u => u.detail.code).getD (4 * k + i) 0)
  byte (code 0 + 4 * code 1 + 16 * code 2 + 64 * code 3)

/-- R192: the half-byte of feature `f`: its resting state, and 8 while lit by mode overlay. -/
def halfByte (s : State) (f : FeatureNo) : Nat := (resting s f).code + (if litByOverlay s f then 8 else 0)

/-- R192 items 5 and 6: the eight bytes of features `base` to `base` + 15. -/
def featureBytes (s : State) (base : Fin 17) : List Byte :=
  (List.finRange 8).map fun i =>
    byte (16 * halfByte s ⟨base.val + 2 * i.val, by omega⟩ + halfByte s ⟨base.val + 2 * i.val + 1, by omega⟩)

/-- R192: the data of a STATUS for `item`, as the state now stands; none for an item above 7, or for item 0
whose argument names no player. -/
def statusData (item argument : Byte) (s : State) : List Byte :=
  match item.toNat with
  | 0 =>
    match playerOf 4 argument with
    | some p => argument :: fourBytes (s.rules.tallies.get p)
    | none => []
  | 1 => [faultByte s, maskByte s, detailsByte s 0, detailsByte s 1]
  | 2 => s.control.counters.cells.map byte
  | 3 =>
    [byte (s.balls.trough.getD 7), byte (totalHeld s), byte (totalStuck s), byte s.balls.missing,
     byte s.balls.inPlay, byte (if s.balls.phase = .multi then 1 else 0)]
  | 4 => modesBytes (s.modes.map Option.isSome) ++ [byte (modeCount s)]
  | 5 => featureBytes s 0
  | 6 => featureBytes s 16
  | 7 =>
    [s.control.image.format, byte ((if isTrough s then 1 else 0) + (if s.control.retained then 2 else 0)),
     s.control.image.signature, byte s.control.station.code]
  | _ => []

/-- R192: a QUERY addressed to this station is answered with a STATUS. -/
def takeQuery (target item argument : Byte) (s : State) : State :=
  if targets s target then offer (.status item (statusData item argument s)) s else s

/-! ## FIRE, CLEAR, RESTART -/

/-- R177: FIRE, taken in IDLE. -/
def takeFire (target driver : Byte) (s : State) : State :=
  if targets s target ∧ s.control.station = .idle then
    match driverOf driver with
    | some d => request d .search 100 .fire s
    | none => s
  else s

/-- R37: a FAULTED bank restarts. -/
def restartBank (b : BankNo) (s : State) : State :=
  match bankCfg s b with
  | some c => if (bank s b).phase = .faulted then beginReset b c true s else s
  | none => s

/-- R188: SWITCH set again while a switch is marked stuck. -/
def switchAgain (s : State) : State :=
  if s.scanner.switches.any fun x => x.stuck then setFlag .switch s else s

/-- R188, R134: ACCOUNTING set again while the sum is negative. -/
def accountingAgain (s : State) : State := if sumNegative s then setFlag .accounting s else s

/-- R188: CLEAR FAULTS, in its steps; within a step drivers, pockets and banks are taken in ascending number
(DESIGN CHOICE, log entry 41). A LOCK FREED of a restart that a full queue refuses sets TRANSMIT again, as any
refusal does (DESIGN CHOICE, log entry 47). -/
def clearFaultsNow (s : State) : State :=
  let s := eachUp 8 clearDriver (clearFlags s)
  let s := eachUp 4 restartBank (eachPocket restartPocket s)
  accountingAgain (switchAgain s)

/-- R191: a CLEAR of FAULTS. -/
def takeClearFaults (target : Byte) (s : State) : State := if addressed s target then clearFaultsNow s else s

/-- R191, R190: a CLEAR of COUNTS. -/
def takeClearCounts (target : Byte) (s : State) : State := if addressed s target then clearCounters s else s

/-- R191: a CLEAR of BOTH: the faults first, then the counts, so a TX DROPS that a restart's LOCK FREED raises at
a full queue ends at 0 (DESIGN CHOICE, log entry 45). -/
def takeClearBoth (target : Byte) (s : State) : State :=
  if addressed s target then clearCounters (clearFaultsNow s) else s

/-- R187: a RESTART addressed to this station: the reset line asserted and released. -/
def takeRestart (target : Byte) (s : State) : State :=
  if targets s target then beginLoading (lineReset s) else s

/-! ## The commands -/

/-- STATUS (R66): presence alone. -/
def execStatus (origin : StationNo) (item : Byte) (data : List Byte) (s : State) :
    Host.Outcome State Fault Refusal :=
  taken (finish (complete origin (.status item data) nothing nothing s))

/-- QUERY (R192). -/
def execQuery (origin : StationNo) (target item argument : Byte) (s : State) :
    Host.Outcome State Fault Refusal :=
  taken (finish (complete origin (.query target item argument) (fun _ => takeQuery target item argument)
    (fun _ => takeQuery target item argument) s))

/-- FIRE (R177). -/
def execFire (origin : StationNo) (target driver : Byte) (s : State) : Host.Outcome State Fault Refusal :=
  taken (finish (complete origin (.fire target driver) (fun _ => takeFire target driver) nothing s))

/-- CLEAR_FAULTS (R188): second byte 1. -/
def execClearFaults (origin : StationNo) (target : Byte) (s : State) : Host.Outcome State Fault Refusal :=
  taken (finish (complete origin (.clear target 1) (fun _ => takeClearFaults target) nothing s))

/-- CLEAR_COUNTS (R190): second byte 2. -/
def execClearCounts (origin : StationNo) (target : Byte) (s : State) : Host.Outcome State Fault Refusal :=
  taken (finish (complete origin (.clear target 2) (fun _ => takeClearCounts target) nothing s))

/-- CLEAR_BOTH (R191): second byte 3. -/
def execClearBoth (origin : StationNo) (target : Byte) (s : State) : Host.Outcome State Fault Refusal :=
  taken (finish (complete origin (.clear target 3) (fun _ => takeClearBoth target) nothing s))

/-- RESTART (R187). -/
def execRestart (origin : StationNo) (target : Byte) (s : State) : Host.Outcome State Fault Refusal :=
  taken (finish (complete origin (.restart target) (fun _ => takeRestart target)
    (fun _ => takeRestart target) s))

end Sys2Proof.Machine
end

