-- ==== Sys2Proof/Machine/Clock.lean ====
section
/-! DEFINITION. Time while no command waits (log entry 8): the timers fall by a millisecond at a time, and a
timer that has run out, or work that can start by itself, names its command. -/

namespace Sys2Proof.Machine

/-! ## One millisecond -/

/-- One ms off a timer that runs. -/
def Timer.less (t : Timer) : Timer := t.map (· - 1)

/-- One ms off the remaining time of a timed entry (R98). -/
def ModeTime.less : ModeTime → ModeTime
  | .untimed => .untimed
  | .running r => .running (r - 1)
  | .expired => .expired

/-- One ms off an entry's timers. -/
def ModeEntry.pass (e : ModeEntry) : ModeEntry :=
  { e with time := e.time.less, tick := Timer.less e.tick, grace := Timer.less e.grace }

/-- One ms off a pocket's timers. -/
def PocketState.pass (x : PocketState) : PocketState :=
  { x with settle := Timer.less x.settle, kickout := Timer.less x.kickout, window := Timer.less x.window,
           rearm := Timer.less x.rearm }

/-- One ms off the turn timer. -/
def Turn.less : Turn → Turn
  | .idle => .idle
  | .waiting t => .waiting (t - 1)
  | .taken p => .taken p

/-- One ms off every timer that runs. -/
def passMs (s : State) : State :=
  let s := s.mapControl fun c =>
    { c with joining := Timer.less c.joining, load := { c.load with timer := Timer.less c.load.timer } }
  let s := s.mapScanner fun x =>
    { x with switches := x.switches.map fun y => { y with timer := Timer.less y.timer } }
  let s := s.mapRules fun r =>
    { r with comboTimer := Timer.less r.comboTimer
             banks := r.banks.map fun k => { k with timer := Timer.less k.timer } }
  let s := s.mapModes fun t => t.map fun e => e.map ModeEntry.pass
  let s := s.mapPockets fun c => { c with pockets := c.pockets.map PocketState.pass, turn := c.turn.less }
  let s := s.mapBalls fun b => { b with quiet := Timer.less b.quiet, searchTimer := Timer.less b.searchTimer }
  let s := s.mapTrough fun t => { t with settle := Timer.less t.settle, window := Timer.less t.window }
  let s := s.mapPeers fun v =>
    { v with table := v.table.map (fun e => { e with silence := Timer.less e.silence })
             timer := Timer.less v.timer }
  s.mapDrivers fun c =>
    { c with units := c.units.map fun u =>
        { u with recycle := Timer.less u.recycle, maxHold := Timer.less u.maxHold } }

/-! ## What is due -/

/-- The timer has run out. -/
def ranOut (t : Timer) : Bool := t == some 0

/-- The command `c`, where `p` holds. -/
def dueIf (p : Bool) (c : Instr) : List Instr := if p then [c] else []

/-- The commands due for switches, banks and pockets. -/
def dueLocal (s : State) : List Instr :=
  dueIf s.scanner.scanEnd .scanCompletion ++ dueIf s.analog.roundEnd .roundCompletion ++
  ((List.finRange 64).flatMap fun i => dueIf (ranOut (switch s i).timer) (.stuckTimerExpiry i)) ++
  ((List.finRange 4).flatMap fun b => dueIf (ranOut (bank s b).timer) (.bankConfirmTimerExpiry b)) ++
  ((List.finRange 4).flatMap fun p =>
    let x := pocket s p
    dueIf (ranOut x.settle) (.settleWindowExpiry p) ++ dueIf (ranOut x.kickout) (.kickoutTimerExpiry p) ++
    dueIf (ranOut x.window) (.confirmWindowExpiry p) ++ dueIf (ranOut x.rearm) (.rearmTimerExpiry p)) ++
  dueIf (s.pockets.turn == .waiting 0) .turnTimerExpiry

/-- The commands due for the trough, the combo, modes, peers and Station Control; the serial memory acknowledges by
command alone, so a poll that comes due by itself goes unacknowledged (DESIGN CHOICE, log entry 8). -/
def dueGame (s : State) : List Instr :=
  dueIf (ranOut s.trough.settle) .troughSettleTimerExpiry ++
  dueIf (ranOut s.trough.window) .serveWindowExpiry ++
  dueIf (ranOut s.rules.comboTimer) .comboWindowExpiry ++
  ((List.finRange 16).flatMap fun j => dueIf (ranOut (peer s j).silence) (.silenceTimerExpiry j)) ++
  ((List.finRange 32).flatMap fun m =>
    match s.modes.get m with
    | some e =>
      dueIf (e.time == .running 0) (.modeTimerExpiry m) ++ dueIf (ranOut e.grace) (.graceTimerExpiry m) ++
        dueIf (ranOut e.tick) (.hurryTickExpiry m)
    | none => []) ++
  dueIf (ranOut s.peers.timer) .censusTimerExpiry ++
  dueIf (ranOut s.control.joining) .joiningTimerExpiry ++
  dueIf (ranOut s.control.load.timer) (.loadPollExpiry false)

/-- The commands due for the search and the drivers; a pulse that can start now starts (R170). -/
def dueDrive (s : State) : List Instr :=
  dueIf (ranOut s.balls.quiet) .quietTimerExpiry ++
  dueIf (searching .offset s && ranOut s.balls.searchTimer) .offsetTimerExpiry ++
  dueIf (searching .round s && ranOut s.balls.searchTimer) .searchSlotExpiry ++
  dueIf (searching .pause s && ranOut s.balls.searchTimer) .pauseTimerExpiry ++
  ((List.finRange 8).flatMap fun d =>
    dueIf (ranOut (unit s d).maxHold) (.maxHoldExpiry d) ++ dueIf (ranOut (unit s d).recycle) (.recycleTimerExpiry d)) ++
  dueIf (startable s != []) .pulseStart

/-- The command that the state itself calls for next, if any. -/
def due (s : State) : Option Instr := (dueLocal s ++ dueGame s ++ dueDrive s).head?

end Sys2Proof.Machine
end

