-- ==== Sys2Proof/Machine/Dispatch.lean ====
section
/-! DEFINITION. The dispatch: one arm for each command, each one call of its meaning. -/

namespace Sys2Proof.Machine

/-- The effect of a command on everything but the queue of commands. -/
def exec (i : Instr) (s : State) : Host.Outcome State Fault Refusal :=
  match i with
  | .powerOn strap => Sys2Proof.Machine.execPowerOn strap s
  | .selftestComplete pass => Sys2Proof.Machine.execSelftestComplete pass s
  | .resetLineAssert => Sys2Proof.Machine.execResetLineAssert s
  | .resetLineRelease => Sys2Proof.Machine.execResetLineRelease s
  | .loadBurstRead bytes => Sys2Proof.Machine.execLoadBurstRead bytes s
  | .loadPollExpiry acknowledged => Sys2Proof.Machine.execLoadPollExpiry acknowledged s
  | .strobe returns => Sys2Proof.Machine.execStrobe returns s
  | .scanCompletion => Sys2Proof.Machine.execScanCompletion s
  | .stuckTimerExpiry switch => Sys2Proof.Machine.execStuckTimerExpiry switch s
  | .bankConfirmTimerExpiry bank => Sys2Proof.Machine.execBankConfirmTimerExpiry bank s
  | .settleWindowExpiry pocket => Sys2Proof.Machine.execSettleWindowExpiry pocket s
  | .kickoutTimerExpiry pocket => Sys2Proof.Machine.execKickoutTimerExpiry pocket s
  | .conversion result => Sys2Proof.Machine.execConversion result s
  | .roundCompletion => Sys2Proof.Machine.execRoundCompletion s
  | .confirmWindowExpiry pocket => Sys2Proof.Machine.execConfirmWindowExpiry pocket s
  | .rearmTimerExpiry pocket => Sys2Proof.Machine.execRearmTimerExpiry pocket s
  | .turnTimerExpiry => Sys2Proof.Machine.execTurnTimerExpiry s
  | .troughSettleTimerExpiry => Sys2Proof.Machine.execTroughSettleTimerExpiry s
  | .serveWindowExpiry => Sys2Proof.Machine.execServeWindowExpiry s
  | .restGap => Sys2Proof.Machine.execRestGap s
  | .lostArbitration => Sys2Proof.Machine.execLostArbitration s
  | .clash => Sys2Proof.Machine.execClash s
  | .clashHoldEnd => Sys2Proof.Machine.execClashHoldEnd s
  | .receiveError => Sys2Proof.Machine.execReceiveError s
  | .tilt origin => Sys2Proof.Machine.execTilt origin s
  | .gameStart origin count => Sys2Proof.Machine.execGameStart origin count s
  | .gameEnd origin => Sys2Proof.Machine.execGameEnd origin s
  | .playerUp origin player => Sys2Proof.Machine.execPlayerUp origin player s
  | .serve origin count => Sys2Proof.Machine.execServe origin count s
  | .lock origin payload => Sys2Proof.Machine.execLock origin payload s
  | .trough origin count reason => Sys2Proof.Machine.execTrough origin count reason s
  | .missing origin count => Sys2Proof.Machine.execMissing origin count s
  | .modeStart origin mode duration => Sys2Proof.Machine.execModeStart origin mode duration s
  | .modeEnd origin mode => Sys2Proof.Machine.execModeEnd origin mode s
  | .collect origin mode player => Sys2Proof.Machine.execCollect origin mode player s
  | .jackpotAdd origin mode => Sys2Proof.Machine.execJackpotAdd origin mode s
  | .featureSet origin target feature state player => Sys2Proof.Machine.execFeatureSet origin target feature state player s
  | .award origin payload => Sys2Proof.Machine.execAward origin payload s
  | .census origin payload => Sys2Proof.Machine.execCensus origin payload s
  | .status origin item data => Sys2Proof.Machine.execStatus origin item data s
  | .query origin target item argument => Sys2Proof.Machine.execQuery origin target item argument s
  | .fire origin target driver => Sys2Proof.Machine.execFire origin target driver s
  | .clearFaults origin target => Sys2Proof.Machine.execClearFaults origin target s
  | .clearCounts origin target => Sys2Proof.Machine.execClearCounts origin target s
  | .clearBoth origin target => Sys2Proof.Machine.execClearBoth origin target s
  | .restart origin target => Sys2Proof.Machine.execRestart origin target s
  | .comboWindowExpiry => Sys2Proof.Machine.execComboWindowExpiry s
  | .silenceTimerExpiry station => Sys2Proof.Machine.execSilenceTimerExpiry station s
  | .censusTimerExpiry => Sys2Proof.Machine.execCensusTimerExpiry s
  | .joiningTimerExpiry => Sys2Proof.Machine.execJoiningTimerExpiry s
  | .modeTimerExpiry mode => Sys2Proof.Machine.execModeTimerExpiry mode s
  | .graceTimerExpiry mode => Sys2Proof.Machine.execGraceTimerExpiry mode s
  | .hurryTickExpiry mode => Sys2Proof.Machine.execHurryTickExpiry mode s
  | .quietTimerExpiry => Sys2Proof.Machine.execQuietTimerExpiry s
  | .offsetTimerExpiry => Sys2Proof.Machine.execOffsetTimerExpiry s
  | .searchSlotExpiry => Sys2Proof.Machine.execSearchSlotExpiry s
  | .pauseTimerExpiry => Sys2Proof.Machine.execPauseTimerExpiry s
  | .pulseStart => Sys2Proof.Machine.execPulseStart s
  | .pulseEnd driver measured => Sys2Proof.Machine.execPulseEnd driver measured s
  | .maxHoldExpiry driver => Sys2Proof.Machine.execMaxHoldExpiry driver s
  | .recycleTimerExpiry driver => Sys2Proof.Machine.execRecycleTimerExpiry driver s
  | .openDetected driver => Sys2Proof.Machine.execOpenDetected driver s
  | .shortDetected driver => Sys2Proof.Machine.execShortDetected driver s
  | .blinkClockTick => Sys2Proof.Machine.execBlinkClockTick s
  | .modeRemaining3s mode => Sys2Proof.Machine.execModeRemaining3s mode s
  | .samplingPoint dominant => Sys2Proof.Machine.execSamplingPoint dominant s

end Sys2Proof.Machine
end

