-- ==== Sys2Proof/Machine/Step.lean ====
section
/-! DEFINITION. One step of the block: the command at the front of the queue, or, on an empty queue, what
the passing of time brings (log entry 8). -/

namespace Sys2Proof.Machine

/-- On an empty queue: the command that the state itself calls for, and otherwise one millisecond, at whose end,
as at the end of every command, a queued CENSUS and the outputs follow the state (R84, R39, R179, R189). -/
def idle (s : State) : Host.Outcome State Fault Refusal :=
  match due s with
  | some c => exec c s
  | none => .next (finish (passMs s))

/-- One step: the command at the front of the queue is executed with the queue's rest. -/
def step (s : State) : Host.Outcome State Fault Refusal :=
  match s.pending with
  | c :: rest => exec c { s with pending := rest }
  | [] => idle s

/-- `s` with the command that a table word spells put at the front of its queue; a word that spells none,
as every word does here, leaves `s` as it is. -/
def State.withFetchWord (s : State) (nbits w : Nat) : State :=
  match decodeTableWord nbits w with
  | some c => { s with pending := c :: s.pending }
  | none => s

end Sys2Proof.Machine
end

