-- ==== Sys2Proof/Safety.lean ====
section
/-! DEFINITION. The vocabulary of the statements: what every state keeps, as the manual's own ceilings state
it, what a command leaves beside its own effect, and what the link makes of a completed bulletin. -/

namespace Sys2Proof.Machine

/-! ## The ceilings -/

/-- R68: the transmit queue holds at most 16 entries, one CENSUS at most, and one COLLECT for a mode id at
most. -/
def LinkCtl.within (l : LinkCtl) : Prop :=
  l.queue.length ≤ 16 ∧ l.queue.countP TxEntry.isCensus ≤ 1 ∧
    ∀ m : Byte, l.queue.countP (TxEntry.isCollectOf m) ≤ 1

/-- R167, R170: the pulse queue holds at most 8 entries, no two for one driver, and at most 2 drivers are
PULSING. -/
def DriverCtl.within (c : DriverCtl) : Prop :=
  c.queue.length ≤ 8 ∧ (c.queue.map (·.driver)).Nodup ∧ c.units.count (fun u => u.phase == .pulsing) ≤ 2

/-- R41, R50: every tally within 0..99,999,999, and the combo count within 0..5. -/
def RuleEngine.within (r : RuleEngine) : Prop :=
  (∀ p, r.tallies.get p ≤ 99999999) ∧ r.combo ≤ 5

/-- R190: every counter within 0..255. -/
def Control.within (c : Control) : Prop := ∀ k, c.counters.get k ≤ 255

/-- R93: at most 12 entries in the mode table. -/
def modesWithin (t : Tab 32 (Option ModeEntry)) : Prop := t.count Option.isSome ≤ 12

/-- R145: every lock credit within 0..4. -/
def Balls.within (b : Balls) : Prop := ∀ p, b.credits.get p ≤ 4

/-- R139: pending and unreported serves within 0..6. -/
def TroughCtl.within (t : TroughCtl) : Prop := t.pending ≤ 6 ∧ t.unreported ≤ 6

/-- The ceilings together. -/
def Inv (s : State) : Prop :=
  s.link.within ∧ s.drivers.within ∧ s.rules.within ∧ s.control.within ∧ modesWithin s.modes ∧
    s.balls.within ∧ s.trough.within

/-! ## Orders and bounds -/

/-- R68: the transmit queue stands in order of class. -/
def LinkCtl.ordered (l : LinkCtl) : Prop := l.queue.Pairwise fun a b => a.bulletin.cls ≤ b.bulletin.cls

/-- R167: the pulse queue stands in order of band. -/
def DriverCtl.ordered (c : DriverCtl) : Prop := c.queue.Pairwise fun a b => a.band.rank ≤ b.band.rank

/-- R135: the missing count lies within the installed balls, and is 0 while no image is loaded. -/
def missingWithin (s : State) : Prop :=
  s.balls.missing ≤ s.control.image.installed ∧ (s.control.station.running = false → s.balls.missing = 0)

/-- R184, R82: until a load succeeds the station holds no image: nothing configured, its census interval 1,000 ms,
every bit of its fault-line mask set. The settings that R184 does not name are the model's choice, log entry 6. -/
def unloadedWithin (s : State) : Prop := s.control.station.running = false → s.control.image = unloadedImage

/-- Section 1.2, R3: every debounce count and every close and open count lies within 0..15. -/
def countsWithin (s : State) : Prop :=
  ∀ i : SwitchNo, (s.scanner.switches.get i).count ≤ 15 ∧ (ruleOf s i).closeCount ≤ 15 ∧ (ruleOf s i).openCount ≤ 15

/-- R111: the states in which an eject can be owed: RELEASE-WAIT and the eject sequence. -/
def PocketPhase.owes : PocketPhase → Bool
  | .releaseWait | .ejectWait | .ejecting | .rearm => true
  | .empty | .settling | .stable | .kickoutWait | .jammed => false

/-- R110, R111: the counts of a fitted pocket: held, resting and stuck within its capacity; an eject owed for
each ball that it does not keep at most, a resting ball whose kickout timer runs being owed none; balls stuck
in JAMMED alone, and no other ball there; no ball held in EMPTY and SETTLING; ejects owed and a through ball
only where the state has them. -/
def PocketState.sound (c : PocketCfg) (x : PocketState) : Prop :=
  x.held + x.resting + x.stuck ≤ c.capacity ∧ x.resting ≤ 1 ∧ x.through ≤ 1 ∧
    x.pending + (if x.kickout.isSome then 1 else 0) ≤ x.through + x.held + x.resting ∧
    (x.kickout.isSome = true → x.resting = 1 ∧ (x.phase = .kickoutWait ∨ x.phase.ejects = true)) ∧
    (x.phase = .jammed → x.held = 0 ∧ x.resting = 0) ∧ (x.phase ≠ .jammed → x.stuck = 0) ∧
    (x.phase = .empty ∨ x.phase = .settling → x.held = 0) ∧
    (x.phase.owes = false → x.pending = 0) ∧ (x.phase.ejects = false → x.through = 0)

/-- R109: a fitted pocket keeps 1 to 3 balls. -/
def capacitiesWithin (s : State) : Prop := ∀ p c, pocketCfg s p = some c → 1 ≤ c.capacity ∧ c.capacity ≤ 3

/-- R110, R111, R127: every fitted pocket's counts are sound, and the release list holds no pocket twice and
only pockets in RELEASE-WAIT. -/
def pocketsSound (s : State) : Prop :=
  capacitiesWithin s ∧ (∀ p c, pocketCfg s p = some c → (pocket s p).sound c) ∧
    s.pockets.release.Nodup ∧
    ∀ p ∈ s.pockets.release, (pocketCfg s p).isSome = true ∧ (pocket s p).phase = .releaseWait

/-- No request of a pocket's waits or is served at the Driver Controller. -/
def noPocketRequest (s : State) : Prop :=
  ∀ p : PocketNo, .pocket p ∉ s.drivers.waiting ∧ (∀ e ∈ s.drivers.queue, .pocket p ∉ e.requesters) ∧
    ∀ d, .pocket p ∉ (unit s d).requesters

/-- R114, R126, R132: the pockets of a station in JOINING: EMPTY, or STABLE with the one ball re-sensed, with
nothing owed, no timer running and no request made. -/
def pocketsJoining (s : State) : Prop :=
  capacitiesWithin s ∧ s.pockets.release = [] ∧ noPocketRequest s ∧
    ∀ p, let x := pocket s p
      x.resting = 0 ∧ x.stuck = 0 ∧ x.through = 0 ∧ x.pending = 0 ∧ x.settle = none ∧ x.kickout = none ∧
        x.window = none ∧ x.rearm = none ∧ (x.phase = .empty ∧ x.held = 0 ∨ x.phase = .stable ∧ x.held = 1)

/-! ## The state after a command -/

/-- `t` is `u` once its outputs follow it: every block of `u` as it stands, but for the level of the fault
line and the lamps (R39, R179, R189), and for a queued CENSUS that R84 brings up to date. -/
def settles (u t : State) : Prop :=
  t.pending = u.pending ∧ t.control = { u.control with faultLine := faultLineLevel t } ∧
    t.scanner = u.scanner ∧ t.analog = u.analog ∧ t.rules = u.rules ∧ t.modes = u.modes ∧
    t.pockets = u.pockets ∧ t.balls = u.balls ∧ t.trough = u.trough ∧ t.peers = u.peers ∧
    t.drivers = u.drivers ∧ t.lamps.blink = u.lamps.blink ∧
    (t.link = u.link ∨ ((lastCensus u.link).isSome ∧ t.link = (offer (.census (censusNow t)) u).link))

/-- R172: `x` is what the drivers of `v` become as the hold bindings follow the effective states of their features
from `u` to `v`. A feature that has left LIT clears its driver's spent mark and releases it where it is HOLDING,
into RECYCLE, which a recycle time of 0 ends at once (R173); a request or a pulse of it is not withdrawn. One that
has turned LIT requests its driver in the EJECT band at 100 % where the spent mark is clear. Every other driver
stays. Several that turn at one moment ask in ascending driver number (the model's choice, log entry 41). -/
def holdsFollow (u v : State) (x : DriverCtl) : Prop :=
  let moves (d : DriverNo) (before after : Bool) : Bool :=
    (driverCfg v d).binding.any fun f => (effective u f == .lit) == before && (effective v f == .lit) == after
  let asked : State := eachUp 8 (fun d w =>
    if moves d false true && !(unit v d).spent then request d .eject 100 (.hold d) w else w) v
  let released (d : DriverNo) : DriverState :=
    if (unit v d).phase = .holding then
      if (driverCfg v d).recycle = 0 then
        { unit v d with spent := false, maxHold := none, recycle := none
                        phase := if pulseQueued v d then .queued else .idle }
      else
        { unit v d with spent := false, maxHold := none, recycle := some (driverCfg v d).recycle, phase := .recycle }
    else { unit v d with spent := false }
  x.queue = asked.drivers.queue ∧ x.waiting = asked.drivers.waiting ∧
    ∀ d, x.units.get d = if moves d true false then released d else unit asked d

/-- R21 to R23: the table of R21 at a hit on switch `i`, its feature as it stands in `s`, worked on `u`: the value
to the award, then the resting state, then the action. An OFF or HELD feature is handed nothing, and no feature the
plain value and the action. `keeps` says that the feature is the lock light of R23, whose resting LIT stays. -/
def hitByTable (keeps : Bool) (i : SwitchNo) (s u : State) : State :=
  let r := ruleOf s i
  let scored (v : Nat) : State := award s.rules.current v r.group (.hit i r.combo) u
  let acted (w : State) : State := match r.action with
    | some a => doAction a r.group w
    | none => w
  match r.feature with
  | none => acted (scored r.plain)
  | some f =>
    match effective s f with
    | .off | .held => u
    | .dark => scored r.plain
    | .latent => setFeature f .lit (scored r.plain)
    | .lit =>
      acted (if resting s f = .lit ∧ r.after ≠ .lit ∧ keeps = false then setFeature f r.after (scored r.lit)
        else scored r.lit)

/-- R121, R129, R130: pocket `p`, as `y`, jams in `u`: its held and resting balls are stuck, or one where there is
none, B follows, a LOCK JAMMED is offered, EJECTOR is set, and a turn that it holds passes. -/
def jamsAs (p : PocketNo) (y : PocketState) (u : State) : State :=
  let stuck := if y.held + y.resting = 0 then 1 else y.held + y.resting
  let jammed : PocketState := { y with
    held := 0, resting := 0, stuck := stuck, through := 0, jam := y.pending, pending := 0, deferred := false
    attempt := 1, kickout := none, window := none, rearm := none, phase := .jammed }
  let v := setFlag .ejector (offer
    (.lock { event := 3, pocket := p, player := BitVec.ofNat 8 (u.rules.current.val + 1), credit := 0, held := 0
             stuck := BitVec.ofNat 8 stuck })
    (recomputeB { u with pockets := { u.pockets with pockets := u.pockets.pockets.set p jammed } }))
  { v with pockets := { v.pockets with
      turn := if u.pockets.turn = .taken p then (if u.pockets.release = [] then .idle else .waiting 600)
        else u.pockets.turn } }

/-- R139 to R141, R143: the Trough Controller of `s`, with no serve pending, owes one ball in `t`: a serve in progress
goes on; otherwise the ball is asked for where the trough holds one and its count stands, waits in WAITING while it
does not, and its serve fails at once with no trough eject driver or a FAULTED one. `calm` says that nothing else of
the command asks for a driver, so that the serve's is the one request. -/
def owesOne (calm : Prop) (s t : State) : Prop :=
  let ready := s.trough.recount = false ∧ 0 < s.trough.count.getD 0
  let dead := ∀ d, troughDriver s = some d → (unit s d).phase = .faulted
  (s.trough.phase = .serveWait ∨ s.trough.phase = .serving → t.trough = { s.trough with pending := 1 }) ∧
  (s.trough.phase = .idle ∨ s.trough.phase = .waiting →
    (¬ ready → t.trough = { s.trough with pending := 1, phase := .waiting }) ∧
    (ready → dead → t.control.flags.ejector = true ∧ t.trough = { s.trough with
      pending := 0, phase := .idle, attempt := 1, window := none, recount := false }) ∧
    (∀ d, ready → troughDriver s = some d → (unit s d).phase ≠ .faulted →
      t.trough = { s.trough with pending := 1, phase := .serveWait, attempt := 1, window := none } ∧
      (calm → t.drivers = (request d .eject 100 .trough s).drivers)))

/-- Every flag set in `a` is set in `b`. -/
def FaultFlags.keptIn (a b : FaultFlags) : Prop :=
  (a.link → b.link) ∧ (a.config → b.config) ∧ (a.ejector → b.ejector) ∧ (a.supply → b.supply) ∧
    (a.accounting → b.accounting) ∧ (a.transmit → b.transmit) ∧ (a.switch → b.switch)

/-- R188: the commands that may clear a latched flag: the resets, and CLEAR of FAULTS or BOTH. -/
def clearsFlags : Instr → Bool
  | .powerOn _ | .resetLineAssert | .restart _ _ | .clearFaults _ _ | .clearBoth _ _ => true
  | _ => false

/-! ## Completed bulletins -/

/-- The bulletin, with its origin, whose completion a command is. -/
def bulletinOf : Instr → Option (StationNo × Bulletin)
  | .tilt o => some (o, .tilt)
  | .gameStart o n => some (o, .gameStart n)
  | .gameEnd o => some (o, .gameEnd)
  | .playerUp o p => some (o, .playerUp p)
  | .serve o n => some (o, .serve n)
  | .lock o p => some (o, .lock p)
  | .trough o n r => some (o, .trough n r)
  | .missing o n => some (o, .missing n)
  | .modeStart o m d => some (o, .modeStart m d)
  | .modeEnd o m => some (o, .modeEnd m)
  | .collect o m p => some (o, .collect m p)
  | .jackpotAdd o m => some (o, .jackpotAdd m)
  | .featureSet o a f r p => some (o, .featureSet a f r p)
  | .award o p => some (o, .award p)
  | .census o p => some (o, .census p)
  | .status o i d => some (o, .status i d)
  | .query o a i x => some (o, .query a i x)
  | .fire o a d => some (o, .fire a d)
  | .clearFaults o a => some (o, .clear a 1)
  | .clearCounts o a => some (o, .clear a 2)
  | .clearBoth o a => some (o, .clear a 3)
  | .restart o a => some (o, .restart a)
  | _ => none

/-- R59, R66, R78: the completion of `b` from `o` is one that this station's Link Controller can see: it works,
the payload fits a bulletin, it has seen the line at rest and begun no other bulletin since, and the cells it has
sampled, if any, spell this one (log entry 11). -/
def hears (o : StationNo) (b : Bulletin) (s : State) : Prop :=
  onLink s = true ∧ sendable b = true ∧ cellsAgree o b s = true

/-- The state once the link and the peer table have taken the completion of `b` from `o` (R69, R71, R81),
before the block that owns the kind acts on it. -/
def received (o : StationNo) (b : Bulletin) (s : State) : State :=
  noteOrigin o (isOwn o b s) (endOnLine (isOwn o b s) s)

/-- Cells sampled one after another, `true` for a 1. -/
def samples : List Bool → State → Option State
  | [], s => some s
  | bit :: rest, s =>
    match exec (.samplingPoint (!bit)) s with
    | .next t => samples rest t
    | .fault _ => none
    | .refused _ => none

end Sys2Proof.Machine
end

