-- ==== Sys2Proof/Certificates/Slice0/Obligations.lean ====
section
/-! DEFINITION. The statements for the provers: what the rules R1 to R192 say that the commands and the part
do. `settles u t` (Sys2Proof/Safety.lean) says that the next state `t` is `u`, its outputs and its queued CENSUS
following it; so a statement that ends in `settles { s with … } t` names all that a command changes. -/

section

open Sys2Proof Sys2Proof.Machine

/-! ## The queue of commands, reset, and what every step keeps -/

/-- A step runs the command at the front of the queue on the state with the queue's rest. -/
def Obligations.StepRunsTheFrontCommand : Prop :=
  ∀ (c : Instr) (rest : List Instr) (s : State),
    s.pending = c :: rest → step s = exec c { s with pending := rest }

/-- On an empty queue the step is the command that the state calls for; where it calls for none, a ms passes
for every timer that runs, in every block, and nothing else changes but the outputs and a queued CENSUS, which
follow the state (R84: a fresh one is offered where a field of it has changed). DESIGN CHOICE, log entry 8. -/
def Obligations.AnEmptyQueueLetsTimePass : Prop :=
  ∀ s : State, s.pending = [] →
    (∀ c, due s = some c → step s = exec c s) ∧
    (due s = none → ∃ t, step s = .next t ∧
      t.pending = [] ∧ t.analog = s.analog ∧
      t.link = (match lastCensus s.link with
        | some x => if x = censusNow t then s.link else (offer (.census (censusNow t)) s).link
        | none => s.link) ∧
      t.control = { s.control with
        joining := s.control.joining.map (· - 1), faultLine := faultLineLevel t
        load := { s.control.load with timer := s.control.load.timer.map (· - 1) } } ∧
      t.trough = { s.trough with settle := s.trough.settle.map (· - 1), window := s.trough.window.map (· - 1) } ∧
      t.balls = { s.balls with quiet := s.balls.quiet.map (· - 1)
                               searchTimer := s.balls.searchTimer.map (· - 1) } ∧
      t.rules = { s.rules with
        comboTimer := s.rules.comboTimer.map (· - 1)
        banks := s.rules.banks.map fun k => { k with timer := k.timer.map (· - 1) } } ∧
      (∀ m, t.modes.get m = (s.modes.get m).map fun e =>
        { e with time := match e.time with
                   | .running r => .running (r - 1)
                   | other => other
                 tick := e.tick.map (· - 1), grace := e.grace.map (· - 1) }) ∧
      (∀ i, t.scanner.switches.get i =
        { s.scanner.switches.get i with timer := (s.scanner.switches.get i).timer.map (· - 1) }) ∧
      t.scanner = { s.scanner with switches := t.scanner.switches } ∧
      (∀ p, pocket t p = { pocket s p with
        settle := (pocket s p).settle.map (· - 1), kickout := (pocket s p).kickout.map (· - 1)
        window := (pocket s p).window.map (· - 1), rearm := (pocket s p).rearm.map (· - 1) }) ∧
      t.pockets.release = s.pockets.release ∧
      t.pockets.turn = (match s.pockets.turn with
        | .waiting ms => .waiting (ms - 1)
        | other => other) ∧
      (∀ j, peer t j = { peer s j with silence := (peer s j).silence.map (· - 1) }) ∧
      t.peers.timer = s.peers.timer.map (· - 1) ∧
      (∀ d, unit t d = { unit s d with
        recycle := (unit s d).recycle.map (· - 1), maxHold := (unit s d).maxHold.map (· - 1) }) ∧
      t.drivers = { s.drivers with units := t.drivers.units } ∧
      t.lamps.blink = s.lamps.blink ∧
      ∀ l, t.lamps.patterns.get l = lampPattern t l ∧
        t.lamps.outputs.get l = patternLevel t.lamps.blink (t.lamps.patterns.get l))

/-- Every command is taken in every state: none ends in a fault or a refusal, and none touches the queue. That
a command whose event cannot have happened is taken too, and changes nothing but the outputs, is the model's
choice, log entry 7. -/
def Obligations.EveryCommandIsTaken : Prop :=
  ∀ (c : Instr) (s : State), ∃ t, exec c s = .next t ∧ t.pending = s.pending

/-- What power-on leaves (R4, R15, R38, R41, R51, R79, R90, R93, R132, R151, R178, R180): SELFTEST, no flag,
every counter, tally, credit and ball count 0, every queue and list empty, every bank COUNTING, every pocket
EMPTY, every driver IDLE, every peer UNKNOWN, no search, no serve, the link waiting for rest, and no timer
running anywhere. That the poll timer of the load is stopped with its first poll in turn, and that no driver
has a requester, is the model's choice, log entry 18. The ceilings hold after reset. -/
def Obligations.ResetLeavesThePowerOnValues : Prop :=
  (State.reset.pending = [] ∧ State.reset.control.station = .selftest ∧
   State.reset.control.flags = noFlags ∧ State.reset.control.retained = false ∧
   State.reset.control.playerCount = 1 ∧ (∀ k, State.reset.control.counters.get k = 0) ∧
   State.reset.control.joining = none ∧ State.reset.control.faultLine = false ∧
   State.reset.control.load = { bytes := [], polls := 1, acknowledged := false, timer := none }) ∧
  (State.reset.scanner.running = false ∧ State.reset.scanner.baseline = false ∧
   (∀ i, State.reset.scanner.switches.get i = { closed := false, count := 0, stuck := false, timer := none }) ∧
   State.reset.analog.running = false ∧ State.reset.analog.firstDone = false ∧
   (∀ c, State.reset.analog.channels.get c = { sum := 0, count := 0, average := 0, level := false })) ∧
  ((∀ p, State.reset.rules.tallies.get p = 0) ∧ State.reset.rules.current = 0 ∧
   State.reset.rules.combo = 0 ∧ State.reset.rules.comboTimer = none ∧
   (∀ i, State.reset.rules.marks.get i = false) ∧ (∀ m, State.reset.rules.collects.get m = none) ∧
   (∀ b, (bank State.reset b).phase = .counting ∧ (bank State.reset b).attempt = 1 ∧
     (bank State.reset b).timer = none) ∧
   (∀ m, State.reset.modes.get m = none)) ∧
  ((∀ p, pocket State.reset p = { held := 0, resting := 0, stuck := 0, through := 0, pending := 0
                                  attempt := 1, deferred := false, jam := 0, settle := none, kickout := none
                                  window := none, rearm := none, phase := .empty }) ∧
   State.reset.pockets.release = [] ∧ State.reset.pockets.turn = .idle) ∧
  (State.reset.balls.trough = none ∧ State.reset.balls.missing = 0 ∧ State.reset.balls.inPlay = 0 ∧
   State.reset.balls.phase = .single ∧ (∀ p, State.reset.balls.credits.get p = 0) ∧
   (∀ j p, (State.reset.balls.peers.get j).held.get p = 0 ∧ (State.reset.balls.peers.get j).stuck.get p = 0) ∧
   State.reset.balls.quiet = none ∧ State.reset.balls.search = .idle ∧ State.reset.balls.round = 0 ∧
   State.reset.balls.searchTimer = none ∧
   State.reset.trough = { count := none, settle := none, pending := 0, unreported := 0, phase := .idle
                          attempt := 1, window := none, recount := false }) ∧
  (State.reset.link.queue = [] ∧ State.reset.link.aside = none ∧ State.reset.link.sender = false ∧
   State.reset.link.agreed = false ∧ State.reset.link.hold = false ∧ State.reset.link.receive = .waiting ∧
   State.reset.peers.timer = none ∧
   (∀ j, (peer State.reset j).presence = .unknown ∧ (peer State.reset j).record = none ∧
     (peer State.reset j).silence = none)) ∧
  (State.reset.drivers.queue = [] ∧ State.reset.drivers.waiting = [] ∧
   (∀ d, (unit State.reset d).phase = .idle ∧ (unit State.reset d).detail = .none ∧
     (unit State.reset d).requesters = [] ∧ (unit State.reset d).recycle = none ∧
     (unit State.reset d).maxHold = none ∧ (unit State.reset d).spent = false) ∧
   (∀ l, State.reset.lamps.outputs.get l = false)) ∧
  (Inv State.reset ∧ State.reset.link.ordered ∧ State.reset.drivers.ordered ∧ missingWithin State.reset ∧
   countsWithin State.reset ∧ pocketsSound State.reset)

/-- R68, R72 to R76: a step keeps the transmit queue at 16 entries at most, with one CENSUS at most and one
COLLECT for a mode id at most. R167, R168, R170: a step keeps the pulse queue at 8 entries at most, no two for
one driver, and at most 2 drivers PULSING. -/
def Obligations.TheQueuesStayWithin : Prop :=
  (∀ s t : State, s.link.within → step s = .next t → t.link.within) ∧
  (∀ s t : State, s.drivers.within → step s = .next t → t.drivers.within)

/-- R41, R47, R50: a step keeps every tally within 0..99,999,999 and the combo count within 0..5. R93, R96,
R103, R105: a step keeps the mode table at 12 entries at most. R139, R145, R190: a step keeps every counter
within 0..255, every lock credit within 0..4, and pending and unreported serves within 0..6. -/
def Obligations.TalliesModesAndCountersStayWithin : Prop :=
  (∀ s t : State, s.rules.within → step s = .next t → t.rules.within) ∧
  (∀ s t : State, modesWithin s.modes → step s = .next t → modesWithin t.modes) ∧
  (∀ s t : State, step s = .next t →
     (s.control.within → t.control.within) ∧ (s.balls.within → t.balls.within) ∧
     (s.trough.within → t.trough.within))

/-- R68, R73: a step keeps the transmit queue in order of class. R167: a step keeps the pulse queue, within
its ceilings, in order of band. R135: a step keeps the missing count within the installed balls. Section 1.2,
R3: a step keeps every debounce count within 0..15, while every close and open count of the image is. -/
def Obligations.OrdersAndBoundsAreKept : Prop :=
  (∀ s t : State, s.link.ordered → step s = .next t → t.link.ordered) ∧
  (∀ s t : State, s.drivers.within → s.drivers.ordered → step s = .next t → t.drivers.ordered) ∧
  (∀ s t : State, missingWithin s → step s = .next t → missingWithin t) ∧
  (∀ s t : State, countsWithin s → step s = .next t → countsWithin t)

/-- R110, R111, R117, R127, R128: in the game states a step keeps every fitted pocket's held, resting and
stuck balls within its capacity, its ejects owed within the balls it keeps (so at most 4), its stuck balls to
JAMMED, and the release list free of repeats and of any pocket but those in RELEASE-WAIT. R109, R114, R126,
R132: the pockets of a good load are as a reset leaves them, with capacities of 1 to 3; while a station is
JOINING a step leaves each EMPTY or with its one ball re-sensed; and the end of joining hands them over sound.
-/
def Obligations.ThePocketsStaySound : Prop :=
  (∀ s t : State, inGame s = true → pocketsSound s → step s = .next t → pocketsSound t) ∧
  (∀ s t : State, s.control.station = .joining → pocketsJoining s → step s = .next t →
     (t.control.station = .joining → pocketsJoining t) ∧ (inGame t = true → pocketsSound t)) ∧
  (∀ (burst : Tab 16 Byte) (s t : State), s.pockets = pocketsReset → s.drivers = driversReset →
     exec (.loadBurstRead burst) s = .next t → t.control.station = .joining → s.control.station = .loading →
     pocketsJoining t) ∧
  (∀ (c : PocketCfg) (x : PocketState), c.capacity ≤ 3 → x.sound c → x.pending ≤ 4)

/-- R41: no command lowers a tally but POWER_ON and GAME_START, and those leave all four at 0. -/
def Obligations.TalliesFallOnlyToZero : Prop :=
  ∀ (c : Instr) (s t : State), exec c s = .next t →
    (∀ p, s.rules.tallies.get p ≤ t.rules.tallies.get p) ∨
    ((match c with
      | .powerOn _ | .gameStart _ _ => True
      | _ => False) ∧ ∀ p, t.rules.tallies.get p = 0)

/-- R188: the seven latched flags stay set through every command but a reset and a CLEAR of FAULTS or BOTH. -/
def Obligations.FaultFlagsLatch : Prop :=
  ∀ (c : Instr) (s t : State), clearsFlags c = false → exec c s = .next t →
    s.control.flags.keptIn t.control.flags

/-- R39, R40, R179, R189: after every command, and after every step of an empty queue, the fault line, every
lamp's pattern and every lamp output read as the state then gives them, whatever the command was. R84: after
each of them a queued CENSUS, or the one held aside for it, reads as the state then stands. R179: the blink
clock counts twelfths of a second while the lamps run, kept modulo 12 (the model's choice, log entry 24); SLOW
is on for three of six twelfths, FAST for one of two, ON always, OFF never. R184, R189: the fault-line mask is
every bit set in LISTEN-ONLY, and elsewhere the image's. R83: what each field of the CENSUS of a state reads,
in LISTEN-ONLY and in every other state. -/
def Obligations.OutputsFollowTheState : Prop :=
  (∀ (c : Instr) (s t : State), exec c s = .next t ∨ step s = .next t →
     (t.control.faultLine = true ↔
       t.control.station = .selftestFailed ∨
         (t.control.station ≠ .held ∧ (faultByte t &&& maskByte t) ≠ 0)) ∧
     ∀ l : LampNo,
       t.lamps.outputs.get l = patternLevel t.lamps.blink (t.lamps.patterns.get l) ∧
       (t.control.station.running = false → t.lamps.patterns.get l = .off) ∧
       (t.control.station.running = true →
         match t.control.image.lamps.get l with
         | .feature f =>
           t.lamps.patterns.get l =
             (match effective t f with
              | .off | .dark => .off
              | .latent => .slow
              | .lit => .on
              | .held => .fast)
         | .mode m =>
           (t.modes.get m = none → t.lamps.patterns.get l = .off) ∧
           (∀ e, t.modes.get m = some e → e.time = .untimed → t.lamps.patterns.get l = .on) ∧
           (∀ e r, t.modes.get m = some e → e.time = .running r →
             t.lamps.patterns.get l = if r ≤ 3000 then .fast else .on) ∧
           (∀ e, t.modes.get m = some e → e.time = .expired → t.lamps.patterns.get l = .fast)
         | .pocket p => t.lamps.patterns.get l = if 0 < (pocket t p).held then .on else .off
         | .faults => t.lamps.patterns.get l = if faultByte t = 0 then .off else .on
         | .none => t.lamps.patterns.get l = .off)) ∧
  (∀ (c : Instr) (s t : State) (x : CensusPayload), exec c s = .next t ∨ step s = .next t → lastCensus t.link = some x →
     x = censusNow t) ∧
  (∀ s : State,
     (s.control.station.running = true → ∃ t, exec .blinkClockTick s = .next t ∧
       settles { s with lamps := { s.lamps with blink := (s.lamps.blink + 1) % 12 } } t) ∧
     (s.control.station.running = false → ∃ t, exec .blinkClockTick s = .next t ∧ settles s t) ∧
     (∀ n, patternLevel n .off = false ∧ patternLevel n .on = true ∧
       (patternLevel n .slow = true ↔ n % 6 < 3) ∧ (patternLevel n .fast = true ↔ n % 2 = 0))) ∧
  (∀ s : State,
     (s.control.station = .listenOnly → maskByte s = 255) ∧
     (s.control.station ≠ .listenOnly → maskByte s = s.control.image.mask)) ∧
  (∀ s : State,
     let x := censusNow s
     x.state = (match s.control.station with
       | .joining => 1
       | .idle => 2
       | .ready => 3
       | .play => 4
       | .tilt => 5
       | .listenOnly => 6
       | _ => 0) ∧
     x.player = s.rules.current ∧ x.faults = faultByte s ∧
     (1 ≤ s.control.playerCount → s.control.playerCount ≤ 4 → x.players.val + 1 = s.control.playerCount) ∧
     (s.control.station = .listenOnly →
       x.trough = 7 ∧ (∀ p, x.held.get p = 0 ∧ x.stuck.get p = 0) ∧ (∀ m, x.modes.get m = false) ∧
       x.missing = 0 ∧ x.signature = 0) ∧
     (s.control.station ≠ .listenOnly →
       (∀ n, isTrough s = true → s.trough.count = some n → n ≤ 6 → x.trough.toNat = n) ∧
       (isTrough s = false ∨ s.trough.count = none → x.trough = 7) ∧
       (∀ p, pocketCfg s p = none → x.held.get p = 0 ∧ x.stuck.get p = 0) ∧
       (∀ p, (pocketCfg s p).isSome = true →
         ((pocket s p).held ≤ 3 → (x.held.get p).val = (pocket s p).held) ∧
         ((pocket s p).stuck ≤ 3 → (x.stuck.get p).val = (pocket s p).stuck)) ∧
       (∀ m, x.modes.get m = match s.modes.get m with
         | none => false
         | some e => decide (e.owner = s.control.strap) && !e.ending && match e.time with
           | .untimed => true
           | .running r => decide (0 < r)
           | .expired => false) ∧
       (s.balls.missing ≤ 6 → x.missing.toNat = s.balls.missing) ∧ x.signature = s.control.image.signature))

/-! ## Bulletins as cells -/

/-- R60 to R64: the cells of every bulletin that a payload of 0 to 10 bytes carries, from every origin, spell
that bulletin and that origin back. -/
def Obligations.BulletinCellsReadBack : Prop :=
  ∀ (o : StationNo) (b : Bulletin), b.payload.length ≤ 10 →
    (bulletinCells o b).length = 32 + 8 * b.payload.length ∧
    spelled (bulletinCells o b) (checkBits (bulletinBits o b)) = some (o, b)

/-- R58, R60, R61, R65: a receiver at rest, any queued CENSUS of its own up to date (R84), that samples the
start cell and then every cell of a bulletin holds those cells with the check formed over them, so that only
that bulletin's completion agrees (the model's choice, log entry 11), and has changed nothing else. This is
for a bulletin whose completion has a row in the table of commands; a CLEAR whose second byte is not 1, 2 or 3
has none, and is taken with its last check cell (the model's choice, log entry 23). -/
def Obligations.SampledCellsAreTheBulletin : Prop :=
  ∀ (o : StationNo) (b : Bulletin) (s : State), b.payload.length ≤ 10 → onLink s = true →
    s.link.receive = .atRest → s.link.sender = false → (∀ x, lastCensus s.link = some x → x = censusNow s) →
    (hasRow b = true → ∃ t, samples (false :: bulletinCells o b) s = some t ∧
      t.link = { s.link with receive := .receiving (bulletinCells o b) (checkBits (bulletinBits o b)) } ∧
      (∀ o' b', cellsAgree o' b' t = true ↔ o' = o ∧ b' = b) ∧ settles { s with link := t.link } t) ∧
    (hasRow b = false → ∃ t, samples (false :: bulletinCells o b) s = some t ∧ settles (received o b s) t)

/-- R61, R65: one bit read wrong, anywhere but in the length field, and the bulletin spells nothing: the
remainder formed over the bits as read does not agree with the check as read. -/
def Obligations.OneWrongBitSpellsNothing : Prop :=
  ∀ (o : StationNo) (b : Bulletin) (i : Nat), b.payload.length ≤ 10 → i < 32 + 8 * b.payload.length →
    ¬ (12 ≤ i ∧ i < 16) →
    let cells := (bulletinCells o b).modify i not
    spelled cells (checkBits (cells.take (16 + 8 * b.payload.length))) = none

/-- R62: the arbitration field is class, kind, origin; where two fields first differ, the sender of the 0, the
one that goes on, has the lower class, or of equal classes the lower kind, or of equal kinds the lower origin;
and senders of different origins differ somewhere in the field. R62, R69: a sender that has lost arbitration
stops sending and goes on as a receiver; the entry keeps its place and its attempt count; a CENSUS held aside
replaces the queued one. A station that is not sending loses nothing (the model's choice, log entry 7); with
no cell sampled the command itself says that the loss was seen (the model's choice, log entry 11). R70, R69,
R73, R26, R100: a clash of the sending station: CLASHES rises, the line is held, and the entry on the line
goes back with its attempt count raised, a CENSUS held aside taking its place; at the third clash the entry is
dropped and LINK is set, the COLLECT-pending mark of a COLLECT so dropped is cleared, and the end queued mark
of a MODE END. -/
def Obligations.ArbitrationAndClashes : Prop :=
  (∀ (o₁ o₂ : StationNo) (b₁ b₂ : Bulletin),
     let x := (bulletinCells o₁ b₁).take 12
     let y := (bulletinCells o₂ b₂).take 12
     (o₁ ≠ o₂ → x ≠ y) ∧
     ∀ i : Nat, x.take i = y.take i → x[i]? = some false → y[i]? = some true →
       b₁.cls < b₂.cls ∨ (b₁.cls = b₂.cls ∧
         (b₁.kindCode < b₂.kindCode ∨ (b₁.kindCode = b₂.kindCode ∧ o₁ < o₂)))) ∧
  (∀ s : State,
     (s.link.sender = true → showsLoss s = true →
       ∃ t, exec .lostArbitration s = .next t ∧
         settles { s with link := { s.link with
           queue := match s.link.aside with
             | some c => replaceCensus c (s.link.queue.map fun e => { e with onLine := false })
             | none => s.link.queue.map fun e => { e with onLine := false }
           aside := none, sender := false, agreed := false
           receive := match s.link.receive with
             | .receiving bits check => .receiving bits check
             | .waiting | .atRest => .receiving [] 0xFFFF#16 } } t) ∧
     (s.link.sender = false → ∃ t, exec .lostArbitration s = .next t ∧ settles s t)) ∧
  (∀ (s : State) (e : TxEntry), s.link.sender = true → (s.link.queue.find? fun x => x.onLine) = some e →
     (e.attempts < 2 → ∃ t, exec .clash s = .next t ∧
       settles { raiseCounter .clashes s with link := { s.link with
         queue := (match s.link.aside with
           | some c => replaceCensus c
           | none => id) (s.link.queue.map fun (x : TxEntry) =>
             if x.onLine then { x with attempts := x.attempts + 1, onLine := false } else x)
         aside := none, sender := false, agreed := false, hold := true, receive := .waiting } } t) ∧
     (2 ≤ e.attempts →
       let u : State := { setFlag .link (raiseCounter .clashes s) with link := { s.link with
         queue := s.link.queue.filter fun x => !x.onLine
         sender := false, agreed := false, hold := true, receive := .waiting } }
       (∀ m p, e.bulletin = .collect m p → ∀ (h : m.toNat < 32), ∃ t, exec .clash s = .next t ∧
         settles { u with rules := { u.rules with collects := u.rules.collects.set ⟨m.toNat, h⟩ none } } t) ∧
       (∀ m x, e.bulletin = .modeEnd m → ∀ (h : m.toNat < 32), s.modes.get ⟨m.toNat, h⟩ = some x →
         ∃ t, exec .clash s = .next t ∧
           settles { u with modes := u.modes.set ⟨m.toNat, h⟩ (some { x with endQueued := false }) } t) ∧
       (∀ c x, e.bulletin = .census c → s.link.aside = some x → ∃ t, exec .clash s = .next t ∧
         settles (offer (.census x) { u with link := { u.link with aside := none } }) t) ∧
       ((∀ m p, e.bulletin ≠ .collect m p) → (∀ m, e.bulletin ≠ .modeEnd m) → (∀ c, e.bulletin ≠ .census c) →
         ∃ t, exec .clash s = .next t ∧ settles u t)))

/-! ## The transmit queue -/

/-- R72, R73: a bulletin offered to a queue with room enters behind the entries of its class and the lower
ones, raising nothing; a COLLECT for a mode id already queued is refused; a CENSUS offered while one is
queued, be the queue full or not, takes the place of that one, its attempt count 0 and every other entry as it
was, or is held aside while it is on the line, with nothing dropped. R75: an URGENT or GAME bulletin other
than a COLLECT already queued, offered to a full queue: while a ROUTINE entry or an AWARD is off the line it
enters, and one entry gives way; where every entry off the line is URGENT or GAME it is refused, TX DROPS
rises and TRANSMIT is set. R74: an AWARD offered to a full queue merges into the last AWARD of its player that
is off the line: amounts add, the flags are or-ed, the count is the sum, at most 255, and the tally is the new
one; with none, the last STATUS off the line gives way to it; with none of those it is dropped. R76: a STATUS
offered to a full queue is dropped; a CENSUS takes the place of the last STATUS off the line, and is dropped
with none. R75: the entry that gives way is the last ROUTINE one off the line, and with none the last AWARD,
which first merges into another AWARD of its player where there is one. Every drop raises TX DROPS, a refusal
sets TRANSMIT (R77), and an offer changes nothing beside them but the queue and the CENSUS held aside, and
begins the head where the line is at rest (R59). -/
def Obligations.AnOfferEntersOrGivesWay : Prop :=
  (∀ (b : Bulletin) (l : LinkCtl), l.queue.length < 16 →
     (∀ m p, b = .collect m p → l.queue.any (TxEntry.isCollectOf m) = true →
       (offerTo b l).queue = l.queue ∧ (offerTo b l).taken = false) ∧
     ((∀ m p, b = .collect m p → l.queue.any (TxEntry.isCollectOf m) = false) →
       (∀ c, b = .census c → l.queue.any TxEntry.isCensus = false) →
       (offerTo b l).taken = true ∧ (offerTo b l).aside = l.aside ∧
       ∃ front back, (offerTo b l).queue = front ++ { bulletin := b, attempts := 0, onLine := false } :: back ∧
         l.queue = front ++ back ∧ (∀ e ∈ front, e.bulletin.cls ≤ b.cls) ∧
         ∀ e ∈ back.head?, b.cls < e.bulletin.cls) ∧
     (offerTo b l).drop = false ∧ (offerTo b l).refused = false) ∧
  (∀ (c : CensusPayload) (l : LinkCtl), l.queue.any TxEntry.isCensus = true →
     let o := offerTo (.census c) l
     let onLine := l.queue.any fun e => e.isCensus && e.onLine
     o.taken = true ∧ o.drop = false ∧ o.refused = false ∧ o.queue.length = l.queue.length ∧
     (onLine = true → o.queue = l.queue ∧ o.aside = some c) ∧
     (onLine = false → o.aside = none ∧ ∀ (n : Nat) (e : TxEntry), l.queue[n]? = some e →
       (e.isCensus = true → o.queue[n]? = some { bulletin := .census c, attempts := 0, onLine := e.onLine }) ∧
       (e.isCensus = false → o.queue[n]? = some e))) ∧
  (∀ (b : Bulletin) (s : State), s.link.queue.length = 16 → b.cls ≤ 1 →
     (∀ m p, b = .collect m p → s.link.queue.any (TxEntry.isCollectOf m) = false) →
     ((∃ e ∈ s.link.queue, e.onLine = false ∧ 2 ≤ e.bulletin.cls) →
       offerTaken b s = true ∧ (offer b s).link.queue.length = 16 ∧
       (∃ e ∈ (offer b s).link.queue, e.bulletin = b) ∧
       (offer b s).control.flags = s.control.flags) ∧
     ((∀ e ∈ s.link.queue, e.onLine = false → e.bulletin.cls ≤ 1) →
       offerTaken b s = false ∧
       (offer b s).control = { s.control with
         flags := { s.control.flags with transmit := true }
         counters := s.control.counters.set 2 (min 255 (s.control.counters.get 2 + 1)) })) ∧
  (∀ (a x : AwardPayload) (e : TxEntry) (front back : List TxEntry) (l : LinkCtl),
     l.queue = front ++ e :: back → l.queue.length = 16 → a.coalesced = false → e.onLine = false →
     e.bulletin = .award x → x.player = a.player →
     (∀ k ∈ back, k.onLine = true ∨ k.isAwardOf a.player = false) →
     offerTo (.award a) l =
       { queue := front ++ { e with bulletin := .award {
           coalesced := true, settled := x.settled || a.settled, combo := x.combo || a.combo
           player := a.player, switch := if x.coalesced then BitVec.ofNat 8 (min 255 (x.switch.toNat + 1)) else 2
           amount := x.amount + a.amount, tally := a.tally } } :: back
         aside := l.aside, taken := true, drop := false, refused := false }) ∧
  (∀ (a : AwardPayload) (e : TxEntry) (front back : List TxEntry) (l : LinkCtl), l.queue.length = 16 →
     (∀ k ∈ l.queue, k.onLine = true ∨ k.isAwardOf a.player = false) →
     (l.queue = front ++ e :: back → e.onLine = false → e.bulletin.cls = 3 → e.isCensus = false →
       (∀ k ∈ back, k.onLine = true ∨ k.bulletin.cls ≠ 3 ∨ k.isCensus = true) →
       offerTo (.award a) l =
         { offerTo (.award a) { l with queue := front ++ back } with taken := true, drop := true }) ∧
     ((∀ k ∈ l.queue, k.onLine = true ∨ k.bulletin.cls ≠ 3 ∨ k.isCensus = true) →
       offerTo (.award a) l = { queue := l.queue, aside := l.aside, taken := false, drop := true, refused := false })) ∧
  (∀ (item : Byte) (data : List Byte) (c : CensusPayload) (e : TxEntry) (front back : List TxEntry) (l : LinkCtl),
     l.queue.length = 16 →
     let dropped : Offer := { queue := l.queue, aside := l.aside, taken := false, drop := true, refused := false }
     offerTo (.status item data) l = dropped ∧
     (l.queue.any TxEntry.isCensus = false →
       (l.queue = front ++ e :: back → e.onLine = false → e.isStatus = true →
         (∀ k ∈ back, k.onLine = true ∨ k.isStatus = false) →
         offerTo (.census c) l =
           { offerTo (.census c) { l with queue := front ++ back } with taken := true, drop := true }) ∧
       ((∀ k ∈ l.queue, k.onLine = true ∨ k.isStatus = false) → offerTo (.census c) l = dropped))) ∧
  (∀ (b : Bulletin) (e g : TxEntry) (x y : AwardPayload) (front back older newer : List TxEntry) (l : LinkCtl),
     l.queue.length = 16 → b.cls ≤ 1 →
     l.queue.any (fun k => match b with
       | .collect m _ => k.isCollectOf m
       | _ => false) = false → l.queue = front ++ e :: back → e.onLine = false →
     (e.bulletin.cls = 3 → (∀ k ∈ back, k.onLine = true ∨ k.bulletin.cls ≠ 3) →
       offerTo b l = { offerTo b { l with queue := front ++ back } with drop := true }) ∧
     (e.bulletin = .award x → (∀ k ∈ l.queue, k.onLine = true ∨ k.bulletin.cls ≠ 3) →
       (∀ k ∈ back, k.onLine = true ∨ k.bulletin.cls ≠ 2) →
       ((∀ k ∈ front ++ back, k.onLine = true ∨ k.isAwardOf x.player = false) →
         offerTo b l = { offerTo b { l with queue := front ++ back } with drop := true }) ∧
       (front ++ back = older ++ g :: newer → g.onLine = false → g.bulletin = .award y → y.player = x.player →
         (∀ k ∈ newer, k.onLine = true ∨ k.isAwardOf x.player = false) →
         let count (z : AwardPayload) : Nat := if z.coalesced then z.switch.toNat else 1
         let sum : AwardPayload := {
           coalesced := true, settled := y.settled || x.settled, combo := y.combo || x.combo, player := x.player
           switch := BitVec.ofNat 8 (min 255 (count y + count x)), amount := y.amount + x.amount, tally := x.tally }
         offerTo b l = offerTo b { l with queue := older ++ { g with bulletin := .award sum } :: newer }))) ∧
  (∀ (b : Bulletin) (s : State),
     let o := offerTo b s.link
     let control : Control := { s.control with
       flags := if o.refused then { s.control.flags with transmit := true } else s.control.flags
       counters := if o.drop then s.control.counters.set 2 (min 255 (s.control.counters.get 2 + 1))
         else s.control.counters }
     (s.link.receive ≠ .atRest ∨ s.link.sender = true ∨ s.link.hold = true ∨ o.queue = [] →
       offer b s = { s with control := control, link := { s.link with queue := o.queue, aside := o.aside } }) ∧
     (∀ e rest, s.link.receive = .atRest → s.link.sender = false → s.link.hold = false → o.queue = e :: rest →
       offer b s = { s with control := control, link := { s.link with
         queue := { e with onLine := true } :: rest, aside := o.aside, sender := true, agreed := true } }))

/-! ## The line -/

/-- R59: the line reaches rest at a station that neither receives, sends nor holds the line: the receive state
is at rest, and the head of the queue, where there is one, is begun. At a station that does, or whose link is
idle, nothing changes (the model's choice, log entry 7). R58, R59, R65, R71: what one sampling point does by
the receive state: a dominant sample at rest is a start cell, and a recessive one changes no receive state
(the model's choice, log entry 13); in a bulletin the bit joins those read, and a sample past the last check
cell joins nothing and is no part of the read-back (the model's choice, log entry 13); while waiting for rest
nothing is taken. A sender compares the cell with the one it sent. The last check cell of a CLEAR that has no
command of its own completes it (the model's choice, log entry 23). R70: the end of the dominant hold releases
the line. R65: a receive error raises CHECK ERRORS, sets LINK and sends the receiver back to waiting for rest;
it is judged at rest and in a bulletin, so that one bulletin gives one at most, and neither while waiting, nor
by a station that is sending, nor once the cells read spell a good bulletin, complete by R60 (the model's
choice, log entry 12). -/
def Obligations.RestSamplesHoldsAndErrors : Prop :=
  (∀ s : State,
     ((∀ bits check, s.link.receive ≠ .receiving bits check) → onLink s = true → s.link.sender = false →
       s.link.hold = false →
       (s.link.queue = [] → ∃ t, exec .restGap s = .next t ∧
         settles { s with link := { s.link with receive := .atRest } } t) ∧
       (∀ e rest, s.link.queue = e :: rest → ∃ t, exec .restGap s = .next t ∧
         settles { s with link := { s.link with queue := { e with onLine := true } :: rest
                                                receive := .atRest, sender := true, agreed := true } } t)) ∧
     ((onLink s = false ∨ s.link.sender = true ∨ s.link.hold = true ∨
         ∃ bits check, s.link.receive = .receiving bits check) →
       ∃ t, exec .restGap s = .next t ∧ settles s t)) ∧
  (∀ (dominant : Bool) (s : State),
      (onLink s = false ∨ s.link.receive = .waiting →
        ∃ t, exec (.samplingPoint dominant) s = .next t ∧ settles s t) ∧
      (onLink s = true → s.link.receive = .atRest →
        ∃ t, exec (.samplingPoint dominant) s = .next t ∧
          settles { s with link := { s.link with
            agreed := s.link.agreed && (!s.link.sender || sentBit s 0 == !dominant)
            receive := if dominant then .receiving [] 0xFFFF#16 else .atRest } } t) ∧
      (∀ bits check, onLink s = true → s.link.receive = .receiving bits check →
        let read := if cellsComplete bits then bits else bits ++ [!dominant]
        let formed := if cellsComplete bits = false ∧ checked bits = true then checkBit check (!dominant) else check
        let u : State := { s with link := { s.link with
          agreed := s.link.agreed &&
            (cellsComplete bits || !s.link.sender || sentBit s (bits.length + 1) == !dominant)
          receive := .receiving read formed } }
        ((∀ o b, spelled read formed = some (o, b) → hasRow b = true) →
          ∃ t, exec (.samplingPoint dominant) s = .next t ∧ settles u t) ∧
        (∀ o b, spelled read formed = some (o, b) → hasRow b = false →
          ∃ t, exec (.samplingPoint dominant) s = .next t ∧ settles (received o b u) t))) ∧
  (∀ s : State,
     (∃ t, exec .clashHoldEnd s = .next t ∧ settles { s with link := { s.link with hold := false } } t) ∧
     (onLink s = true → s.link.sender = false → s.link.receive ≠ .waiting →
       (∀ bits check, s.link.receive = .receiving bits check → spelled bits check = none) →
       ∃ t, exec .receiveError s = .next t ∧
         settles { s with
           control := { s.control with
             flags := { s.control.flags with link := true }
             counters := s.control.counters.set 0 (min 255 (s.control.counters.get 0 + 1)) }
           link := { s.link with receive := .waiting } } t) ∧
     (onLink s = false ∨ s.link.sender = true ∨ s.link.receive = .waiting ∨
         (∃ bits check x, s.link.receive = .receiving bits check ∧ spelled bits check = some x) →
       ∃ t, exec .receiveError s = .next t ∧ settles s t))

/-- R69, R71, R81: what the link and the peer table make of a completion before the blocks act: this station's
own bulletin leaves the queue and changes no presence, a CENSUS held aside for it being offered anew (R73);
one of this station's number that it was not sending sets LINK and raises CLASHES; any other makes its origin
PRESENT for three census intervals. A sender that takes another's completion has lost arbitration (the model's
choice, log entry 11). R66, R81: so every command that is a bulletin of another station makes that station
PRESENT, in every state in which the link works, and leaves every other station's entry as it was; only a
RESTART of this station undoes that. R59, R65: a station that waits for rest, as after a reset, a completion
or a receive error, takes none; nor, by the model's choice (log entries 11 and 23), one whose link is idle,
whose payload no bulletin carries, or whose cells spell another. -/
def Obligations.TheLinkTakesACompletion : Prop :=
  (∀ (o : StationNo) (b : Bulletin) (s : State),
     (received o b s).link.receive = .waiting ∧
     (isOwn o b s = true →
       (received o b s).peers = s.peers ∧ (received o b s).link.sender = false ∧
       ((∀ c, b ≠ .census c) ∨ s.link.aside = none →
         received o b s = { s with link := { s.link with
           queue := s.link.queue.filter fun e => !e.onLine
           receive := .waiting, sender := false, agreed := false } }) ∧
       (∀ c k, b = .census c → s.link.aside = some k →
         received o b s = offer (.census k) { s with link := { s.link with
           queue := s.link.queue.filter fun e => !e.onLine
           aside := none, receive := .waiting, sender := false, agreed := false } })) ∧
     (isOwn o b s = false →
       (received o b s).link.sender = false ∧
       (s.link.sender = false → (received o b s).link = { s.link with receive := .waiting }) ∧
       (o = strap s →
         (received o b s).peers = s.peers ∧
         (received o b s).control = { s.control with
           flags := { s.control.flags with link := true }
           counters := s.control.counters.set 1 (min 255 (s.control.counters.get 1 + 1)) }) ∧
       (o ≠ strap s →
         (received o b s).control = s.control ∧
         peer (received o b s) o = { peer s o with
           presence := .present, silence := some (3 * s.control.image.censusInterval) } ∧
         ∀ j, j ≠ o → peer (received o b s) j = peer s j))) ∧
  (∀ (c : Instr) (o : StationNo) (b : Bulletin) (s : State), bulletinOf c = some (o, b) →
    (s.link.receive = .waiting → ∃ t, exec c s = .next t ∧ settles s t) ∧
    (¬ hears o b s → ∃ t, exec c s = .next t ∧ settles s t) ∧
    (hears o b s → o ≠ strap s → (∀ a, b = .restart a → targets s a = false) →
      ∃ t, exec c s = .next t ∧ (peer t o).presence = .present ∧
        (peer t o).silence = some (3 * s.control.image.censusInterval) ∧ ∀ j, j ≠ o → peer t j = peer s j))

/-! ## Station Control: power, self-test, resets, load, the end of joining -/

/-- R180: POWER_ON leaves every piece of state at its power-on value, the straps at what the pins read; the
level of the reset input is the outside's, and stays (the model's choice, log entry 1). R180, R187, R189: the
self-test ends: a pass enters LOADING, the poll timer of the first burst running (R181), or the hold of a
reset line still asserted; a failure stays in SELFTEST with the fault line asserted. In any other state there
is no test to end (the model's choice, log entry 7). -/
def Obligations.PowerOnAndTheSelftest : Prop :=
  (∀ (n : StationNo) (s : State),
     exec (.powerOn n) s = .next { powerOnState n with
       pending := s.pending, control := { controlReset n with resetLine := s.control.resetLine } }) ∧
  (∀ (pass : Bool) (s : State),
     (s.control.station = .selftest → ∃ t, exec (.selftestComplete pass) s = .next t ∧
       settles { s with control := { s.control with
         station := if pass then (if s.control.resetLine then .held else .loading) else .selftestFailed
         load := if pass ∧ s.control.resetLine = false then
             { bytes := [], polls := 1, acknowledged := false, timer := some 10 }
           else s.control.load } } t ∧
       (pass = false → t.control.faultLine = true)) ∧
     (s.control.station ≠ .selftest → ∃ t, exec (.selftestComplete pass) s = .next t ∧ settles s t))

/-- R187, R190, R41: the reset line, outside SELFTEST, and a RESTART addressed to this station leave the
power-on values, but for the tallies, the player count and CHECK ERRORS, which stay, and the retained mark,
which is set; the line holds the station until its release, and a RESTART enters LOADING; each then has the
poll timer of the first burst running (R181). That the values stand so from the assertion on, and that the
station is held in a state of its own, is the model's choice, log entry 25. -/
def Obligations.ResetsKeepTalliesPlayersAndCheckErrors : Prop :=
  ∀ s : State,
    let begun : Load := { bytes := [], polls := 1, acknowledged := false, timer := some 10 }
    let after (station : StationState) (line : Bool) (load : Load) : State :=
      { powerOnState s.control.strap with
        pending := s.pending
        rules := { rulesReset with tallies := s.rules.tallies }
        control := { controlReset s.control.strap with
          station := station, resetLine := line, load := load, retained := true
          playerCount := s.control.playerCount
          counters := (Tab.fill 8 0).set 0 (s.control.counters.get 0) } }
    (s.control.station ≠ .selftest → s.control.station ≠ .selftestFailed → s.control.station ≠ .held →
      ∃ t, exec .resetLineAssert s = .next t ∧ settles (after .held true { begun with timer := none }) t) ∧
    (s.control.station = .selftest ∨ s.control.station = .selftestFailed ∨ s.control.station = .held →
      ∃ t, exec .resetLineAssert s = .next t ∧
        settles { s with control := { s.control with resetLine := true } } t) ∧
    (∃ t, exec .resetLineRelease s = .next t ∧
      settles { s with control := { s.control with
        resetLine := false
        station := if s.control.station = .held then .loading else s.control.station
        load := if s.control.station = .held then begun else s.control.load } } t) ∧
    (∀ (o : StationNo) (a : Byte), hears o (.restart a) s → a.toNat = s.control.strap.val →
      ∃ t, exec (.restart o a) s = .next t ∧ settles (after .loading s.control.resetLine begun) t) ∧
    (∀ (o : StationNo) (a : Byte), hears o (.restart a) s → a.toNat ≠ s.control.strap.val →
      ∃ t, exec (.restart o a) s = .next t ∧ settles (received o (.restart a) s) t)

/-- R181, R182, R184: a burst read in LOADING: a header that fails is judged at once, and the image check
after the last burst; a failed load sets CONFIG, enters LISTEN-ONLY and starts the census timer, at 1,000 ms,
with every bit of the fault-line mask set and so the fault line asserted (R82, R184, R189): a station holds no
image until a load succeeds, its census interval 1,000 ms, its mask every bit set and nothing configured (what
R184 does not name of it is the model's choice, log entry 6); before the last burst the bytes are kept and the
next burst begins, its first poll made and the next 10 ms away. Outside LOADING no burst is read (the model's
choice, log entry 7). R183, R185, R4, R15, R29, R82, R179: a good load: the corrected image, JOINING for two
census intervals, the census timer, scanning, conversion from the first enabled channel, the initial feature
states in the table and in every context, and the blink clock from 0. R181, R182: the poll timer of a burst
expires and the memory is polled again: an acknowledged poll is the last, the timer stopped; an unacknowledged
one restarts it at 10 ms; the eighth that goes unacknowledged fails the load. With the timer stopped nothing
changes (the model's choice, log entry 7). A burst is taken whatever the polls before it (the model's choice,
log entry 32), and the polls of the first stand at 1 after a reset (the model's choice, log entry 18). -/
def Obligations.TheImageIsLoaded : Prop :=
  (unloadedWithin State.reset ∧ (∀ s t : State, unloadedWithin s → step s = .next t → unloadedWithin t) ∧
   (∀ s : State, unloadedWithin s → s.control.station.running = false →
     s.control.image.censusInterval = 1000 ∧ s.control.image.mask = 255 ∧
     (∀ i, (ruleOf s i).cls = .unused) ∧ (∀ b, bankCfg s b = none) ∧ (∀ p, pocketCfg s p = none) ∧
     (∀ m, modeDef s m = none) ∧ (∀ l, s.control.image.lamps.get l = .none) ∧
     ∀ k, (s.control.image.channels.get k).enabled = false) ∧
   ∀ (c : Instr) (s t : State), unloadedWithin s → s.control.station = .loading → exec c s = .next t →
     t.control.station = .listenOnly →
     t.peers.timer = some 1000 ∧ t.control.flags.config = true ∧ maskByte t = 255 ∧ t.control.faultLine = true) ∧
  (∀ (burst : Tab 16 Byte) (s : State),
     let bytes := if s.control.load.bytes = [] then burst.cells
       else s.control.load.bytes ++ burst.cells.take (imageLength s.control.load.bytes - s.control.load.bytes.length)
     let read (timer : Timer) : Control :=
       { s.control with load := { bytes := bytes, polls := 1, acknowledged := false, timer := timer } }
     let failed : State := { s with
       control := { read none with station := .listenOnly, flags := { s.control.flags with config := true } }
       peers := { s.peers with timer := some s.control.image.censusInterval } }
     (s.control.station = .loading → headerGood bytes = false →
       ∃ t, exec (.loadBurstRead burst) s = .next t ∧ settles failed t) ∧
     (s.control.station = .loading → headerGood bytes = true → bytes.length < imageLength bytes →
       ∃ t, exec (.loadBurstRead burst) s = .next t ∧ settles { s with control := read (some 10) } t) ∧
     (s.control.station = .loading → headerGood bytes = true → imageLength bytes ≤ bytes.length →
       checkGood bytes = false → ∃ t, exec (.loadBurstRead burst) s = .next t ∧ settles failed t) ∧
     (s.control.station ≠ .loading → ∃ t, exec (.loadBurstRead burst) s = .next t ∧ settles s t)) ∧
  (∀ (burst : Tab 16 Byte) (s : State),
     let bytes := if s.control.load.bytes = [] then burst.cells
       else s.control.load.bytes ++ burst.cells.take (imageLength s.control.load.bytes - s.control.load.bytes.length)
     let img := buildImage s.control.strap bytes
     s.control.station = .loading → headerGood bytes = true → imageLength bytes ≤ bytes.length →
     checkGood bytes = true →
     ∃ t, exec (.loadBurstRead burst) s = .next t ∧
       settles { s with
         control := { s.control with
           load := { bytes := bytes, polls := 1, acknowledged := false, timer := none }
           image := img, station := .joining, joining := some (2 * img.censusInterval) }
         peers := { s.peers with timer := some img.censusInterval }
         scanner := { s.scanner with running := true }
         analog := { s.analog with running := true, turn := t.analog.turn }
         rules := { s.rules with
           features := img.features.map (·.initial)
           contexts := s.rules.contexts.map fun k => { k with features := img.features.map (·.initial) } }
         lamps := { s.lamps with blink := 0 } } t ∧
       (img.channels.get t.analog.turn).enabled = true ∧
       ∀ c : ChannelNo, c < t.analog.turn → (img.channels.get c).enabled = false) ∧
  (∀ (ack : Bool) (s : State),
     let load := s.control.load
     let polled (timer : Timer) : Control :=
       { s.control with load := { load with polls := load.polls + 1, acknowledged := ack, timer := timer } }
     (s.control.station = .loading → load.acknowledged = false → load.timer.isSome = true →
       (ack = true → ∃ t, exec (.loadPollExpiry ack) s = .next t ∧ settles { s with control := polled none } t) ∧
       (ack = false → load.polls + 1 < 8 →
         ∃ t, exec (.loadPollExpiry ack) s = .next t ∧ settles { s with control := polled (some 10) } t) ∧
       (ack = false → 8 ≤ load.polls + 1 →
         ∃ t, exec (.loadPollExpiry ack) s = .next t ∧
           settles { s with
             control := { polled none with
               station := .listenOnly, flags := { s.control.flags with config := true } }
             peers := { s.peers with timer := some s.control.image.censusInterval } } t)) ∧
     (s.control.station ≠ .loading ∨ load.acknowledged = true ∨ load.timer = none →
       ∃ t, exec (.loadPollExpiry ack) s = .next t ∧ settles s t))

/-- R183: what a good load makes of the image bytes, for every list of bytes and every station number. The
header fields by R10, R57, R82 and R150; the default rule where the rule section is absent (R17), and
otherwise every field of each rule record by its layout and by R3 and R16; the banks by R31, judged before any
action is corrected; the pockets, their lock features and the release spacing by R109; the features by R29;
the drivers by R165; the mode definitions by R92 and R57; the lamp bindings by R39; the channels by R9 and
R11; and the signature: the check over header bytes 6..13 and the mode section as stored, its high byte XOR
its low byte. Section 11.3 lays out the header and the rule record alone: the fields that any other record's
bytes spell are free functions of those bytes, and the order of the two numbers of an analog record is the
model's reading (DEDUCED), as is a bank's list cut at eight members: log entry 2. -/
def Obligations.TheImageIsCorrected : Prop :=
  ∀ (strap : StationNo) (img : List Byte),
    let t := buildImage strap img
    let byte (n : Nat) : Nat := (img.getD n 0).toNat
    let word (n : Nat) : Nat := 256 * byte n + byte (n + 1)
    let inside (lo hi x : Nat) : Nat := if x < lo then lo else if hi < x then hi else x
    let num (n x : Nat) : Option (Fin n) := if h : x < n then some ⟨x, h⟩ else none
    let has (k : Nat) : Bool := (byte 5).testBit k
    let start (k : Nat) : Nat :=
      24 + ((List.range k).map fun j => if has j then [640, 64, 48, 32, 64, 384, 32, 24].getD j 0 else 0).sum
    let place (k i size : Nat) : Nat := start k + i * size
    let row (k i size : Nat) : List Byte := (img.drop (place k i size)).take size
    let bank (b : BankNo) : RawBank := Config.bankRecord (row 2 b.val 12)
    let pocket (p : PocketNo) : RawPocket := Config.pocketRecord (row 3 p.val 8)
    let named (p : PocketNo) : Prop := has 3 = true ∧ (pocket p).capacity ≠ 0 ∧ (pocket p).driver < 8
    let fits (p : PocketNo) : Prop := named p ∧ ∀ q, q < p → named q → (pocket q).driver ≠ (pocket p).driver
    let action (a : RawAction) : Option Action := match a.kind with
      | 1 => (num 32 a.argument).map .lightFeature
      | 2 => (num 32 a.argument).map .startMode
      | 3 => (num 32 a.argument).map .addJackpot
      | 4 => (num 32 a.argument).map .collect
      | 5 => match num 32 a.argument, a.state with
        | some f, some st =>
          if st ≠ .held ∧ (a.station.toNat ≤ 15 ∨ a.station.toNat = 255) then some (.remoteFeature a.station f st)
          else none
        | _, _ => none
      | 6 => match num 4 a.argument with
        | some b => if (t.banks.get b).any (fun k => k.kind == .standup) then some (.advanceBank b) else none
        | none => none
      | _ => none
    (t.format = img.getD 2 0 ∧ t.troughStation = num 16 (byte 6) ∧ t.installed = inside 1 6 (byte 7) ∧
     t.threshold = inside 1 4 (byte 8) ∧
     t.multiballBalls = (if t.installed = 1 then 1 else inside 2 t.installed (byte 9)) ∧
     t.censusInterval = inside 250 2500 (word 10) / 250 * 250 ∧ t.comboWindow = inside 500 5000 (word 12) / 100 * 100 ∧
     t.searchDelay = inside 5 60 (byte 14) ∧
     t.averaging = (if byte 15 < 4 then 2 else if byte 15 < 8 then 4 else if byte 15 < 16 then 8 else 16) ∧
     t.mask = img.getD 18 0 ∧
     t.releaseSpacing = (if has 3 then inside 400 2000 (pocket 0).spacing / 100 * 100 else 400) ∧
     (let check := checkBits (bytesBits ((img.drop 6).take 8 ++ if has 5 then (img.drop (start 5)).take 384 else []))
      t.signature.toNat = (check.toNat / 256) ^^^ (check.toNat % 256))) ∧
    (has 0 = false → (∀ b, t.banks.get b = none) ∧
      ∀ i, t.rules.get i = { cls := .playfield, closeCount := 2, openCount := 2, group := 0, feature := none
                             plain := word 16, lit := 0, action := none, after := .dark, combo := false
                             activity := true, driver := none, index := 0 }) ∧
    (has 0 = true → ∀ i : SwitchNo,
      let b (n : Nat) : Nat := byte (place 0 i.val 10 + n)
      let r := t.rules.get i
      let code := b 0 / 32
      r.closeCount = max 1 (b 1 / 16) ∧ r.openCount = max 1 (b 1 % 16) ∧ r.group.val = b 0 / 4 % 8 ∧
      (r.combo = true ↔ b 0 / 2 % 2 = 1) ∧ (r.activity = true ↔ b 0 % 2 = 1) ∧ r.feature = num 32 (b 2) ∧
      r.plain = 256 * b 3 + b 4 ∧ r.lit = 256 * b 5 + b 6 ∧ r.index = b 8 % 16 ∧
      r.after = (if b 8 / 64 = 3 then .lit else if b 8 / 64 = 2 then .latent else .dark) ∧
      r.action = action { kind := b 7 / 32, argument := b 7 % 32, station := BitVec.ofNat 8 (b 9)
                          state := match b 8 / 16 % 4 with
                            | 0 => some .off
                            | 1 => some .dark
                            | 2 => some .latent
                            | _ => some .lit } ∧
      (code = 0 ∨ 5 < code → r.cls = .unused) ∧ (code = 1 → r.cls = .playfield) ∧
      (code = 2 → (∃ p : PocketNo, b 8 % 16 = p.val ∧ fits p) → r.cls = .pocketEntry) ∧
      (code = 2 → ¬ (∃ p : PocketNo, b 8 % 16 = p.val ∧ fits p) → r.cls = .playfield) ∧
      (code = 3 → r.cls = if b 8 % 16 ≤ 5 then .trough else .unused) ∧
      (code = 4 → (∃ k : BankNo, b 8 % 16 = k.val ∧ (t.banks.get k).any (fun c => decide (i ∈ c.members)) = true) →
        r.cls = .bankMember) ∧
      (code = 4 → ¬ (∃ k : BankNo, b 8 % 16 = k.val ∧ (t.banks.get k).any (fun c => decide (i ∈ c.members)) = true) →
        r.cls = .playfield) ∧
      (code = 5 → r.cls = (if b 8 % 16 < 8 then .direct else .playfield) ∧ r.driver = num 8 (b 8 % 16)) ∧
      (code ≠ 5 → r.driver = none)) ∧
    ((∀ b, has 2 = false → t.banks.get b = none) ∧
     (∀ b, has 0 = true → has 2 = true →
      let raw := bank b
      let members : List SwitchNo := (((raw.members.take 8).filterMap (num 64)).filter fun i =>
        decide (byte (place 0 i.val 10) / 32 = 4) && decide (byte (place 0 i.val 10 + 8) % 16 = b.val)).eraseDups
      let kind : Option BankKind := match raw.drop with
        | some true => (num 8 raw.driver).map .drop
        | some false => some .standup
        | none => none
      (kind = none ∨ members.length < 2 → t.banks.get b = none) ∧
      (∀ k, kind = some k → 2 ≤ members.length → t.banks.get b = some {
        kind := k, members := members, value := raw.value.toNat
        completion := if raw.completion = 0 ∨ members.length < raw.completion then members.length else raw.completion
        action := if action raw.action = some (.advanceBank b) then none else action raw.action }))) ∧
    (∀ p,
      let raw := pocket p
      let entry : Option SwitchNo := (num 64 raw.entry).filter fun i =>
        (t.rules.get i).cls == .pocketEntry && (t.rules.get i).index == p.val
      t.lockFeatures.get p = (if has 3 then num 32 raw.feature else none) ∧
      (¬ fits p ∨ (entry = none ∧ 4 ≤ raw.opto) → t.pockets.get p = none) ∧
      (fits p → entry ≠ none ∨ raw.opto < 4 → ∃ c, t.pockets.get p = some c ∧
        c.capacity = (if entry = none then 1 else min 3 raw.capacity) ∧ c.feature = num 32 raw.feature ∧
        c.entry = entry ∧ c.opto = num 4 raw.opto ∧ c.driver.val = raw.driver ∧
        c.kickout = inside 500 5000 raw.kickout / 100 * 100)) ∧
    (∀ f,
      let raw := Config.featureRecord (row 1 f.val 2)
      t.features.get f = if has 1 then
        { initial := if raw.state = some .held then .dark else raw.state.getD .dark, link := num 32 raw.link }
      else { initial := .dark, link := none }) ∧
    (let raw (d : DriverNo) : RawDriver := if has 4 then Config.driverRecord (row 4 d.val 8)
       else { onTime := 0, power := 0, holdPower := 0, maxHold := 0, recycle := 0, tolerance := 0, binding := 0
              search := false, trough := false }
     let lane (d : DriverNo) : Prop := t.troughStation = some strap ∧ (raw d).trough = true ∧
       ∀ e, e < d → (raw e).trough = false
     let used (d : DriverNo) : Prop := (∃ p, (t.pockets.get p).any (fun c => c.driver == d) = true) ∨
       (∃ b, (t.banks.get b).any (fun c => c.kind == .drop d) = true) ∨ (∃ i, (t.rules.get i).driver = some d) ∨ lane d
     ∀ d, let x := t.drivers.get d
       x.onTime = max 1 (raw d).onTime.toNat ∧ x.power = inside 1 8 (raw d).power ∧
       x.holdPower = min 8 (raw d).holdPower ∧ x.maxHold = inside 1 60 (raw d).maxHold ∧
       x.recycle = (raw d).recycle.toNat ∧ x.tolerance = inside 1 15 (raw d).tolerance ∧
       x.search = (raw d).search ∧ (x.trough = true ↔ lane d) ∧
       ((raw d).holdPower = 0 ∨ used d → x.binding = none) ∧
       ((raw d).holdPower ≠ 0 → ¬ used d → x.binding = num 32 (raw d).binding)) ∧
    (∀ m,
      let raw := Config.modeRecord (row 5 m.val 12)
      (has 5 = false ∨ raw.id ≠ m.val ∨ raw.kind = none → t.modes.get m = none) ∧
      (∀ k, has 5 = true → raw.id = m.val → raw.kind = some k → ∃ d, t.modes.get m = some d ∧
        d.kind = k ∧ d.duration = raw.duration.toNat ∧ d.startsMulti = raw.startsMulti ∧ d.endsMulti = raw.endsMulti ∧
        (k = .multiply → d.mask = raw.mask ∧ d.factor = inside 2 5 raw.factor) ∧
        (k = .hurry → d.start = raw.start.toNat ∧ d.step = raw.step.toNat ∧
          d.floor = min raw.start.toNat raw.floor.toNat ∧ d.tick = inside 100 1000 raw.tick / 10 * 10) ∧
        (k = .jackpot → d.base = inside 1 1000000 raw.base ∧ d.percent = inside 1 100 raw.percent ∧
          d.max = inside d.base 9999999 raw.max))) ∧
    (∀ l,
      let raw := Config.lampRecord (row 6 l.val 2)
      t.lamps.get l = if has 6 then match raw.kind with
        | some .feature => (num 32 raw.target).elim .none .feature
        | some .mode => (num 32 raw.target).elim .none .mode
        | some .pocket => ((num 4 raw.target).filter fun p => (t.pockets.get p).isSome).elim .none .pocket
        | some .faults => .faults
        | some .none | none => .none
      else .none) ∧
    (∀ c,
      let first := if has 7 then word (place 7 c.val 4) else 0
      let second := if has 7 then word (place 7 c.val 4 + 2) else 0
      let x := t.channels.get c
      (c.val = 5 → x = { enabled := true, upper := inside 0 1023 first, lower := min (inside 0 1023 first) second }) ∧
      (c.val < 5 → x.upper = inside 1 1023 first ∧ x.lower = min (inside 1 1023 first - 1) second) ∧
      (c.val = 4 → (x.enabled = true ↔ t.troughStation = some strap)) ∧
      (c.val < 4 → (x.enabled = true ↔ ∃ p, (t.pockets.get p).any (fun k => k.opto.any fun a => a.val == c.val) = true)))

/-- R88, R186, R106: at the end of the joining period the lowest-numbered PRESENT station whose record reports
READY, PLAY or TILT gives the game state, the current player and the player count; with none the station
enters IDLE and keeps both. Tallies, contexts and the peer table stay; outside PLAY and TILT no mode is made;
B is the sum that the view gives. R88, R134, R142, R147: the hand-over: the counts of every record that is not
of LISTEN-ONLY; T and the missing count of the trough station's record, and with no such record the largest
missing count of the stations in a game (the model's choice, log entry 22), at most the installed balls; the
phase is MULTI in PLAY and TILT with B of 2 or more; the quiet timer starts. R106: outside PLAY and TILT no
mode is made; in them each mode that a record reports is made, owned by the lowest-numbered station that
reports it, a LISTEN-ONLY record's bitmap taken as it was sent (the model's choice, log entry 38). R186 steps
4 to 6: the pockets are judged, then the DROP banks, then the hold bindings ask. R132: a pocket with no ball
whose opto reads PRESENT has a ball entering, by R112; one whose opto reads ABSENT loses its held balls, with
a LOCK LOST. R34: a COUNTING DROP bank whose marks reach its completion count turns its features HELD and
requests its reset, unscored. R172: each hold binding whose feature is effectively LIT, its spent mark clear,
requests its driver. Within a step pockets, banks and drivers go in ascending number (the model's choice, log
entry 41), and the modes made at step 3 request no hold before step 6 (the model's choice, log entry 29). -/
def Obligations.TheEndOfJoining : Prop :=
  (∀ s : State, s.control.station = .joining → s.control.joining.isSome = true →
     ∃ t, exec .joiningTimerExpiry s = .next t ∧
       t.control.joining = none ∧ t.rules.tallies = s.rules.tallies ∧ t.rules.contexts = s.rules.contexts ∧
       t.peers = s.peers ∧ t.balls.credits = s.balls.credits ∧ t.balls.inPlay = inPlayCount t ∧
       t.scanner = s.scanner ∧ t.analog = s.analog ∧ t.trough = s.trough ∧
       ((∀ j r, (peer s j).presence = .present → (peer s j).record = some r → r.state.playing = none) →
         t.control.station = .idle ∧ t.rules.current = s.rules.current ∧
         t.control.playerCount = s.control.playerCount ∧ t.modes = s.modes) ∧
       (∀ j r st, (peer s j).presence = .present → (peer s j).record = some r → r.state.playing = some st →
         (∀ k r', k < j → (peer s k).presence = .present → (peer s k).record = some r' →
           r'.state.playing = none) →
         t.control.station = st ∧ t.rules.current = r.player ∧ t.control.playerCount = r.players)) ∧
  (∀ s : State, s.control.station = .joining → s.control.joining.isSome = true →
     ∃ t, exec .joiningTimerExpiry s = .next t ∧
       t.balls.quiet = some (s.control.image.searchDelay * 1000) ∧
       (∀ j r, (peer s j).record = some r → r.state ≠ .listenOnly →
         t.balls.peers.get j = { held := r.held, stuck := r.stuck }) ∧
       (∀ j, (∀ r, (peer s j).record = some r → r.state = .listenOnly) → t.balls.peers.get j = s.balls.peers.get j) ∧
       (∀ k r, s.control.image.troughStation = some k → (peer s k).record = some r →
         t.balls.missing = min s.control.image.installed r.missing ∧
         (∀ n, r.trough = some n → t.balls.trough = some n) ∧
         (r.trough = none → t.balls.trough = s.balls.trough)) ∧
       ((∀ k, s.control.image.troughStation = some k → (peer s k).record = none) →
         t.balls.trough = s.balls.trough ∧
         (∀ j r, (peer s j).record = some r → r.state.playing.isSome = true →
           min s.control.image.installed r.missing ≤ t.balls.missing) ∧
         (t.balls.missing = 0 ∨ ∃ j r, (peer s j).record = some r ∧ r.state.playing.isSome = true ∧
           t.balls.missing = min s.control.image.installed r.missing)) ∧
       ((∀ p c, pocketCfg s p = some c → c.opto = none) →
         t.balls.phase = if (t.control.station = .play ∨ t.control.station = .tilt) ∧ 2 ≤ t.balls.inPlay then .multi
           else .single) ∧
       (t.control.station = .ready ∨ t.control.station = .idle → t.modes = s.modes) ∧
       (t.control.station = .play ∨ t.control.station = .tilt →
         (List.finRange 32).countP (fun m => (s.modes.get m).isSome ||
           (List.finRange 16).any fun j => (peer s j).record.any fun r => r.modes.get m) ≤ 12 →
         ∀ m, (∀ e, s.modes.get m = some e → t.modes.get m = some e) ∧
           (∀ j d r, s.modes.get m = none → modeDef s m = some d → (peer s j).record = some r → r.modes.get m = true →
             (∀ k q, k < j → (peer s k).record = some q → q.modes.get m = false) →
             t.modes.get m = some
               { kind := d.kind, owner := j, ending := false
                 time := if d.duration = 0 then .untimed else .running (d.duration * 1000)
                 value := match d.kind with
                   | .hurry => some d.start
                   | .jackpot => some d.base
                   | .plain | .multiply => none
                 tick := if d.kind = .hurry then some d.tick else none, grace := none, endQueued := false }))) ∧
  (∀ s : State, s.control.station = .joining → s.control.joining.isSome = true →
     ∃ t, exec .joiningTimerExpiry s = .next t ∧
       let joined : State := recomputeB { s with
         control := { s.control with
           station := t.control.station, playerCount := t.control.playerCount, joining := none }
         rules := { s.rules with current := t.rules.current }, modes := t.modes, balls := t.balls }
       let holdAsks (d : DriverNo) (v : State) : State := match (driverCfg v d).binding with
         | some f => if effective v f = .lit ∧ (unit v d).spent = false then request d .eject 100 (.hold d) v else v
         | none => v
       settles (eachUp 8 holdAsks (eachUp 4 bankAtJoin (eachPocket judgeAtJoin joined))) t) ∧
  (∀ (p : PocketNo) (c : PocketCfg) (s : State),
     let x := pocket s p
     let bare : Prop := x.held = 0 ∧ x.resting = 0 ∧ x.stuck = 0 ∧ x.through = 0 ∧ x.pending = 0
     (c.opto = none → judgeAtJoin p c s = s) ∧
     (optoLevel s c = some true →
       (bare → judgeAtJoin p c s = ballEnters p c false s) ∧ (¬ bare → judgeAtJoin p c s = s)) ∧
     (optoLevel s c = some false →
       (x.held = 0 → judgeAtJoin p c s = s) ∧
       (0 < x.held → judgeAtJoin p c s =
         offer (.lock { event := 5, pocket := p, player := BitVec.ofNat 8 (s.rules.current.val + 1), credit := 0
                        held := 0, stuck := BitVec.ofNat 8 x.stuck })
           (recomputeB { s with pockets := { s.pockets with
             pockets := s.pockets.pockets.set p { x with held := 0, phase := .empty } } })))) ∧
  (∀ (b : BankNo) (c : BankCfg) (s : State), bankCfg s b = some c →
     (c.isDrop = false ∨ (bank s b).phase ≠ .counting ∨ markedCount s c < c.completion → bankAtJoin b s = s) ∧
     (∀ d, c.resetDriver = some d → (bank s b).phase = .counting → c.completion ≤ markedCount s c →
       (unit s d).phase ≠ .faulted →
       let t := bankAtJoin b s
       let fallen : State := { s with rules := { s.rules with
         features := .ofFn fun f => if f ∈ memberFeatures s c then .held else resting s f } }
       ∃ x, holdsFollow s fallen x ∧ t = request d .reset 100 (.bank b) { fallen with
         drivers := x
         rules := { fallen.rules with
           banks := s.rules.banks.set b { phase := .resetting, attempt := 1, timer := none, restart := false } } }))

/-! ## Switches and analog channels -/

/-- R1: a strobe gives the eight switches of its line their raw samples and leaves the others'; the next line
is in turn, and the scan is complete after line 7. A station that is not scanning takes none. A strobe while
the completion of a scan is still due is the first of the next scan, and that completion is lost (the model's
choice, log entry 33). R6, R8: a running stuck timer expires: the switch is marked stuck, its timer stops,
SWITCH is set and STUCK SWITCHES rises; no other switch, score or quiet timer is touched. A stopped one
changes nothing (the model's choice, log entry 7). -/
def Obligations.StrobesAndStuckSwitches : Prop :=
  (∀ (returns : Byte) (s : State),
     (s.scanner.running = true → ∃ t, exec (.strobe returns) s = .next t ∧
       (∀ n : SwitchNo, t.scanner.raw.get n =
         if n.val / 8 = s.scanner.line.val then returns.getLsbD (n.val % 8) else s.scanner.raw.get n) ∧
       settles { s with scanner := { s.scanner with
         raw := t.scanner.raw, line := s.scanner.line + 1, scanEnd := s.scanner.line == 7 } } t) ∧
     (s.scanner.running = false → ∃ t, exec (.strobe returns) s = .next t ∧ settles s t)) ∧
  (∀ (i : SwitchNo) (s : State),
     let marked : SwitchState := { s.scanner.switches.get i with stuck := true, timer := none }
     ((s.scanner.switches.get i).timer.isSome = true → ∃ t, exec (.stuckTimerExpiry i) s = .next t ∧
       settles { s with
         scanner := { s.scanner with switches := s.scanner.switches.set i marked }
         control := { s.control with
           flags := { s.control.flags with switch := true }
           counters := s.control.counters.set 6 (min 255 (s.control.counters.get 6 + 1)) } } t) ∧
     ((s.scanner.switches.get i).timer = none → ∃ t, exec (.stuckTimerExpiry i) s = .next t ∧ settles s t))

/-- R2, R6, R7: at a scan completion after the baseline every switch is debounced alone: an agreeing sample
sets its count to 0, a differing one adds 1, and at its close or open count the state changes, its count 0,
its stuck timer started at 20 s (unless exempt) or stopped, its stuck mark cleared by an opening. R5, R136:
the trough station's settle timer restarts at 300 ms at a scan that changes a switch of class TROUGH, closing
or opening, in every station state, and at no other; another station's never does. R3, R5, R147: a scan that
changes switches of class UNUSED alone, whatever their activity flags, changes nothing beside the switches;
one that changes switches of class TROUGH too, opening, or outside PLAY closing, adds that restart and, for
one with its activity flag set that is no stuck one opening, in the game states, the quiet timer's; nothing is
scored. R5, R18: in PLAY a close of a TROUGH-class switch is a hit as well. R4, R32, R136, R6: the baseline
scan sets every switch to its raw sample with no event: no tally, no feature, no link; the members of DROP
banks it finds CLOSED are marked, and the trough station's settle timer starts. -/
def Obligations.AScanDebouncesEverySwitch : Prop :=
  (∀ s : State, s.scanner.running = true → s.scanner.scanEnd = true → s.scanner.baseline = true →
     ∃ t, exec .scanCompletion s = .next t ∧
       t.scanner = { s.scanner with switches := t.scanner.switches, scanEnd := false } ∧
       ∀ i : SwitchNo,
         let x := s.scanner.switches.get i
         let raw := s.scanner.raw.get i
         let y := t.scanner.switches.get i
         (raw = x.closed → y = { x with count := 0 }) ∧
         (raw = true → x.closed = false →
           y = if x.count + 1 < (ruleOf s i).closeCount then { x with count := x.count + 1 }
               else { x with closed := true, count := 0
                             timer := if stuckExempt s i then none else some 20000 }) ∧
         (raw = false → x.closed = true →
           y = if x.count + 1 < (ruleOf s i).openCount then { x with count := x.count + 1 }
               else { closed := false, count := 0, stuck := false, timer := none })) ∧
  (∀ s : State, s.scanner.running = true → s.scanner.scanEnd = true → s.scanner.baseline = true →
     let changed (i : SwitchNo) : Bool := (debounced s i).closed != (s.scanner.switches.get i).closed
     let felt : Bool := (List.finRange 64).any fun i => changed i && (ruleOf s i).cls == .trough
     let restarted : TroughCtl := { s.trough with settle := if isTrough s && felt then some 300 else s.trough.settle }
     let stirs (i : SwitchNo) : Bool := changed i && (ruleOf s i).cls == .trough && (ruleOf s i).activity &&
       ((debounced s i).closed || !(s.scanner.switches.get i).stuck)
     let heard (u : State) : State :=
       if inGame s && (List.finRange 64).any stirs then
         { u with balls := { u.balls with
           quiet := some (s.control.image.searchDelay * 1000), search := .idle, round := 0, todo := []
           searchTimer := none } }
       else u
     (∃ t, exec .scanCompletion s = .next t ∧ t.trough = restarted) ∧
     ((∀ b, (bank s b).timer = none) →
       ((∀ i, changed i = true → (ruleOf s i).cls = .unused) →
         ∃ t, exec .scanCompletion s = .next t ∧ settles { s with scanner := t.scanner } t) ∧
       ((∀ i, changed i = true → (ruleOf s i).cls = .unused ∨ ((ruleOf s i).cls = .trough ∧
           ((debounced s i).closed = false ∨ s.control.station ≠ .play))) →
         ∃ t, exec .scanCompletion s = .next t ∧
           settles (heard { s with scanner := t.scanner, trough := restarted }) t) ∧
       (∀ i, s.control.station = .play → (∀ j, changed j = true → j = i ∨ (ruleOf s j).cls = .unused) →
         changed i = true → (debounced s i).closed = true →
         (ruleOf s i).cls = .trough → (ruleOf s i).feature = none → (ruleOf s i).action = none →
         ∃ t, exec .scanCompletion s = .next t ∧
           settles (heard (award s.rules.current (ruleOf s i).plain (ruleOf s i).group (.hit i (ruleOf s i).combo)
             { s with scanner := t.scanner, trough := restarted })) t))) ∧
  (∀ s : State, s.scanner.running = true → s.scanner.scanEnd = true → s.scanner.baseline = false →
     ∃ t, exec .scanCompletion s = .next t ∧
       (∀ i, t.scanner.switches.get i =
         { closed := s.scanner.raw.get i, count := 0, stuck := false
           timer := if s.scanner.raw.get i && !stuckExempt s i then some 20000 else none }) ∧
       (∀ i, (∃ b c, bankCfg s b = some c ∧ c.isDrop = true ∧ i ∈ c.members) →
         t.rules.marks.get i = s.scanner.raw.get i) ∧
       (∀ i, (∀ b c, bankCfg s b = some c → c.isDrop = true → i ∉ c.members) →
         t.rules.marks.get i = s.rules.marks.get i) ∧
       settles { s with
         scanner := { s.scanner with switches := t.scanner.switches, scanEnd := false, baseline := true }
         rules := { s.rules with marks := t.rules.marks }
         trough := { s.trough with settle := if isTrough s then some 300 else s.trough.settle } } t)

/-- R10: a conversion adds to the sum and the count of the channel in turn; the Nth forms the average, rounded
down, and the next enabled channel begins from 0; after A5 the round is complete and the next one begins. The
channel in turn is an enabled one, where A5 is (R9). At a station that does not convert nothing changes (the
model's choice, log entry 7), and a conversion in a round whose completion is due discards that completion
(the model's choice, log entry 33). R14, R115, R118, R122, R123, R132: what a round completion does at a
pocket with an opto, alone of its kind: the first round since a reset re-senses it; a ball PRESENT in
SETTLING, or newly in EMPTY, has entered; ABSENT confirms an eject, frees a JAMMED pocket, and newly so in
STABLE, KICKOUT-WAIT or RELEASE-WAIT is the loss of a ball; in every other state, at every other level, in
JOINING, and at a first round that finds no ball to re-sense, nothing changes but SUPPLY: so at ABSENT in
SETTLING and EMPTY, at PRESENT in EJECTING and JAMMED, at whatever level in EJECT-WAIT and RE-ARM, and newly
PRESENT in STABLE, KICKOUT-WAIT and RELEASE-WAIT. R122: the ball lost in RELEASE-WAIT is counted out in the
order of R118, a held one with its LOCK LOST; pending falls by 1, and at 0 the pocket leaves the release list,
takes the state its counts give and then a deferred entry: as a close in EMPTY where every count is 0,
otherwise as a ball that enters by R112. R140: newly PRESENT at A4 confirms the trough station's serve, and
the next one pending waits for a count (also where no trough eject driver is configured: the model's choice,
log entry 44). That the first round re-senses in whatever state the station is, and that a deferred close in
EMPTY comes after the end of the sequence, is the model's choice, log entries 31 and 39. -/
def Obligations.ConversionsAverageAndRoundsConfirm : Prop :=
  (∀ (r : BitVec 10) (s : State),
     let n := s.control.image.averaging
     let c := s.analog.turn
     let x := s.analog.channels.get c
     (s.analog.running = true → x.count + 1 < n → ∃ t, exec (.conversion r) s = .next t ∧
       settles { s with analog := { s.analog with
         roundEnd := false
         channels := s.analog.channels.set c { x with sum := x.sum + r.toNat, count := x.count + 1 } } } t) ∧
     (s.analog.running = true → n ≤ x.count + 1 → ∃ t, exec (.conversion r) s = .next t ∧
       t.analog.running = true ∧ t.analog.firstDone = s.analog.firstDone ∧
       t.analog.roundEnd = decide (c.val = 5) ∧ settles { s with analog := t.analog } t ∧
       (t.analog.channels.get c).average = (x.sum + r.toNat) / n ∧
       (t.analog.channels.get c).level = x.level ∧
       (t.analog.channels.get t.analog.turn).sum = 0 ∧ (t.analog.channels.get t.analog.turn).count = 0 ∧
       ((s.control.image.channels.get 5).enabled = true →
         (s.control.image.channels.get t.analog.turn).enabled = true) ∧
       (c.val < 5 → c < t.analog.turn ∧
         ∀ k : ChannelNo, c < k → k < t.analog.turn → (s.control.image.channels.get k).enabled = false) ∧
       (c.val = 5 → ∀ k : ChannelNo, k < t.analog.turn → (s.control.image.channels.get k).enabled = false) ∧
       ∀ k, k ≠ c → k ≠ t.analog.turn → t.analog.channels.get k = s.analog.channels.get k) ∧
     (s.analog.running = false → ∃ t, exec (.conversion r) s = .next t ∧ settles s t)) ∧
  (∀ (s : State) (p : PocketNo) (c : PocketCfg) (a : Fin 4), s.analog.running = true → s.analog.roundEnd = true →
     pocketCfg s p = some c → c.opto = some a →
     (∀ q k, q ≠ p → pocketCfg s q = some k → k.opto = none) →
     isTrough s = false ∨ (s.analog.channels.get 4).level = true →
     let ch : ChannelNo := ⟨a.val, by omega⟩
     let x := pocket s p
     let was := (s.analog.channels.get ch).level
     ∃ t, exec .roundCompletion s = .next t ∧
       let now := (t.analog.channels.get ch).level
       let judged : State := { s with analog := t.analog }
       let put (y : PocketState) (u : State) : State :=
         { u with pockets := { u.pockets with pockets := u.pockets.pockets.set p y } }
       let supply (u : State) : State :=
         if (t.analog.channels.get 5).level then u
         else { u with control := { u.control with flags := { u.control.flags with supply := true } } }
       let told (event : BitVec 4) (y : PocketState) (u : State) : State :=
         offer (.lock { event := event, pocket := p, player := BitVec.ofNat 8 (s.rules.current.val + 1), credit := 0
                        held := BitVec.ofNat 8 y.held, stuck := BitVec.ofNat 8 y.stuck }) u
       (s.analog.firstDone = false →
         (now = true → x.held = 0 → x.resting = 0 → x.stuck = 0 → x.through = 0 → x.pending = 0 → x.phase = .empty →
           settles (supply (recomputeB (put { x with held := 1, phase := .stable } judged))) t) ∧
         (now = false ∨ x.phase ≠ .empty ∨ x.held ≠ 0 ∨ x.resting ≠ 0 ∨ x.stuck ≠ 0 ∨ x.through ≠ 0 ∨
             x.pending ≠ 0 → settles (supply judged) t)) ∧
       (s.analog.firstDone = true → inGame s = false → settles (supply judged) t) ∧
       (s.analog.firstDone = true → inGame s = true →
         (now = true → x.phase = .settling ∨ (x.phase = .empty ∧ was = false) →
           settles (supply (ballEnters p c false (put { x with settle := none, phase := .empty } judged))) t) ∧
         (now = false → x.phase = .ejecting → settles (supply (confirmEject p c judged)) t) ∧
         (now = false → x.phase = .jammed →
           let y : PocketState := { x with stuck := 0, jam := 0, phase := .empty }
           settles (supply (told 4 y (recomputeB (put y judged)))) t) ∧
         (now = false → was = true → x.phase = .stable →
           let y : PocketState := { x with held := x.held - 1, phase :=
             if x.resting = 1 ∧ x.kickout.isSome then .kickoutWait else if 1 < x.held then .stable else .empty }
           settles (supply (told 5 y (recomputeB (put y judged)))) t) ∧
         (now = false → was = true → x.phase = .kickoutWait →
           settles (supply (put { x with
             resting := 0, kickout := none, phase := if 0 < x.held then .stable else .empty } judged)) t) ∧
         (now = false → was = true → x.phase = .releaseWait →
           let out : PocketState :=
             if x.through = 1 then { x with through := 0 }
             else if x.resting = 1 ∧ x.kickout = none then { x with resting := 0 }
             else if 0 < x.held then { x with held := x.held - 1 }
             else if x.resting = 1 then { x with resting := 0, kickout := none }
             else x
           let y : PocketState := { out with
             pending := x.pending - 1, deferred := decide (1 < x.pending) && x.deferred
             phase := if 1 < x.pending then .releaseWait
               else if out.resting = 1 ∧ out.kickout.isSome then .kickoutWait
               else if 0 < out.held then .stable else .empty }
           let counted : State := recomputeB { put y judged with pockets := { (put y judged).pockets with
             release := if 1 < x.pending then s.pockets.release
                        else s.pockets.release.filter fun q => decide (q ≠ p) } }
           let lost : State := if out.held < x.held then told 5 y counted else counted
           let bare : Prop := y.held = 0 ∧ y.resting = 0 ∧ y.stuck = 0 ∧ y.through = 0
           (1 < x.pending ∨ x.deferred = false → settles (supply lost) t) ∧
           (x.pending ≤ 1 → x.deferred = true →
             (bare → settles (supply (put { y with phase := .settling, settle := some 300 } lost)) t) ∧
             (¬ bare → settles (supply (ballEnters p c false lost)) t))) ∧
         (x.phase = .ejectWait ∨ x.phase = .rearm ∨ (x.phase = .settling ∧ now = false) ∨
             ((x.phase = .ejecting ∨ x.phase = .jammed) ∧ now = true) ∨
             (x.phase = .empty ∧ (now = false ∨ was = true)) ∨
             ((x.phase = .stable ∨ x.phase = .kickoutWait ∨ x.phase = .releaseWait) ∧ (now = true ∨ was = false)) →
           settles (supply judged) t))) ∧
  (∀ s : State, s.analog.running = true → s.analog.roundEnd = true →
     (∀ q k, pocketCfg s q = some k → k.opto = none) → isTrough s = true →
     ∃ t, exec .roundCompletion s = .next t ∧
       let judged : State := { s with
         analog := t.analog
         control := if (t.analog.channels.get 5).level then s.control
           else { s.control with flags := { s.control.flags with supply := true } } }
       let turned := (s.analog.channels.get 4).level = false ∧ (t.analog.channels.get 4).level = true
       (turned → s.trough.phase = .serving →
         settles { judged with trough := { s.trough with
           window := none, pending := s.trough.pending - 1, unreported := min 6 (s.trough.unreported + 1)
           attempt := 1, phase := if 1 < s.trough.pending then .waiting else .idle
           recount := decide (1 < s.trough.pending) } } t) ∧
       (¬ turned ∨ s.trough.phase ≠ .serving → settles judged t))

/-- R12, R13, R14: at a round completion every enabled channel is judged by its two thresholds, a disabled one
keeps its level; with the supply LOW afterwards SUPPLY is set; a station with no pocket opto and no trough
changes nothing else. With no round complete nothing is judged (the model's choice, log entry 7). -/
def Obligations.LevelsAreJudgedAtTheRound : Prop :=
  ∀ s : State,
    (s.analog.running = true → s.analog.roundEnd = true →
      ∃ t, exec .roundCompletion s = .next t ∧
        t.analog = { s.analog with roundEnd := false, firstDone := true, channels := t.analog.channels } ∧
        (∀ c : ChannelNo,
          let x := s.analog.channels.get c
          let k := s.control.image.channels.get c
          t.analog.channels.get c = { x with level :=
            if k.enabled = false then x.level
            else if k.upper ≤ x.average then true
            else if c.val = 5 then (if x.average < k.lower then false else x.level)
            else (if x.average ≤ k.lower then false else x.level) }) ∧
        ((t.analog.channels.get 5).level = false → t.control.flags.supply = true) ∧
        ((∀ p c, pocketCfg s p = some c → c.opto = none) → isTrough s = false →
          settles { s with
            analog := t.analog
            control := if (t.analog.channels.get 5).level then s.control
              else { s.control with flags := { s.control.flags with supply := true } } } t)) ∧
    (s.analog.running = false ∨ s.analog.roundEnd = false →
      ∃ t, exec .roundCompletion s = .next t ∧ settles s t)

/-! ## Features, awards, banks -/

/-- R20: the effective state is the resting state, except that a DARK, LATENT or LIT feature whose linked mode
has an entry, ACTIVE or ENDING, is LIT; OFF and HELD are not overlaid; a feature LIT so while it rests DARK or
LATENT is lit by mode overlay. -/
def Obligations.EffectiveStateOfAFeature : Prop :=
  ∀ (s : State) (f : FeatureNo),
    let linked := ∃ m, (s.control.image.features.get f).link = some m ∧ (s.modes.get m).isSome = true
    (linked → resting s f = .dark ∨ resting s f = .latent ∨ resting s f = .lit → effective s f = .lit) ∧
    (linked → resting s f = .off ∨ resting s f = .held → effective s f = resting s f) ∧
    (¬ linked → effective s f = resting s f) ∧
    (litByOverlay s f = true ↔ effective s f = .lit ∧ (resting s f = .dark ∨ resting s f = .latent))

/-- R24: LIGHT FEATURE sets a DARK or LATENT feature of the current table LIT, leaves a LIT, OFF or HELD one,
touches no other feature and no context, and queues nothing. -/
def Obligations.LightFeatureLightsDarkAndLatent : Prop :=
  ∀ (f : FeatureNo) (g : Fin 8) (s : State),
    let t := doAction (.lightFeature f) g s
    (resting t f = if resting s f = .dark ∨ resting s f = .latent then .lit else resting s f) ∧
    (∀ k, k ≠ f → resting t k = resting s k) ∧ t.rules.contexts = s.rules.contexts ∧
    t.rules.tallies = s.rules.tallies ∧ t.link = s.link ∧ t.modes = s.modes ∧ t.control.flags = s.control.flags

/-- R44: the multiplier is the product of the factors of the MULTIPLY entries, ACTIVE or ENDING, whose mask
covers the group, at most 10; 1 where there is none; within 1..10 while every factor lies within 2..5. R43,
R45, R46, R47: an award of value V adds the smaller of V × M + C and the room to the tally of its player, C
being V × M × k over 4 rounded down for a combo-flagged hit and 0 for any other event; the combo count and
every other tally stay. R48: an award is reported by an AWARD with the amount added, the new tally, its
player, its switch (255 for a settlement) and its flags, where the amount is above 0 or the event is a
combo-flagged hit; any other award that adds 0 queues nothing. With room in the queue the AWARD stands in it.
-/
def Obligations.AnAwardFillsTheTallyAndIsReported : Prop :=
  (∀ (s : State) (g : Fin 8),
     let covers (m : ModeId) : Prop :=
       ∃ e d, s.modes.get m = some e ∧ modeDef s m = some d ∧ e.kind = .multiply ∧ d.mask.getLsbD g.val = true
     ((∀ m, ¬ covers m) → multiplier s g = 1) ∧
     (∀ ms : List ModeId, ms.Nodup → (∀ k, covers k ↔ k ∈ ms) →
       multiplier s g = min 10 (ms.map fun m => (modeDef s m).elim 1 (·.factor)).prod) ∧
     ((∀ m d, modeDef s m = some d → 2 ≤ d.factor ∧ d.factor ≤ 5) →
       1 ≤ multiplier s g ∧ multiplier s g ≤ 10 ∧
       (∀ a b c d : ModeId, [a, b, c, d].Nodup → covers a → covers b → covers c → covers d →
         multiplier s g = 10))) ∧
  (∀ (p : Player) (v : Nat) (g : Fin 8) (kind : Scoring) (s : State), s.rules.tallies.get p ≤ 99999999 →
     let m := multiplier s g
     let c := match kind with
       | .hit _ true => v * m * s.rules.combo / 4
       | _ => 0
     let t := award p v g kind s
     t.rules = { s.rules with tallies := s.rules.tallies.set p (min 99999999 (s.rules.tallies.get p + (v * m + c))) }) ∧
  (∀ (p : Player) (v : Nat) (g : Fin 8) (kind : Scoring) (s : State), s.rules.tallies.get p ≤ 99999999 →
     let raw := rawAward s v g kind
     let added := min raw (99999999 - s.rules.tallies.get p)
     let combo := match kind with
       | .hit _ c => c
       | _ => false
     (added = 0 → combo = false → award p v g kind s = s) ∧
     (0 < added ∨ combo = true → s.link.queue.length < 16 →
       ∃ e ∈ (award p v g kind s).link.queue, e.bulletin = .award {
         coalesced := false, settled := kind == .collect, combo := combo, player := p
         switch := match kind with
           | .hit i _ | .bank i => BitVec.ofNat 8 i.val
           | .collect => 255
         amount := BitVec.ofNat 32 added
         tally := BitVec.ofNat 32 (s.rules.tallies.get p + added) }))

/-- R5, R18, R21, R22, R42 to R47, R147: in PLAY, a scan completion at which one switch alone changes state, a
close of a PLAYFIELD switch whose rule has no action: an OFF or HELD feature scores nothing, a DARK or LATENT
one and no feature the plain value, a LIT one the lit value; LATENT turns LIT and a resting LIT takes the
after-state; the quiet timer restarts where the activity flag is set. -/
def Obligations.APlayfieldHitScores : Prop :=
  ∀ (s : State) (i : SwitchNo), s.control.station = .play →
    s.scanner.running = true → s.scanner.scanEnd = true → s.scanner.baseline = true →
    (s.scanner.switches.get i).closed = false → (debounced s i).closed = true →
    (∀ j, j ≠ i → (debounced s j).closed = (s.scanner.switches.get j).closed) →
    (∀ b, (bank s b).timer = none) → s.rules.tallies.get s.rules.current ≤ 99999999 →
    (ruleOf s i).cls = .playfield → (ruleOf s i).action = none →
    let r := ruleOf s i
    let value : Option Nat := match r.feature with
      | none => some r.plain
      | some f => match effective s f with
        | .off | .held => none
        | .dark | .latent => some r.plain
        | .lit => some r.lit
    let m := multiplier s r.group
    let scored (v : Nat) : Nat := v * m + (if r.combo then v * m * s.rules.combo / 4 else 0)
    ∃ t, exec .scanCompletion s = .next t ∧ t.control.station = .play ∧ t.rules.combo = s.rules.combo ∧
      t.rules.tallies = (match value with
        | none => s.rules.tallies
        | some v => s.rules.tallies.set s.rules.current
            (min 99999999 (s.rules.tallies.get s.rules.current + scored v))) ∧
      (∀ f, r.feature ≠ some f → resting t f = resting s f) ∧
      (∀ f, r.feature = some f → resting t f =
        if effective s f = .latent then .lit
        else if effective s f = .lit ∧ resting s f = .lit then r.after else resting s f) ∧
      t.balls.quiet = (if r.activity then some (s.control.image.searchDelay * 1000) else s.balls.quiet) ∧
      t.rules.contexts = s.rules.contexts ∧ t.rules.marks = s.rules.marks ∧ t.modes = s.modes ∧
      t.pockets = s.pockets ∧ t.trough = s.trough ∧ t.peers = s.peers ∧ t.analog = s.analog

/-- R35, R36, R37: the confirm timer of a RESETTING DROP bank expires with a member still CLOSED: at attempt 1
the reset driver is requested again as attempt 2; at attempt 2, or with that driver FAULTED, the bank is
FAULTED, EJECTOR is set and its member features are OFF. R35, R37: one that expires with every member OPEN
confirms the bank as a scan would (the model's choice, log entry 17): COUNTING at attempt 1, its timer
stopped, its HELD member features DARK, after a restart its OFF ones as well, and nothing scored. With its
timer stopped nothing changes (the model's choice, log entry 7). R35, R37, R32: at a scan completion inside
the confirm window, at which no switch changes but members of DROP banks that open, and with no other bank's
window running: with every member OPEN the bank is COUNTING at attempt 1, its timer stopped, its HELD member
features DARK, after a restart its OFF ones as well, and nothing is scored; with a member still CLOSED it
waits on. An opened member loses its mark. Where one driver at most is bound to a member feature, its hold
binding follows (R172); several would in member-list order (the model's choice, log entry 41). The events of
the scan come before the confirm (the model's choice, log entry 35). -/
def Obligations.ABankIsConfirmedOrFaulted : Prop :=
  (∀ (b : BankNo) (c : BankCfg) (d : DriverNo) (s : State), bankCfg s b = some c → c.resetDriver = some d →
     let retried : State := { s with rules := { s.rules with
       banks := s.rules.banks.set b { bank s b with attempt := 2, timer := none } } }
     ((bank s b).phase = .resetting → (bank s b).timer.isSome = true → membersOpen s c = false →
       ((bank s b).attempt = 1 → (unit s d).phase ≠ .faulted →
         ∃ t, exec (.bankConfirmTimerExpiry b) s = .next t ∧
           settles (request d .reset 100 (.bank b) retried) t) ∧
       ((bank s b).attempt = 2 ∨ (unit s d).phase = .faulted ∧ (bank s b).attempt = 1 →
         ∃ t, exec (.bankConfirmTimerExpiry b) s = .next t ∧ (bank t b).phase = .faulted ∧
           (bank t b).timer = none ∧ t.control.flags.ejector = true ∧
           (∀ f ∈ memberFeatures s c, resting t f = .off) ∧
           (∀ f, f ∉ memberFeatures s c → resting t f = resting s f) ∧
           (∀ k, k ≠ b → bank t k = bank s k) ∧ t.rules.marks = s.rules.marks ∧
           t.rules.tallies = s.rules.tallies ∧ t.pockets = s.pockets ∧ t.balls = s.balls ∧
           t.scanner = s.scanner ∧ t.modes = s.modes ∧ t.peers = s.peers)) ∧
     ((bank s b).phase = .resetting → (bank s b).timer.isSome = true → membersOpen s c = true →
       ∃ t, exec (.bankConfirmTimerExpiry b) s = .next t ∧
         (∀ f, resting t f = if f ∈ memberFeatures s c ∧
             (resting s f = .held ∨ (bank s b).restart = true ∧ resting s f = .off)
           then .dark else resting s f) ∧
         ((∀ d e, (driverCfg s d).binding.any (· ∈ memberFeatures s c) = true →
            (driverCfg s e).binding.any (· ∈ memberFeatures s c) = true → d = e) →
           holdsFollow s { s with rules := t.rules } t.drivers) ∧
         settles { s with
           drivers := t.drivers
           rules := { s.rules with
             features := t.rules.features
             banks := s.rules.banks.set b { phase := .counting, attempt := 1, timer := none, restart := false } } } t) ∧
     ((bank s b).phase ≠ .resetting ∨ (bank s b).timer = none →
       ∃ t, exec (.bankConfirmTimerExpiry b) s = .next t ∧ settles s t)) ∧
  (∀ (b : BankNo) (c : BankCfg) (s : State), bankCfg s b = some c → s.scanner.running = true →
    s.scanner.scanEnd = true → s.scanner.baseline = true → inGame s = true →
    (∀ i, (debounced s i).closed ≠ (s.scanner.switches.get i).closed → (debounced s i).closed = false ∧
      (ruleOf s i).cls = .bankMember ∧
      ∃ k : BankNo, (ruleOf s i).index = k.val ∧ (bankCfg s k).any BankCfg.isDrop = true) →
    (∀ k, k ≠ b → (bank s k).timer = none) → (bank s b).phase = .resetting → (bank s b).timer.isSome = true →
    let opened (i : SwitchNo) : Bool := (s.scanner.switches.get i).closed && !(debounced s i).closed
    let heard (u : State) : State :=
      if (List.finRange 64).any fun i => opened i && (ruleOf s i).activity && !(s.scanner.switches.get i).stuck then
        { u with balls := { u.balls with
          quiet := some (s.control.image.searchDelay * 1000), search := .idle, round := 0, todo := []
          searchTimer := none } }
      else u
    let restart := (bank s b).restart
    ∃ t, exec .scanCompletion s = .next t ∧
      (∀ i, t.rules.marks.get i = (s.rules.marks.get i && !opened i)) ∧
      ((∃ i ∈ c.members, (debounced s i).closed = true) →
        settles (heard { s with scanner := t.scanner, rules := { s.rules with marks := t.rules.marks } }) t) ∧
      ((∀ i ∈ c.members, (debounced s i).closed = false) →
        (∀ f, resting t f = if f ∈ memberFeatures s c ∧ (resting s f = .held ∨ restart = true ∧ resting s f = .off)
          then .dark else resting s f) ∧
        ((∀ d e, (driverCfg s d).binding.any (· ∈ memberFeatures s c) = true →
           (driverCfg s e).binding.any (· ∈ memberFeatures s c) = true → d = e) →
          holdsFollow s { s with rules := t.rules } t.drivers) ∧
        settles (heard { s with
          scanner := t.scanner, drivers := t.drivers
          rules := { s.rules with
            marks := t.rules.marks, features := t.rules.features
            banks := s.rules.banks.set b { phase := .counting, attempt := 1, timer := none, restart := false } } }) t))

/-- R21, R22: the action of a PLAYFIELD hit is taken at a hit without a feature or on a LIT one, after the
change of its state; a DARK or LATENT one scores without it, and an OFF or HELD one does nothing. R5, R18,
R19: in the game states, a scan completion at which one switch alone changes state: an opening, and outside
PLAY a close, of a PLAYFIELD or DIRECT switch scores nothing, though its activity flag restarts the quiet
timer (R147), for an opening where the switch is not stuck. In PLAY a DIRECT close first requests its driver
at 100 %, before its award (the model's choice, log entry 19) and whatever its feature, and is then taken by
R21's table. R23, R114: a POCKET-ENTRY close reaches its pocket, by the pocket's state, after its hit by that
table, the lock feature read as the hit left it; a LIT lock feature, the one that the pocket's record names,
stays LIT, also at a close that no pocket takes, the pocket unfitted (R109) or the switch not its entry. R32,
R33: in PLAY a BANK-MEMBER close is taken by the table and then makes its mark, with the completion that may
follow: a STANDUP member at a hit handed a value, a DROP member at every close. R35: with its DROP bank
RESETTING it is marked, scores nothing and changes no phase; that its feature and action rest too, whatever
its feature, is the model's choice, log entry 50. R25, R26, R27: the actions offer their bulletins; a COLLECT
marks its group where the queue takes it, and does nothing while a mark is set; ADVANCE BANK marks the first
unmarked member, in list order, if any. R32, R33, R34: a mark is made once; outside PLAY a DROP member is
marked at its close and unmarked at its opening, and a completing mark turns its bank's features HELD and
requests the reset without a score; in PLAY the completion is scored to the player up, its action follows, and
a STANDUP bank loses its marks; a DROP bank's features turn HELD and its reset is requested, or with a FAULTED
driver it is FAULTED. -/
def Obligations.HitsActionsAndCompletions : Prop :=
  (∀ (s : State) (i : SwitchNo) (a : Action), s.control.station = .play → s.scanner.running = true →
     s.scanner.scanEnd = true → s.scanner.baseline = true →
     (s.scanner.switches.get i).closed = false → (debounced s i).closed = true →
     (∀ j, j ≠ i → (debounced s j).closed = (s.scanner.switches.get j).closed) →
     (∀ b, (bank s b).timer = none) → (ruleOf s i).activity = false →
     (ruleOf s i).cls = .playfield → (ruleOf s i).action = some a →
     let r := ruleOf s i
     ∃ t, exec .scanCompletion s = .next t ∧
       let scored (v : Nat) := award s.rules.current v r.group (.hit i r.combo) { s with scanner := t.scanner }
       (r.feature = none → settles (doAction a r.group (scored r.plain)) t) ∧
       (∀ f, r.feature = some f →
         (effective s f = .off ∨ effective s f = .held → settles { s with scanner := t.scanner } t) ∧
         (effective s f = .dark → settles (scored r.plain) t) ∧
         (effective s f = .latent → settles (setFeature f .lit (scored r.plain)) t) ∧
         (effective s f = .lit → resting s f ≠ .lit ∨ r.after = .lit →
           settles (doAction a r.group (scored r.lit)) t) ∧
         (effective s f = .lit → resting s f = .lit → r.after ≠ .lit →
           settles (doAction a r.group (setFeature f r.after (scored r.lit))) t))) ∧
  (∀ (m : ModeId) (f : FeatureNo) (r : Resting) (st : Byte) (g : Fin 8) (s : State),
     doAction (.startMode m) g s = offer (.modeStart (BitVec.ofNat 8 m.val) 0) s ∧
     doAction (.addJackpot m) g s = offer (.jackpotAdd (BitVec.ofNat 8 m.val)) s ∧
     doAction (.remoteFeature st f r) g s =
       offer (.featureSet st (BitVec.ofNat 8 f.val) (BitVec.ofNat 8 r.code) 0) s ∧
     (let b := Bulletin.collect (BitVec.ofNat 8 m.val) (BitVec.ofNat 8 (s.rules.current.val + 1))
      ((s.rules.collects.get m).isSome = true → doAction (.collect m) g s = s) ∧
      (s.rules.collects.get m = none → offerTaken b s = false → doAction (.collect m) g s = offer b s) ∧
      (s.rules.collects.get m = none → offerTaken b s = true →
        doAction (.collect m) g s = { offer b s with rules := { s.rules with
          collects := s.rules.collects.set m (some g) } }))) ∧
  (∀ (b : BankNo) (c : BankCfg) (i : SwitchNo) (front back : List SwitchNo) (g : Fin 8) (s : State),
     bankCfg s b = some c →
     let made : State := { s with rules := { s.rules with marks := s.rules.marks.set i true } }
     ((∀ j ∈ c.members, s.rules.marks.get j = true) → doAction (.advanceBank b) g s = s) ∧
     (c.members = front ++ i :: back → (∀ j ∈ front, s.rules.marks.get j = true) → s.rules.marks.get i = false →
       (bank s b).phase ≠ .counting ∨ markedCount made c ≠ c.completion →
       doAction (.advanceBank b) g s = made)) ∧
  (∀ (s : State) (i : SwitchNo), s.scanner.running = true → s.scanner.scanEnd = true →
     s.scanner.baseline = true → inGame s = true → (debounced s i).closed = !(s.scanner.switches.get i).closed →
     (∀ j, j ≠ i → (debounced s j).closed = (s.scanner.switches.get j).closed) →
     (∀ b, (bank s b).timer = none) →
     let r := ruleOf s i
     let closes := (debounced s i).closed
     let heard (u : State) : State :=
       if r.activity = true ∧ (closes = true ∨ (s.scanner.switches.get i).stuck = false) then
         { u with balls := { u.balls with
           quiet := some (s.control.image.searchDelay * 1000), search := .idle, round := 0, todo := []
           searchTimer := none } }
       else u
     ((closes = false ∨ s.control.station ≠ .play) → r.cls = .playfield ∨ r.cls = .direct →
       ∃ t, exec .scanCompletion s = .next t ∧ settles (heard { s with scanner := t.scanner }) t) ∧
     (∀ d, closes = true → s.control.station = .play → r.cls = .direct → r.driver = some d →
       ∃ t, exec .scanCompletion s = .next t ∧
         settles (heard (hitByTable false i s (request d .direct 100 .rule { s with scanner := t.scanner }))) t)) ∧
  (∀ (s : State) (i : SwitchNo) (p : PocketNo) (c : PocketCfg), s.scanner.running = true →
     s.scanner.scanEnd = true → s.scanner.baseline = true → inGame s = true →
     (s.scanner.switches.get i).closed = false → (debounced s i).closed = true →
     (∀ j, j ≠ i → (debounced s j).closed = (s.scanner.switches.get j).closed) →
     (∀ b, (bank s b).timer = none) →
     (ruleOf s i).cls = .pocketEntry → (ruleOf s i).index = p.val → pocketCfg s p = some c → c.entry = some i →
     let r := ruleOf s i
     let x := pocket s p
     let heard (u : State) : State :=
       if r.activity = true then
         { u with balls := { u.balls with
           quiet := some (s.control.image.searchDelay * 1000), search := .idle, round := 0, todo := []
           searchTimer := none } }
       else u
     let put (y : PocketState) (u : State) : State :=
       { u with pockets := { u.pockets with pockets := u.pockets.pockets.set p y } }
     let enters (u : State) : State := match x.phase with
       | .empty => if c.opto = none then ballEnters p c false u else put { x with phase := .settling, settle := some 300 } u
       | .stable | .kickoutWait => ballEnters p c false u
       | .settling => u
       | .releaseWait | .ejectWait | .ejecting | .rearm => put { x with deferred := true } u
       | .jammed =>
         if x.stuck < c.capacity then
           offer (.lock { event := 3, pocket := p, player := BitVec.ofNat 8 (s.rules.current.val + 1), credit := 0
                          held := BitVec.ofNat 8 x.held, stuck := BitVec.ofNat 8 (x.stuck + 1) })
             (recomputeB (put { x with stuck := x.stuck + 1 } u))
         else u
     (s.control.station ≠ .play →
       ∃ t, exec .scanCompletion s = .next t ∧ settles (heard (enters { s with scanner := t.scanner })) t) ∧
     (s.control.station = .play → ∃ t, exec .scanCompletion s = .next t ∧
       settles (heard (enters (hitByTable (s.control.image.lockFeatures.get p == r.feature) i s
         { s with scanner := t.scanner }))) t)) ∧
  (∀ (s : State) (i : SwitchNo) (p : PocketNo), s.scanner.running = true →
     s.scanner.scanEnd = true → s.scanner.baseline = true → inGame s = true →
     (s.scanner.switches.get i).closed = false → (debounced s i).closed = true →
     (∀ j, j ≠ i → (debounced s j).closed = (s.scanner.switches.get j).closed) →
     (∀ b, (bank s b).timer = none) →
     (ruleOf s i).cls = .pocketEntry → (ruleOf s i).index = p.val →
     (∀ c, pocketCfg s p = some c → c.entry ≠ some i) →
     let r := ruleOf s i
     let heard (u : State) : State :=
       if r.activity = true then
         { u with balls := { u.balls with
           quiet := some (s.control.image.searchDelay * 1000), search := .idle, round := 0, todo := []
           searchTimer := none } }
       else u
     ∃ t, exec .scanCompletion s = .next t ∧
       (s.control.station ≠ .play → settles (heard { s with scanner := t.scanner }) t) ∧
       (s.control.station = .play → settles (heard (hitByTable (s.control.image.lockFeatures.get p == r.feature) i s
         { s with scanner := t.scanner })) t)) ∧
  (∀ (s : State) (i : SwitchNo) (b : BankNo) (c : BankCfg), s.scanner.running = true →
     s.scanner.scanEnd = true → s.scanner.baseline = true → s.control.station = .play →
     (s.scanner.switches.get i).closed = false → (debounced s i).closed = true →
     (∀ j, j ≠ i → (debounced s j).closed = (s.scanner.switches.get j).closed) →
     (∀ k, (bank s k).timer = none) →
     (ruleOf s i).cls = .bankMember → (ruleOf s i).index = b.val → bankCfg s b = some c →
     let r := ruleOf s i
     let heard (u : State) : State :=
       if r.activity = true then
         { u with balls := { u.balls with
           quiet := some (s.control.image.searchDelay * 1000), search := .idle, round := 0, todo := []
           searchTimer := none } }
       else u
     let disabled := ∃ f, r.feature = some f ∧ (effective s f = .off ∨ effective s f = .held)
     ∃ t, exec .scanCompletion s = .next t ∧
       let u : State := { s with scanner := t.scanner }
       (c.isDrop = true → (bank s b).phase = .resetting →
         settles (heard { u with rules := { u.rules with marks := u.rules.marks.set i true } }) t) ∧
       (c.isDrop = true → (bank s b).phase ≠ .resetting →
         settles (heard (markMember doAction b c i (hitByTable false i s u))) t) ∧
       (c.isDrop = false → ¬ disabled →
         settles (heard (markMember doAction b c i (hitByTable false i s u))) t) ∧
       (c.isDrop = false → disabled → settles (heard u) t)) ∧
  (∀ (s : State) (i : SwitchNo) (b : BankNo) (c : BankCfg), s.scanner.running = true →
     s.scanner.scanEnd = true → s.scanner.baseline = true → inGame s = true → s.control.station ≠ .play →
     (debounced s i).closed = !(s.scanner.switches.get i).closed →
     (∀ j, j ≠ i → (debounced s j).closed = (s.scanner.switches.get j).closed) →
     (∀ k, (bank s k).timer = none) → (ruleOf s i).activity = false →
     (ruleOf s i).cls = .bankMember → (ruleOf s i).index = b.val → bankCfg s b = some c →
     let closes := (debounced s i).closed
     let marked (v : Bool) (t : State) : State :=
       { s with scanner := t.scanner, rules := { s.rules with marks := s.rules.marks.set i v } }
     ∃ t, exec .scanCompletion s = .next t ∧
       (c.isDrop = false → settles { s with scanner := t.scanner } t) ∧
       (c.isDrop = true → closes = false → settles (marked false t) t) ∧
       (c.isDrop = true → closes = true → s.rules.marks.get i = false →
         ((bank s b).phase ≠ .counting ∨ markedCount (marked true t) c ≠ c.completion → settles (marked true t) t) ∧
         (∀ d, (bank s b).phase = .counting → markedCount (marked true t) c = c.completion →
           c.resetDriver = some d → (unit s d).phase ≠ .faulted →
           (∀ f ∈ memberFeatures s c, ∀ k, (driverCfg s k).binding ≠ some f) →
           (∀ f ∈ memberFeatures s c, resting t f = .held) ∧
           (∀ f, f ∉ memberFeatures s c → resting t f = resting s f) ∧
           settles (request d .reset 100 (.bank b)
             { marked true t with rules := { (marked true t).rules with
               features := t.rules.features
               banks := s.rules.banks.set b { phase := .resetting, attempt := 1, timer := none, restart := false } } })
             t))) ∧
  (∀ (b : BankNo) (c : BankCfg) (i : SwitchNo) (s : State),
     let t := markMember doAction b c i s
     let made : State := { s with rules := { s.rules with marks := s.rules.marks.set i true } }
     let g := (ruleOf s i).group
     let paid := award s.rules.current c.value g (.bank i) made
     let acted := match c.action with
       | none => paid
       | some a => doAction a g paid
     (s.rules.marks.get i = true → t = s) ∧
     (s.rules.marks.get i = false →
       ((bank s b).phase ≠ .counting ∨ markedCount made c ≠ c.completion → t = made) ∧
       ((bank s b).phase = .counting → markedCount made c = c.completion → s.control.station = .play →
         (c.isDrop = false →
           t = { acted with rules := { acted.rules with marks := t.rules.marks } } ∧
           ∀ j, t.rules.marks.get j = if j ∈ c.members then false else acted.rules.marks.get j) ∧
         (∀ d, c.isDrop = true → c.resetDriver = some d →
           (bank t b).timer = none ∧ (∀ k, k ≠ b → bank t k = bank acted k) ∧
           ((unit acted d).phase ≠ .faulted → (bank t b).phase = .resetting ∧ (bank t b).attempt = 1 ∧
             ∀ f ∈ memberFeatures s c, resting t f = .held) ∧
           (∀ f, f ∉ memberFeatures s c → resting t f = resting acted f) ∧
           ((∀ f ∈ memberFeatures s c, ∀ k, (driverCfg s k).binding ≠ some f) →
             let left (x : BankPhase) : State := { acted with rules := { acted.rules with
               features := t.rules.features
               banks := acted.rules.banks.set b { phase := x, attempt := 1, timer := none, restart := false } } }
             ((unit acted d).phase ≠ .faulted → t = request d .reset 100 (.bank b) (left .resetting)) ∧
             ((unit acted d).phase = .faulted → (∀ f ∈ memberFeatures s c, resting t f = .off) ∧
               t = { left .faulted with control := { acted.control with
                 flags := { acted.control.flags with ejector := true } } })) ∧
           t.rules.tallies = acted.rules.tallies ∧ t.link = acted.link ∧ t.rules.marks = acted.rules.marks))))

/-- R51: the combo window expires: the combo count is 0 and the window stopped. R50: a combo-flagged AWARD in
PLAY, of any origin, raises the count to at most 5 and restarts the window; without the flag, or outside PLAY,
neither changes; in every game state the quiet timer restarts (R147), and no tally changes (R49). A stopped
window changes nothing (the model's choice, log entry 7). -/
def Obligations.TheComboCountRisesAndRunsOut : Prop :=
  ∀ s : State,
    (s.rules.comboTimer.isSome = true → ∃ t, exec .comboWindowExpiry s = .next t ∧
      settles { s with rules := { s.rules with combo := 0, comboTimer := none } } t) ∧
    (s.rules.comboTimer = none → ∃ t, exec .comboWindowExpiry s = .next t ∧ settles s t) ∧
    (∀ (o : StationNo) (a : AwardPayload), hears o (.award a) s →
      let u := received o (.award a) s
      (inGame s = true → ∃ t, exec (.award o a) s = .next t ∧
        settles { u with
          rules := if a.combo = true ∧ s.control.station = .play then
              { u.rules with combo := min 5 (u.rules.combo + 1)
                             comboTimer := some s.control.image.comboWindow }
            else u.rules
          balls := { u.balls with
            quiet := some (s.control.image.searchDelay * 1000)
            search := .idle, round := 0, todo := [], searchTimer := none } } t) ∧
      (inGame s = false → ∃ t, exec (.award o a) s = .next t ∧ settles u t))

/-! ## Modes -/

/-- R96, R97, R52, R53, R94: a MODE START in PLAY makes an entry of its definition where the table has room,
owned by its origin, for its duration or the definition's; extends an entry that is there and never shortens
it; and is refused and counted at a full table. Outside PLAY, and for a mode with no definition, it changes
nothing beyond the link. R172: the hold bindings follow an entry made, and likewise one that a MODE END ends
(R95): a bound feature that turns LIT requests its driver where the spent mark is clear, and one that leaves
LIT clears the mark and releases a HOLDING driver; where several turn, in ascending driver number (the model's
choice, log entry 41). -/
def Obligations.AModeStartsOrIsExtended : Prop :=
  (∀ (o : StationNo) (mode duration : Byte) (s : State), hears o (.modeStart mode duration) s →
     let u := received o (.modeStart mode duration) s
     (∀ (m : ModeId) (d : ModeDef), mode.toNat = m.val → s.control.station = .play → modeDef s m = some d →
       let seconds := if duration.toNat = 0 then d.duration else duration.toNat
       let time : ModeTime := if seconds = 0 then .untimed else .running (seconds * 1000)
       (s.modes.get m = none → modeCount s < 12 → ∃ t, exec (.modeStart o mode duration) s = .next t ∧
         t.modes.get m = some
           { kind := d.kind, owner := o, ending := false, time := time
             value := match d.kind with
               | .hurry => some d.start
               | .jackpot => some d.base
               | .plain | .multiply => none
             tick := if d.kind = .hurry then some d.tick else none, grace := none, endQueued := false } ∧
         (∀ k, k ≠ m → t.modes.get k = s.modes.get k) ∧
         holdsFollow u { u with modes := t.modes } t.drivers ∧
         settles { u with modes := t.modes, drivers := t.drivers } t) ∧
       (s.modes.get m = none → 12 ≤ modeCount s → ∃ t, exec (.modeStart o mode duration) s = .next t ∧
         settles (raiseCounter .modeRefusals u) t) ∧
       (∀ e, s.modes.get m = some e → ∃ t, exec (.modeStart o mode duration) s = .next t ∧
         let longest : ModeTime := match e.time, time with
           | .running x, .running y => .running (max x y)
           | .expired, y => y
           | .untimed, _ | _, .untimed => .untimed
           | .running x, .expired => .running x
         let new : ModeEntry := { e with time := longest, ending := false, grace := none }
         settles { u with modes := s.modes.set m (some new) } t)) ∧
     (s.control.station ≠ .play ∨ 32 ≤ mode.toNat ∨ (∀ m : ModeId, mode.toNat = m.val → modeDef s m = none) →
       ∃ t, exec (.modeStart o mode duration) s = .next t ∧ settles u t)) ∧
  (∀ (o : StationNo) (mode : Byte) (s : State), hears o (.modeEnd mode) s →
    let u := received o (.modeEnd mode) s
    (∀ m : ModeId, mode.toNat = m.val → inGame s = true → (s.modes.get m).isSome = true →
      ∃ t, exec (.modeEnd o mode) s = .next t ∧ t.modes.get m = none ∧
        holdsFollow u { u with modes := t.modes } t.drivers ∧
        settles { u with modes := t.modes, drivers := t.drivers } t))

/-- R95, R102: a MODE END ends the entry of its mode in every game state, whatever its owner and phase; with
no entry it changes nothing; in JOINING and LISTEN-ONLY it reaches the Peer View alone. What the drivers do
then is in AModeStartsOrIsExtended. -/
def Obligations.AModeEndEndsTheEntry : Prop :=
  ∀ (o : StationNo) (mode : Byte) (s : State), hears o (.modeEnd mode) s →
    let u := received o (.modeEnd mode) s
    (∀ m : ModeId, mode.toNat = m.val → inGame s = true → (s.modes.get m).isSome = true →
      ∃ t, exec (.modeEnd o mode) s = .next t ∧ t.modes.get m = none ∧
        (∀ k, k ≠ m → t.modes.get k = s.modes.get k) ∧
        settles { u with modes := t.modes, drivers := t.drivers } t) ∧
    (inGame s = false ∨ 32 ≤ mode.toNat ∨ (∀ m : ModeId, mode.toNat = m.val → s.modes.get m = none) →
      ∃ t, exec (.modeEnd o mode) s = .next t ∧ settles u t)

/-- R98, R99, R101: the timer of a timed entry expires: at its owner it stays ACTIVE with no time left and its
MODE END is offered, the end queued mark set if the queue takes it, and offered even with that mark set (the
model's choice, log entry 30); at another station it is ENDING with 500 ms of grace. An entry with no time
running changes nothing (the model's choice, log entry 7). R101, R95: the grace timer of an ENDING entry
expires: the entry ends and BACKSTOP ENDS rises. R53: a tick lowers a HURRY value by the step to its floor and
restarts. R39: the event of 3 s left lowers the remaining time to 3 s where it is longer (the model's choice,
log entry 7). A timer that does not run changes nothing (the model's choice, log entry 7). -/
def Obligations.TheTimersOfAMode : Prop :=
  (∀ (m : ModeId) (s : State),
     (∀ e r, s.modes.get m = some e → e.time = .running r →
       (e.owner = strap s → ∃ t, exec (.modeTimerExpiry m) s = .next t ∧
         let ended : ModeEntry := { e with
           time := .expired, endQueued := e.endQueued || offerTaken (.modeEnd (BitVec.ofNat 8 m.val)) s }
         settles { offer (.modeEnd (BitVec.ofNat 8 m.val)) s with modes := s.modes.set m (some ended) } t) ∧
       (e.owner ≠ strap s → ∃ t, exec (.modeTimerExpiry m) s = .next t ∧
         let new : ModeEntry := { e with time := .expired, ending := true, grace := some 500 }
         settles { s with modes := s.modes.set m (some new) } t)) ∧
     ((∀ e r, s.modes.get m = some e → e.time ≠ .running r) →
       ∃ t, exec (.modeTimerExpiry m) s = .next t ∧ settles s t)) ∧
  (∀ (m : ModeId) (s : State),
     (∀ e, s.modes.get m = some e → e.grace.isSome = true → ∃ t, exec (.graceTimerExpiry m) s = .next t ∧
       t.modes.get m = none ∧ (∀ k, k ≠ m → t.modes.get k = s.modes.get k) ∧
       settles { raiseCounter .backstopEnds s with modes := t.modes, drivers := t.drivers } t) ∧
     (∀ e d, s.modes.get m = some e → modeDef s m = some d → e.kind = .hurry → e.tick.isSome = true →
       ∃ t, exec (.hurryTickExpiry m) s = .next t ∧
         let new : ModeEntry := { e with value := e.value.map fun v => max (v - d.step) d.floor, tick := some d.tick }
         settles { s with modes := s.modes.set m (some new) } t) ∧
     (∀ e r, s.modes.get m = some e → e.time = .running r → ∃ t, exec (.modeRemaining3s m) s = .next t ∧
       settles { s with modes := s.modes.set m (some { e with time := .running (min r 3000) }) } t) ∧
     ((∀ e, s.modes.get m = some e → e.grace = none) → ∃ t, exec (.graceTimerExpiry m) s = .next t ∧ settles s t) ∧
     ((∀ e, s.modes.get m = some e → e.tick = none) → ∃ t, exec (.hurryTickExpiry m) s = .next t ∧ settles s t) ∧
     ((∀ e r, s.modes.get m = some e → e.time ≠ .running r) →
       ∃ t, exec (.modeRemaining3s m) s = .next t ∧ settles s t))

/-- R52, R107: a JACKPOT ADD raises the value of a JACKPOT entry by base × percent over 100, rounded down, to
its max, in every game state; any other mode, and JOINING and LISTEN-ONLY, it leaves. R54, R55, R56: a COLLECT
returns a JACKPOT entry to its base and ends a HURRY entry at every station and in every game state; its
collector, in PLAY and for a player of the game, first scores the entry's value in the group of its
COLLECT-pending mark, and clears the mark in every case; a peer's COLLECT scores nothing and clears none. A
collector whose mark is clear scores nothing (the model's choice, log entry 26). Outside the game states, and
for a mode id above 31, a COLLECT moves the link and presence alone (R56, R66). -/
def Obligations.JackpotsAddAndCollectsSettleOnce : Prop :=
  (∀ (o : StationNo) (mode : Byte) (s : State), hears o (.jackpotAdd mode) s →
     let u := received o (.jackpotAdd mode) s
     (∀ (m : ModeId) (e : ModeEntry) (d : ModeDef), mode.toNat = m.val → inGame s = true →
       s.modes.get m = some e → modeDef s m = some d → e.kind = .jackpot →
       ∃ t, exec (.jackpotAdd o mode) s = .next t ∧
         let new : ModeEntry := { e with value := e.value.map fun v => min d.max (v + d.base * d.percent / 100) }
         settles { u with modes := s.modes.set m (some new) } t) ∧
     (inGame s = false ∨ 32 ≤ mode.toNat ∨
         (∀ (m : ModeId) (e : ModeEntry), mode.toNat = m.val → s.modes.get m = some e → e.kind ≠ .jackpot) →
       ∃ t, exec (.jackpotAdd o mode) s = .next t ∧ settles u t)) ∧
  (∀ (o : StationNo) (mode player : Byte) (m : ModeId) (s : State), hears o (.collect mode player) s →
     mode.toNat = m.val → inGame s = true →
     let u := received o (.collect mode player) s
     let own := isOwn o (.collect mode player) s
     ∃ t, exec (.collect o mode player) s = .next t ∧
       (∀ e d, s.modes.get m = some e → modeDef s m = some d →
         t.modes.get m = match e.kind with
           | .jackpot => some { e with value := some d.base }
           | .hurry => none
           | .plain | .multiply => some e) ∧
       (s.modes.get m = none → t.modes = s.modes) ∧ (∀ k, k ≠ m → t.modes.get k = s.modes.get k) ∧
       t.rules.collects = (if own then s.rules.collects.set m none else s.rules.collects) ∧
       t.rules.tallies = (match own, s.modes.get m, s.rules.collects.get m, playerOf s.control.playerCount player with
         | true, some e, some g, some p =>
           match e.value with
           | some v =>
             if (e.kind = .jackpot ∨ e.kind = .hurry) ∧ s.control.station = .play then
               s.rules.tallies.set p (s.rules.tallies.get p +
                 min (v * multiplier s g) (99999999 - s.rules.tallies.get p))
             else s.rules.tallies
           | none => s.rules.tallies
         | _, _, _, _ => s.rules.tallies) ∧
       (own = false → settles { u with modes := t.modes, drivers := t.drivers } t) ∧
       t.rules.features = s.rules.features ∧ t.rules.combo = s.rules.combo ∧ t.balls = s.balls ∧
       t.pockets = s.pockets ∧ t.control.station = s.control.station) ∧
  (∀ (o : StationNo) (mode player : Byte) (s : State), hears o (.collect mode player) s →
     inGame s = false ∨ 32 ≤ mode.toNat →
     ∃ t, exec (.collect o mode player) s = .next t ∧ settles (received o (.collect mode player) s) t)

/-! ## Pockets -/

/-- R112, R113, R130: a ball enters a fitted pocket outside an eject sequence: locked with a credited LOCK
HELD where the lock condition holds and there is room; resting, its kickout timer started, where it does not
hold and no ball rests; kicked through otherwise, with a credited LOCK KICK-THROUGH only under the lock
condition, its eject driver requested in the EJECT band at 100 % (R117), and JAMMED at once where that driver
is FAULTED (R117, R121). R118, R130: an EJECTING pocket is confirmed, with no deferred entry: one ball is
counted out, the through ball first, then a resting ball whose kickout is owed, then a held ball with its LOCK
RELEASED, then a resting ball whose timer runs; pending falls by 1 and the pocket re-arms for 600 ms while
ejects are owed; a pending of 0, which R111 gives no EJECTING pocket, stays 0 and ends the sequence (the
model's choice, log entry 43). R129: a sequence that ends at the pocket that holds the release turn passes it:
the turn timer starts at 600 ms while the release list holds pockets, and otherwise the turn is idle; in every
other case the turn stays, and the list stays in all. R134: B is the sum as it then stands, and nothing else
changes. R113, R114, R118: with a deferred entry: where the confirm leaves every count 0, the sequence ends
and the turn passes, and then the close is taken as in EMPTY (the model's choice of order, log entry 39);
otherwise the ball enters by R112 inside the sequence, a kick-through adding to its pending ejects. -/
def Obligations.BallsEnterAndLeaveAPocket : Prop :=
  (∀ (p : PocketNo) (c : PocketCfg) (s : State),
     let x := pocket s p
     let full : Prop := c.capacity ≤ x.held + x.resting
     let put (y : PocketState) (u : State) : State :=
       { u with pockets := { u.pockets with pockets := u.pockets.pockets.set p y } }
     let credited (event : BitVec 4) (held : Nat) : LockPayload :=
       { event := event, pocket := p, player := BitVec.ofNat 8 (s.rules.current.val + 1), credit := 1
         held := BitVec.ofNat 8 held, stuck := BitVec.ofNat 8 x.stuck }
     let passed : Turn := if s.pockets.turn = .taken p then
         (if s.pockets.release = [] then .idle else .waiting 600)
       else s.pockets.turn
     let t := ballEnters p c false s
     (¬ full → lockCondition c s = true →
       pocket t p = { x with
         held := x.held + 1
         phase := if x.resting = 1 ∧ x.kickout.isSome then .kickoutWait else .stable } ∧
       (s.link.queue.length < 16 → ∃ e ∈ t.link.queue, e.bulletin = .lock (credited 0 (x.held + 1))) ∧
       t.balls.inPlay = inPlayCount t ∧
       t = offer (.lock (credited 0 (x.held + 1))) (recomputeB (put (pocket t p) s))) ∧
     (¬ full → lockCondition c s = false → x.resting = 0 →
       t = { s with pockets := { s.pockets with pockets := t.pockets.pockets } } ∧
       pocket t p = { x with resting := 1, kickout := some c.kickout, phase := .kickoutWait }) ∧
     (full ∨ (lockCondition c s = false ∧ x.resting ≠ 0) →
       ((unit s c.driver).phase ≠ .faulted →
         pocket t p = { x with
           through := 1, pending := x.pending + 1, phase := .ejectWait, attempt := 1
           window := none, rearm := none } ∧
         (full → lockCondition c s = true → s.link.queue.length < 16 →
           ∃ e ∈ t.link.queue, e.bulletin = .lock (credited 2 x.held)) ∧
         (lockCondition c s = false → t.link = s.link) ∧
         t = request c.driver .eject 100 (.pocket p)
           (if lockCondition c s = true then offer (.lock (credited 2 x.held)) (put (pocket t p) s)
            else put (pocket t p) s)) ∧
       ((unit s c.driver).phase = .faulted →
         pocket t p = { x with
           held := 0, resting := 0, stuck := if x.held + x.resting = 0 then 1 else x.held + x.resting
           through := 0, jam := x.pending + 1, pending := 0, deferred := false, attempt := 1, kickout := none
           window := none, rearm := none, phase := .jammed } ∧
         t.control.flags.ejector = true ∧ t.balls.inPlay = inPlayCount t ∧ t.pockets.turn = passed ∧
         t.pockets.release = s.pockets.release ∧ t.rules = s.rules ∧ t.modes = s.modes ∧ t.drivers = s.drivers ∧
         t.trough = s.trough ∧ t.peers = s.peers ∧ t.scanner = s.scanner ∧ t.analog = s.analog)) ∧
     ∀ k, k ≠ p → pocket t k = pocket s k) ∧
  (∀ (p : PocketNo) (c : PocketCfg) (s : State), (pocket s p).deferred = false →
     let x := pocket s p
     let out : PocketState :=
       if x.through = 1 then { x with through := 0 }
       else if x.resting = 1 ∧ x.kickout = none then { x with resting := 0 }
       else if 0 < x.held then { x with held := x.held - 1 }
       else if x.resting = 1 then { x with resting := 0, kickout := none }
       else x
     let passed : Turn := if 1 < x.pending then s.pockets.turn
       else if s.pockets.turn = .taken p then (if s.pockets.release = [] then .idle else .waiting 600)
       else s.pockets.turn
     let t := confirmEject p c s
     let counted : State := recomputeB { s with pockets := {
       pockets := s.pockets.pockets.set p (pocket t p), release := s.pockets.release, turn := passed } }
     pocket t p = { out with
       window := none, pending := x.pending - 1, attempt := 1
       rearm := if 1 < x.pending then some 600 else x.rearm
       phase := if 1 < x.pending then .rearm
         else if out.resting = 1 ∧ out.kickout.isSome then .kickoutWait
         else if 0 < out.held then .stable else .empty } ∧
     (∀ k, k ≠ p → pocket t k = pocket s k) ∧
     t.pockets.turn = passed ∧ t.pockets.release = s.pockets.release ∧ t.balls.inPlay = inPlayCount t ∧
     (out.held = x.held → t.link = s.link ∧ t = counted) ∧
     (out.held < x.held →
       (s.link.queue.length < 16 → ∃ e ∈ t.link.queue, ∃ l, e.bulletin = .lock l ∧
         l.event = 1 ∧ l.pocket = p ∧ l.credit = 0 ∧ l.held = BitVec.ofNat 8 out.held) ∧
       t = offer (.lock {
         event := 1, pocket := p, player := BitVec.ofNat 8 (s.rules.current.val + 1), credit := 0
         held := BitVec.ofNat 8 out.held, stuck := BitVec.ofNat 8 x.stuck }) counted)) ∧
  (∀ (p : PocketNo) (c : PocketCfg) (s : State), (pocket s p).deferred = true →
     let x := pocket s p
     let put (y : PocketState) (v : State) : State :=
       { v with pockets := { v.pockets with pockets := v.pockets.pockets.set p y } }
     let out : PocketState :=
       if x.through = 1 then { x with through := 0 }
       else if x.resting = 1 ∧ x.kickout = none then { x with resting := 0 }
       else if 0 < x.held then { x with held := x.held - 1 }
       else if x.resting = 1 then { x with resting := 0, kickout := none }
       else x
     let bare : Prop := out.held = 0 ∧ out.resting = 0 ∧ out.stuck = 0 ∧ out.through = 0 ∧ x.pending ≤ 1
     let ended := confirmEject p c (put { x with deferred := false } s)
     let y : PocketState := { out with window := none, pending := x.pending - 1, attempt := 1, deferred := false }
     let full : Prop := c.capacity ≤ y.held + y.resting
     let z : PocketState :=
       if full ∨ (lockCondition c s = false ∧ y.resting ≠ 0) then { y with through := 1, pending := y.pending + 1 }
       else if lockCondition c s then { y with held := y.held + 1 }
       else { y with resting := 1, kickout := some c.kickout }
     let lock (event : BitVec 4) (credit : Byte) (held : Nat) (v : State) : State :=
       offer (.lock { event := event, pocket := p, player := BitVec.ofNat 8 (s.rules.current.val + 1)
                      credit := credit, held := BitVec.ofNat 8 held, stuck := BitVec.ofNat 8 x.stuck }) v
     let left : State :=
       if out.held < x.held then lock 1 0 out.held (recomputeB (put y s)) else recomputeB (put y s)
     let entered : State :=
       if lockCondition c s = true then
         if full then lock 2 1 z.held (put z left) else lock 0 1 z.held (recomputeB (put z left))
       else put z left
     let t := confirmEject p c s
     (bare → c.opto.isSome = true → t = put { pocket ended p with phase := .settling, settle := some 300 } ended) ∧
     (bare → c.opto = none → t = ballEnters p c false ended) ∧
     (¬ bare →
       pocket t p = { z with
         rearm := if 0 < z.pending then some 600 else z.rearm
         phase := if 0 < z.pending then .rearm
           else if z.resting = 1 ∧ z.kickout.isSome then .kickoutWait
           else if 0 < z.held then .stable else .empty } ∧
       (∀ k, k ≠ p → pocket t k = pocket s k) ∧
       t.pockets.turn = (if 0 < z.pending then s.pockets.turn
         else if s.pockets.turn = .taken p then (if s.pockets.release = [] then .idle else .waiting 600)
         else s.pockets.turn) ∧
       t.pockets.release = s.pockets.release ∧ t.balls.inPlay = inPlayCount t ∧
       t = { entered with pockets := t.pockets } ∧
       (lockCondition c s = true → s.link.queue.length < 15 → ∃ e ∈ t.link.queue, e.bulletin = .lock {
         event := if full then 2 else 0, pocket := p, player := BitVec.ofNat 8 (s.rules.current.val + 1), credit := 1
         held := BitVec.ofNat 8 z.held, stuck := BitVec.ofNat 8 z.stuck }) ∧
       (lockCondition c s = false → out.held = x.held → t.link = s.link)))

/-- R115, R116, R117, R119: the settle window closes on a fly-by; the kickout timer owes one more eject, which
a pocket in KICKOUT-WAIT starts; the re-arm timer starts the next one; the eject driver is requested in the
EJECT band at 100 %. A timer that does not run changes nothing (the model's choice, log entry 7). R127, R129:
the turn timer expires: the pocket at the head of the release list takes the turn and starts an eject at
attempt 1; an empty list ends the release. R129, R112, R113: its deferred entry is taken first: a locked ball
joins held, with its LOCK and no eject owed, an unlocked one rests with its kickout timer where no ball rests,
and any other is kicked through, one more eject owed, with a LOCK under the lock condition. R117, R121, R130:
with the driver FAULTED the kickout, the re-arm and the turn expiry jam the pocket at once: its balls stuck, B
following, a LOCK JAMMED offered, EJECTOR set, and the turn, where it holds it, passed. With no turn timer
running nothing changes (the model's choice, log entry 7). -/
def Obligations.PocketTimersAndTheTurn : Prop :=
  (∀ (p : PocketNo) (c : PocketCfg) (s : State), pocketCfg s p = some c →
     let x := pocket s p
     let put (y : PocketState) : State := { s with pockets := { s.pockets with pockets := s.pockets.pockets.set p y } }
     let starts (n : Nat) : State := request c.driver .eject 100 (.pocket p) (put { x with
       kickout := if n = x.pending then x.kickout else none
       pending := n, phase := .ejectWait, attempt := 1, window := none, rearm := none })
     (x.kickout.isSome = true → x.phase = .kickoutWait → (unit s c.driver).phase = .faulted →
       ∃ t, exec (.kickoutTimerExpiry p) s = .next t ∧
         settles (jamsAs p { x with kickout := none, pending := x.pending + 1 } s) t) ∧
     (x.rearm.isSome = true → x.phase = .rearm → (unit s c.driver).phase = .faulted →
       ∃ t, exec (.rearmTimerExpiry p) s = .next t ∧ settles (jamsAs p x s) t) ∧
     (x.settle.isSome = true → ∃ t, exec (.settleWindowExpiry p) s = .next t ∧
       settles (put { x with settle := none, phase := if x.phase = .settling then .empty else x.phase }) t) ∧
     (x.kickout.isSome = true → x.phase = .kickoutWait → (unit s c.driver).phase ≠ .faulted →
       ∃ t, exec (.kickoutTimerExpiry p) s = .next t ∧ settles (starts (x.pending + 1)) t) ∧
     (x.kickout.isSome = true → x.phase ≠ .kickoutWait →
       ∃ t, exec (.kickoutTimerExpiry p) s = .next t ∧
         settles (put { x with kickout := none, pending := x.pending + 1 }) t) ∧
     (x.rearm.isSome = true → x.phase = .rearm → (unit s c.driver).phase ≠ .faulted →
       ∃ t, exec (.rearmTimerExpiry p) s = .next t ∧ settles (starts x.pending) t) ∧
     (x.settle = none → ∃ t, exec (.settleWindowExpiry p) s = .next t ∧ settles s t) ∧
     (x.kickout = none → ∃ t, exec (.kickoutTimerExpiry p) s = .next t ∧ settles s t) ∧
     (x.rearm = none → ∃ t, exec (.rearmTimerExpiry p) s = .next t ∧ settles s t)) ∧
  (∀ s : State,
     (∀ ms, s.pockets.turn = .waiting ms →
       (s.pockets.release = [] → ∃ t, exec .turnTimerExpiry s = .next t ∧
         settles { s with pockets := { s.pockets with turn := .idle } } t) ∧
       (∀ p rest c, s.pockets.release = p :: rest → pocketCfg s p = some c →
         let x := pocket s p
         let full : Bool := decide (c.capacity ≤ x.held + x.resting)
         let lock := lockCondition c s
         let y : PocketState :=
           if x.deferred = false then x
           else if full = false ∧ lock = true then { x with deferred := false, held := x.held + 1 }
           else if full = false ∧ x.resting = 0 then
             { x with deferred := false, resting := 1, kickout := some c.kickout }
           else { x with deferred := false, through := 1, pending := x.pending + 1 }
         let turned (z : PocketState) (u : State) : State :=
           { u with pockets := { pockets := s.pockets.pockets.set p z, release := rest, turn := .taken p } }
         let entered : State :=
           if x.deferred = true ∧ lock = true then
             offer (.lock { event := if full then 2 else 0, pocket := p
                            player := BitVec.ofNat 8 (s.rules.current.val + 1), credit := 1
                            held := BitVec.ofNat 8 y.held, stuck := BitVec.ofNat 8 y.stuck })
               (if full then s else recomputeB (turned y s))
           else s
         ∃ t, exec .turnTimerExpiry s = .next t ∧
           ((unit s c.driver).phase ≠ .faulted → settles (request c.driver .eject 100 (.pocket p)
             (turned { y with phase := .ejectWait, attempt := 1, window := none, rearm := none } entered)) t) ∧
           ((unit s c.driver).phase = .faulted → settles (jamsAs p y (turned y entered)) t))) ∧
     ((∀ ms, s.pockets.turn ≠ .waiting ms) → ∃ t, exec .turnTimerExpiry s = .next t ∧ settles s t))

/-- R120, R121, R130: the confirm window of an EJECTING pocket expires: after attempt 1 or 2 RETRIED EJECTS
rises and the driver is requested again, at 125 % and 150 %, or with that driver FAULTED the pocket jams at
once (R117); after attempt 3 the pocket is JAMMED: its held and resting balls, or its one through ball, are
stuck, EJECTOR is set and a LOCK JAMMED is offered. -/
def Obligations.AConfirmWindowRetriesThenJams : Prop :=
  ∀ (p : PocketNo) (c : PocketCfg) (s : State), pocketCfg s p = some c →
    let x := pocket s p
    x.phase = .ejecting → x.window.isSome = true →
    (x.attempt = 1 ∨ x.attempt = 2 → (unit s c.driver).phase ≠ .faulted →
      let again : PocketState := { x with
        phase := .ejectWait, attempt := x.attempt + 1, window := none, rearm := none }
      ∃ t, exec (.confirmWindowExpiry p) s = .next t ∧
        settles (request c.driver .eject (if x.attempt = 1 then 125 else 150) (.pocket p)
          { raiseCounter .retriedEjects s with
            pockets := { s.pockets with pockets := s.pockets.pockets.set p again } }) t) ∧
    (x.attempt = 1 ∨ x.attempt = 2 → (unit s c.driver).phase = .faulted →
      ∃ t, exec (.confirmWindowExpiry p) s = .next t ∧
        settles (jamsAs p x (raiseCounter .retriedEjects s)) t) ∧
    (x.attempt = 3 → ∃ t, exec (.confirmWindowExpiry p) s = .next t ∧
      pocket t p = { x with
        held := 0, resting := 0, stuck := if x.held + x.resting = 0 then 1 else x.held + x.resting
        through := 0, jam := x.pending, pending := 0, deferred := false, attempt := 1, kickout := none
        window := none, rearm := none, phase := .jammed } ∧
      (∀ k, k ≠ p → pocket t k = pocket s k) ∧ t.control.flags.ejector = true ∧ t.balls.inPlay = inPlayCount t ∧
      t.pockets.turn = (if s.pockets.turn = .taken p then
          (if s.pockets.release = [] then .idle else .waiting 600)
        else s.pockets.turn) ∧
      t.pockets.release = s.pockets.release ∧
      (s.link.queue.length < 16 → ∃ e ∈ t.link.queue, ∃ l, e.bulletin = .lock l ∧
        l.event = 3 ∧ l.pocket = p ∧ l.credit = 0 ∧ l.held = 0 ∧
        l.stuck = BitVec.ofNat 8 (if x.held + x.resting = 0 then 1 else x.held + x.resting)) ∧
      t.rules = s.rules ∧ t.modes = s.modes ∧ t.drivers = s.drivers ∧ t.trough = s.trough ∧ t.peers = s.peers ∧
      t.scanner = s.scanner ∧ t.analog = s.analog)

/-! ## Trough, accounting, search -/

/-- R136, R137: the trough settle timer expires with no serve owed or running: the count is taken; the first
count is offered as a TROUGH of reason OTHER, a rise as DRAIN, a fall as SERVE while a serve is unreported and
OTHER without; an equal count offers nothing. A stopped timer changes nothing (the model's choice, log entry
7). R140: at a settle expiry a fall of the count confirms the serve that is SERVING: it is reported as SERVE,
and the next pending serve starts while the trough holds a ball; in SERVE-WAIT, and in SERVING without a fall,
the serve goes on; in WAITING, or IDLE with a serve pending, it starts at attempt 1 while the count is above
0, waits at 0 (also where no trough eject driver is configured: the model's choice, log entry 44), and fails
at once with no trough eject driver or a FAULTED one. R141: the confirm window of a SERVING controller
expires: after attempt 1 or 2 RETRIED EJECTS rises and the trough eject driver is requested again, at 125 %
and 150 %; after attempt 3 the serve has failed: EJECTOR, no serve pending, IDLE at attempt 1, the unreported
serves as they were. That the need of a new count ends with the failed serve is the model's choice, log entry
27. -/
def Obligations.TheTroughCountsAndServes : Prop :=
  (∀ s : State,
     (s.trough.settle.isSome = true → s.trough.phase = .idle → s.trough.pending = 0 →
       let n := troughPositions s
       let took : TroughCtl := { s.trough with settle := none, count := some n, recount := false }
       (s.trough.count = some n → ∃ t, exec .troughSettleTimerExpiry s = .next t ∧
         settles { s with trough := took } t) ∧
       (s.trough.count = none → ∃ t, exec .troughSettleTimerExpiry s = .next t ∧
         settles { offer (.trough (BitVec.ofNat 8 n) 2) s with trough := took } t) ∧
       (∀ o, s.trough.count = some o → n < o → ∃ t, exec .troughSettleTimerExpiry s = .next t ∧
         settles { offer (.trough (BitVec.ofNat 8 n) (if 0 < s.trough.unreported then 0 else 2)) s with
           trough := { took with unreported := s.trough.unreported - (o - n) } } t) ∧
       (∀ o, s.trough.count = some o → o < n → ∃ t, exec .troughSettleTimerExpiry s = .next t ∧
         let told := offer (.trough (BitVec.ofNat 8 n) 1) s
         settles { (if 0 < s.balls.missing then
               offer (.missing (BitVec.ofNat 8 (s.balls.missing - min (n - o) s.balls.missing))) told
             else told) with trough := took } t)) ∧
     (s.trough.settle = none → ∃ t, exec .troughSettleTimerExpiry s = .next t ∧ settles s t)) ∧
  (∀ s : State, s.trough.settle.isSome = true →
     let n := troughPositions s
     let fell (o : Nat) : Prop := s.trough.count = some o ∧ n < o
     let told : State := match s.trough.count with
       | none => offer (.trough (BitVec.ofNat 8 n) 2) s
       | some o =>
         if n < o then offer (.trough (BitVec.ofNat 8 n)
           (if 0 < s.trough.unreported ∨ s.trough.phase = .serving then 0 else 2)) s
         else if o < n then
           let v := offer (.trough (BitVec.ofNat 8 n) 1) s
           if 0 < s.balls.missing then
             offer (.missing (BitVec.ofNat 8 (s.balls.missing - min (n - o) s.balls.missing))) v
           else v
         else s
     let took : TroughCtl := { s.trough with
       settle := none, count := some n, recount := false
       unreported := (if s.trough.phase = .serving ∧ n < s.trough.count.getD 0 then min 6 (s.trough.unreported + 1)
         else s.trough.unreported) - (s.trough.count.getD n - n) }
     let serves (d : DriverNo) (y : TroughCtl) : State := request d .eject 100 .trough
       { told with trough := { y with phase := .serveWait, attempt := 1, window := none } }
     let fails (y : TroughCtl) : State := setFlag .ejector
       { told with trough := { y with pending := 0, attempt := 1, phase := .idle, window := none } }
     let goesOn (y : TroughCtl) (t : State) : Prop :=
       (y.pending = 0 → settles { told with trough := { y with phase := .idle } } t) ∧
       (0 < y.pending → n = 0 → settles { told with trough := { y with phase := .waiting } } t) ∧
       (0 < y.pending → 0 < n → troughDriver s = none → settles (fails y) t) ∧
       (∀ d, 0 < y.pending → 0 < n → troughDriver s = some d →
         ((unit s d).phase = .faulted → settles (fails y) t) ∧
         ((unit s d).phase ≠ .faulted → settles (serves d y) t))
     ∃ t, exec .troughSettleTimerExpiry s = .next t ∧
       (s.trough.phase = .serving → (∃ o, fell o) →
         goesOn { took with pending := s.trough.pending - 1, attempt := 1, window := none } t) ∧
       (s.trough.phase = .serveWait ∨ (s.trough.phase = .serving ∧ ¬ ∃ o, fell o) →
         settles { told with trough := took } t) ∧
       (s.trough.phase = .idle ∨ s.trough.phase = .waiting → goesOn took t)) ∧
  (∀ s : State,
     (s.trough.phase = .serving → s.trough.window.isSome = true →
       (s.trough.attempt = 3 → ∃ t, exec .serveWindowExpiry s = .next t ∧
         settles { setFlag .ejector s with trough := { s.trough with
           pending := 0, attempt := 1, phase := .idle, window := none, recount := false } } t) ∧
       (∀ d, s.trough.attempt = 1 ∨ s.trough.attempt = 2 → troughDriver s = some d →
         (unit s d).phase ≠ .faulted → ∃ t, exec .serveWindowExpiry s = .next t ∧
           settles (request d .eject (if s.trough.attempt = 1 then 125 else 150) .trough
             { raiseCounter .retriedEjects s with trough := { s.trough with
               phase := .serveWait, attempt := s.trough.attempt + 1, window := none } }) t)) ∧
     (s.trough.phase ≠ .serving ∨ s.trough.window = none →
       ∃ t, exec .serveWindowExpiry s = .next t ∧ settles s t))

/-- R134, R148: B is the installed balls less missing, T, held and stuck, and 0 while T is unknown; a sum
below 0 gives 0 and sets ACCOUNTING; a B of 0 ends a search. -/
def Obligations.BIsWhatIsLeft : Prop :=
  ∀ s : State,
    let t := recomputeB s
    let away (n : Nat) := s.balls.missing + n + totalHeld s + totalStuck s
    (s.balls.trough = none → t.balls.inPlay = 0 ∧ t.control = s.control) ∧
    (∀ n, s.balls.trough = some n →
      (away n ≤ s.control.image.installed →
        t.balls.inPlay + away n = s.control.image.installed ∧ t.control = s.control) ∧
      (s.control.image.installed < away n → t.balls.inPlay = 0 ∧
        t.control = { s.control with flags := { s.control.flags with accounting := true } })) ∧
    (t.balls.inPlay = 0 → t.balls.search = .idle ∧ t.balls.searchTimer = none ∧ t.balls.round = 0) ∧
    (t.balls.inPlay ≠ 0 → t.balls = { s.balls with inPlay := t.balls.inPlay }) ∧
    t.balls.trough = s.balls.trough ∧ t.balls.missing = s.balls.missing ∧ t.balls.peers = s.balls.peers ∧
    t.pockets = s.pockets ∧ t.link = s.link

/-- R147, R148: the quiet timer expires: in PLAY or TILT with B above 0 a search begins with its offset of 250
ms for each station number, and otherwise the timer only stops; the offset ends in round 1, a slot in the
drivers left of its round, the pause after round 1 or 2 in the next round, and the pause after round 3 in
DONE, where the trough station offers a MISSING of one more. R125, R148: a round takes its drivers in order:
one whose pocket is neither EMPTY nor JAMMED is passed at once, and the first other one is requested in the
SEARCH band, at 150 % for a JAMMED pocket and at 100 % for an EMPTY one and for the driver of no pocket, and
opens a slot of 500 ms; with none left the pause of 2,000 ms starts. A timer that does not run changes nothing
(the model's choice, log entry 7). -/
def Obligations.QuietLeadsToASearch : Prop :=
  ∀ s : State,
    let skipped (d : DriverNo) : Prop :=
      ∃ p, pocketOfDriver s d = some p ∧ (pocket s p).phase ≠ .empty ∧ (pocket s p).phase ≠ .jammed
    let takes (list : List DriverNo) (n : Nat) (t : State) : Prop :=
      let slot (percent : Nat) (d : DriverNo) (rest : List DriverNo) : State :=
        { request d .search percent .search s with balls := { s.balls with
          search := .round, round := n, todo := rest, searchTimer := some 500 } }
      ((∀ d ∈ list, skipped d) → settles { s with balls := { s.balls with
        search := .pause, round := n, todo := [], searchTimer := some 2000 } } t) ∧
      (∀ front d rest, list = front ++ d :: rest → (∀ e ∈ front, skipped e) →
        (pocketOfDriver s d = none → settles (slot 100 d rest) t) ∧
        (∀ p, pocketOfDriver s d = some p →
          ((pocket s p).phase = .empty → settles (slot 100 d rest) t) ∧
          ((pocket s p).phase = .jammed → settles (slot 150 d rest) t)))
    (s.balls.quiet.isSome = true → ∃ t, exec .quietTimerExpiry s = .next t ∧
      settles { s with balls :=
        if (s.control.station = .play ∨ s.control.station = .tilt) ∧ 0 < s.balls.inPlay then
          { s.balls with quiet := none, search := .offset, round := 0, todo := []
                         searchTimer := some (s.control.strap.val * 250) }
        else { s.balls with quiet := none } } t) ∧
    (s.balls.search = .offset → s.balls.searchTimer.isSome = true →
      ∃ t, exec .offsetTimerExpiry s = .next t ∧ takes (searchList s) (s.balls.round + 1) t) ∧
    (s.balls.search = .round → s.balls.searchTimer.isSome = true →
      ∃ t, exec .searchSlotExpiry s = .next t ∧ takes s.balls.todo s.balls.round t) ∧
    (s.balls.search = .pause → s.balls.searchTimer.isSome = true → ∃ t, exec .pauseTimerExpiry s = .next t ∧
      (s.balls.round < 3 → takes (searchList s) (s.balls.round + 1) t) ∧
      (3 ≤ s.balls.round →
        let done : State := { s with balls := { s.balls with search := .done, searchTimer := none } }
        settles (if isTrough s = true ∧ s.balls.missing ≠ s.control.image.installed then
            offer (.missing (BitVec.ofNat 8 (s.balls.missing + 1))) done
          else done) t)) ∧
    (s.balls.quiet = none → ∃ t, exec .quietTimerExpiry s = .next t ∧ settles s t) ∧
    (s.balls.searchTimer = none → (∃ t, exec .offsetTimerExpiry s = .next t ∧ settles s t) ∧
      (∃ t, exec .searchSlotExpiry s = .next t ∧ settles s t) ∧ ∃ t, exec .pauseTimerExpiry s = .next t ∧ settles s t)

/-- R133, R138, R135, R134: a TROUGH in a game state sets T to its count, at most 6, a DRAIN first recovering
missing balls by its rise; a MISSING sets the missing count, to at most the installed balls; B is then the
sum; the quiet timer restarts at a TROUGH alone. R143: in IDLE and READY nothing ends and nothing is owed; in
PLAY a DRAIN that leaves B at 0 ends the ball, and a MISSING that does so owes a replacement at the trough
station, unless a serve is pending there (R139, R140, R141): it is asked for where the trough holds a ball and
its count stands, waits in WAITING otherwise (also where no trough eject driver is configured: the model's
choice, log entry 44), and fails at once with no trough eject driver or a FAULTED one; any other MISSING in
PLAY, and a TROUGH there that ends no ball, leaves the serves as they were; in TILT either ends the ball at B
0. R88: in JOINING both are kept in the trough station's record, at most 6 (the model's choice, log entry 22).
-/
def Obligations.TroughAndMissingMoveTheView : Prop :=
  (∀ (o : StationNo) (s : State), inGame s = true →
     (∀ (count reason : Byte), hears o (.trough count reason) s →
       let n := min 6 count.toNat
       let rise := match s.balls.trough with
         | some v => n - v
         | none => 0
       ∃ t, exec (.trough o count reason) s = .next t ∧ t.balls.trough = some n ∧
         t.balls.missing = (if reason = 1 then s.balls.missing - min rise s.balls.missing else s.balls.missing) ∧
         t.balls.inPlay = inPlayCount t ∧ t.balls.quiet = some (s.control.image.searchDelay * 1000) ∧
         t.balls.search = .idle ∧ t.balls.peers = s.balls.peers ∧ t.balls.credits = s.balls.credits ∧
         t.rules.tallies = s.rules.tallies ∧ t.pockets = s.pockets ∧
         (s.control.station = .play → reason = 1 → 0 < s.balls.inPlay → t.balls.inPlay = 0 →
           t.control.station = .ready ∧ t.balls.phase = .single ∧ t.rules.combo = 0 ∧ (∀ m, t.modes.get m = none)) ∧
         (s.control.station = .tilt → t.balls.inPlay = 0 → t.control.station = .ready) ∧
         (s.control.station = .play → reason ≠ 1 ∨ s.balls.inPlay = 0 ∨ t.balls.inPlay ≠ 0 →
           t.control.station = .play ∧ t.trough = s.trough) ∧
         (s.control.station = .play → 0 < t.balls.inPlay → t.control.station = .play ∧
           t.balls.phase = if 2 ≤ t.balls.inPlay then .multi else .single)) ∧
     (∀ (count : Byte), hears o (.missing count) s → ∃ t, exec (.missing o count) s = .next t ∧
       t.balls.missing = min s.control.image.installed count.toNat ∧ t.balls.inPlay = inPlayCount t ∧
       t.balls.trough = s.balls.trough ∧ t.balls.quiet = s.balls.quiet ∧ t.balls.credits = s.balls.credits ∧
       t.rules.tallies = s.rules.tallies ∧ t.pockets = s.pockets ∧
       (s.control.station = .play → t.control.station = .play) ∧
       (s.control.station = .play →
         let owed := isTrough s = true ∧ s.trough.pending = 0 ∧ s.balls.trough.isSome = true ∧ t.balls.inPlay = 0
         (owed → owesOne (s.balls.phase = .single) s t) ∧ (¬ owed → t.trough = s.trough)))) ∧
  (∀ (o : StationNo) (count reason : Byte) (s : State), inGame s = true →
     let unended (t : State) : Prop :=
       s.control.station = .idle ∨ s.control.station = .ready → t.control.station = s.control.station ∧
         t.trough = s.trough ∧ t.rules = s.rules ∧
         (s.balls.phase = .single → t.balls.phase = .single ∧ t.modes = s.modes)
     let tilted (t : State) : Prop :=
       s.control.station = .tilt →
         (s.balls.trough = none ∨ t.balls.inPlay ≠ 0 → t.control.station = .tilt ∧ t.trough = s.trough) ∧
         (s.balls.trough.isSome = true → t.balls.inPlay = 0 → t.control.station = .ready ∧
           t.balls.phase = .single ∧ t.rules.combo = 0 ∧ ∀ m, t.modes.get m = none)
     (hears o (.trough count reason) s → ∃ t, exec (.trough o count reason) s = .next t ∧ unended t ∧
       (s.control.station = .tilt → t.balls.inPlay ≠ 0 → t.control.station = .tilt ∧ t.trough = s.trough) ∧
       (s.control.station = .tilt → t.balls.inPlay = 0 → t.control.station = .ready ∧
           t.balls.phase = .single ∧ t.rules.combo = 0 ∧ ∀ m, t.modes.get m = none)) ∧
     (hears o (.missing count) s → ∃ t, exec (.missing o count) s = .next t ∧ unended t ∧ tilted t)) ∧
  (∀ (o : StationNo) (count reason : Byte) (r : CensusRecord) (s : State), s.control.station = .joining → (peer s o).record = some r →
     o ≠ strap s → r.state ≠ .listenOnly →
     let kept (u : State) (k : CensusRecord) : State :=
       if s.control.image.troughStation = some o then
         { u with peers := { u.peers with table := u.peers.table.set o { peer u o with record := some k } } }
       else u
     (hears o (.trough count reason) s → ∃ t, exec (.trough o count reason) s = .next t ∧
       settles (kept (received o (.trough count reason) s) { r with trough := some (min 6 count.toNat) }) t) ∧
     (hears o (.missing count) s → ∃ t, exec (.missing o count) s = .next t ∧
       settles (kept (received o (.missing count) s) { r with missing := min 6 count.toNat }) t))

/-- R133, R145, R147: a LOCK in READY keeps a peer's counts of the pocket it names, raises the credit of the
player it names where it is a credited HELD or KICK-THROUGH of a player of the game, to at most 4, and
restarts the quiet timer; B is the sum. -/
def Obligations.ALockInReadyRaisesTheCredit : Prop :=
  ∀ (o : StationNo) (x : LockPayload) (s : State), hears o (.lock x) s → s.control.station = .ready →
    s.balls.phase = .single → x.credit.toNat ≤ 1 → x.held.toNat ≤ 3 → x.stuck.toNat ≤ 3 →
    let u := received o (.lock x) s
    ∃ t, exec (.lock o x) s = .next t ∧ t.control.station = .ready ∧
      (∀ j, j ≠ o ∨ o = strap s → t.balls.peers.get j = s.balls.peers.get j) ∧
      (o ≠ strap s → t.balls.peers.get o =
        { held := (s.balls.peers.get o).held.set x.pocket x.held.toNat
          stuck := (s.balls.peers.get o).stuck.set x.pocket x.stuck.toNat } ∧
        t.balls.inPlay = inPlayCount t) ∧
      (∀ p : Player, t.balls.credits.get p =
        if (x.event = 0 ∨ x.event = 2) ∧ x.credit = 1 ∧ x.player.toNat = p.val + 1 ∧
            p.val + 1 ≤ s.control.playerCount then min 4 (s.balls.credits.get p + 1)
        else s.balls.credits.get p) ∧
      t.balls.quiet = some (s.control.image.searchDelay * 1000) ∧ t.balls.trough = s.balls.trough ∧
      t.balls.missing = s.balls.missing ∧ t.rules = s.rules ∧ t.modes = s.modes ∧ t.pockets = s.pockets ∧
      t.trough = s.trough ∧ t.drivers = s.drivers ∧ t.peers = u.peers ∧ t.link.receive = .waiting

/-- R145, R146, R128, R89, R142: in PLAY a credited LOCK HELD or KICK-THROUGH, of a peer or of this station,
that brings the current player's credit to the threshold starts a multiball, in either phase: that credit is
0; with 1 installed ball that is all; with more, at a station that holds balls each pocket in STABLE or
KICKOUT-WAIT that holds balls waits in the release list, in pocket order, owing every ball it keeps, the turn
timer running for the rank, and the trough station owes the shortfall, at most T, and where T is unknown at
most that many (the model's choice, log entry 5); the phase follows B. R133, R142, R143, R145, R147: any other
LOCK, taken in PLAY, TILT or IDLE: one of a peer moves that peer's counts and B, it raises the credit it names
in PLAY and TILT, and in IDLE none; the phase follows B in PLAY; a LOCK HELD or JAMMED that leaves B at 0 in
PLAY owes a replacement at the trough station, unless a serve is pending there (R139, R140, R141): it is asked
for where the trough holds a ball and its count stands, waits in WAITING otherwise (also where no trough eject
driver is configured: the model's choice, log entry 44), and fails at once with no trough eject driver or a
FAULTED one, and any in TILT ends the ball. The order of these effects of one LOCK is the model's choice, log
entry 15. R88: in JOINING it moves the counts of the record alone. -/
def Obligations.LocksMoveCountsAndStartAMultiball : Prop :=
  (∀ (o : StationNo) (x : LockPayload) (s : State), hears o (.lock x) s → s.control.station = .play →
     x.event = 0 ∨ x.event = 2 → x.credit = 1 → x.player.toNat = s.rules.current.val + 1 →
     s.rules.current.val + 1 ≤ s.control.playerCount → x.held.toNat ≤ 3 → x.stuck.toNat ≤ 3 →
     s.control.image.threshold ≤ min 4 (s.balls.credits.get s.rules.current + 1) →
     s.pockets.release = [] → s.pockets.turn = .idle →
     (∀ p, (pocket s p).phase = .stable ∨ (pocket s p).phase = .kickoutWait ∨ (pocket s p).phase = .empty) →
     (∀ p, 0 < (pocket s p).held → (pocketCfg s p).isSome = true) →
     ∃ t, exec (.lock o x) s = .next t ∧ t.control.station = .play ∧
       t.balls.credits = s.balls.credits.set s.rules.current 0 ∧
       (o = strap s → t.balls.peers = s.balls.peers ∧ t.balls.inPlay = s.balls.inPlay) ∧
       (o ≠ strap s → t.balls.inPlay = inPlayCount t ∧ (∀ j, j ≠ o → t.balls.peers.get j = s.balls.peers.get j) ∧
         t.balls.peers.get o =
           { held := (s.balls.peers.get o).held.set x.pocket x.held.toNat
             stuck := (s.balls.peers.get o).stuck.set x.pocket x.stuck.toNat }) ∧
       t.balls.phase = (if 2 ≤ t.balls.inPlay then .multi else .single) ∧
       t.balls.quiet = some (s.control.image.searchDelay * 1000) ∧
       (s.control.image.installed = 1 ∨ ownHeld s = 0 → t.pockets = s.pockets) ∧
       (s.control.image.installed ≠ 1 → 0 < ownHeld s →
         t.pockets.turn = .waiting (((List.finRange 16).countP fun j =>
           decide (j < strap s) && decide (0 < heldAt t j)) * s.control.image.releaseSpacing) ∧
         t.pockets.release = (List.finRange 4).filter (fun p =>
           decide (0 < (pocket s p).held) && ((pocket s p).phase == .stable || (pocket s p).phase == .kickoutWait)) ∧
         ∀ p ∈ t.pockets.release, pocket t p = { pocket s p with
           phase := .releaseWait, kickout := none
           pending := (pocket s p).through + (pocket s p).held + (pocket s p).resting }) ∧
       (isTrough s = false ∨ s.control.image.installed = 1 → t.trough = s.trough) ∧
       (∀ n d, s.control.image.installed ≠ 1 → isTrough s = true → s.balls.trough = some n →
         troughDriver s = some d → (unit s d).phase ≠ .faulted →
         t.trough.pending =
           min 6 (s.trough.pending + min n (s.control.image.multiballBalls - (t.balls.inPlay + totalHeld t)))) ∧
       (∀ d, s.control.image.installed ≠ 1 → isTrough s = true → s.balls.trough = none → troughDriver s = some d →
         (unit s d).phase ≠ .faulted → t.trough.pending ≤
           min 6 (s.trough.pending + (s.control.image.multiballBalls - (t.balls.inPlay + totalHeld t)))) ∧
       t.rules.tallies = s.rules.tallies) ∧
  (∀ (o : StationNo) (x : LockPayload) (s : State), hears o (.lock x) s → x.credit.toNat ≤ 1 →
     x.held.toNat ≤ 3 → x.stuck.toNat ≤ 3 →
     let earns (p : Player) : Prop := (x.event = 0 ∨ x.event = 2) ∧ x.credit = 1 ∧ x.player.toNat = p.val + 1 ∧
       p.val + 1 ≤ s.control.playerCount
     let keeps (t : State) : Prop :=
       (o = strap s → t.balls.peers = s.balls.peers ∧ t.balls.inPlay = s.balls.inPlay) ∧
       (o ≠ strap s → t.balls.peers.get o =
         { held := (s.balls.peers.get o).held.set x.pocket x.held.toNat
           stuck := (s.balls.peers.get o).stuck.set x.pocket x.stuck.toNat } ∧ t.balls.inPlay = inPlayCount t) ∧
       (∀ j, j ≠ o → t.balls.peers.get j = s.balls.peers.get j) ∧
       t.balls.trough = s.balls.trough ∧ t.balls.missing = s.balls.missing ∧ t.pockets = s.pockets ∧
       t.balls.quiet = some (s.control.image.searchDelay * 1000) ∧ t.rules.tallies = s.rules.tallies
     let raises (t : State) : Prop := ∀ p : Player, (earns p → t.balls.credits.get p = min 4 (s.balls.credits.get p + 1)) ∧
       (¬ earns p → t.balls.credits.get p = s.balls.credits.get p)
     (s.control.station = .play →
       ¬ (earns s.rules.current ∧ s.control.image.threshold ≤ min 4 (s.balls.credits.get s.rules.current + 1)) →
       ∃ t, exec (.lock o x) s = .next t ∧ t.control.station = .play ∧ keeps t ∧ raises t ∧
         t.balls.phase = (if 2 ≤ t.balls.inPlay then .multi else .single) ∧
         (isTrough s = false ∨ t.balls.inPlay ≠ 0 ∨ s.balls.trough = none ∨ s.trough.pending ≠ 0 ∨
           (x.event ≠ 0 ∧ x.event ≠ 3) → t.trough = s.trough) ∧
         (isTrough s = true → t.balls.inPlay = 0 → s.balls.trough.isSome = true → s.trough.pending = 0 →
           x.event = 0 ∨ x.event = 3 → owesOne (s.balls.phase = .single) s t)) ∧
     (s.control.station = .tilt →
       ∃ t, exec (.lock o x) s = .next t ∧ keeps t ∧ raises t ∧
         (s.balls.trough = none ∨ t.balls.inPlay ≠ 0 → t.control.station = .tilt ∧ t.trough = s.trough) ∧
         (s.balls.trough.isSome = true → t.balls.inPlay = 0 → t.control.station = .ready ∧ t.balls.phase = .single ∧
           t.rules.combo = 0 ∧ ∀ m, t.modes.get m = none)) ∧
     (s.control.station = .idle →
       ∃ t, exec (.lock o x) s = .next t ∧ t.control.station = .idle ∧ keeps t ∧
         t.balls.credits = s.balls.credits ∧ t.trough = s.trough ∧ t.rules = s.rules ∧
         (s.balls.phase = .single → t.modes = s.modes)) ∧
     (∀ r, s.control.station = .joining → o ≠ strap s → (peer s o).record = some r → r.state ≠ .listenOnly →
       let u := received o (.lock x) s
       ∃ t, exec (.lock o x) s = .next t ∧
         settles { u with peers := { u.peers with table := u.peers.table.set o { peer u o with record := some { r with
           held := r.held.set x.pocket x.held.toNat, stuck := r.stuck.set x.pocket x.stuck.toNat } } } } t))

/-! ## Peers and the census -/

/-- R81: a silence timer expires: its station is ABSENT, its record kept. R82, R83: the census timer expires:
it restarts at the census interval and the CENSUS of the state as it stands is offered; in JOINING and
LISTEN-ONLY, and in a game state with no MODE END owed at a station that is not the trough station, that is
all. A stopped timer changes nothing (the model's choice, log entry 7). R82, R100, R137: in the game states,
with room in the queue, the CENSUS is offered, each mode of this station's whose time is over and whose end is
not queued is offered a MODE END once more, and the trough station offers a TROUGH of its count again while T
differs and none is queued. The order among these at a queue with less room is the model's choice, log entry
36. While the trough count is unknown no TROUGH is offered, also where T is known (the model's choice, log
entry 46). -/
def Obligations.SilenceAndCensusTimersExpire : Prop :=
  (∀ s : State,
     (∀ j : StationNo,
       let silent : Peer := { peer s j with presence := .absent, silence := none }
       ((peer s j).silence.isSome = true → ∃ t, exec (.silenceTimerExpiry j) s = .next t ∧
         settles { s with peers := { s.peers with table := s.peers.table.set j silent } } t) ∧
       ((peer s j).silence = none → ∃ t, exec (.silenceTimerExpiry j) s = .next t ∧ settles s t)) ∧
     (s.peers.timer.isSome = true → ∃ t, exec .censusTimerExpiry s = .next t ∧
       t.peers = { s.peers with timer := some s.control.image.censusInterval } ∧
       (inGame s = false ∨ ((∀ m, endOwed s m = false) ∧ isTrough s = false) →
         settles { offer (.census (censusNow s)) s with
           peers := { s.peers with timer := some s.control.image.censusInterval } } t)) ∧
     (s.peers.timer = none → ∃ t, exec .censusTimerExpiry s = .next t ∧ settles s t)) ∧
  (∀ s : State, s.peers.timer.isSome = true → inGame s = true →
     s.link.queue.length + (List.finRange 32).countP (endOwed s) + 2 ≤ 16 →
     ∃ t, exec .censusTimerExpiry s = .next t ∧ t.peers.timer = some s.control.image.censusInterval ∧
       (∃ e ∈ t.link.queue, e.isCensus = true) ∧
       (∀ m e, s.modes.get m = some e → e.owner = s.control.strap → e.time = .expired → e.endQueued = false →
         (∃ k ∈ t.link.queue, k.bulletin = .modeEnd (BitVec.ofNat 8 m.val)) ∧
         t.modes.get m = some { e with endQueued := true }) ∧
       (∀ m e, s.modes.get m = some e →
         e.owner ≠ s.control.strap ∨ e.time ≠ .expired ∨ e.endQueued = true → t.modes.get m = some e) ∧
       (∀ m, s.modes.get m = none → t.modes.get m = none) ∧
       (∀ n, isTrough s = true → s.trough.count = some n → s.balls.trough ≠ some n →
         (∀ k ∈ s.link.queue, ∀ q r, k.bulletin ≠ .trough q r) →
         ∃ k ∈ t.link.queue, k.bulletin = .trough (BitVec.ofNat 8 n)
           (match s.balls.trough with
            | some v => if v < n then 1 else 2
            | none => 2)) ∧
       (s.trough.count = none → ∀ k ∈ t.link.queue, ∀ q r, k.bulletin = .trough q r →
         ∃ e ∈ s.link.queue, e.bulletin = .trough q r) ∧
       t.rules = s.rules ∧ t.balls = s.balls ∧ t.pockets = s.pockets ∧ t.trough = s.trough ∧ t.drivers = s.drivers)

/-- R85, R86, R87, R105: in the game states a peer's CENSUS from a good load replaces the counts kept for that
station, and ends the entries that it owns and no longer reports; entries of other owners stay; a mode that it
reports and that has no entry is made in PLAY and TILT alone. One of this station's own number is only
compared. R87: a census of LISTEN-ONLY hands on no counts, and ends the entries that its origin owns, the hold
bindings following (R172), in every game state. R143, R144: in TILT a census that leaves B at 0 with T known
ends the ball, and in PLAY one that does so by a rise of the trough count (where it also raises counts: the
model's choice, log entry 40), the serves not yet requested cleared (that a cleared controller forgets its
need of a count is the model's choice, log entry 27); otherwise the game state and the combo count stay. R143,
R139, R140, R141: in PLAY a census that raises a held or stuck count and leaves B at 0 with T known, no rise
of T ending the ball, owes one ball at the trough station, unless a serve is pending there: that serve is
asked for where the trough holds a ball and its count stands, waits in WAITING otherwise (also where no trough
eject driver is configured: the model's choice, log entry 44), and fails at once with no trough eject driver
or a FAULTED one; any other census that ends no ball, and any at another station, leaves the serves as they
were. Where no ball ends and the phase stays too, an entry that the census does not report stays but for its
origin's own. R87, R138: the trough station's CENSUS moves T and recovers missing balls by its rise; no other
moves them. R105: in PLAY and TILT a mode that it reports and that has no entry is made as the census
sender's, for its whole duration and at its first value; one that has an entry keeps it. The order of one
census's effects is the model's choice, log entry 15. -/
def Obligations.ACensusIsHandedOn : Prop :=
  (∀ (o : StationNo) (x : CensusPayload) (s : State), hears o (.census x) s → inGame s = true →
     let r := recordOf x
     (o ≠ strap s → ∃ t, exec (.census o x) s = .next t ∧ (peer t o).record = some r ∧
       (r.state ≠ .listenOnly → t.balls.peers.get o = { held := r.held, stuck := r.stuck }) ∧
       (r.state = .listenOnly → t.balls.peers = s.balls.peers ∧ t.balls.inPlay = s.balls.inPlay) ∧
       (∀ j, j ≠ o → t.balls.peers.get j = s.balls.peers.get j) ∧
       (r.state ≠ .listenOnly → r.signature ≠ s.control.image.signature → t.control.flags.config = true) ∧
       (∀ m e, s.modes.get m = some e → e.owner = o → x.modes.get m = false → r.state ≠ .listenOnly →
         t.modes.get m = none) ∧
       (∀ m, s.control.station = .idle ∨ s.control.station = .ready → s.balls.phase = .single →
         s.modes.get m = none → t.modes.get m = none) ∧
       (∀ m e, s.control.station = .idle ∨ s.control.station = .ready → s.balls.phase = .single →
         s.modes.get m = some e → e.owner ≠ o → t.modes.get m = some e) ∧
       t.rules.tallies = s.rules.tallies ∧ t.balls.credits = s.balls.credits ∧ t.pockets = s.pockets) ∧
     (o = strap s → isOwn o (.census x) s = false → ∃ t, exec (.census o x) s = .next t ∧
       let u := received o (.census x) s
       settles { u with control := if r.state ≠ .listenOnly ∧ r.signature ≠ s.control.image.signature then
           { u.control with flags := { u.control.flags with config := true } }
         else u.control } t)) ∧
  (∀ (o : StationNo) (x : CensusPayload) (s : State), hears o (.census x) s → inGame s = true → o ≠ strap s →
     let r := recordOf x
     let others : Tab 32 (Option ModeEntry) := s.modes.map fun k => k.filter fun e => e.owner != o
     (r.state = .listenOnly → ∃ t, exec (.census o x) s = .next t ∧
       (let u := received o (.census x) s
        settles { u with
          peers := { u.peers with table := u.peers.table.set o { peer u o with record := some r } }
          modes := others, drivers := t.drivers } t) ∧
       holdsFollow s { s with modes := others } t.drivers) ∧
     (r.state ≠ .listenOnly → ∃ t, exec (.census o x) s = .next t ∧
       let rises := ∃ n v, s.control.image.troughStation = some o ∧ r.trough = some n ∧ s.balls.trough = some v ∧ v < n
       let ended := t.balls.trough.isSome = true ∧ t.balls.inPlay = 0 ∧
         (s.control.station = .tilt ∨ (s.control.station = .play ∧ rises ∧ 0 < s.balls.inPlay))
       t.balls.inPlay = inPlayCount t ∧
       (ended → t.control.station = .ready ∧ t.balls.phase = .single ∧ t.balls.search = .idle ∧
         t.rules.combo = 0 ∧ t.rules.comboTimer = none ∧ (∀ m, t.modes.get m = none) ∧
         t.trough = (if s.trough.phase = .serveWait ∨ s.trough.phase = .serving then
             { s.trough with pending := min 1 s.trough.pending }
           else { s.trough with pending := 0, phase := .idle, recount := false })) ∧
       (¬ ended → t.control.station = s.control.station ∧ t.rules = s.rules ∧
         (t.balls.phase = s.balls.phase → ∀ m, x.modes.get m = false → t.modes.get m = others.get m) ∧
         let raised := ∃ p, (s.balls.peers.get o).held.get p < r.held.get p ∨
           (s.balls.peers.get o).stuck.get p < r.stuck.get p
         let owed := isTrough s = true ∧ s.control.station = .play ∧ t.balls.trough.isSome = true ∧
           t.balls.inPlay = 0 ∧ raised ∧ s.trough.pending = 0
         (¬ owed → t.trough = s.trough) ∧
         (owed → owesOne (s.balls.phase = .single ∧ ∀ m, x.modes.get m = (s.modes.get m).isSome) s t)))) ∧
  (∀ (o : StationNo) (x : CensusPayload) (s : State), hears o (.census x) s → inGame s = true → o ≠ strap s →
     let r := recordOf x
     r.state ≠ .listenOnly →
     ∃ t, exec (.census o x) s = .next t ∧
       (∀ n, s.control.image.troughStation = some o → r.trough = some n →
         t.balls.trough = some n ∧ t.balls.missing = s.balls.missing -
           (match s.balls.trough with
            | some v => min (n - v) s.balls.missing
            | none => 0)) ∧
       (s.control.image.troughStation ≠ some o ∨ r.trough = none →
         t.balls.trough = s.balls.trough ∧ t.balls.missing = s.balls.missing) ∧
       (s.control.image.troughStation ≠ some o →
         s.control.station = .play ∨ (s.control.station = .tilt ∧ s.balls.trough = none) → s.balls.phase = .single →
         (∀ m d, modeDef s m = some d → d.startsMulti = false) →
         modeCount s + (List.finRange 32).countP (fun m => x.modes.get m) ≤ 12 →
         ∀ m, x.modes.get m = true →
           (∀ e, s.modes.get m = some e → t.modes.get m = some e) ∧
           (∀ d, s.modes.get m = none → modeDef s m = some d → t.modes.get m = some
             { kind := d.kind, owner := o, ending := false
               time := if d.duration = 0 then .untimed else .running (d.duration * 1000)
               value := match d.kind with
                 | .hurry => some d.start
                 | .jackpot => some d.base
                 | .plain | .multiply => none
               tick := if d.kind = .hurry then some d.tick else none, grace := none, endQueued := false }) ∧
           (s.modes.get m = none → modeDef s m = none → t.modes.get m = none)))

/-! ## The course of a game -/

/-- R153, R155, R34: a GAME START in IDLE for 1 to 4 players: READY, the player count, every tally 0, the
retained mark clear, player 1 up, the initial feature states in every context, every credit 0, the phase
SINGLE, no STANDUP mark. Any other GAME START changes nothing beyond the link. R34, R155, R35: each COUNTING
DROP bank with a member marked is RESETTING at attempt 1 and requests its reset driver in the RESET band at
100 %, its features as loaded and nothing scored; with that driver FAULTED it is FAULTED, with EJECTOR set
(R36). The banks request in ascending number, after the hold bindings have followed the features (the model's
choice, log entry 41). -/
def Obligations.AGameStarts : Prop :=
  (∀ (o : StationNo) (count : Byte) (s : State), hears o (.gameStart count) s →
     (s.control.station = .idle → 1 ≤ count.toNat → count.toNat ≤ 4 →
       ∃ t, exec (.gameStart o count) s = .next t ∧ t.control.station = .ready ∧
         t.control.playerCount = count.toNat ∧ t.control.retained = false ∧ (∀ p, t.rules.tallies.get p = 0) ∧
         t.rules.current = 0 ∧
         (∀ p f, (context t p).features.get f = (s.control.image.features.get f).initial) ∧
         (∀ p i, (context t p).marks.get i = false) ∧ (∀ p, t.balls.credits.get p = 0) ∧ t.balls.phase = .single ∧
         (∀ i, t.rules.marks.get i = (s.rules.marks.get i && !inStandup s i)) ∧
         ((∀ b c, bankCfg s b = some c → c.isDrop = true → markedCount s c = 0 ∨ (bank s b).phase ≠ .counting) →
           ∀ f, resting t f = (s.control.image.features.get f).initial) ∧
         t.balls.missing = s.balls.missing ∧ t.balls.peers = s.balls.peers ∧ t.modes = s.modes ∧
         t.rules.combo = s.rules.combo ∧ t.pockets = s.pockets ∧ t.trough = s.trough) ∧
     (s.control.station ≠ .idle ∨ count.toNat = 0 ∨ 4 < count.toNat →
       ∃ t, exec (.gameStart o count) s = .next t ∧ settles (received o (.gameStart count) s) t)) ∧
  (∀ (o : StationNo) (count : Byte) (s : State), hears o (.gameStart count) s →
    s.control.station = .idle → 1 ≤ count.toNat → count.toNat ≤ 4 →
      let u := received o (.gameStart count) s
      let raise (b : BankNo) (v : State) : State := match bankCfg v b with
        | some c => match c.resetDriver with
          | some d =>
            if (bank v b).phase = .counting ∧ 0 < markedCount v c then
              request d .reset 100 (.bank b) { v with rules := { v.rules with
                banks := v.rules.banks.set b { phase := .resetting, attempt := 1, timer := none, restart := false } } }
            else v
          | none => v
        | none => v
      ∃ t, exec (.gameStart o count) s = .next t ∧
        (let fresh : State := { u with
           control := { u.control with station := .ready, playerCount := count.toNat, retained := false }
           rules := { s.rules with
             tallies := .fill 4 0, current := 0, contexts := t.rules.contexts, marks := t.rules.marks
             features := s.control.image.features.map (·.initial) }
           balls := { s.balls with credits := .fill 4 0, phase := .single } }
         ((∀ b c d, bankCfg s b = some c → c.resetDriver = some d → (unit s d).phase ≠ .faulted) →
           ∃ x, holdsFollow u fresh x ∧ settles (eachUp 4 raise { fresh with drivers := x }) t) ∧
         (∀ b c d, bankCfg s b = some c → c.resetDriver = some d → (unit s d).phase = .faulted →
           (bank s b).phase = .counting → 0 < markedCount fresh c →
           (bank t b).phase = .faulted ∧ t.control.flags.ejector = true)))

/-- R153, R156, R139: a SERVE of at least one ball takes READY to PLAY and stays in PLAY; the trough station
owes its balls, at most 6 in all, the next serve beginning where none runs and the trough holds a ball; any
other station owes none. R140, R141: a serve owed with a trough count of 0 or unknown, or before the count has
been taken again, waits in WAITING, also where no trough eject driver is configured (the model's choice, log
entry 44: R141 and R165 say that its serves fail at once); with none, or a FAULTED one, a serve that can start
fails at once. In IDLE and TILT, for no ball, and in JOINING and LISTEN-ONLY it changes nothing beyond the
link. -/
def Obligations.AServeOwesItsBalls : Prop :=
  ∀ (o : StationNo) (count : Byte) (s : State), hears o (.serve count) s →
    let u := received o (.serve count) s
    let playing : State := { u with control := { u.control with station := .play } }
    (s.control.station = .ready ∨ s.control.station = .play → count.toNat ≠ 0 →
      (isTrough s = false → ∃ t, exec (.serve o count) s = .next t ∧ settles playing t) ∧
      (isTrough s = true → s.trough.count.getD 0 = 0 ∨ s.trough.recount = true →
        s.trough.phase = .idle ∨ s.trough.phase = .waiting →
        ∃ t, exec (.serve o count) s = .next t ∧ settles { playing with trough := { s.trough with
          pending := min 6 (s.trough.pending + min 6 count.toNat), phase := .waiting } } t) ∧
      (∀ d, isTrough s = true → 0 < s.trough.count.getD 0 → s.trough.recount = false →
        s.trough.phase = .idle ∨ s.trough.phase = .waiting → troughDriver s = some d →
        (unit s d).phase ≠ .faulted →
        ∃ t, exec (.serve o count) s = .next t ∧ settles (request d .eject 100 .trough
          { playing with trough := { s.trough with
            pending := min 6 (s.trough.pending + min 6 count.toNat), phase := .serveWait, attempt := 1
            window := none } }) t) ∧
      (isTrough s = true → 0 < s.trough.count.getD 0 → s.trough.recount = false →
        s.trough.phase = .idle ∨ s.trough.phase = .waiting →
        (∀ d, troughDriver s = some d → (unit s d).phase = .faulted) →
        ∃ t, exec (.serve o count) s = .next t ∧ settles (setFlag .ejector { playing with trough := { s.trough with
          pending := 0, phase := .idle, attempt := 1, window := none } }) t) ∧
      (isTrough s = true → s.trough.phase = .serveWait ∨ s.trough.phase = .serving →
        ∃ t, exec (.serve o count) s = .next t ∧ settles { playing with trough := { s.trough with
          pending := min 6 (s.trough.pending + min 6 count.toNat) } } t)) ∧
    ((s.control.station ≠ .ready ∧ s.control.station ≠ .play) ∨ count.toNat = 0 →
      ∃ t, exec (.serve o count) s = .next t ∧ settles u t)

/-- R153, R159, R143, R144, R139: a TILT in PLAY clears the serves not yet requested; with a ball in play, or
T unknown, the station is in TILT; with B at 0 the ball is over at once: READY, the mode table empty, the
combo count 0, the phase SINGLE, no search, the same serves cleared, and the hold bindings following the mode
table (R172). Elsewhere it changes nothing beyond the link. R161: a GAME END in any game state: IDLE, the mode
table empty, the combo count 0, the phase SINGLE, the serves not yet requested cleared, no search, the hold
bindings following; tallies, players, contexts, marks, credits, missing balls, bank resets and pockets stay.
In JOINING and LISTEN-ONLY it reaches the Peer View alone. That the cleared controller forgets its need of a
count is the model's choice, log entry 27. -/
def Obligations.ATiltAndAGameEnd : Prop :=
  (∀ (o : StationNo) (s : State), hears o .tilt s →
     let u := received o .tilt s
     let cleared : TroughCtl := if s.trough.phase = .serveWait ∨ s.trough.phase = .serving then
         { s.trough with pending := min 1 s.trough.pending }
       else { s.trough with pending := 0, phase := .idle, recount := false }
     (s.control.station = .play → s.balls.trough = none ∨ s.balls.inPlay ≠ 0 →
       ∃ t, exec (.tilt o) s = .next t ∧
         settles { u with control := { u.control with station := .tilt }, trough := cleared } t) ∧
     (s.control.station = .play → s.balls.trough.isSome = true → s.balls.inPlay = 0 →
       ∃ t, exec (.tilt o) s = .next t ∧
         settles { u with
           control := { u.control with station := .ready }
           rules := { s.rules with combo := 0, comboTimer := none }
           modes := .fill 32 none
           balls := { s.balls with phase := .single, search := .idle, round := 0, todo := [], searchTimer := none }
           trough := cleared, drivers := t.drivers } t ∧
         holdsFollow s { s with modes := .fill 32 none } t.drivers) ∧
     (s.control.station ≠ .play → ∃ t, exec (.tilt o) s = .next t ∧ settles u t)) ∧
  (∀ (o : StationNo) (s : State), hears o .gameEnd s →
     (inGame s = true → ∃ t, exec (.gameEnd o) s = .next t ∧
       (let u := received o .gameEnd s
        settles { u with
          control := { u.control with station := .idle }
          rules := { s.rules with combo := 0, comboTimer := none }
          modes := .fill 32 none
          balls := { s.balls with phase := .single, search := .idle, round := 0, todo := [], searchTimer := none }
          trough := if s.trough.phase = .serveWait ∨ s.trough.phase = .serving then
              { s.trough with pending := min 1 s.trough.pending }
            else { s.trough with pending := 0, phase := .idle, recount := false }
          drivers := t.drivers } t) ∧
       holdsFollow s { s with modes := .fill 32 none } t.drivers) ∧
     (inGame s = false → ∃ t, exec (.gameEnd o) s = .next t ∧ settles (received o .gameEnd s) t))

/-- R157, R158, R37: a PLAYER UP in READY for a player of the game saves the outgoing player's features (OFF
members of FAULTED banks as DARK) and STANDUP marks, makes the player current and loads that player's, the
members of FAULTED banks OFF; a COUNTING DROP bank begins its reset: it is RESETTING at attempt 1 and its
reset driver is requested in the RESET band at 100 %, as a requester of that driver's entry or, with the queue
full, on the waiting list (R35, R168), the banks in ascending number (the model's choice, log entry 41); with
that driver FAULTED it is FAULTED at once, its member features OFF and EJECTOR set (R36). R172: the hold
bindings follow the features loaded, and then the members of FAULTED banks turned OFF, each on its own (the
model's choice, log entry 29). Any other PLAYER UP changes nothing beyond the link. -/
def Obligations.APlayerComesUp : Prop :=
  (∀ (o : StationNo) (player : Byte) (p : Player) (s : State), hears o (.playerUp player) s →
     s.control.station = .ready → player.toNat = p.val + 1 → p.val + 1 ≤ s.control.playerCount →
     let u := received o (.playerUp player) s
     let out := s.rules.current
     let loaded : Context := if p = out then savedContext s else context s p
     let drop (b : BankNo) : Option DriverNo :=
       if (bank s b).phase = .counting then (bankCfg s b).bind BankCfg.resetDriver else none
     let faulty (d : DriverNo) : Bool := (unit s d).phase == .faulted
     let swapped (gone : FeatureNo → Bool) : RuleEngine := { s.rules with
       current := p
       contexts := s.rules.contexts.set out (savedContext s)
       features := .ofFn fun f => if gone f then .off else loaded.features.get f
       marks := .ofFn fun i => if inStandup s i then loaded.marks.get i else s.rules.marks.get i }
     (∀ f, (savedContext s).features.get f = if resting s f = .off ∧ inFaulted s f then .dark else resting s f) ∧
     (∀ i, (savedContext s).marks.get i = (s.rules.marks.get i && inStandup s i)) ∧
     ∃ t, exec (.playerUp o player) s = .next t ∧
       (∀ b, bank t b = match drop b with
         | some d => if faulty d then { phase := .faulted, attempt := 1, timer := none, restart := false }
           else { phase := .resetting, attempt := 1, timer := none, restart := false }
         | none => bank s b) ∧
       settles { u with
         control := { u.control with flags := { u.control.flags with
           ejector := s.control.flags.ejector || (List.finRange 4).any fun b => (drop b).any faulty } }
         rules := { swapped (inFaulted t) with banks := t.rules.banks }
         drivers := t.drivers } t ∧
       (∀ b d, drop b = some d → faulty d = false →
         (∃ e ∈ t.drivers.queue, e.driver = d ∧ .bank b ∈ e.requesters) ∨ .bank b ∈ t.drivers.waiting) ∧
       ((∀ b d, drop b = some d → faulty d = false) →
         let shown : State := { u with rules := swapped fun _ => false }
         ∃ x, holdsFollow u shown x ∧ ∃ y,
           holdsFollow { shown with drivers := x } { shown with rules := swapped (inFaulted s), drivers := x } y ∧
           t.drivers = (eachUp 4 (fun b v => match drop b with
             | some d => request d .reset 100 (.bank b) v
             | none => v) { u with drivers := y }).drivers)) ∧
  (∀ (o : StationNo) (player : Byte) (s : State), hears o (.playerUp player) s →
     s.control.station ≠ .ready ∨ playerOf s.control.playerCount player = none →
     ∃ t, exec (.playerUp o player) s = .next t ∧ settles (received o (.playerUp player) s) t)

/-- R28, R162: a FEATURE SET to this station, or to all, of a feature 0..31 and a state OFF, DARK, LATENT or
LIT, writes the current table for player 0 or the player now up, and the context of another player of the
game; every other FEATURE SET changes nothing beyond the link. R172: the hold bindings follow: a bound feature
that turns LIT requests its driver where the spent mark is clear, and one that leaves LIT clears the mark and
releases a HOLDING driver; where several turn, in ascending driver number (the model's choice, log entry 41).
-/
def Obligations.AFeatureIsSet : Prop :=
  ∀ (o : StationNo) (target feature state player : Byte) (s : State),
    hears o (.featureSet target feature state player) s →
    let u := received o (.featureSet target feature state player) s
    (∀ (f : FeatureNo) (r : Resting), inGame s = true →
      target.toNat = s.control.strap.val ∨ target.toNat = 255 → feature.toNat = f.val →
      state.toNat = r.code → r ≠ .held →
      (player.toNat = 0 ∨ (player.toNat = s.rules.current.val + 1 ∧ player.toNat ≤ s.control.playerCount) →
        ∃ t, exec (.featureSet o target feature state player) s = .next t ∧ resting t f = r ∧
          (∀ k, k ≠ f → resting t k = resting s k) ∧
          holdsFollow u { u with rules := { s.rules with features := t.rules.features } } t.drivers ∧
          settles { u with rules := { s.rules with features := t.rules.features }, drivers := t.drivers } t) ∧
      (∀ p : Player, p ≠ s.rules.current → player.toNat = p.val + 1 → player.toNat ≤ s.control.playerCount →
        ∃ t, exec (.featureSet o target feature state player) s = .next t ∧
          (context t p).features.get f = r ∧ (∀ k, k ≠ f → (context t p).features.get k = (context s p).features.get k) ∧
          (context t p).marks = (context s p).marks ∧ (∀ k, k ≠ p → context t k = context s k) ∧
          settles { u with rules := { s.rules with contexts := t.rules.contexts } } t)) ∧
    (inGame s = false ∨ (target.toNat ≠ s.control.strap.val ∧ target.toNat ≠ 255) ∨ 32 ≤ feature.toNat ∨
        4 ≤ state.toNat ∨ 4 < player.toNat ∨ s.control.playerCount < player.toNat →
      ∃ t, exec (.featureSet o target feature state player) s = .next t ∧ settles u t)

/-! ## Drivers and lamps -/

/-- R168, R167: a request is decided by the first check that applies: a FAULTED driver; a DIRECT request for a
driver at work, dropped and counted; a queued entry, merged into, in its place or, where the request's band
ranks ahead of the entry's, at the end of that band, and nothing else changed; a full queue, by band; else a
new entry behind those of its band and the bands ahead of it, an IDLE driver becoming QUEUED. -/
def Obligations.AnEntryJoinsThePulseQueue : Prop :=
  ∀ (d : DriverNo) (band : Band) (n : Nat) (r : Requester) (s : State),
    let working := (unit s d).phase = .pulsing ∨ (unit s d).phase = .holding ∨ (unit s d).phase = .recycle
    ((unit s d).phase = .faulted → request d band n r s = s) ∧
    (band = .direct → working → request d band n r s = raiseCounter .pulseDrops s) ∧
    ((unit s d).phase ≠ .faulted → ¬ (band = .direct ∧ working) → pulseQueued s d = false →
      (8 ≤ s.drivers.queue.length →
        (band = .direct → request d band n r s = raiseCounter .pulseDrops s) ∧
        (band = .search → request d band n r s = s) ∧
        (band = .eject ∨ band = .reset → request d band n r s = { s with drivers := { s.drivers with
          waiting := if r ∈ s.drivers.waiting then s.drivers.waiting else s.drivers.waiting ++ [r] } })) ∧
      (s.drivers.queue.length < 8 → ∃ front back,
        s.drivers.queue = front ++ back ∧
        (request d band n r s).drivers.queue =
          front ++ { driver := d, band := band, percent := n, requesters := [r] } :: back ∧
        (∀ e ∈ front, e.band.rank ≤ band.rank) ∧ (∀ e ∈ back.head?, band.rank < e.band.rank) ∧
        (unit (request d band n r s) d).phase =
          (if (unit s d).phase = .idle then .queued else (unit s d).phase) ∧
        request d band n r s = { s with drivers := (request d band n r s).drivers })) ∧
    (∀ e, (unit s d).phase ≠ .faulted → ¬ (band = .direct ∧ working) →
      (s.drivers.queue.find? fun x => x.driver == d) = some e → s.drivers.within →
      let merged : PulseEntry := { e with
        percent := max e.percent n, band := if band.rank < e.band.rank then band else e.band
        requesters := if r ∈ e.requesters then e.requesters else e.requesters ++ [r] }
      let becomes (q : List PulseEntry) : Prop :=
        request d band n r s = { s with drivers := { s.drivers with queue := q } }
      ∃ front back, s.drivers.queue = front ++ e :: back ∧
        (e.band.rank ≤ band.rank → becomes (front ++ merged :: back)) ∧
        (band.rank < e.band.rank → ∃ ahead behind, front ++ back = ahead ++ behind ∧
          becomes (ahead ++ merged :: behind) ∧ (∀ k ∈ ahead, k.band.rank ≤ band.rank) ∧
          ∀ k ∈ behind.head?, band.rank < k.band.rank))

/-- R170, R171, R169: the pulses that can start now start: none while the supply is LOW; otherwise the first
entries, in queue order, whose driver is QUEUED, as many as there are free slots: each leaves the queue, its
driver PULSING for the scaled on-time, and every other driver stays. The waiting list then empties, and each
requester on it, in its order, asks again; then a waiting pocket and a waiting serve that share a started
entry are told of the start (R118, R140). R117, R140, R35, R172: asking again: a pocket in EJECT-WAIT and a
serve in SERVE-WAIT at their attempt's percentage, a RESETTING bank at 100 %, a hold binding while its feature
is effectively LIT and the spent mark clear; each by R168, so a full queue puts it back on the list; one whose
driver is FAULTED is JAMMED, has failed, or is FAULTED (R121, R141, R36). That the waiting list is told once,
after all the starts of one moment and before they are reported, and that a requester that no longer waits
asks for nothing and takes no report, is the model's choice, log entries 10 and 21. -/
def Obligations.PulsesStartInQueueOrder : Prop :=
  (∀ s : State, s.drivers.within →
     (startable s = [] → ∃ t, exec .pulseStart s = .next t ∧ settles s t) ∧
     ((s.analog.channels.get 5).level = false → ∃ t, exec .pulseStart s = .next t ∧ settles s t) ∧
     ((s.analog.channels.get 5).level = true →
       let ready := s.drivers.queue.filter fun e => (unit s e.driver).phase == .queued
       let starts := ready.take (2 - s.drivers.units.count fun u => u.phase == .pulsing)
       let fired : State := { s with drivers := {
         units := .ofFn fun d => match starts.find? fun e => e.driver == d with
           | some e => { unit s d with
               phase := .pulsing, requesters := e.requesters
               onTime := min 255 ((driverCfg s d).onTime * e.percent / 100) }
           | none => unit s d
         queue := s.drivers.queue.filter fun e => !starts.any fun x => x.driver == e.driver
         waiting := [] } }
       let told := s.drivers.waiting.foldl (fun v r => askAgain r v) fired
       starts ≠ [] → ∃ t, exec .pulseStart s = .next t ∧
         (∀ p, pocket t p = if (∃ e ∈ starts, .pocket p ∈ e.requesters) ∧ (pocket told p).phase = .ejectWait
           then { pocket told p with phase := .ejecting, window := some 400 } else pocket told p) ∧
         t.trough = (if (∃ e ∈ starts, .trough ∈ e.requesters) ∧ told.trough.phase = .serveWait
           then { told.trough with phase := .serving, window := some 1000 } else told.trough) ∧
         settles { told with pockets := { told.pockets with pockets := t.pockets.pockets }, trough := t.trough } t)) ∧
  (∀ s : State,
     let percent (n : Nat) : Nat := if n ≤ 1 then 100 else if n = 2 then 125 else 150
     (∀ p c, pocketCfg s p = some c → let t := askAgain (.pocket p) s
       ((pocket s p).phase ≠ .ejectWait → t = s) ∧
       ((pocket s p).phase = .ejectWait → (unit s c.driver).phase ≠ .faulted →
         t = request c.driver .eject (percent (pocket s p).attempt) (.pocket p) s) ∧
       ((pocket s p).phase = .ejectWait → (unit s c.driver).phase = .faulted →
         (pocket t p).phase = .jammed ∧ t.control.flags.ejector = true)) ∧
     (let t := askAgain .trough s
      (s.trough.phase ≠ .serveWait → t = s) ∧
      (∀ d, s.trough.phase = .serveWait → troughDriver s = some d → (unit s d).phase ≠ .faulted →
        t = request d .eject (percent s.trough.attempt) .trough s) ∧
      (∀ d, s.trough.phase = .serveWait → troughDriver s = some d → (unit s d).phase = .faulted →
        t.trough.phase = .idle ∧ t.trough.pending = 0 ∧ t.control.flags.ejector = true)) ∧
     (∀ b c d, bankCfg s b = some c → c.resetDriver = some d → let t := askAgain (.bank b) s
       ((bank s b).phase ≠ .resetting → t = s) ∧
       ((bank s b).phase = .resetting → (unit s d).phase ≠ .faulted → t = request d .reset 100 (.bank b) s) ∧
       ((bank s b).phase = .resetting → (unit s d).phase = .faulted →
         (bank t b).phase = .faulted ∧ t.control.flags.ejector = true)) ∧
     (∀ d, let lit := ∃ f, (driverCfg s d).binding = some f ∧ effective s f = .lit
       (lit → (unit s d).spent = false → askAgain (.hold d) s = request d .eject 100 (.hold d) s) ∧
       (¬ lit ∨ (unit s d).spent = true → askAgain (.hold d) s = s)))

/-- R171, R172, R173, R175: a pulse that no pocket requested ends: the driver's detail is VERIFY where the
measured on-time differs by more than the tolerance and no stronger detail stands; it HOLDS where its hold
binding shares the pulse, its hold power is above 0, its feature is LIT and it is not spent, and recycles
otherwise. A driver that is not PULSING ends none (the model's choice, log entry 7). R172, R173: the max hold
timer releases a HOLDING driver into RECYCLE and spends it; the recycle timer leaves it QUEUED where an entry
for it waits and IDLE otherwise. A timer that does not run changes nothing (the model's choice, log entry 7).
The measured on-time is the command's operand, in µs (the model's choice, log entry 24). R35: a RESETTING bank
that requested the pulse has its confirm timer started at 500 ms. R118: where one pocket is among the
requesters, with whatever others beside it (a search, a FIRE, a bank, a hold), and it has no opto and is
EJECTING, its eject is confirmed; a pocket with an opto takes nothing from the end; that a pocket or a bank in
another state takes nothing either is the model's choice, log entry 21. -/
def Obligations.PulsesAndHoldsEnd : Prop :=
  (∀ (d : DriverNo) (measured : Nat) (s : State),
     let u := unit s d
     let k := driverCfg s d
     let late := k.tolerance * 1000 < measured - u.onTime * 1000 ∨ k.tolerance * 1000 < u.onTime * 1000 - measured
     let holds := .hold d ∈ u.requesters ∧ 0 < k.holdPower ∧ u.spent = false ∧
       ∃ f, k.binding = some f ∧ effective s f = .lit
     (u.phase = .pulsing → (∀ p, .pocket p ∉ u.requesters) →
       ∃ t, exec (.pulseEnd d measured) s = .next t ∧
         (late → (unit t d).detail = if u.detail = .opened ∨ u.detail = .shorted then u.detail else .verify) ∧
         (¬ late → (unit t d).detail = u.detail) ∧
         (unit t d).requesters = [] ∧ (unit t d).spent = u.spent ∧
         (holds → (unit t d).phase = .holding ∧ (unit t d).maxHold = some (k.maxHold * 1000)) ∧
         (¬ holds → 0 < k.recycle → (unit t d).phase = .recycle ∧ (unit t d).recycle = some k.recycle) ∧
         (¬ holds → k.recycle = 0 → (unit t d).phase = (if pulseQueued s d then .queued else .idle)) ∧
         (∀ j, j ≠ d → unit t j = unit s j) ∧ t.drivers.queue = s.drivers.queue ∧
         (∀ b, bank t b = if .bank b ∈ u.requesters ∧ (bank s b).phase = .resetting
           then { bank s b with timer := some 500 } else bank s b) ∧
         settles { s with drivers := t.drivers, rules := { s.rules with banks := t.rules.banks } } t) ∧
     (u.phase ≠ .pulsing → ∃ t, exec (.pulseEnd d measured) s = .next t ∧ settles s t)) ∧
  (∀ (d : DriverNo) (measured : Nat) (p : PocketNo) (c : PocketCfg) (s : State), pocketCfg s p = some c →
     0 < c.capacity → (unit s d).phase = .pulsing → (unit s d).requesters.Nodup →
     .pocket p ∈ (unit s d).requesters → (∀ q, .pocket q ∈ (unit s d).requesters → q = p) →
     let u := unit s d
     let k := driverCfg s d
     let late := k.tolerance * 1000 < measured - u.onTime * 1000 ∨ k.tolerance * 1000 < u.onTime * 1000 - measured
     let holds := .hold d ∈ u.requesters ∧ 0 < k.holdPower ∧ u.spent = false ∧
       ∃ f, k.binding = some f ∧ effective s f = .lit
     ∃ t, exec (.pulseEnd d measured) s = .next t ∧
       (let told (v : State) : State := { v with drivers := t.drivers, rules := { s.rules with banks := t.rules.banks } }
        (c.opto = none → (pocket s p).phase = .ejecting → settles (told (confirmEject p c s)) t) ∧
        (c.opto.isSome = true ∨ (pocket s p).phase ≠ .ejecting → settles (told s) t)) ∧
       t.drivers.queue = s.drivers.queue ∧ t.drivers.waiting = s.drivers.waiting ∧
       (∀ j, j ≠ d → unit t j = unit s j) ∧ (unit t d).requesters = [] ∧ (unit t d).spent = u.spent ∧
       (unit t d).detail = (if late ∧ u.detail ≠ .opened ∧ u.detail ≠ .shorted then .verify else u.detail) ∧
       (∀ b, bank t b = if .bank b ∈ u.requesters ∧ (bank s b).phase = .resetting
         then { bank s b with timer := some 500 } else bank s b) ∧
       (holds → (unit t d).phase = .holding ∧ (unit t d).maxHold = some (k.maxHold * 1000)) ∧
       (¬ holds → 0 < k.recycle → (unit t d).phase = .recycle ∧ (unit t d).recycle = some k.recycle) ∧
       (¬ holds → k.recycle = 0 → (unit t d).phase = if pulseQueued s d then .queued else .idle)) ∧
  (∀ (d : DriverNo) (s : State),
     let u := unit s d
     let put (x : DriverState) : State := { s with drivers := { s.drivers with units := s.drivers.units.set d x } }
     (u.phase = .holding → u.maxHold.isSome = true → 0 < (driverCfg s d).recycle →
       ∃ t, exec (.maxHoldExpiry d) s = .next t ∧
         settles (put { u with
           phase := .recycle, spent := true, recycle := some (driverCfg s d).recycle, maxHold := none }) t) ∧
     (u.phase = .holding → u.maxHold.isSome = true → (driverCfg s d).recycle = 0 →
       ∃ t, exec (.maxHoldExpiry d) s = .next t ∧
         settles (put { u with
           phase := if pulseQueued s d then .queued else .idle, spent := true, recycle := none, maxHold := none }) t) ∧
     (u.phase = .recycle → u.recycle.isSome = true → ∃ t, exec (.recycleTimerExpiry d) s = .next t ∧
       settles (put { u with phase := if pulseQueued s d then .queued else .idle, recycle := none }) t) ∧
     (u.phase ≠ .holding ∨ u.maxHold = none → ∃ t, exec (.maxHoldExpiry d) s = .next t ∧ settles s t) ∧
     (u.phase ≠ .recycle ∨ u.recycle = none → ∃ t, exec (.recycleTimerExpiry d) s = .next t ∧ settles s t))

/-- R174, R121: OPEN in a PULSING driver, and SHORT in a PULSING or HOLDING one, leave it FAULTED with that
detail, DRIVER set, and no entry for it queued; a pocket whose pulse it was is JAMMED with EJECTOR set, in
whatever state it stands but JAMMED (the model's choice, log entry 42): its held and resting balls, or one
where there is none, are stuck, and a LOCK JAMMED is offered. Any other driver shows none (the model's choice,
log entry 7). The drive is cut, the requesters of the pulse are told, in the order they joined its set (the
model's choice, log entry 48), then the entry for the driver, where there is one, leaves the queue, its
requesters are told likewise, and after them the waiting list asks again (R169; that order is the model's
choice, log entry 49). R36: a RESETTING bank told so is FAULTED, with EJECTOR, its member features OFF and the
hold bindings following; R141: a serve in SERVE-WAIT or SERVING has failed, with EJECTOR, its need of a new
count forgotten (the model's choice, log entry 27); a bank or a serve in any other state takes nothing (the
model's choice, log entry 21), nor do a search, a FIRE, a rule and a hold. With no bank told and none waiting,
every other driver stays as it was. -/
def Obligations.OpenAndShortFaultTheDriver : Prop :=
  (∀ (d : DriverNo) (s : State), s.drivers.within →
     (∀ c why, (c = .openDetected d ∧ why = .opened ∧ (unit s d).phase = .pulsing) ∨
         (c = .shortDetected d ∧ why = .shorted ∧ ((unit s d).phase = .pulsing ∨ (unit s d).phase = .holding)) →
       ∃ t, exec c s = .next t ∧
         (unit t d).phase = .faulted ∧ (unit t d).detail = why ∧ (unit t d).requesters = [] ∧
         (∀ e ∈ t.drivers.queue, e.driver ≠ d) ∧ driverFlag t = true ∧
         (∀ p, .pocket p ∈ (unit s d).requesters → (pocket s p).phase ≠ .jammed →
           t.control.flags.ejector = true ∧ p ∉ t.pockets.release ∧
           pocket t p = { pocket s p with
             held := 0, resting := 0, stuck := (if (pocket s p).held + (pocket s p).resting = 0 then 1
               else (pocket s p).held + (pocket s p).resting)
             through := 0, jam := (pocket s p).pending, pending := 0, deferred := false, attempt := 1
             settle := none, kickout := none, window := none, rearm := none, phase := .jammed }) ∧
         ((unit s d).requesters = [] → pulseQueued s d = false → settles { s with drivers := t.drivers } t) ∧
         t.rules.tallies = s.rules.tallies ∧ t.modes = s.modes ∧ t.scanner = s.scanner ∧ t.peers = s.peers) ∧
     ((unit s d).phase ≠ .pulsing → ∃ t, exec (.openDetected d) s = .next t ∧ settles s t) ∧
     ((unit s d).phase ≠ .pulsing → (unit s d).phase ≠ .holding →
       ∃ t, exec (.shortDetected d) s = .next t ∧ settles s t)) ∧
  (∀ (d : DriverNo) (why : Detail) (c : Instr) (s : State),
     (c = .openDetected d ∧ why = .opened ∧ (unit s d).phase = .pulsing) ∨
       (c = .shortDetected d ∧ why = .shorted ∧ ((unit s d).phase = .pulsing ∨ (unit s d).phase = .holding)) →
     let cut : State := { s with drivers := { s.drivers with units := s.drivers.units.set d { unit s d with
       phase := .faulted, detail := why, requesters := [], onTime := 0, recycle := none, maxHold := none } } }
     let tell (rs : List Requester) (v : State) : State := rs.foldl (fun w r => driverFaulted r w) v
     let told := tell (unit s d).requesters cut
     let others := s.drivers.queue.filter fun e => e.driver != d
     ∃ t, exec c s = .next t ∧
       (pulseQueued s d = false → settles told t ∧
         ((∀ b, .bank b ∉ (unit s d).requesters) → t.drivers = cut.drivers)) ∧
       (∀ e, (s.drivers.queue.find? fun k => k.driver == d) = some e →
         let freed := tell e.requesters
           { told with drivers := { told.drivers with queue := told.drivers.queue.filter fun k => k.driver != d } }
         settles (freed.drivers.waiting.foldl (fun w r => askAgain r w)
           { freed with drivers := { freed.drivers with waiting := [] } }) t ∧
         (s.drivers.waiting = [] → (∀ b, .bank b ∉ (unit s d).requesters ∧ .bank b ∉ e.requesters) →
           t.drivers = { cut.drivers with queue := others }))) ∧
  (∀ s : State,
     driverFaulted .rule s = s ∧ driverFaulted .search s = s ∧ driverFaulted .fire s = s ∧
     (∀ d, driverFaulted (.hold d) s = s) ∧
     (∀ p, let x := pocket s p
       let t := driverFaulted (.pocket p) s
       let stuck := if x.held + x.resting = 0 then 1 else x.held + x.resting
       (x.phase = .jammed → t = s) ∧
       (x.phase ≠ .jammed →
         pocket t p = { x with
           held := 0, resting := 0, stuck := stuck, through := 0, jam := x.pending, pending := 0, deferred := false
           attempt := 1, settle := none, kickout := none, window := none, rearm := none, phase := .jammed } ∧
         (∀ q, q ≠ p → pocket t q = pocket s q) ∧
         t.pockets.release = s.pockets.release.filter (fun q => decide (q ≠ p)) ∧
         t.pockets.turn = (if s.pockets.turn = .taken p then
             (if t.pockets.release = [] then .idle else .waiting 600)
           else s.pockets.turn) ∧
         t.control.flags.ejector = true ∧ t.balls.inPlay = inPlayCount t ∧
         (s.link.queue.length < 16 → ∃ e ∈ t.link.queue, e.bulletin = .lock {
           event := 3, pocket := p, player := BitVec.ofNat 8 (s.rules.current.val + 1), credit := 0
           held := 0, stuck := BitVec.ofNat 8 stuck }) ∧
         t.rules = s.rules ∧ t.modes = s.modes ∧ t.drivers = s.drivers ∧ t.trough = s.trough ∧
         t.peers = s.peers ∧ t.scanner = s.scanner ∧ t.analog = s.analog)) ∧
     (s.trough.phase = .serveWait ∨ s.trough.phase = .serving →
       driverFaulted .trough s = { s with
         control := { s.control with flags := { s.control.flags with ejector := true } }
         trough := { s.trough with pending := 0, attempt := 1, phase := .idle, window := none, recount := false } }) ∧
     (s.trough.phase ≠ .serveWait → s.trough.phase ≠ .serving → driverFaulted .trough s = s) ∧
     (∀ b, (bank s b).phase ≠ .resetting → driverFaulted (.bank b) s = s) ∧
     (∀ b c, bankCfg s b = some c → (bank s b).phase = .resetting →
       let fallen : State := { s with
         control := { s.control with flags := { s.control.flags with ejector := true } }
         rules := { s.rules with
           banks := s.rules.banks.set b { bank s b with phase := .faulted, timer := none }
           features := .ofFn fun f => if f ∈ memberFeatures s c then .off else resting s f } }
       let t := driverFaulted (.bank b) s
       t = { fallen with drivers := t.drivers } ∧
       (t.drivers.queue = s.drivers.queue ∧ t.drivers.waiting = s.drivers.waiting) ∧
       holdsFollow s fallen t.drivers))

/-! ## Service -/

/-- R66, R192, R177, R191: a STATUS moves presence alone; a QUERY of this station is answered with a STATUS of
the state as it stands, wherever the link works; a FIRE of this station is taken in IDLE, its driver requested
in the SEARCH band at 100 %; one for another station, and a FIRE elsewhere or above driver 7, is ignored.
R192: the data of each STATUS: the tally, the flags with mask and details, the counters, the accounting, the
modes with their count, the features by half-bytes, the station (format, whether it is the trough station and
has retained values, signature, station state); and none for an item above 7. R64, R188: the eight bits of the
fault byte: LINK 0, CONFIG 1, DRIVER 2 while any driver has a detail, EJECTOR 3, SUPPLY 4, ACCOUNTING 5,
TRANSMIT 6, SWITCH 7. -/
def Obligations.StatusQueryAndFire : Prop :=
  (∀ (o : StationNo) (target item x : Byte) (data : List Byte) (s : State),
     (hears o (.status item data) s → ∃ t, exec (.status o item data) s = .next t ∧
       settles (received o (.status item data) s) t) ∧
     (hears o (.query target item x) s →
       let u := received o (.query target item x) s
       (target.toNat = s.control.strap.val → ∃ t, exec (.query o target item x) s = .next t ∧
         settles (offer (.status item (statusData item x u)) u) t) ∧
       (target.toNat ≠ s.control.strap.val → ∃ t, exec (.query o target item x) s = .next t ∧ settles u t)) ∧
     (hears o (.fire target item) s →
       let u := received o (.fire target item) s
       (∀ d : DriverNo, item.toNat = d.val → target.toNat = s.control.strap.val → s.control.station = .idle →
         ∃ t, exec (.fire o target item) s = .next t ∧ settles (request d .search 100 .fire u) t) ∧
       (target.toNat ≠ s.control.strap.val ∨ s.control.station ≠ .idle ∨ 8 ≤ item.toNat →
         ∃ t, exec (.fire o target item) s = .next t ∧ settles u t))) ∧
  (∀ (s : State) (x : Byte),
     (∀ p : Player, x.toNat = p.val + 1 → statusData 0 x s = x :: fourBytes (s.rules.tallies.get p)) ∧
     (x.toNat = 0 ∨ 4 < x.toNat → statusData 0 x s = []) ∧
     (∃ a b, statusData 1 x s = [faultByte s, maskByte s, a, b] ∧
       ∀ d : DriverNo, ((if d.val < 4 then a else b).toNat / 4 ^ (d.val % 4)) % 4 = (unit s d).detail.code) ∧
     (statusData 2 x s).length = 8 ∧
     (∀ k : Fin 8, (statusData 2 x s)[k.val]? = some (BitVec.ofNat 8 (s.control.counters.get k))) ∧
     (statusData 3 x s).map BitVec.toNat =
       [(s.balls.trough.getD 7) % 256, totalHeld s % 256, totalStuck s % 256, s.balls.missing % 256,
        s.balls.inPlay % 256, if s.balls.phase = .multi then 1 else 0] ∧
     (statusData 5 x s).length = 8 ∧ (statusData 6 x s).length = 8 ∧
     (∀ f : FeatureNo, ∃ b, (statusData (if f.val < 16 then 5 else 6) x s)[f.val % 16 / 2]? = some b ∧
       (if f.val % 2 = 0 then b.toNat / 16 else b.toNat % 16) =
         (resting s f).code + if litByOverlay s f then 8 else 0) ∧
     (∀ m : ModeId, ∃ b, (statusData 4 x s)[m.val / 8]? = some b ∧
       b.getLsbD (m.val % 8) = (s.modes.get m).isSome) ∧
     (∀ item : Byte, 7 < item.toNat → statusData item x s = [])) ∧
  (∀ (s : State) (x : Byte),
     (statusData 4 x s).length = 5 ∧ (statusData 4 x s)[4]? = some (BitVec.ofNat 8 (modeCount s)) ∧
     (∃ b, statusData 7 x s = [s.control.image.format, b, s.control.image.signature, BitVec.ofNat 8
         (match s.control.station with
          | .joining => 1
          | .idle => 2
          | .ready => 3
          | .play => 4
          | .tilt => 5
          | .listenOnly => 6
          | _ => 0)] ∧
       b.getLsbD 0 = isTrough s ∧ b.getLsbD 1 = s.control.retained ∧ b.toNat < 4)) ∧
  (∀ s : State,
     let f := s.control.flags
     let b := faultByte s
     b.getLsbD 0 = f.link ∧ b.getLsbD 1 = f.config ∧
     (b.getLsbD 2 = true ↔ ∃ d, (unit s d).detail ≠ .none) ∧
     b.getLsbD 3 = f.ejector ∧ b.getLsbD 4 = f.supply ∧ b.getLsbD 5 = f.accounting ∧ b.getLsbD 6 = f.transmit ∧
     b.getLsbD 7 = f.switch)

/-- R188, R190, R191, R176: a CLEAR of COUNTS to this station or to all sets the eight counters to 0 and no
more; a CLEAR of FAULTS clears the flags, returns FAULTED drivers to IDLE and every detail to none, so that
with no JAMMED pocket and no FAULTED bank only SWITCH and ACCOUNTING may stand again; BOTH does both. R172:
the hold binding of a driver so returned requests it, in the EJECT band at 100 %, where its feature is
effectively LIT and the spent mark clear. Outside the game states, and for another station, none is taken.
R124, R37: a CLEAR of FAULTS or of BOTH restarts what failed: a JAMMED pocket takes its stuck balls back as
held, one of them resting in IDLE, owes what its jam left owed, be it nothing (against R111's table for
EJECT-WAIT: the model's choice, log entry 43), and starts an eject with a LOCK FREED offered, its driver
requested at 100 % or more (R117), in an entry or, with the queue full, from the waiting list; a FAULTED bank
is RESETTING at attempt 1 with its reset driver requested likewise. Where several drivers, pockets or banks
restart, they do so in ascending number (the model's choice, log entry 41). After a CLEAR of BOTH every
counter is 0, TX DROPS too (the model's choice, log entry 45); a LOCK FREED that a queue full of URGENT and
GAME entries refuses (R75) leaves TRANSMIT set (the model's choice, log entry 47), and with room for every
restart's LOCK FREED it is clear. -/
def Obligations.ClearFaultsAndCounts : Prop :=
  (∀ (o : StationNo) (a : Byte) (s : State),
     let mine := inGame s = true ∧ (a.toNat = s.control.strap.val ∨ a.toNat = 255)
     let quiet := (∀ p, (pocket s p).phase ≠ .jammed) ∧ ∀ b, (bank s b).phase ≠ .faulted
     let flags : FaultFlags := { noFlags with
       switch := s.scanner.switches.any fun x => x.stuck
       accounting := sumNegative s }
     let sound : DriverCtl := { s.drivers with units := s.drivers.units.map fun u => { u with
       detail := .none, phase := if u.phase = .faulted then .idle else u.phase } }
     let asked : DriverCtl := (eachUp 8 (fun d w =>
       if (unit s d).phase = .faulted ∧ (unit s d).spent = false ∧
           (driverCfg s d).binding.any (fun f => effective s f == .lit) then request d .eject 100 (.hold d) w
       else w) { s with drivers := sound }).drivers
     (hears o (.clear a 2) s →
       let u := received o (.clear a 2) s
       (mine → ∃ t, exec (.clearCounts o a) s = .next t ∧
         settles { u with control := { u.control with counters := .fill 8 0 } } t) ∧
       (¬ mine → ∃ t, exec (.clearCounts o a) s = .next t ∧ settles u t)) ∧
     (hears o (.clear a 1) s →
       let u := received o (.clear a 1) s
       (mine → quiet → ∃ t, exec (.clearFaults o a) s = .next t ∧
         settles { u with control := { u.control with flags := flags }, drivers := asked } t) ∧
       (¬ mine → ∃ t, exec (.clearFaults o a) s = .next t ∧ settles u t)) ∧
     (hears o (.clear a 3) s →
       let u := received o (.clear a 3) s
       (mine → quiet → ∃ t, exec (.clearBoth o a) s = .next t ∧
         settles { u with control := { u.control with flags := flags, counters := .fill 8 0 }, drivers := asked } t) ∧
       (¬ mine → ∃ t, exec (.clearBoth o a) s = .next t ∧ settles u t))) ∧
  (∀ (both : Bool) (o : StationNo) (a : Byte) (p : PocketNo) (c : PocketCfg) (s : State),
     hears o (.clear a (if both then 3 else 1)) s →
     inGame s = true → a.toNat = s.control.strap.val ∨ a.toNat = 255 → (pocket s p).phase = .jammed →
     pocketCfg s p = some c →
     let x := pocket s p
     let rest := if s.control.station = .idle ∧ 0 < x.stuck then 1 else 0
     ∃ t, exec (if both then .clearBoth o a else .clearFaults o a) s = .next t ∧
       pocket t p = { x with
         held := x.stuck - rest, resting := rest, stuck := 0, pending := min x.jam x.stuck, kickout := none
         phase := .ejectWait, attempt := 1, window := none, rearm := none } ∧
       ((∃ e ∈ t.drivers.queue, e.driver = c.driver ∧ .pocket p ∈ e.requesters ∧ 100 ≤ e.percent) ∨
         .pocket p ∈ t.drivers.waiting) ∧
       (s.link.queue.length ≤ 12 → s.link.queue.any TxEntry.isCensus = false → ∃ e ∈ t.link.queue, e.bulletin = .lock {
         event := 4, pocket := p, player := BitVec.ofNat 8 (s.rules.current.val + 1), credit := 0
         held := BitVec.ofNat 8 (x.stuck - rest), stuck := 0 }) ∧
       (let q := (received o (.clear a (if both then 3 else 1)) s).link.queue
        (q.length = 16 → (∀ e ∈ q, e.onLine = false → e.bulletin.cls ≤ 1) → t.control.flags.transmit = true) ∧
        (q.length ≤ 12 → t.control.flags.transmit = false)) ∧
       (∀ q, (pocket s q).phase ≠ .jammed ∨ pocketCfg s q = none → pocket t q = pocket s q) ∧
       (both = true → ∀ k, t.control.counters.get k = 0) ∧
       t.control.flags.ejector = false ∧ t.rules.tallies = s.rules.tallies ∧ t.modes = s.modes) ∧
  (∀ (both : Bool) (o : StationNo) (a : Byte) (b : BankNo) (c : BankCfg) (d : DriverNo) (s : State),
     hears o (.clear a (if both then 3 else 1)) s →
     inGame s = true → a.toNat = s.control.strap.val ∨ a.toNat = 255 → (bank s b).phase = .faulted →
     bankCfg s b = some c → c.resetDriver = some d →
     ∃ t, exec (if both then .clearBoth o a else .clearFaults o a) s = .next t ∧
       bank t b = { phase := .resetting, attempt := 1, timer := none, restart := true } ∧
       (∀ k, (bank s k).phase ≠ .faulted ∨ bankCfg s k = none → bank t k = bank s k) ∧
       (∀ f, resting t f = resting s f) ∧ (∀ i, t.rules.marks.get i = s.rules.marks.get i) ∧
       (both = true → ∀ k, t.control.counters.get k = 0) ∧
       ((∃ e ∈ t.drivers.queue, e.driver = d ∧ .bank b ∈ e.requesters ∧ 100 ≤ e.percent) ∨
         .bank b ∈ t.drivers.waiting) ∧ t.control.flags.ejector = false)

end
end

