-- ==== Sys2Proof/Laws/State.lean ====
section
/-! SUPPORT. One lemma for each field of State under each block update: the updated block, and every other
field as it was. -/

namespace Sys2Proof.Machine

/-! ## Control -/

@[simp] theorem State.mapControl_pending (f : Control → Control) (s : State) :
    (s.mapControl f).pending = s.pending := rfl
@[simp] theorem State.mapControl_control (f : Control → Control) (s : State) :
    (s.mapControl f).control = f s.control := rfl
@[simp] theorem State.mapControl_scanner (f : Control → Control) (s : State) :
    (s.mapControl f).scanner = s.scanner := rfl
@[simp] theorem State.mapControl_analog (f : Control → Control) (s : State) :
    (s.mapControl f).analog = s.analog := rfl
@[simp] theorem State.mapControl_rules (f : Control → Control) (s : State) :
    (s.mapControl f).rules = s.rules := rfl
@[simp] theorem State.mapControl_modes (f : Control → Control) (s : State) :
    (s.mapControl f).modes = s.modes := rfl
@[simp] theorem State.mapControl_pockets (f : Control → Control) (s : State) :
    (s.mapControl f).pockets = s.pockets := rfl
@[simp] theorem State.mapControl_balls (f : Control → Control) (s : State) :
    (s.mapControl f).balls = s.balls := rfl
@[simp] theorem State.mapControl_trough (f : Control → Control) (s : State) :
    (s.mapControl f).trough = s.trough := rfl
@[simp] theorem State.mapControl_link (f : Control → Control) (s : State) :
    (s.mapControl f).link = s.link := rfl
@[simp] theorem State.mapControl_peers (f : Control → Control) (s : State) :
    (s.mapControl f).peers = s.peers := rfl
@[simp] theorem State.mapControl_drivers (f : Control → Control) (s : State) :
    (s.mapControl f).drivers = s.drivers := rfl
@[simp] theorem State.mapControl_lamps (f : Control → Control) (s : State) :
    (s.mapControl f).lamps = s.lamps := rfl

/-! ## Scanner -/

@[simp] theorem State.mapScanner_pending (f : Scanner → Scanner) (s : State) :
    (s.mapScanner f).pending = s.pending := rfl
@[simp] theorem State.mapScanner_control (f : Scanner → Scanner) (s : State) :
    (s.mapScanner f).control = s.control := rfl
@[simp] theorem State.mapScanner_scanner (f : Scanner → Scanner) (s : State) :
    (s.mapScanner f).scanner = f s.scanner := rfl
@[simp] theorem State.mapScanner_analog (f : Scanner → Scanner) (s : State) :
    (s.mapScanner f).analog = s.analog := rfl
@[simp] theorem State.mapScanner_rules (f : Scanner → Scanner) (s : State) :
    (s.mapScanner f).rules = s.rules := rfl
@[simp] theorem State.mapScanner_modes (f : Scanner → Scanner) (s : State) :
    (s.mapScanner f).modes = s.modes := rfl
@[simp] theorem State.mapScanner_pockets (f : Scanner → Scanner) (s : State) :
    (s.mapScanner f).pockets = s.pockets := rfl
@[simp] theorem State.mapScanner_balls (f : Scanner → Scanner) (s : State) :
    (s.mapScanner f).balls = s.balls := rfl
@[simp] theorem State.mapScanner_trough (f : Scanner → Scanner) (s : State) :
    (s.mapScanner f).trough = s.trough := rfl
@[simp] theorem State.mapScanner_link (f : Scanner → Scanner) (s : State) :
    (s.mapScanner f).link = s.link := rfl
@[simp] theorem State.mapScanner_peers (f : Scanner → Scanner) (s : State) :
    (s.mapScanner f).peers = s.peers := rfl
@[simp] theorem State.mapScanner_drivers (f : Scanner → Scanner) (s : State) :
    (s.mapScanner f).drivers = s.drivers := rfl
@[simp] theorem State.mapScanner_lamps (f : Scanner → Scanner) (s : State) :
    (s.mapScanner f).lamps = s.lamps := rfl

/-! ## Analog -/

@[simp] theorem State.mapAnalog_pending (f : Analog → Analog) (s : State) :
    (s.mapAnalog f).pending = s.pending := rfl
@[simp] theorem State.mapAnalog_control (f : Analog → Analog) (s : State) :
    (s.mapAnalog f).control = s.control := rfl
@[simp] theorem State.mapAnalog_scanner (f : Analog → Analog) (s : State) :
    (s.mapAnalog f).scanner = s.scanner := rfl
@[simp] theorem State.mapAnalog_analog (f : Analog → Analog) (s : State) :
    (s.mapAnalog f).analog = f s.analog := rfl
@[simp] theorem State.mapAnalog_rules (f : Analog → Analog) (s : State) :
    (s.mapAnalog f).rules = s.rules := rfl
@[simp] theorem State.mapAnalog_modes (f : Analog → Analog) (s : State) :
    (s.mapAnalog f).modes = s.modes := rfl
@[simp] theorem State.mapAnalog_pockets (f : Analog → Analog) (s : State) :
    (s.mapAnalog f).pockets = s.pockets := rfl
@[simp] theorem State.mapAnalog_balls (f : Analog → Analog) (s : State) :
    (s.mapAnalog f).balls = s.balls := rfl
@[simp] theorem State.mapAnalog_trough (f : Analog → Analog) (s : State) :
    (s.mapAnalog f).trough = s.trough := rfl
@[simp] theorem State.mapAnalog_link (f : Analog → Analog) (s : State) :
    (s.mapAnalog f).link = s.link := rfl
@[simp] theorem State.mapAnalog_peers (f : Analog → Analog) (s : State) :
    (s.mapAnalog f).peers = s.peers := rfl
@[simp] theorem State.mapAnalog_drivers (f : Analog → Analog) (s : State) :
    (s.mapAnalog f).drivers = s.drivers := rfl
@[simp] theorem State.mapAnalog_lamps (f : Analog → Analog) (s : State) :
    (s.mapAnalog f).lamps = s.lamps := rfl

/-! ## Rules -/

@[simp] theorem State.mapRules_pending (f : RuleEngine → RuleEngine) (s : State) :
    (s.mapRules f).pending = s.pending := rfl
@[simp] theorem State.mapRules_control (f : RuleEngine → RuleEngine) (s : State) :
    (s.mapRules f).control = s.control := rfl
@[simp] theorem State.mapRules_scanner (f : RuleEngine → RuleEngine) (s : State) :
    (s.mapRules f).scanner = s.scanner := rfl
@[simp] theorem State.mapRules_analog (f : RuleEngine → RuleEngine) (s : State) :
    (s.mapRules f).analog = s.analog := rfl
@[simp] theorem State.mapRules_rules (f : RuleEngine → RuleEngine) (s : State) :
    (s.mapRules f).rules = f s.rules := rfl
@[simp] theorem State.mapRules_modes (f : RuleEngine → RuleEngine) (s : State) :
    (s.mapRules f).modes = s.modes := rfl
@[simp] theorem State.mapRules_pockets (f : RuleEngine → RuleEngine) (s : State) :
    (s.mapRules f).pockets = s.pockets := rfl
@[simp] theorem State.mapRules_balls (f : RuleEngine → RuleEngine) (s : State) :
    (s.mapRules f).balls = s.balls := rfl
@[simp] theorem State.mapRules_trough (f : RuleEngine → RuleEngine) (s : State) :
    (s.mapRules f).trough = s.trough := rfl
@[simp] theorem State.mapRules_link (f : RuleEngine → RuleEngine) (s : State) :
    (s.mapRules f).link = s.link := rfl
@[simp] theorem State.mapRules_peers (f : RuleEngine → RuleEngine) (s : State) :
    (s.mapRules f).peers = s.peers := rfl
@[simp] theorem State.mapRules_drivers (f : RuleEngine → RuleEngine) (s : State) :
    (s.mapRules f).drivers = s.drivers := rfl
@[simp] theorem State.mapRules_lamps (f : RuleEngine → RuleEngine) (s : State) :
    (s.mapRules f).lamps = s.lamps := rfl

/-! ## Modes -/

@[simp] theorem State.mapModes_pending (f : Tab 32 (Option ModeEntry) → Tab 32 (Option ModeEntry)) (s : State) :
    (s.mapModes f).pending = s.pending := rfl
@[simp] theorem State.mapModes_control (f : Tab 32 (Option ModeEntry) → Tab 32 (Option ModeEntry)) (s : State) :
    (s.mapModes f).control = s.control := rfl
@[simp] theorem State.mapModes_scanner (f : Tab 32 (Option ModeEntry) → Tab 32 (Option ModeEntry)) (s : State) :
    (s.mapModes f).scanner = s.scanner := rfl
@[simp] theorem State.mapModes_analog (f : Tab 32 (Option ModeEntry) → Tab 32 (Option ModeEntry)) (s : State) :
    (s.mapModes f).analog = s.analog := rfl
@[simp] theorem State.mapModes_rules (f : Tab 32 (Option ModeEntry) → Tab 32 (Option ModeEntry)) (s : State) :
    (s.mapModes f).rules = s.rules := rfl
@[simp] theorem State.mapModes_modes (f : Tab 32 (Option ModeEntry) → Tab 32 (Option ModeEntry)) (s : State) :
    (s.mapModes f).modes = f s.modes := rfl
@[simp] theorem State.mapModes_pockets (f : Tab 32 (Option ModeEntry) → Tab 32 (Option ModeEntry)) (s : State) :
    (s.mapModes f).pockets = s.pockets := rfl
@[simp] theorem State.mapModes_balls (f : Tab 32 (Option ModeEntry) → Tab 32 (Option ModeEntry)) (s : State) :
    (s.mapModes f).balls = s.balls := rfl
@[simp] theorem State.mapModes_trough (f : Tab 32 (Option ModeEntry) → Tab 32 (Option ModeEntry)) (s : State) :
    (s.mapModes f).trough = s.trough := rfl
@[simp] theorem State.mapModes_link (f : Tab 32 (Option ModeEntry) → Tab 32 (Option ModeEntry)) (s : State) :
    (s.mapModes f).link = s.link := rfl
@[simp] theorem State.mapModes_peers (f : Tab 32 (Option ModeEntry) → Tab 32 (Option ModeEntry)) (s : State) :
    (s.mapModes f).peers = s.peers := rfl
@[simp] theorem State.mapModes_drivers (f : Tab 32 (Option ModeEntry) → Tab 32 (Option ModeEntry)) (s : State) :
    (s.mapModes f).drivers = s.drivers := rfl
@[simp] theorem State.mapModes_lamps (f : Tab 32 (Option ModeEntry) → Tab 32 (Option ModeEntry)) (s : State) :
    (s.mapModes f).lamps = s.lamps := rfl

/-! ## Pockets -/

@[simp] theorem State.mapPockets_pending (f : PocketCtl → PocketCtl) (s : State) :
    (s.mapPockets f).pending = s.pending := rfl
@[simp] theorem State.mapPockets_control (f : PocketCtl → PocketCtl) (s : State) :
    (s.mapPockets f).control = s.control := rfl
@[simp] theorem State.mapPockets_scanner (f : PocketCtl → PocketCtl) (s : State) :
    (s.mapPockets f).scanner = s.scanner := rfl
@[simp] theorem State.mapPockets_analog (f : PocketCtl → PocketCtl) (s : State) :
    (s.mapPockets f).analog = s.analog := rfl
@[simp] theorem State.mapPockets_rules (f : PocketCtl → PocketCtl) (s : State) :
    (s.mapPockets f).rules = s.rules := rfl
@[simp] theorem State.mapPockets_modes (f : PocketCtl → PocketCtl) (s : State) :
    (s.mapPockets f).modes = s.modes := rfl
@[simp] theorem State.mapPockets_pockets (f : PocketCtl → PocketCtl) (s : State) :
    (s.mapPockets f).pockets = f s.pockets := rfl
@[simp] theorem State.mapPockets_balls (f : PocketCtl → PocketCtl) (s : State) :
    (s.mapPockets f).balls = s.balls := rfl
@[simp] theorem State.mapPockets_trough (f : PocketCtl → PocketCtl) (s : State) :
    (s.mapPockets f).trough = s.trough := rfl
@[simp] theorem State.mapPockets_link (f : PocketCtl → PocketCtl) (s : State) :
    (s.mapPockets f).link = s.link := rfl
@[simp] theorem State.mapPockets_peers (f : PocketCtl → PocketCtl) (s : State) :
    (s.mapPockets f).peers = s.peers := rfl
@[simp] theorem State.mapPockets_drivers (f : PocketCtl → PocketCtl) (s : State) :
    (s.mapPockets f).drivers = s.drivers := rfl
@[simp] theorem State.mapPockets_lamps (f : PocketCtl → PocketCtl) (s : State) :
    (s.mapPockets f).lamps = s.lamps := rfl

/-! ## Balls -/

@[simp] theorem State.mapBalls_pending (f : Balls → Balls) (s : State) :
    (s.mapBalls f).pending = s.pending := rfl
@[simp] theorem State.mapBalls_control (f : Balls → Balls) (s : State) :
    (s.mapBalls f).control = s.control := rfl
@[simp] theorem State.mapBalls_scanner (f : Balls → Balls) (s : State) :
    (s.mapBalls f).scanner = s.scanner := rfl
@[simp] theorem State.mapBalls_analog (f : Balls → Balls) (s : State) :
    (s.mapBalls f).analog = s.analog := rfl
@[simp] theorem State.mapBalls_rules (f : Balls → Balls) (s : State) :
    (s.mapBalls f).rules = s.rules := rfl
@[simp] theorem State.mapBalls_modes (f : Balls → Balls) (s : State) :
    (s.mapBalls f).modes = s.modes := rfl
@[simp] theorem State.mapBalls_pockets (f : Balls → Balls) (s : State) :
    (s.mapBalls f).pockets = s.pockets := rfl
@[simp] theorem State.mapBalls_balls (f : Balls → Balls) (s : State) :
    (s.mapBalls f).balls = f s.balls := rfl
@[simp] theorem State.mapBalls_trough (f : Balls → Balls) (s : State) :
    (s.mapBalls f).trough = s.trough := rfl
@[simp] theorem State.mapBalls_link (f : Balls → Balls) (s : State) :
    (s.mapBalls f).link = s.link := rfl
@[simp] theorem State.mapBalls_peers (f : Balls → Balls) (s : State) :
    (s.mapBalls f).peers = s.peers := rfl
@[simp] theorem State.mapBalls_drivers (f : Balls → Balls) (s : State) :
    (s.mapBalls f).drivers = s.drivers := rfl
@[simp] theorem State.mapBalls_lamps (f : Balls → Balls) (s : State) :
    (s.mapBalls f).lamps = s.lamps := rfl

/-! ## Trough -/

@[simp] theorem State.mapTrough_pending (f : TroughCtl → TroughCtl) (s : State) :
    (s.mapTrough f).pending = s.pending := rfl
@[simp] theorem State.mapTrough_control (f : TroughCtl → TroughCtl) (s : State) :
    (s.mapTrough f).control = s.control := rfl
@[simp] theorem State.mapTrough_scanner (f : TroughCtl → TroughCtl) (s : State) :
    (s.mapTrough f).scanner = s.scanner := rfl
@[simp] theorem State.mapTrough_analog (f : TroughCtl → TroughCtl) (s : State) :
    (s.mapTrough f).analog = s.analog := rfl
@[simp] theorem State.mapTrough_rules (f : TroughCtl → TroughCtl) (s : State) :
    (s.mapTrough f).rules = s.rules := rfl
@[simp] theorem State.mapTrough_modes (f : TroughCtl → TroughCtl) (s : State) :
    (s.mapTrough f).modes = s.modes := rfl
@[simp] theorem State.mapTrough_pockets (f : TroughCtl → TroughCtl) (s : State) :
    (s.mapTrough f).pockets = s.pockets := rfl
@[simp] theorem State.mapTrough_balls (f : TroughCtl → TroughCtl) (s : State) :
    (s.mapTrough f).balls = s.balls := rfl
@[simp] theorem State.mapTrough_trough (f : TroughCtl → TroughCtl) (s : State) :
    (s.mapTrough f).trough = f s.trough := rfl
@[simp] theorem State.mapTrough_link (f : TroughCtl → TroughCtl) (s : State) :
    (s.mapTrough f).link = s.link := rfl
@[simp] theorem State.mapTrough_peers (f : TroughCtl → TroughCtl) (s : State) :
    (s.mapTrough f).peers = s.peers := rfl
@[simp] theorem State.mapTrough_drivers (f : TroughCtl → TroughCtl) (s : State) :
    (s.mapTrough f).drivers = s.drivers := rfl
@[simp] theorem State.mapTrough_lamps (f : TroughCtl → TroughCtl) (s : State) :
    (s.mapTrough f).lamps = s.lamps := rfl

/-! ## Link -/

@[simp] theorem State.mapLink_pending (f : LinkCtl → LinkCtl) (s : State) :
    (s.mapLink f).pending = s.pending := rfl
@[simp] theorem State.mapLink_control (f : LinkCtl → LinkCtl) (s : State) :
    (s.mapLink f).control = s.control := rfl
@[simp] theorem State.mapLink_scanner (f : LinkCtl → LinkCtl) (s : State) :
    (s.mapLink f).scanner = s.scanner := rfl
@[simp] theorem State.mapLink_analog (f : LinkCtl → LinkCtl) (s : State) :
    (s.mapLink f).analog = s.analog := rfl
@[simp] theorem State.mapLink_rules (f : LinkCtl → LinkCtl) (s : State) :
    (s.mapLink f).rules = s.rules := rfl
@[simp] theorem State.mapLink_modes (f : LinkCtl → LinkCtl) (s : State) :
    (s.mapLink f).modes = s.modes := rfl
@[simp] theorem State.mapLink_pockets (f : LinkCtl → LinkCtl) (s : State) :
    (s.mapLink f).pockets = s.pockets := rfl
@[simp] theorem State.mapLink_balls (f : LinkCtl → LinkCtl) (s : State) :
    (s.mapLink f).balls = s.balls := rfl
@[simp] theorem State.mapLink_trough (f : LinkCtl → LinkCtl) (s : State) :
    (s.mapLink f).trough = s.trough := rfl
@[simp] theorem State.mapLink_link (f : LinkCtl → LinkCtl) (s : State) :
    (s.mapLink f).link = f s.link := rfl
@[simp] theorem State.mapLink_peers (f : LinkCtl → LinkCtl) (s : State) :
    (s.mapLink f).peers = s.peers := rfl
@[simp] theorem State.mapLink_drivers (f : LinkCtl → LinkCtl) (s : State) :
    (s.mapLink f).drivers = s.drivers := rfl
@[simp] theorem State.mapLink_lamps (f : LinkCtl → LinkCtl) (s : State) :
    (s.mapLink f).lamps = s.lamps := rfl

/-! ## Peers -/

@[simp] theorem State.mapPeers_pending (f : PeerView → PeerView) (s : State) :
    (s.mapPeers f).pending = s.pending := rfl
@[simp] theorem State.mapPeers_control (f : PeerView → PeerView) (s : State) :
    (s.mapPeers f).control = s.control := rfl
@[simp] theorem State.mapPeers_scanner (f : PeerView → PeerView) (s : State) :
    (s.mapPeers f).scanner = s.scanner := rfl
@[simp] theorem State.mapPeers_analog (f : PeerView → PeerView) (s : State) :
    (s.mapPeers f).analog = s.analog := rfl
@[simp] theorem State.mapPeers_rules (f : PeerView → PeerView) (s : State) :
    (s.mapPeers f).rules = s.rules := rfl
@[simp] theorem State.mapPeers_modes (f : PeerView → PeerView) (s : State) :
    (s.mapPeers f).modes = s.modes := rfl
@[simp] theorem State.mapPeers_pockets (f : PeerView → PeerView) (s : State) :
    (s.mapPeers f).pockets = s.pockets := rfl
@[simp] theorem State.mapPeers_balls (f : PeerView → PeerView) (s : State) :
    (s.mapPeers f).balls = s.balls := rfl
@[simp] theorem State.mapPeers_trough (f : PeerView → PeerView) (s : State) :
    (s.mapPeers f).trough = s.trough := rfl
@[simp] theorem State.mapPeers_link (f : PeerView → PeerView) (s : State) :
    (s.mapPeers f).link = s.link := rfl
@[simp] theorem State.mapPeers_peers (f : PeerView → PeerView) (s : State) :
    (s.mapPeers f).peers = f s.peers := rfl
@[simp] theorem State.mapPeers_drivers (f : PeerView → PeerView) (s : State) :
    (s.mapPeers f).drivers = s.drivers := rfl
@[simp] theorem State.mapPeers_lamps (f : PeerView → PeerView) (s : State) :
    (s.mapPeers f).lamps = s.lamps := rfl

/-! ## Drivers -/

@[simp] theorem State.mapDrivers_pending (f : DriverCtl → DriverCtl) (s : State) :
    (s.mapDrivers f).pending = s.pending := rfl
@[simp] theorem State.mapDrivers_control (f : DriverCtl → DriverCtl) (s : State) :
    (s.mapDrivers f).control = s.control := rfl
@[simp] theorem State.mapDrivers_scanner (f : DriverCtl → DriverCtl) (s : State) :
    (s.mapDrivers f).scanner = s.scanner := rfl
@[simp] theorem State.mapDrivers_analog (f : DriverCtl → DriverCtl) (s : State) :
    (s.mapDrivers f).analog = s.analog := rfl
@[simp] theorem State.mapDrivers_rules (f : DriverCtl → DriverCtl) (s : State) :
    (s.mapDrivers f).rules = s.rules := rfl
@[simp] theorem State.mapDrivers_modes (f : DriverCtl → DriverCtl) (s : State) :
    (s.mapDrivers f).modes = s.modes := rfl
@[simp] theorem State.mapDrivers_pockets (f : DriverCtl → DriverCtl) (s : State) :
    (s.mapDrivers f).pockets = s.pockets := rfl
@[simp] theorem State.mapDrivers_balls (f : DriverCtl → DriverCtl) (s : State) :
    (s.mapDrivers f).balls = s.balls := rfl
@[simp] theorem State.mapDrivers_trough (f : DriverCtl → DriverCtl) (s : State) :
    (s.mapDrivers f).trough = s.trough := rfl
@[simp] theorem State.mapDrivers_link (f : DriverCtl → DriverCtl) (s : State) :
    (s.mapDrivers f).link = s.link := rfl
@[simp] theorem State.mapDrivers_peers (f : DriverCtl → DriverCtl) (s : State) :
    (s.mapDrivers f).peers = s.peers := rfl
@[simp] theorem State.mapDrivers_drivers (f : DriverCtl → DriverCtl) (s : State) :
    (s.mapDrivers f).drivers = f s.drivers := rfl
@[simp] theorem State.mapDrivers_lamps (f : DriverCtl → DriverCtl) (s : State) :
    (s.mapDrivers f).lamps = s.lamps := rfl

/-! ## Lamps -/

@[simp] theorem State.mapLamps_pending (f : Lamps → Lamps) (s : State) :
    (s.mapLamps f).pending = s.pending := rfl
@[simp] theorem State.mapLamps_control (f : Lamps → Lamps) (s : State) :
    (s.mapLamps f).control = s.control := rfl
@[simp] theorem State.mapLamps_scanner (f : Lamps → Lamps) (s : State) :
    (s.mapLamps f).scanner = s.scanner := rfl
@[simp] theorem State.mapLamps_analog (f : Lamps → Lamps) (s : State) :
    (s.mapLamps f).analog = s.analog := rfl
@[simp] theorem State.mapLamps_rules (f : Lamps → Lamps) (s : State) :
    (s.mapLamps f).rules = s.rules := rfl
@[simp] theorem State.mapLamps_modes (f : Lamps → Lamps) (s : State) :
    (s.mapLamps f).modes = s.modes := rfl
@[simp] theorem State.mapLamps_pockets (f : Lamps → Lamps) (s : State) :
    (s.mapLamps f).pockets = s.pockets := rfl
@[simp] theorem State.mapLamps_balls (f : Lamps → Lamps) (s : State) :
    (s.mapLamps f).balls = s.balls := rfl
@[simp] theorem State.mapLamps_trough (f : Lamps → Lamps) (s : State) :
    (s.mapLamps f).trough = s.trough := rfl
@[simp] theorem State.mapLamps_link (f : Lamps → Lamps) (s : State) :
    (s.mapLamps f).link = s.link := rfl
@[simp] theorem State.mapLamps_peers (f : Lamps → Lamps) (s : State) :
    (s.mapLamps f).peers = s.peers := rfl
@[simp] theorem State.mapLamps_drivers (f : Lamps → Lamps) (s : State) :
    (s.mapLamps f).drivers = s.drivers := rfl
@[simp] theorem State.mapLamps_lamps (f : Lamps → Lamps) (s : State) :
    (s.mapLamps f).lamps = f s.lamps := rfl

/-! ## The station state -/

@[simp] theorem setStation_pending (st : StationState) (s : State) : (setStation st s).pending = s.pending := rfl
@[simp] theorem setStation_control (st : StationState) (s : State) :
    (setStation st s).control = { s.control with station := st } := rfl
@[simp] theorem setStation_scanner (st : StationState) (s : State) : (setStation st s).scanner = s.scanner := rfl
@[simp] theorem setStation_analog (st : StationState) (s : State) : (setStation st s).analog = s.analog := rfl
@[simp] theorem setStation_rules (st : StationState) (s : State) : (setStation st s).rules = s.rules := rfl
@[simp] theorem setStation_modes (st : StationState) (s : State) : (setStation st s).modes = s.modes := rfl
@[simp] theorem setStation_pockets (st : StationState) (s : State) : (setStation st s).pockets = s.pockets := rfl
@[simp] theorem setStation_balls (st : StationState) (s : State) : (setStation st s).balls = s.balls := rfl
@[simp] theorem setStation_trough (st : StationState) (s : State) : (setStation st s).trough = s.trough := rfl
@[simp] theorem setStation_link (st : StationState) (s : State) : (setStation st s).link = s.link := rfl
@[simp] theorem setStation_peers (st : StationState) (s : State) : (setStation st s).peers = s.peers := rfl
@[simp] theorem setStation_drivers (st : StationState) (s : State) : (setStation st s).drivers = s.drivers := rfl
@[simp] theorem setStation_lamps (st : StationState) (s : State) : (setStation st s).lamps = s.lamps := rfl

end Sys2Proof.Machine
end

