-- ==== Sys2Proof/Laws/Tables.lean ====
section
/-! SUPPORT. Lemmas of tables: what is read after a write, and folds over them. -/

namespace Sys2Proof

namespace Tab

variable {n : Nat} {α β : Type}

/-- Two tables of the same entries are the same table. -/
theorem ext_cells {t u : Tab n α} (h : t.cells = u.cells) : t = u := by
  cases t; cases u; cases h; rfl

/-- A table is its entries in order. -/
theorem cells_getElem (t : Tab n α) (i : Fin n) (h : i.val < t.cells.length) : t.cells[i.val] = t.get i := rfl

/-- Two tables that read alike everywhere are the same table. -/
theorem ext_get {t u : Tab n α} (h : ∀ i, t.get i = u.get i) : t = u := by
  apply ext_cells
  apply List.ext_getElem (by rw [t.size, u.size])
  intro i h1 h2
  exact h ⟨i, by rw [← t.size]; exact h1⟩

/-- An entry just written reads back. -/
@[simp] theorem get_set_self (t : Tab n α) (i : Fin n) (v : α) : (t.set i v).get i = v := by
  simp [get, set]

/-- A write leaves every other entry as it was. -/
theorem get_set_other (t : Tab n α) {i j : Fin n} (v : α) (h : j ≠ i) : (t.set i v).get j = t.get j := by
  have : i.val ≠ j.val := fun e => h (Fin.ext e.symm)
  simp [get, set, this]

/-- A read after a write. -/
theorem get_set (t : Tab n α) (i j : Fin n) (v : α) : (t.set i v).get j = if j = i then v else t.get j := by
  by_cases h : j = i
  · subst h; simp
  · simp [h, get_set_other]

/-- An entry changed by `f`. -/
@[simp] theorem get_modify_self (t : Tab n α) (i : Fin n) (f : α → α) : (t.modify i f).get i = f (t.get i) := by
  simp [modify]

/-- A change of one entry leaves every other as it was. -/
theorem get_modify_other (t : Tab n α) {i j : Fin n} (f : α → α) (h : j ≠ i) :
    (t.modify i f).get j = t.get j := by
  simp [modify, get_set_other, h]

/-- A read after a change. -/
theorem get_modify (t : Tab n α) (i j : Fin n) (f : α → α) :
    (t.modify i f).get j = if j = i then f (t.get i) else t.get j := by
  simp [modify, get_set]

/-- A mapped table. -/
@[simp] theorem get_map (t : Tab n α) (f : α → β) (i : Fin n) : (t.map f).get i = f (t.get i) := by
  simp [get, map]

/-- A table made from a function. -/
@[simp] theorem get_ofFn (f : Fin n → α) (i : Fin n) : (Tab.ofFn f).get i = f i := by
  simp [get, ofFn]

/-- A table of one thing. -/
@[simp] theorem get_fill (v : α) (i : Fin n) : (Tab.fill n v).get i = v := by
  simp [get, fill]

/-- Writing what stands there changes nothing. -/
@[simp] theorem set_get (t : Tab n α) (i : Fin n) : t.set i (t.get i) = t := by
  apply ext_get; intro j; rw [get_set]; split <;> simp_all

end Tab

/-- What every pass keeps, a fold over a list keeps. -/
theorem foldl_keeps {σ α τ : Type} (g : σ → τ) (f : σ → α → σ) (h : ∀ s a, g (f s a) = g s) :
    ∀ (l : List α) (s : σ), g (l.foldl f s) = g s
  | [], _ => rfl
  | a :: l, s => by rw [List.foldl_cons, foldl_keeps g f h l, h]

/-- What each number's pass keeps, `eachUp` keeps. -/
theorem eachUp_keeps {σ τ : Type} {n : Nat} (g : σ → τ) (f : Fin n → σ → σ) (h : ∀ i s, g (f i s) = g s) (s : σ) :
    g (eachUp n f s) = g s :=
  foldl_keeps g (fun t i => f i t) (fun t i => h i t) _ _

/-- A property that every pass keeps, a fold over a list keeps. -/
theorem foldl_inv {σ α : Type} (P : σ → Prop) (f : σ → α → σ) (h : ∀ s a, P s → P (f s a)) :
    ∀ (l : List α) (s : σ), P s → P (l.foldl f s)
  | [], _, hs => hs
  | a :: l, s, hs => foldl_inv P f h l (f s a) (h s a hs)

/-- A property that each number's pass keeps, `eachUp` keeps. -/
theorem eachUp_inv {σ : Type} {n : Nat} (P : σ → Prop) (f : Fin n → σ → σ) (h : ∀ i s, P s → P (f i s)) (s : σ)
    (hs : P s) : P (eachUp n f s) :=
  foldl_inv P (fun t i => f i t) (fun t i => h i t) _ _ hs

end Sys2Proof
end

