-- ==== Sys2Proof/Laws/Frames.lean ====
section
/-! SUPPORT. Frames: one lemma for each shared operation, naming every block of the state that it leaves
as it was. simp takes each part of the conjunction as a rewrite. -/

namespace Sys2Proof.Machine

/-! ## Flags and counters (R188, R190) -/

/-- `setFlag` changes control alone. -/
@[simp] theorem setFlag_frame (f : Flag) (s : State) :
      (setFlag f s).pending = s.pending ∧
      (setFlag f s).scanner = s.scanner ∧
      (setFlag f s).analog = s.analog ∧
      (setFlag f s).rules = s.rules ∧
      (setFlag f s).modes = s.modes ∧
      (setFlag f s).pockets = s.pockets ∧
      (setFlag f s).balls = s.balls ∧
      (setFlag f s).trough = s.trough ∧
      (setFlag f s).link = s.link ∧
      (setFlag f s).peers = s.peers ∧
      (setFlag f s).drivers = s.drivers ∧
      (setFlag f s).lamps = s.lamps := by
  unfold setFlag; simp

/-- `raiseCounter` changes control alone. -/
@[simp] theorem raiseCounter_frame (c : Counter) (s : State) :
      (raiseCounter c s).pending = s.pending ∧
      (raiseCounter c s).scanner = s.scanner ∧
      (raiseCounter c s).analog = s.analog ∧
      (raiseCounter c s).rules = s.rules ∧
      (raiseCounter c s).modes = s.modes ∧
      (raiseCounter c s).pockets = s.pockets ∧
      (raiseCounter c s).balls = s.balls ∧
      (raiseCounter c s).trough = s.trough ∧
      (raiseCounter c s).link = s.link ∧
      (raiseCounter c s).peers = s.peers ∧
      (raiseCounter c s).drivers = s.drivers ∧
      (raiseCounter c s).lamps = s.lamps := by
  unfold raiseCounter; simp

/-- `clearFlags` changes control alone. -/
@[simp] theorem clearFlags_frame (s : State) :
      (clearFlags s).pending = s.pending ∧
      (clearFlags s).scanner = s.scanner ∧
      (clearFlags s).analog = s.analog ∧
      (clearFlags s).rules = s.rules ∧
      (clearFlags s).modes = s.modes ∧
      (clearFlags s).pockets = s.pockets ∧
      (clearFlags s).balls = s.balls ∧
      (clearFlags s).trough = s.trough ∧
      (clearFlags s).link = s.link ∧
      (clearFlags s).peers = s.peers ∧
      (clearFlags s).drivers = s.drivers ∧
      (clearFlags s).lamps = s.lamps := by
  unfold clearFlags; simp

/-- `clearCounters` changes control alone. -/
@[simp] theorem clearCounters_frame (s : State) :
      (clearCounters s).pending = s.pending ∧
      (clearCounters s).scanner = s.scanner ∧
      (clearCounters s).analog = s.analog ∧
      (clearCounters s).rules = s.rules ∧
      (clearCounters s).modes = s.modes ∧
      (clearCounters s).pockets = s.pockets ∧
      (clearCounters s).balls = s.balls ∧
      (clearCounters s).trough = s.trough ∧
      (clearCounters s).link = s.link ∧
      (clearCounters s).peers = s.peers ∧
      (clearCounters s).drivers = s.drivers ∧
      (clearCounters s).lamps = s.lamps := by
  unfold clearCounters; simp

/-! ## The transmit queue (R68 to R76) -/

/-- `offer` changes control, link alone. -/
@[simp] theorem offer_frame (b : Bulletin) (s : State) :
      (offer b s).pending = s.pending ∧
      (offer b s).scanner = s.scanner ∧
      (offer b s).analog = s.analog ∧
      (offer b s).rules = s.rules ∧
      (offer b s).modes = s.modes ∧
      (offer b s).pockets = s.pockets ∧
      (offer b s).balls = s.balls ∧
      (offer b s).trough = s.trough ∧
      (offer b s).peers = s.peers ∧
      (offer b s).drivers = s.drivers ∧
      (offer b s).lamps = s.lamps := by
  unfold offer; (try dsimp only); (repeat' split) <;> simp

/-- `offerAside` changes control, link alone. -/
@[simp] theorem offerAside_frame (s : State) :
      (offerAside s).pending = s.pending ∧
      (offerAside s).scanner = s.scanner ∧
      (offerAside s).analog = s.analog ∧
      (offerAside s).rules = s.rules ∧
      (offerAside s).modes = s.modes ∧
      (offerAside s).pockets = s.pockets ∧
      (offerAside s).balls = s.balls ∧
      (offerAside s).trough = s.trough ∧
      (offerAside s).peers = s.peers ∧
      (offerAside s).drivers = s.drivers ∧
      (offerAside s).lamps = s.lamps := by
  unfold offerAside; (repeat' split) <;> simp

/-! ## Pulse requests (R168, R173) -/

/-- `mapUnit` changes drivers alone. -/
@[simp] theorem mapUnit_frame (d : DriverNo) (f : DriverState → DriverState) (s : State) :
      (mapUnit d f s).pending = s.pending ∧
      (mapUnit d f s).control = s.control ∧
      (mapUnit d f s).scanner = s.scanner ∧
      (mapUnit d f s).analog = s.analog ∧
      (mapUnit d f s).rules = s.rules ∧
      (mapUnit d f s).modes = s.modes ∧
      (mapUnit d f s).pockets = s.pockets ∧
      (mapUnit d f s).balls = s.balls ∧
      (mapUnit d f s).trough = s.trough ∧
      (mapUnit d f s).link = s.link ∧
      (mapUnit d f s).peers = s.peers ∧
      (mapUnit d f s).lamps = s.lamps := by
  unfold mapUnit; simp

/-- `leaveRecycle` changes drivers alone. -/
@[simp] theorem leaveRecycle_frame (d : DriverNo) (s : State) :
      (leaveRecycle d s).pending = s.pending ∧
      (leaveRecycle d s).control = s.control ∧
      (leaveRecycle d s).scanner = s.scanner ∧
      (leaveRecycle d s).analog = s.analog ∧
      (leaveRecycle d s).rules = s.rules ∧
      (leaveRecycle d s).modes = s.modes ∧
      (leaveRecycle d s).pockets = s.pockets ∧
      (leaveRecycle d s).balls = s.balls ∧
      (leaveRecycle d s).trough = s.trough ∧
      (leaveRecycle d s).link = s.link ∧
      (leaveRecycle d s).peers = s.peers ∧
      (leaveRecycle d s).lamps = s.lamps := by
  unfold leaveRecycle; (repeat' split) <;> simp

/-- `enterRecycle` changes drivers alone. -/
@[simp] theorem enterRecycle_frame (d : DriverNo) (s : State) :
      (enterRecycle d s).pending = s.pending ∧
      (enterRecycle d s).control = s.control ∧
      (enterRecycle d s).scanner = s.scanner ∧
      (enterRecycle d s).analog = s.analog ∧
      (enterRecycle d s).rules = s.rules ∧
      (enterRecycle d s).modes = s.modes ∧
      (enterRecycle d s).pockets = s.pockets ∧
      (enterRecycle d s).balls = s.balls ∧
      (enterRecycle d s).trough = s.trough ∧
      (enterRecycle d s).link = s.link ∧
      (enterRecycle d s).peers = s.peers ∧
      (enterRecycle d s).lamps = s.lamps := by
  unfold enterRecycle; (try dsimp only); (repeat' split) <;> simp

/-- `request` changes control, drivers alone. -/
@[simp] theorem request_frame (d : DriverNo) (b : Band) (n : Nat) (r : Requester) (s : State) :
      (request d b n r s).pending = s.pending ∧
      (request d b n r s).scanner = s.scanner ∧
      (request d b n r s).analog = s.analog ∧
      (request d b n r s).rules = s.rules ∧
      (request d b n r s).modes = s.modes ∧
      (request d b n r s).pockets = s.pockets ∧
      (request d b n r s).balls = s.balls ∧
      (request d b n r s).trough = s.trough ∧
      (request d b n r s).link = s.link ∧
      (request d b n r s).peers = s.peers ∧
      (request d b n r s).lamps = s.lamps := by
  unfold request; (repeat' split) <;> simp

/-! ## Features and hold bindings (R20, R172) -/

/-- `requestHold` changes control, drivers alone. -/
@[simp] theorem requestHold_frame (d : DriverNo) (s : State) :
      (requestHold d s).pending = s.pending ∧
      (requestHold d s).scanner = s.scanner ∧
      (requestHold d s).analog = s.analog ∧
      (requestHold d s).rules = s.rules ∧
      (requestHold d s).modes = s.modes ∧
      (requestHold d s).pockets = s.pockets ∧
      (requestHold d s).balls = s.balls ∧
      (requestHold d s).trough = s.trough ∧
      (requestHold d s).link = s.link ∧
      (requestHold d s).peers = s.peers ∧
      (requestHold d s).lamps = s.lamps := by
  unfold requestHold; (repeat' split) <;> simp

/-- `releaseHold` changes drivers alone. -/
@[simp] theorem releaseHold_frame (d : DriverNo) (s : State) :
      (releaseHold d s).pending = s.pending ∧
      (releaseHold d s).control = s.control ∧
      (releaseHold d s).scanner = s.scanner ∧
      (releaseHold d s).analog = s.analog ∧
      (releaseHold d s).rules = s.rules ∧
      (releaseHold d s).modes = s.modes ∧
      (releaseHold d s).pockets = s.pockets ∧
      (releaseHold d s).balls = s.balls ∧
      (releaseHold d s).trough = s.trough ∧
      (releaseHold d s).link = s.link ∧
      (releaseHold d s).peers = s.peers ∧
      (releaseHold d s).lamps = s.lamps := by
  unfold releaseHold; (try dsimp only); (repeat' split) <;> simp

/-- `followLit` changes control, drivers alone. -/
@[simp] theorem followLit_frame (x y : State) (d : DriverNo) (s : State) :
      (followLit x y d s).pending = s.pending ∧
      (followLit x y d s).scanner = s.scanner ∧
      (followLit x y d s).analog = s.analog ∧
      (followLit x y d s).rules = s.rules ∧
      (followLit x y d s).modes = s.modes ∧
      (followLit x y d s).pockets = s.pockets ∧
      (followLit x y d s).balls = s.balls ∧
      (followLit x y d s).trough = s.trough ∧
      (followLit x y d s).link = s.link ∧
      (followLit x y d s).peers = s.peers ∧
      (followLit x y d s).lamps = s.lamps := by
  unfold followLit; (repeat' split) <;> simp

/-- What a change of the feature or mode table keeps, the hold bindings that follow it keep, where it is not
of Station Control or the drivers. -/
theorem changeLit_keeps {τ : Type} (k : State → τ) (hk : ∀ x y d s, k (followLit x y d s) = k s)
    (g : State → State) (s : State) : k (changeLit g s) = k (g s) := eachUp_keeps k _ (fun i t => hk _ _ i t) _

/-- `changeLit g` changes what `g` changes, Station Control and the drivers alone. -/
@[simp] theorem changeLit_frame (g : State → State) (s : State) :
      (changeLit g s).pending = (g s).pending ∧
      (changeLit g s).scanner = (g s).scanner ∧
      (changeLit g s).analog = (g s).analog ∧
      (changeLit g s).rules = (g s).rules ∧
      (changeLit g s).modes = (g s).modes ∧
      (changeLit g s).pockets = (g s).pockets ∧
      (changeLit g s).balls = (g s).balls ∧
      (changeLit g s).trough = (g s).trough ∧
      (changeLit g s).link = (g s).link ∧
      (changeLit g s).peers = (g s).peers ∧
      (changeLit g s).lamps = (g s).lamps := by
  refine ⟨?_, ?_, ?_, ?_, ?_, ?_, ?_, ?_, ?_, ?_, ?_⟩ <;> exact changeLit_keeps _ (by simp) _ _

/-- `setFeature` changes control, rules, drivers alone. -/
@[simp] theorem setFeature_frame (f : FeatureNo) (r : Resting) (s : State) :
      (setFeature f r s).pending = s.pending ∧
      (setFeature f r s).scanner = s.scanner ∧
      (setFeature f r s).analog = s.analog ∧
      (setFeature f r s).modes = s.modes ∧
      (setFeature f r s).pockets = s.pockets ∧
      (setFeature f r s).balls = s.balls ∧
      (setFeature f r s).trough = s.trough ∧
      (setFeature f r s).link = s.link ∧
      (setFeature f r s).peers = s.peers ∧
      (setFeature f r s).lamps = s.lamps := by
  simp [setFeature]

/-! ## The mode table (R93 to R106) -/

/-- `putMode` changes modes alone. -/
@[simp] theorem putMode_frame (m : ModeId) (e : Option ModeEntry) (s : State) :
      (putMode m e s).pending = s.pending ∧
      (putMode m e s).control = s.control ∧
      (putMode m e s).scanner = s.scanner ∧
      (putMode m e s).analog = s.analog ∧
      (putMode m e s).rules = s.rules ∧
      (putMode m e s).pockets = s.pockets ∧
      (putMode m e s).balls = s.balls ∧
      (putMode m e s).trough = s.trough ∧
      (putMode m e s).link = s.link ∧
      (putMode m e s).peers = s.peers ∧
      (putMode m e s).drivers = s.drivers ∧
      (putMode m e s).lamps = s.lamps := by
  unfold putMode; simp

/-- `makeMode` changes control, modes, drivers alone. -/
@[simp] theorem makeMode_frame (m : ModeId) (d : ModeDef) (o : StationNo) (x : ModeTime) (s : State) :
      (makeMode m d o x s).pending = s.pending ∧
      (makeMode m d o x s).scanner = s.scanner ∧
      (makeMode m d o x s).analog = s.analog ∧
      (makeMode m d o x s).rules = s.rules ∧
      (makeMode m d o x s).pockets = s.pockets ∧
      (makeMode m d o x s).balls = s.balls ∧
      (makeMode m d o x s).trough = s.trough ∧
      (makeMode m d o x s).link = s.link ∧
      (makeMode m d o x s).peers = s.peers ∧
      (makeMode m d o x s).lamps = s.lamps := by
  simp [makeMode]

/-- `endMode` changes control, modes, drivers alone. -/
@[simp] theorem endMode_frame (m : ModeId) (s : State) :
      (endMode m s).pending = s.pending ∧
      (endMode m s).scanner = s.scanner ∧
      (endMode m s).analog = s.analog ∧
      (endMode m s).rules = s.rules ∧
      (endMode m s).pockets = s.pockets ∧
      (endMode m s).balls = s.balls ∧
      (endMode m s).trough = s.trough ∧
      (endMode m s).link = s.link ∧
      (endMode m s).peers = s.peers ∧
      (endMode m s).lamps = s.lamps := by
  simp [endMode]

/-- `endModes` changes control, modes, drivers alone. -/
@[simp] theorem endModes_frame (p : ModeId → ModeEntry → Bool) (s : State) :
      (endModes p s).pending = s.pending ∧
      (endModes p s).scanner = s.scanner ∧
      (endModes p s).analog = s.analog ∧
      (endModes p s).rules = s.rules ∧
      (endModes p s).pockets = s.pockets ∧
      (endModes p s).balls = s.balls ∧
      (endModes p s).trough = s.trough ∧
      (endModes p s).link = s.link ∧
      (endModes p s).peers = s.peers ∧
      (endModes p s).lamps = s.lamps := by
  exact ⟨eachUp_keeps State.pending _ (by intro i t; (repeat' split) <;> simp) s,
    eachUp_keeps State.scanner _ (by intro i t; (repeat' split) <;> simp) s,
    eachUp_keeps State.analog _ (by intro i t; (repeat' split) <;> simp) s,
    eachUp_keeps State.rules _ (by intro i t; (repeat' split) <;> simp) s,
    eachUp_keeps State.pockets _ (by intro i t; (repeat' split) <;> simp) s,
    eachUp_keeps State.balls _ (by intro i t; (repeat' split) <;> simp) s,
    eachUp_keeps State.trough _ (by intro i t; (repeat' split) <;> simp) s,
    eachUp_keeps State.link _ (by intro i t; (repeat' split) <;> simp) s,
    eachUp_keeps State.peers _ (by intro i t; (repeat' split) <;> simp) s,
    eachUp_keeps State.lamps _ (by intro i t; (repeat' split) <;> simp) s⟩

/-- `startMode` changes control, modes, drivers alone. -/
@[simp] theorem startMode_frame (m : ModeId) (o : StationNo) (n : Nat) (s : State) :
      (startMode m o n s).pending = s.pending ∧
      (startMode m o n s).scanner = s.scanner ∧
      (startMode m o n s).analog = s.analog ∧
      (startMode m o n s).rules = s.rules ∧
      (startMode m o n s).pockets = s.pockets ∧
      (startMode m o n s).balls = s.balls ∧
      (startMode m o n s).trough = s.trough ∧
      (startMode m o n s).link = s.link ∧
      (startMode m o n s).peers = s.peers ∧
      (startMode m o n s).lamps = s.lamps := by
  unfold startMode; (try dsimp only); (repeat' split) <;> simp

/-- `offerModeEnd` changes control, modes, link alone. -/
@[simp] theorem offerModeEnd_frame (m : ModeId) (s : State) :
      (offerModeEnd m s).pending = s.pending ∧
      (offerModeEnd m s).scanner = s.scanner ∧
      (offerModeEnd m s).analog = s.analog ∧
      (offerModeEnd m s).rules = s.rules ∧
      (offerModeEnd m s).pockets = s.pockets ∧
      (offerModeEnd m s).balls = s.balls ∧
      (offerModeEnd m s).trough = s.trough ∧
      (offerModeEnd m s).peers = s.peers ∧
      (offerModeEnd m s).drivers = s.drivers ∧
      (offerModeEnd m s).lamps = s.lamps := by
  unfold offerModeEnd; (try dsimp only); (repeat' split) <;> simp

/-! ## Accounting and the search (R134, R147, R148) -/

/-- `endSearch` changes balls alone. -/
@[simp] theorem endSearch_frame (s : State) :
      (endSearch s).pending = s.pending ∧
      (endSearch s).control = s.control ∧
      (endSearch s).scanner = s.scanner ∧
      (endSearch s).analog = s.analog ∧
      (endSearch s).rules = s.rules ∧
      (endSearch s).modes = s.modes ∧
      (endSearch s).pockets = s.pockets ∧
      (endSearch s).trough = s.trough ∧
      (endSearch s).link = s.link ∧
      (endSearch s).peers = s.peers ∧
      (endSearch s).drivers = s.drivers ∧
      (endSearch s).lamps = s.lamps := by
  unfold endSearch; simp

/-- `recomputeB` changes control, balls alone. -/
@[simp] theorem recomputeB_frame (s : State) :
      (recomputeB s).pending = s.pending ∧
      (recomputeB s).scanner = s.scanner ∧
      (recomputeB s).analog = s.analog ∧
      (recomputeB s).rules = s.rules ∧
      (recomputeB s).modes = s.modes ∧
      (recomputeB s).pockets = s.pockets ∧
      (recomputeB s).trough = s.trough ∧
      (recomputeB s).link = s.link ∧
      (recomputeB s).peers = s.peers ∧
      (recomputeB s).drivers = s.drivers ∧
      (recomputeB s).lamps = s.lamps := by
  unfold recomputeB; (try dsimp only); (repeat' split) <;> simp

/-- `restartQuiet` changes balls alone. -/
@[simp] theorem restartQuiet_frame (s : State) :
      (restartQuiet s).pending = s.pending ∧
      (restartQuiet s).control = s.control ∧
      (restartQuiet s).scanner = s.scanner ∧
      (restartQuiet s).analog = s.analog ∧
      (restartQuiet s).rules = s.rules ∧
      (restartQuiet s).modes = s.modes ∧
      (restartQuiet s).pockets = s.pockets ∧
      (restartQuiet s).trough = s.trough ∧
      (restartQuiet s).link = s.link ∧
      (restartQuiet s).peers = s.peers ∧
      (restartQuiet s).drivers = s.drivers ∧
      (restartQuiet s).lamps = s.lamps := by
  unfold restartQuiet; (repeat' split) <;> simp

/-- `searchOn` changes control, balls, drivers alone. -/
@[simp] theorem searchOn_frame (l : List DriverNo) (s : State) :
      (searchOn l s).pending = s.pending ∧
      (searchOn l s).scanner = s.scanner ∧
      (searchOn l s).analog = s.analog ∧
      (searchOn l s).rules = s.rules ∧
      (searchOn l s).modes = s.modes ∧
      (searchOn l s).pockets = s.pockets ∧
      (searchOn l s).trough = s.trough ∧
      (searchOn l s).link = s.link ∧
      (searchOn l s).peers = s.peers ∧
      (searchOn l s).lamps = s.lamps := by
  induction l generalizing s with
  | nil => simp [searchOn]
  | cons d l ih => unfold searchOn; split <;> simp [ih]

/-- `searchRound` changes control, balls, drivers alone. -/
@[simp] theorem searchRound_frame (s : State) :
      (searchRound s).pending = s.pending ∧
      (searchRound s).scanner = s.scanner ∧
      (searchRound s).analog = s.analog ∧
      (searchRound s).rules = s.rules ∧
      (searchRound s).modes = s.modes ∧
      (searchRound s).pockets = s.pockets ∧
      (searchRound s).trough = s.trough ∧
      (searchRound s).link = s.link ∧
      (searchRound s).peers = s.peers ∧
      (searchRound s).lamps = s.lamps := by
  unfold searchRound; simp

/-! ## The award, banks and hits (R18 to R48) -/

/-- `award` changes control, rules, link alone. -/
@[simp] theorem award_frame (p : Player) (v : Nat) (g : Fin 8) (k : Scoring) (s : State) :
      (award p v g k s).pending = s.pending ∧
      (award p v g k s).scanner = s.scanner ∧
      (award p v g k s).analog = s.analog ∧
      (award p v g k s).modes = s.modes ∧
      (award p v g k s).pockets = s.pockets ∧
      (award p v g k s).balls = s.balls ∧
      (award p v g k s).trough = s.trough ∧
      (award p v g k s).peers = s.peers ∧
      (award p v g k s).drivers = s.drivers ∧
      (award p v g k s).lamps = s.lamps := by
  unfold award; (try dsimp only); (repeat' split) <;> simp

/-- `mapBank` changes rules alone. -/
@[simp] theorem mapBank_frame (b : BankNo) (f : BankState → BankState) (s : State) :
      (mapBank b f s).pending = s.pending ∧
      (mapBank b f s).control = s.control ∧
      (mapBank b f s).scanner = s.scanner ∧
      (mapBank b f s).analog = s.analog ∧
      (mapBank b f s).modes = s.modes ∧
      (mapBank b f s).pockets = s.pockets ∧
      (mapBank b f s).balls = s.balls ∧
      (mapBank b f s).trough = s.trough ∧
      (mapBank b f s).link = s.link ∧
      (mapBank b f s).peers = s.peers ∧
      (mapBank b f s).drivers = s.drivers ∧
      (mapBank b f s).lamps = s.lamps := by
  unfold mapBank; simp

/-- `setMark` changes rules alone. -/
@[simp] theorem setMark_frame (i : SwitchNo) (v : Bool) (s : State) :
      (setMark i v s).pending = s.pending ∧
      (setMark i v s).control = s.control ∧
      (setMark i v s).scanner = s.scanner ∧
      (setMark i v s).analog = s.analog ∧
      (setMark i v s).modes = s.modes ∧
      (setMark i v s).pockets = s.pockets ∧
      (setMark i v s).balls = s.balls ∧
      (setMark i v s).trough = s.trough ∧
      (setMark i v s).link = s.link ∧
      (setMark i v s).peers = s.peers ∧
      (setMark i v s).drivers = s.drivers ∧
      (setMark i v s).lamps = s.lamps := by
  unfold setMark; simp

/-- `setFeatures` changes control, rules, drivers alone. -/
@[simp] theorem setFeatures_frame (p : Resting → Bool) (r : Resting) (l : List FeatureNo) (s : State) :
      (setFeatures p r l s).pending = s.pending ∧
      (setFeatures p r l s).scanner = s.scanner ∧
      (setFeatures p r l s).analog = s.analog ∧
      (setFeatures p r l s).modes = s.modes ∧
      (setFeatures p r l s).pockets = s.pockets ∧
      (setFeatures p r l s).balls = s.balls ∧
      (setFeatures p r l s).trough = s.trough ∧
      (setFeatures p r l s).link = s.link ∧
      (setFeatures p r l s).peers = s.peers ∧
      (setFeatures p r l s).lamps = s.lamps := by
  unfold setFeatures
  refine ⟨?_, ?_, ?_, ?_, ?_, ?_, ?_, ?_, ?_, ?_⟩ <;> (refine (foldl_keeps _ _ (fun t i => ?_) _ _).trans ?_ <;> (repeat' split) <;> simp)

/-- `faultBank` changes control, rules, drivers alone. -/
@[simp] theorem faultBank_frame (b : BankNo) (c : BankCfg) (s : State) :
      (faultBank b c s).pending = s.pending ∧
      (faultBank b c s).scanner = s.scanner ∧
      (faultBank b c s).analog = s.analog ∧
      (faultBank b c s).modes = s.modes ∧
      (faultBank b c s).pockets = s.pockets ∧
      (faultBank b c s).balls = s.balls ∧
      (faultBank b c s).trough = s.trough ∧
      (faultBank b c s).link = s.link ∧
      (faultBank b c s).peers = s.peers ∧
      (faultBank b c s).lamps = s.lamps := by
  unfold faultBank; simp

/-- `askReset` changes control, rules, drivers alone. -/
@[simp] theorem askReset_frame (b : BankNo) (c : BankCfg) (s : State) :
      (askReset b c s).pending = s.pending ∧
      (askReset b c s).scanner = s.scanner ∧
      (askReset b c s).analog = s.analog ∧
      (askReset b c s).modes = s.modes ∧
      (askReset b c s).pockets = s.pockets ∧
      (askReset b c s).balls = s.balls ∧
      (askReset b c s).trough = s.trough ∧
      (askReset b c s).link = s.link ∧
      (askReset b c s).peers = s.peers ∧
      (askReset b c s).lamps = s.lamps := by
  unfold askReset; (repeat' split) <;> simp

/-- `beginReset` changes control, rules, drivers alone. -/
@[simp] theorem beginReset_frame (b : BankNo) (c : BankCfg) (x : Bool) (s : State) :
      (beginReset b c x s).pending = s.pending ∧
      (beginReset b c x s).scanner = s.scanner ∧
      (beginReset b c x s).analog = s.analog ∧
      (beginReset b c x s).modes = s.modes ∧
      (beginReset b c x s).pockets = s.pockets ∧
      (beginReset b c x s).balls = s.balls ∧
      (beginReset b c x s).trough = s.trough ∧
      (beginReset b c x s).link = s.link ∧
      (beginReset b c x s).peers = s.peers ∧
      (beginReset b c x s).lamps = s.lamps := by
  unfold beginReset; simp

/-- `dropCompletes` changes control, rules, drivers alone. -/
@[simp] theorem dropCompletes_frame (b : BankNo) (c : BankCfg) (s : State) :
      (dropCompletes b c s).pending = s.pending ∧
      (dropCompletes b c s).scanner = s.scanner ∧
      (dropCompletes b c s).analog = s.analog ∧
      (dropCompletes b c s).modes = s.modes ∧
      (dropCompletes b c s).pockets = s.pockets ∧
      (dropCompletes b c s).balls = s.balls ∧
      (dropCompletes b c s).trough = s.trough ∧
      (dropCompletes b c s).link = s.link ∧
      (dropCompletes b c s).peers = s.peers ∧
      (dropCompletes b c s).lamps = s.lamps := by
  unfold dropCompletes; simp

/-- `confirmBank` changes control, rules, drivers alone. -/
@[simp] theorem confirmBank_frame (b : BankNo) (c : BankCfg) (s : State) :
      (confirmBank b c s).pending = s.pending ∧
      (confirmBank b c s).scanner = s.scanner ∧
      (confirmBank b c s).analog = s.analog ∧
      (confirmBank b c s).modes = s.modes ∧
      (confirmBank b c s).pockets = s.pockets ∧
      (confirmBank b c s).balls = s.balls ∧
      (confirmBank b c s).trough = s.trough ∧
      (confirmBank b c s).link = s.link ∧
      (confirmBank b c s).peers = s.peers ∧
      (confirmBank b c s).lamps = s.lamps := by
  unfold confirmBank; (try dsimp only); simp

/-- `clearMarks` changes rules alone. -/
@[simp] theorem clearMarks_frame (c : BankCfg) (s : State) :
      (clearMarks c s).pending = s.pending ∧
      (clearMarks c s).control = s.control ∧
      (clearMarks c s).scanner = s.scanner ∧
      (clearMarks c s).analog = s.analog ∧
      (clearMarks c s).modes = s.modes ∧
      (clearMarks c s).pockets = s.pockets ∧
      (clearMarks c s).balls = s.balls ∧
      (clearMarks c s).trough = s.trough ∧
      (clearMarks c s).link = s.link ∧
      (clearMarks c s).peers = s.peers ∧
      (clearMarks c s).drivers = s.drivers ∧
      (clearMarks c s).lamps = s.lamps := by
  unfold clearMarks
  refine ⟨?_, ?_, ?_, ?_, ?_, ?_, ?_, ?_, ?_, ?_, ?_, ?_⟩ <;> (refine (foldl_keeps _ _ (fun t i => ?_) _ _).trans ?_ <;> simp)

/-- `collectAction` changes control, rules, link alone. -/
@[simp] theorem collectAction_frame (m : ModeId) (g : Fin 8) (s : State) :
      (collectAction m g s).pending = s.pending ∧
      (collectAction m g s).scanner = s.scanner ∧
      (collectAction m g s).analog = s.analog ∧
      (collectAction m g s).modes = s.modes ∧
      (collectAction m g s).pockets = s.pockets ∧
      (collectAction m g s).balls = s.balls ∧
      (collectAction m g s).trough = s.trough ∧
      (collectAction m g s).peers = s.peers ∧
      (collectAction m g s).drivers = s.drivers ∧
      (collectAction m g s).lamps = s.lamps := by
  unfold collectAction; (try dsimp only); (repeat' split) <;> simp

/-- `lightFeature` changes control, rules, drivers alone. -/
@[simp] theorem lightFeature_frame (f : FeatureNo) (s : State) :
      (lightFeature f s).pending = s.pending ∧
      (lightFeature f s).scanner = s.scanner ∧
      (lightFeature f s).analog = s.analog ∧
      (lightFeature f s).modes = s.modes ∧
      (lightFeature f s).pockets = s.pockets ∧
      (lightFeature f s).balls = s.balls ∧
      (lightFeature f s).trough = s.trough ∧
      (lightFeature f s).link = s.link ∧
      (lightFeature f s).peers = s.peers ∧
      (lightFeature f s).lamps = s.lamps := by
  unfold lightFeature; (repeat' split) <;> simp

/-- `scoredCompletion` leaves whatever its action leaves, of what banks and awards leave. -/
@[simp] theorem scoredCompletion_pending (act : Action → Fin 8 → State → State) (b : BankNo) (c : BankCfg) (i : SwitchNo)
    (h : ∀ a g t, (act a g t).pending = t.pending) (s : State) : (scoredCompletion act b c i s).pending = s.pending := by
  unfold scoredCompletion; (try dsimp only); (repeat' split) <;> simp [h]
@[simp] theorem scoredCompletion_scanner (act : Action → Fin 8 → State → State) (b : BankNo) (c : BankCfg) (i : SwitchNo)
    (h : ∀ a g t, (act a g t).scanner = t.scanner) (s : State) : (scoredCompletion act b c i s).scanner = s.scanner := by
  unfold scoredCompletion; (try dsimp only); (repeat' split) <;> simp [h]
@[simp] theorem scoredCompletion_analog (act : Action → Fin 8 → State → State) (b : BankNo) (c : BankCfg) (i : SwitchNo)
    (h : ∀ a g t, (act a g t).analog = t.analog) (s : State) : (scoredCompletion act b c i s).analog = s.analog := by
  unfold scoredCompletion; (try dsimp only); (repeat' split) <;> simp [h]
@[simp] theorem scoredCompletion_modes (act : Action → Fin 8 → State → State) (b : BankNo) (c : BankCfg) (i : SwitchNo)
    (h : ∀ a g t, (act a g t).modes = t.modes) (s : State) : (scoredCompletion act b c i s).modes = s.modes := by
  unfold scoredCompletion; (try dsimp only); (repeat' split) <;> simp [h]
@[simp] theorem scoredCompletion_pockets (act : Action → Fin 8 → State → State) (b : BankNo) (c : BankCfg) (i : SwitchNo)
    (h : ∀ a g t, (act a g t).pockets = t.pockets) (s : State) : (scoredCompletion act b c i s).pockets = s.pockets := by
  unfold scoredCompletion; (try dsimp only); (repeat' split) <;> simp [h]
@[simp] theorem scoredCompletion_balls (act : Action → Fin 8 → State → State) (b : BankNo) (c : BankCfg) (i : SwitchNo)
    (h : ∀ a g t, (act a g t).balls = t.balls) (s : State) : (scoredCompletion act b c i s).balls = s.balls := by
  unfold scoredCompletion; (try dsimp only); (repeat' split) <;> simp [h]
@[simp] theorem scoredCompletion_trough (act : Action → Fin 8 → State → State) (b : BankNo) (c : BankCfg) (i : SwitchNo)
    (h : ∀ a g t, (act a g t).trough = t.trough) (s : State) : (scoredCompletion act b c i s).trough = s.trough := by
  unfold scoredCompletion; (try dsimp only); (repeat' split) <;> simp [h]
@[simp] theorem scoredCompletion_peers (act : Action → Fin 8 → State → State) (b : BankNo) (c : BankCfg) (i : SwitchNo)
    (h : ∀ a g t, (act a g t).peers = t.peers) (s : State) : (scoredCompletion act b c i s).peers = s.peers := by
  unfold scoredCompletion; (try dsimp only); (repeat' split) <;> simp [h]
@[simp] theorem scoredCompletion_lamps (act : Action → Fin 8 → State → State) (b : BankNo) (c : BankCfg) (i : SwitchNo)
    (h : ∀ a g t, (act a g t).lamps = t.lamps) (s : State) : (scoredCompletion act b c i s).lamps = s.lamps := by
  unfold scoredCompletion; (try dsimp only); (repeat' split) <;> simp [h]

/-- `markMember` leaves whatever its action leaves, of what banks and awards leave. -/
@[simp] theorem markMember_pending (act : Action → Fin 8 → State → State) (b : BankNo) (c : BankCfg) (i : SwitchNo)
    (h : ∀ a g t, (act a g t).pending = t.pending) (s : State) : (markMember act b c i s).pending = s.pending := by
  unfold markMember; (try dsimp only); (repeat' split) <;> simp [h]
@[simp] theorem markMember_scanner (act : Action → Fin 8 → State → State) (b : BankNo) (c : BankCfg) (i : SwitchNo)
    (h : ∀ a g t, (act a g t).scanner = t.scanner) (s : State) : (markMember act b c i s).scanner = s.scanner := by
  unfold markMember; (try dsimp only); (repeat' split) <;> simp [h]
@[simp] theorem markMember_analog (act : Action → Fin 8 → State → State) (b : BankNo) (c : BankCfg) (i : SwitchNo)
    (h : ∀ a g t, (act a g t).analog = t.analog) (s : State) : (markMember act b c i s).analog = s.analog := by
  unfold markMember; (try dsimp only); (repeat' split) <;> simp [h]
@[simp] theorem markMember_modes (act : Action → Fin 8 → State → State) (b : BankNo) (c : BankCfg) (i : SwitchNo)
    (h : ∀ a g t, (act a g t).modes = t.modes) (s : State) : (markMember act b c i s).modes = s.modes := by
  unfold markMember; (try dsimp only); (repeat' split) <;> simp [h]
@[simp] theorem markMember_pockets (act : Action → Fin 8 → State → State) (b : BankNo) (c : BankCfg) (i : SwitchNo)
    (h : ∀ a g t, (act a g t).pockets = t.pockets) (s : State) : (markMember act b c i s).pockets = s.pockets := by
  unfold markMember; (try dsimp only); (repeat' split) <;> simp [h]
@[simp] theorem markMember_balls (act : Action → Fin 8 → State → State) (b : BankNo) (c : BankCfg) (i : SwitchNo)
    (h : ∀ a g t, (act a g t).balls = t.balls) (s : State) : (markMember act b c i s).balls = s.balls := by
  unfold markMember; (try dsimp only); (repeat' split) <;> simp [h]
@[simp] theorem markMember_trough (act : Action → Fin 8 → State → State) (b : BankNo) (c : BankCfg) (i : SwitchNo)
    (h : ∀ a g t, (act a g t).trough = t.trough) (s : State) : (markMember act b c i s).trough = s.trough := by
  unfold markMember; (try dsimp only); (repeat' split) <;> simp [h]
@[simp] theorem markMember_peers (act : Action → Fin 8 → State → State) (b : BankNo) (c : BankCfg) (i : SwitchNo)
    (h : ∀ a g t, (act a g t).peers = t.peers) (s : State) : (markMember act b c i s).peers = s.peers := by
  unfold markMember; (try dsimp only); (repeat' split) <;> simp [h]
@[simp] theorem markMember_lamps (act : Action → Fin 8 → State → State) (b : BankNo) (c : BankCfg) (i : SwitchNo)
    (h : ∀ a g t, (act a g t).lamps = t.lamps) (s : State) : (markMember act b c i s).lamps = s.lamps := by
  unfold markMember; (try dsimp only); (repeat' split) <;> simp [h]

/-- `takeAction` changes control, rules, link, drivers alone. -/
@[simp] theorem takeAction_frame (n : Nat) (a : Action) (g : Fin 8) (s : State) :
      (takeAction n a g s).pending = s.pending ∧
      (takeAction n a g s).scanner = s.scanner ∧
      (takeAction n a g s).analog = s.analog ∧
      (takeAction n a g s).modes = s.modes ∧
      (takeAction n a g s).pockets = s.pockets ∧
      (takeAction n a g s).balls = s.balls ∧
      (takeAction n a g s).trough = s.trough ∧
      (takeAction n a g s).peers = s.peers ∧
      (takeAction n a g s).lamps = s.lamps := by
  induction n generalizing a g s with
  | zero => cases a <;> simp [takeAction]
  | succ n ih => cases a <;> simp only [takeAction] <;> (repeat' split) <;> simp [ih]

/-- `doAction` changes control, rules, link, drivers alone. -/
@[simp] theorem doAction_frame (a : Action) (g : Fin 8) (s : State) :
      (doAction a g s).pending = s.pending ∧
      (doAction a g s).scanner = s.scanner ∧
      (doAction a g s).analog = s.analog ∧
      (doAction a g s).modes = s.modes ∧
      (doAction a g s).pockets = s.pockets ∧
      (doAction a g s).balls = s.balls ∧
      (doAction a g s).trough = s.trough ∧
      (doAction a g s).peers = s.peers ∧
      (doAction a g s).lamps = s.lamps := by
  unfold doAction; simp

/-- `standupMark` changes control, rules, link, drivers alone. -/
@[simp] theorem standupMark_frame (i : SwitchNo) (r : Rule) (s : State) :
      (standupMark i r s).pending = s.pending ∧
      (standupMark i r s).scanner = s.scanner ∧
      (standupMark i r s).analog = s.analog ∧
      (standupMark i r s).modes = s.modes ∧
      (standupMark i r s).pockets = s.pockets ∧
      (standupMark i r s).balls = s.balls ∧
      (standupMark i r s).trough = s.trough ∧
      (standupMark i r s).peers = s.peers ∧
      (standupMark i r s).lamps = s.lamps := by
  unfold standupMark; (repeat' split) <;> simp

/-- `directPulse` changes control, drivers alone. -/
@[simp] theorem directPulse_frame (r : Rule) (s : State) :
      (directPulse r s).pending = s.pending ∧
      (directPulse r s).scanner = s.scanner ∧
      (directPulse r s).analog = s.analog ∧
      (directPulse r s).rules = s.rules ∧
      (directPulse r s).modes = s.modes ∧
      (directPulse r s).pockets = s.pockets ∧
      (directPulse r s).balls = s.balls ∧
      (directPulse r s).trough = s.trough ∧
      (directPulse r s).link = s.link ∧
      (directPulse r s).peers = s.peers ∧
      (directPulse r s).lamps = s.lamps := by
  unfold directPulse; (repeat' split) <;> simp

/-- R35: only a BANK-MEMBER rule can be that of a member of a bank in RESETTING. -/
theorem memberResetting_of_cls_ne (s : State) (r : Rule) (h : r.cls ≠ .bankMember) : memberResetting s r = false := by
  simp [memberResetting, h]

/-- R35: for a member of configured bank `b`, whether that bank is a DROP bank in RESETTING. -/
theorem memberResetting_of_member (s : State) (r : Rule) (b : BankNo) (c : BankCfg) (hr : r.cls = .bankMember)
    (hb : fourOf r.index = some b) (hc : bankCfg s b = some c) :
    memberResetting s r = (c.isDrop && (bank s b).phase == .resetting) := by
  simp [memberResetting, hr, hb, hc]

/-- R35: a hit on a member of a bank in RESETTING changes nothing. -/
theorem hit_of_memberResetting (i : SwitchNo) (s : State) (h : memberResetting s (ruleOf s i) = true) : hit i s = s := by
  have hc : (ruleOf s i).cls = .bankMember := by
    have := h; simp only [memberResetting, Bool.and_eq_true, beq_iff_eq] at this; exact this.1
  have hd : directPulse (ruleOf s i) s = s := by unfold directPulse; split <;> simp [hc]
  simp [hit, hd, hitValue, h]

/-- `hit` changes control, rules, link, drivers alone. -/
@[simp] theorem hit_frame (i : SwitchNo) (s : State) :
      (hit i s).pending = s.pending ∧
      (hit i s).scanner = s.scanner ∧
      (hit i s).analog = s.analog ∧
      (hit i s).modes = s.modes ∧
      (hit i s).pockets = s.pockets ∧
      (hit i s).balls = s.balls ∧
      (hit i s).trough = s.trough ∧
      (hit i s).peers = s.peers ∧
      (hit i s).lamps = s.lamps := by
  unfold hit; (try dsimp only); (repeat' split) <;> simp

/-- `dropMark` changes control, rules, link, drivers alone. -/
@[simp] theorem dropMark_frame (i : SwitchNo) (x : Bool) (s : State) :
      (dropMark i x s).pending = s.pending ∧
      (dropMark i x s).scanner = s.scanner ∧
      (dropMark i x s).analog = s.analog ∧
      (dropMark i x s).modes = s.modes ∧
      (dropMark i x s).pockets = s.pockets ∧
      (dropMark i x s).balls = s.balls ∧
      (dropMark i x s).trough = s.trough ∧
      (dropMark i x s).peers = s.peers ∧
      (dropMark i x s).lamps = s.lamps := by
  unfold dropMark; (try dsimp only); (repeat' split) <;> simp

/-- `ruleTakes` changes control, rules, link, drivers alone. -/
@[simp] theorem ruleTakes_frame (i : SwitchNo) (x : Bool) (s : State) :
      (ruleTakes i x s).pending = s.pending ∧
      (ruleTakes i x s).scanner = s.scanner ∧
      (ruleTakes i x s).analog = s.analog ∧
      (ruleTakes i x s).modes = s.modes ∧
      (ruleTakes i x s).pockets = s.pockets ∧
      (ruleTakes i x s).balls = s.balls ∧
      (ruleTakes i x s).trough = s.trough ∧
      (ruleTakes i x s).peers = s.peers ∧
      (ruleTakes i x s).lamps = s.lamps := by
  unfold ruleTakes; (repeat' split) <;> simp

/-- `confirmAtScan` changes control, rules, drivers alone. -/
@[simp] theorem confirmAtScan_frame (b : BankNo) (s : State) :
      (confirmAtScan b s).pending = s.pending ∧
      (confirmAtScan b s).scanner = s.scanner ∧
      (confirmAtScan b s).analog = s.analog ∧
      (confirmAtScan b s).modes = s.modes ∧
      (confirmAtScan b s).pockets = s.pockets ∧
      (confirmAtScan b s).balls = s.balls ∧
      (confirmAtScan b s).trough = s.trough ∧
      (confirmAtScan b s).link = s.link ∧
      (confirmAtScan b s).peers = s.peers ∧
      (confirmAtScan b s).lamps = s.lamps := by
  unfold confirmAtScan; (repeat' split) <;> simp

/-! ## Lock pockets (R110 to R129) -/

/-- `mapPocket` changes pockets alone. -/
@[simp] theorem mapPocket_frame (p : PocketNo) (f : PocketState → PocketState) (s : State) :
      (mapPocket p f s).pending = s.pending ∧
      (mapPocket p f s).control = s.control ∧
      (mapPocket p f s).scanner = s.scanner ∧
      (mapPocket p f s).analog = s.analog ∧
      (mapPocket p f s).rules = s.rules ∧
      (mapPocket p f s).modes = s.modes ∧
      (mapPocket p f s).balls = s.balls ∧
      (mapPocket p f s).trough = s.trough ∧
      (mapPocket p f s).link = s.link ∧
      (mapPocket p f s).peers = s.peers ∧
      (mapPocket p f s).drivers = s.drivers ∧
      (mapPocket p f s).lamps = s.lamps := by
  unfold mapPocket; simp

/-- `countPocket` changes control, pockets, balls alone. -/
@[simp] theorem countPocket_frame (p : PocketNo) (f : PocketState → PocketState) (s : State) :
      (countPocket p f s).pending = s.pending ∧
      (countPocket p f s).scanner = s.scanner ∧
      (countPocket p f s).analog = s.analog ∧
      (countPocket p f s).rules = s.rules ∧
      (countPocket p f s).modes = s.modes ∧
      (countPocket p f s).trough = s.trough ∧
      (countPocket p f s).link = s.link ∧
      (countPocket p f s).peers = s.peers ∧
      (countPocket p f s).drivers = s.drivers ∧
      (countPocket p f s).lamps = s.lamps := by
  unfold countPocket; simp

/-- `offerLock` changes control, link alone. -/
@[simp] theorem offerLock_frame (e : BitVec 4) (x : Byte) (p : PocketNo) (s : State) :
      (offerLock e x p s).pending = s.pending ∧
      (offerLock e x p s).scanner = s.scanner ∧
      (offerLock e x p s).analog = s.analog ∧
      (offerLock e x p s).rules = s.rules ∧
      (offerLock e x p s).modes = s.modes ∧
      (offerLock e x p s).pockets = s.pockets ∧
      (offerLock e x p s).balls = s.balls ∧
      (offerLock e x p s).trough = s.trough ∧
      (offerLock e x p s).peers = s.peers ∧
      (offerLock e x p s).drivers = s.drivers ∧
      (offerLock e x p s).lamps = s.lamps := by
  unfold offerLock; simp

/-- `passTurn` changes pockets alone. -/
@[simp] theorem passTurn_frame (p : PocketNo) (s : State) :
      (passTurn p s).pending = s.pending ∧
      (passTurn p s).control = s.control ∧
      (passTurn p s).scanner = s.scanner ∧
      (passTurn p s).analog = s.analog ∧
      (passTurn p s).rules = s.rules ∧
      (passTurn p s).modes = s.modes ∧
      (passTurn p s).balls = s.balls ∧
      (passTurn p s).trough = s.trough ∧
      (passTurn p s).link = s.link ∧
      (passTurn p s).peers = s.peers ∧
      (passTurn p s).drivers = s.drivers ∧
      (passTurn p s).lamps = s.lamps := by
  unfold passTurn; simp

/-- `jamPocket` changes control, pockets, balls, link alone. -/
@[simp] theorem jamPocket_frame (p : PocketNo) (s : State) :
      (jamPocket p s).pending = s.pending ∧
      (jamPocket p s).scanner = s.scanner ∧
      (jamPocket p s).analog = s.analog ∧
      (jamPocket p s).rules = s.rules ∧
      (jamPocket p s).modes = s.modes ∧
      (jamPocket p s).trough = s.trough ∧
      (jamPocket p s).peers = s.peers ∧
      (jamPocket p s).drivers = s.drivers ∧
      (jamPocket p s).lamps = s.lamps := by
  unfold jamPocket; simp

/-- `jamAtFault` changes control, pockets, balls, link alone. -/
@[simp] theorem jamAtFault_frame (p : PocketNo) (s : State) :
      (jamAtFault p s).pending = s.pending ∧
      (jamAtFault p s).scanner = s.scanner ∧
      (jamAtFault p s).analog = s.analog ∧
      (jamAtFault p s).rules = s.rules ∧
      (jamAtFault p s).modes = s.modes ∧
      (jamAtFault p s).trough = s.trough ∧
      (jamAtFault p s).peers = s.peers ∧
      (jamAtFault p s).drivers = s.drivers ∧
      (jamAtFault p s).lamps = s.lamps := by
  unfold jamAtFault; (repeat' split) <;> simp

/-- `askEject` changes control, pockets, balls, link, drivers alone. -/
@[simp] theorem askEject_frame (p : PocketNo) (c : PocketCfg) (s : State) :
      (askEject p c s).pending = s.pending ∧
      (askEject p c s).scanner = s.scanner ∧
      (askEject p c s).analog = s.analog ∧
      (askEject p c s).rules = s.rules ∧
      (askEject p c s).modes = s.modes ∧
      (askEject p c s).trough = s.trough ∧
      (askEject p c s).peers = s.peers ∧
      (askEject p c s).lamps = s.lamps := by
  unfold askEject; (repeat' split) <;> simp

/-- `startEject` changes control, pockets, balls, link, drivers alone. -/
@[simp] theorem startEject_frame (p : PocketNo) (c : PocketCfg) (n : Nat) (s : State) :
      (startEject p c n s).pending = s.pending ∧
      (startEject p c n s).scanner = s.scanner ∧
      (startEject p c n s).analog = s.analog ∧
      (startEject p c n s).rules = s.rules ∧
      (startEject p c n s).modes = s.modes ∧
      (startEject p c n s).trough = s.trough ∧
      (startEject p c n s).peers = s.peers ∧
      (startEject p c n s).lamps = s.lamps := by
  unfold startEject; simp

/-- `failEject` changes control, pockets, balls, link, drivers alone. -/
@[simp] theorem failEject_frame (p : PocketNo) (c : PocketCfg) (s : State) :
      (failEject p c s).pending = s.pending ∧
      (failEject p c s).scanner = s.scanner ∧
      (failEject p c s).analog = s.analog ∧
      (failEject p c s).rules = s.rules ∧
      (failEject p c s).modes = s.modes ∧
      (failEject p c s).trough = s.trough ∧
      (failEject p c s).peers = s.peers ∧
      (failEject p c s).lamps = s.lamps := by
  unfold failEject; (try dsimp only); (repeat' split) <;> simp

/-- `kickThrough` changes control, pockets, balls, link, drivers alone. -/
@[simp] theorem kickThrough_frame (p : PocketNo) (c : PocketCfg) (x y : Bool) (s : State) :
      (kickThrough p c x y s).pending = s.pending ∧
      (kickThrough p c x y s).scanner = s.scanner ∧
      (kickThrough p c x y s).analog = s.analog ∧
      (kickThrough p c x y s).rules = s.rules ∧
      (kickThrough p c x y s).modes = s.modes ∧
      (kickThrough p c x y s).trough = s.trough ∧
      (kickThrough p c x y s).peers = s.peers ∧
      (kickThrough p c x y s).lamps = s.lamps := by
  unfold kickThrough; (try dsimp only); (repeat' split) <;> simp

/-- `ballEnters` changes control, pockets, balls, link, drivers alone. -/
@[simp] theorem ballEnters_frame (p : PocketNo) (c : PocketCfg) (x : Bool) (s : State) :
      (ballEnters p c x s).pending = s.pending ∧
      (ballEnters p c x s).scanner = s.scanner ∧
      (ballEnters p c x s).analog = s.analog ∧
      (ballEnters p c x s).rules = s.rules ∧
      (ballEnters p c x s).modes = s.modes ∧
      (ballEnters p c x s).trough = s.trough ∧
      (ballEnters p c x s).peers = s.peers ∧
      (ballEnters p c x s).lamps = s.lamps := by
  unfold ballEnters; (try dsimp only); (repeat' split) <;> simp

/-- `closeInEmpty` changes control, pockets, balls, link, drivers alone. -/
@[simp] theorem closeInEmpty_frame (p : PocketNo) (c : PocketCfg) (s : State) :
      (closeInEmpty p c s).pending = s.pending ∧
      (closeInEmpty p c s).scanner = s.scanner ∧
      (closeInEmpty p c s).analog = s.analog ∧
      (closeInEmpty p c s).rules = s.rules ∧
      (closeInEmpty p c s).modes = s.modes ∧
      (closeInEmpty p c s).trough = s.trough ∧
      (closeInEmpty p c s).peers = s.peers ∧
      (closeInEmpty p c s).lamps = s.lamps := by
  unfold closeInEmpty; (repeat' split) <;> simp

/-- `entryCloses` changes control, pockets, balls, link, drivers alone. -/
@[simp] theorem entryCloses_frame (p : PocketNo) (c : PocketCfg) (s : State) :
      (entryCloses p c s).pending = s.pending ∧
      (entryCloses p c s).scanner = s.scanner ∧
      (entryCloses p c s).analog = s.analog ∧
      (entryCloses p c s).rules = s.rules ∧
      (entryCloses p c s).modes = s.modes ∧
      (entryCloses p c s).trough = s.trough ∧
      (entryCloses p c s).peers = s.peers ∧
      (entryCloses p c s).lamps = s.lamps := by
  unfold entryCloses; (repeat' split) <;> simp

/-- `seenEntering` changes control, pockets, balls, link, drivers alone. -/
@[simp] theorem seenEntering_frame (p : PocketNo) (c : PocketCfg) (s : State) :
      (seenEntering p c s).pending = s.pending ∧
      (seenEntering p c s).scanner = s.scanner ∧
      (seenEntering p c s).analog = s.analog ∧
      (seenEntering p c s).rules = s.rules ∧
      (seenEntering p c s).modes = s.modes ∧
      (seenEntering p c s).trough = s.trough ∧
      (seenEntering p c s).peers = s.peers ∧
      (seenEntering p c s).lamps = s.lamps := by
  unfold seenEntering; simp

/-- `afterConfirm` changes pockets alone. -/
@[simp] theorem afterConfirm_frame (p : PocketNo) (s : State) :
      (afterConfirm p s).pending = s.pending ∧
      (afterConfirm p s).control = s.control ∧
      (afterConfirm p s).scanner = s.scanner ∧
      (afterConfirm p s).analog = s.analog ∧
      (afterConfirm p s).rules = s.rules ∧
      (afterConfirm p s).modes = s.modes ∧
      (afterConfirm p s).balls = s.balls ∧
      (afterConfirm p s).trough = s.trough ∧
      (afterConfirm p s).link = s.link ∧
      (afterConfirm p s).peers = s.peers ∧
      (afterConfirm p s).drivers = s.drivers ∧
      (afterConfirm p s).lamps = s.lamps := by
  unfold afterConfirm; (repeat' split) <;> simp

/-- `confirmEject` changes control, pockets, balls, link, drivers alone. -/
@[simp] theorem confirmEject_frame (p : PocketNo) (c : PocketCfg) (s : State) :
      (confirmEject p c s).pending = s.pending ∧
      (confirmEject p c s).scanner = s.scanner ∧
      (confirmEject p c s).analog = s.analog ∧
      (confirmEject p c s).rules = s.rules ∧
      (confirmEject p c s).modes = s.modes ∧
      (confirmEject p c s).trough = s.trough ∧
      (confirmEject p c s).peers = s.peers ∧
      (confirmEject p c s).lamps = s.lamps := by
  unfold confirmEject; (try dsimp only); (repeat' split) <;> simp

/-- `lostInRelease` changes control, pockets, balls, link, drivers alone. -/
@[simp] theorem lostInRelease_frame (p : PocketNo) (c : PocketCfg) (s : State) :
      (lostInRelease p c s).pending = s.pending ∧
      (lostInRelease p c s).scanner = s.scanner ∧
      (lostInRelease p c s).analog = s.analog ∧
      (lostInRelease p c s).rules = s.rules ∧
      (lostInRelease p c s).modes = s.modes ∧
      (lostInRelease p c s).trough = s.trough ∧
      (lostInRelease p c s).peers = s.peers ∧
      (lostInRelease p c s).lamps = s.lamps := by
  unfold lostInRelease; (try dsimp only); (repeat' split) <;> simp

/-- `leftUnseen` changes control, pockets, balls, link, drivers alone. -/
@[simp] theorem leftUnseen_frame (p : PocketNo) (c : PocketCfg) (s : State) :
      (leftUnseen p c s).pending = s.pending ∧
      (leftUnseen p c s).scanner = s.scanner ∧
      (leftUnseen p c s).analog = s.analog ∧
      (leftUnseen p c s).rules = s.rules ∧
      (leftUnseen p c s).modes = s.modes ∧
      (leftUnseen p c s).trough = s.trough ∧
      (leftUnseen p c s).peers = s.peers ∧
      (leftUnseen p c s).lamps = s.lamps := by
  unfold leftUnseen; (repeat' split) <;> simp

/-- `freePocket` changes control, pockets, balls, link alone. -/
@[simp] theorem freePocket_frame (p : PocketNo) (s : State) :
      (freePocket p s).pending = s.pending ∧
      (freePocket p s).scanner = s.scanner ∧
      (freePocket p s).analog = s.analog ∧
      (freePocket p s).rules = s.rules ∧
      (freePocket p s).modes = s.modes ∧
      (freePocket p s).trough = s.trough ∧
      (freePocket p s).peers = s.peers ∧
      (freePocket p s).drivers = s.drivers ∧
      (freePocket p s).lamps = s.lamps := by
  unfold freePocket; simp

/-- `resense` changes control, pockets, balls alone. -/
@[simp] theorem resense_frame (p : PocketNo) (s : State) :
      (resense p s).pending = s.pending ∧
      (resense p s).scanner = s.scanner ∧
      (resense p s).analog = s.analog ∧
      (resense p s).rules = s.rules ∧
      (resense p s).modes = s.modes ∧
      (resense p s).trough = s.trough ∧
      (resense p s).link = s.link ∧
      (resense p s).peers = s.peers ∧
      (resense p s).drivers = s.drivers ∧
      (resense p s).lamps = s.lamps := by
  unfold resense; (repeat' split) <;> simp

/-- `pocketRound` changes control, pockets, balls, link, drivers alone. -/
@[simp] theorem pocketRound_frame (p : PocketNo) (c : PocketCfg) (x y z : Bool) (s : State) :
      (pocketRound p c x y z s).pending = s.pending ∧
      (pocketRound p c x y z s).scanner = s.scanner ∧
      (pocketRound p c x y z s).analog = s.analog ∧
      (pocketRound p c x y z s).rules = s.rules ∧
      (pocketRound p c x y z s).modes = s.modes ∧
      (pocketRound p c x y z s).trough = s.trough ∧
      (pocketRound p c x y z s).peers = s.peers ∧
      (pocketRound p c x y z s).lamps = s.lamps := by
  unfold pocketRound; (repeat' split) <;> simp

/-- `restartPocket` changes control, pockets, balls, link, drivers alone. -/
@[simp] theorem restartPocket_frame (p : PocketNo) (c : PocketCfg) (s : State) :
      (restartPocket p c s).pending = s.pending ∧
      (restartPocket p c s).scanner = s.scanner ∧
      (restartPocket p c s).analog = s.analog ∧
      (restartPocket p c s).rules = s.rules ∧
      (restartPocket p c s).modes = s.modes ∧
      (restartPocket p c s).trough = s.trough ∧
      (restartPocket p c s).peers = s.peers ∧
      (restartPocket p c s).lamps = s.lamps := by
  unfold restartPocket; (try dsimp only); (repeat' split) <;> simp

/-- `judgeAtJoin` changes control, pockets, balls, link, drivers alone. -/
@[simp] theorem judgeAtJoin_frame (p : PocketNo) (c : PocketCfg) (s : State) :
      (judgeAtJoin p c s).pending = s.pending ∧
      (judgeAtJoin p c s).scanner = s.scanner ∧
      (judgeAtJoin p c s).analog = s.analog ∧
      (judgeAtJoin p c s).rules = s.rules ∧
      (judgeAtJoin p c s).modes = s.modes ∧
      (judgeAtJoin p c s).trough = s.trough ∧
      (judgeAtJoin p c s).peers = s.peers ∧
      (judgeAtJoin p c s).lamps = s.lamps := by
  unfold judgeAtJoin; (repeat' split) <;> simp

/-- `joinRelease` changes pockets alone. -/
@[simp] theorem joinRelease_frame (p : PocketNo) (s : State) :
      (joinRelease p s).pending = s.pending ∧
      (joinRelease p s).control = s.control ∧
      (joinRelease p s).scanner = s.scanner ∧
      (joinRelease p s).analog = s.analog ∧
      (joinRelease p s).rules = s.rules ∧
      (joinRelease p s).modes = s.modes ∧
      (joinRelease p s).balls = s.balls ∧
      (joinRelease p s).trough = s.trough ∧
      (joinRelease p s).link = s.link ∧
      (joinRelease p s).peers = s.peers ∧
      (joinRelease p s).drivers = s.drivers ∧
      (joinRelease p s).lamps = s.lamps := by
  unfold joinRelease; (try dsimp only); (repeat' split) <;> simp

/-- `beginRelease` changes pockets alone. -/
@[simp] theorem beginRelease_frame (n : Nat) (s : State) :
      (beginRelease n s).pending = s.pending ∧
      (beginRelease n s).control = s.control ∧
      (beginRelease n s).scanner = s.scanner ∧
      (beginRelease n s).analog = s.analog ∧
      (beginRelease n s).rules = s.rules ∧
      (beginRelease n s).modes = s.modes ∧
      (beginRelease n s).balls = s.balls ∧
      (beginRelease n s).trough = s.trough ∧
      (beginRelease n s).link = s.link ∧
      (beginRelease n s).peers = s.peers ∧
      (beginRelease n s).drivers = s.drivers ∧
      (beginRelease n s).lamps = s.lamps := by
  exact ⟨by rw [beginRelease, State.mapPockets_pending]; exact eachUp_keeps State.pending joinRelease (by simp) s,
    by rw [beginRelease, State.mapPockets_control]; exact eachUp_keeps State.control joinRelease (by simp) s,
    by rw [beginRelease, State.mapPockets_scanner]; exact eachUp_keeps State.scanner joinRelease (by simp) s,
    by rw [beginRelease, State.mapPockets_analog]; exact eachUp_keeps State.analog joinRelease (by simp) s,
    by rw [beginRelease, State.mapPockets_rules]; exact eachUp_keeps State.rules joinRelease (by simp) s,
    by rw [beginRelease, State.mapPockets_modes]; exact eachUp_keeps State.modes joinRelease (by simp) s,
    by rw [beginRelease, State.mapPockets_balls]; exact eachUp_keeps State.balls joinRelease (by simp) s,
    by rw [beginRelease, State.mapPockets_trough]; exact eachUp_keeps State.trough joinRelease (by simp) s,
    by rw [beginRelease, State.mapPockets_link]; exact eachUp_keeps State.link joinRelease (by simp) s,
    by rw [beginRelease, State.mapPockets_peers]; exact eachUp_keeps State.peers joinRelease (by simp) s,
    by rw [beginRelease, State.mapPockets_drivers]; exact eachUp_keeps State.drivers joinRelease (by simp) s,
    by rw [beginRelease, State.mapPockets_lamps]; exact eachUp_keeps State.lamps joinRelease (by simp) s⟩

/-- `takeTurn` changes control, pockets, balls, link, drivers alone. -/
@[simp] theorem takeTurn_frame (s : State) :
      (takeTurn s).pending = s.pending ∧
      (takeTurn s).scanner = s.scanner ∧
      (takeTurn s).analog = s.analog ∧
      (takeTurn s).rules = s.rules ∧
      (takeTurn s).modes = s.modes ∧
      (takeTurn s).trough = s.trough ∧
      (takeTurn s).peers = s.peers ∧
      (takeTurn s).lamps = s.lamps := by
  unfold takeTurn; (try dsimp only); (repeat' split) <;> simp

/-! ## Serves and the trough (R136 to R141) -/

/-- `failServe` changes control, trough, drivers alone. -/
@[simp] theorem failServe_frame (s : State) :
      (failServe s).pending = s.pending ∧
      (failServe s).scanner = s.scanner ∧
      (failServe s).analog = s.analog ∧
      (failServe s).rules = s.rules ∧
      (failServe s).modes = s.modes ∧
      (failServe s).pockets = s.pockets ∧
      (failServe s).balls = s.balls ∧
      (failServe s).link = s.link ∧
      (failServe s).peers = s.peers ∧
      (failServe s).lamps = s.lamps := by
  unfold failServe; simp

/-- `askServe` changes control, trough, drivers alone. -/
@[simp] theorem askServe_frame (s : State) :
      (askServe s).pending = s.pending ∧
      (askServe s).scanner = s.scanner ∧
      (askServe s).analog = s.analog ∧
      (askServe s).rules = s.rules ∧
      (askServe s).modes = s.modes ∧
      (askServe s).pockets = s.pockets ∧
      (askServe s).balls = s.balls ∧
      (askServe s).link = s.link ∧
      (askServe s).peers = s.peers ∧
      (askServe s).lamps = s.lamps := by
  unfold askServe; (repeat' split) <;> simp

/-- `startServe` changes control, trough, drivers alone. -/
@[simp] theorem startServe_frame (n : Nat) (s : State) :
      (startServe n s).pending = s.pending ∧
      (startServe n s).scanner = s.scanner ∧
      (startServe n s).analog = s.analog ∧
      (startServe n s).rules = s.rules ∧
      (startServe n s).modes = s.modes ∧
      (startServe n s).pockets = s.pockets ∧
      (startServe n s).balls = s.balls ∧
      (startServe n s).link = s.link ∧
      (startServe n s).peers = s.peers ∧
      (startServe n s).lamps = s.lamps := by
  unfold startServe; simp

/-- `serveNext` changes control, trough, drivers alone. -/
@[simp] theorem serveNext_frame (s : State) :
      (serveNext s).pending = s.pending ∧
      (serveNext s).scanner = s.scanner ∧
      (serveNext s).analog = s.analog ∧
      (serveNext s).rules = s.rules ∧
      (serveNext s).modes = s.modes ∧
      (serveNext s).pockets = s.pockets ∧
      (serveNext s).balls = s.balls ∧
      (serveNext s).link = s.link ∧
      (serveNext s).peers = s.peers ∧
      (serveNext s).lamps = s.lamps := by
  unfold serveNext; (repeat' split) <;> simp

/-- `oweServes` changes control, trough, drivers alone. -/
@[simp] theorem oweServes_frame (n : Nat) (s : State) :
      (oweServes n s).pending = s.pending ∧
      (oweServes n s).scanner = s.scanner ∧
      (oweServes n s).analog = s.analog ∧
      (oweServes n s).rules = s.rules ∧
      (oweServes n s).modes = s.modes ∧
      (oweServes n s).pockets = s.pockets ∧
      (oweServes n s).balls = s.balls ∧
      (oweServes n s).link = s.link ∧
      (oweServes n s).peers = s.peers ∧
      (oweServes n s).lamps = s.lamps := by
  unfold oweServes; (repeat' split) <;> simp

/-- `clearServes` changes control, trough, drivers alone. -/
@[simp] theorem clearServes_frame (s : State) :
      (clearServes s).pending = s.pending ∧
      (clearServes s).scanner = s.scanner ∧
      (clearServes s).analog = s.analog ∧
      (clearServes s).rules = s.rules ∧
      (clearServes s).modes = s.modes ∧
      (clearServes s).pockets = s.pockets ∧
      (clearServes s).balls = s.balls ∧
      (clearServes s).link = s.link ∧
      (clearServes s).peers = s.peers ∧
      (clearServes s).lamps = s.lamps := by
  unfold clearServes; simp

/-- `confirmServe` changes trough alone. -/
@[simp] theorem confirmServe_frame (s : State) :
      (confirmServe s).pending = s.pending ∧
      (confirmServe s).control = s.control ∧
      (confirmServe s).scanner = s.scanner ∧
      (confirmServe s).analog = s.analog ∧
      (confirmServe s).rules = s.rules ∧
      (confirmServe s).modes = s.modes ∧
      (confirmServe s).pockets = s.pockets ∧
      (confirmServe s).balls = s.balls ∧
      (confirmServe s).link = s.link ∧
      (confirmServe s).peers = s.peers ∧
      (confirmServe s).drivers = s.drivers ∧
      (confirmServe s).lamps = s.lamps := by
  unfold confirmServe; simp

/-- `laneTurnsPresent` changes control, trough, drivers alone. -/
@[simp] theorem laneTurnsPresent_frame (s : State) :
      (laneTurnsPresent s).pending = s.pending ∧
      (laneTurnsPresent s).scanner = s.scanner ∧
      (laneTurnsPresent s).analog = s.analog ∧
      (laneTurnsPresent s).rules = s.rules ∧
      (laneTurnsPresent s).modes = s.modes ∧
      (laneTurnsPresent s).pockets = s.pockets ∧
      (laneTurnsPresent s).balls = s.balls ∧
      (laneTurnsPresent s).link = s.link ∧
      (laneTurnsPresent s).peers = s.peers ∧
      (laneTurnsPresent s).lamps = s.lamps := by
  unfold laneTurnsPresent; (repeat' split) <;> simp

/-- `failServeAttempt` changes control, trough, drivers alone. -/
@[simp] theorem failServeAttempt_frame (s : State) :
      (failServeAttempt s).pending = s.pending ∧
      (failServeAttempt s).scanner = s.scanner ∧
      (failServeAttempt s).analog = s.analog ∧
      (failServeAttempt s).rules = s.rules ∧
      (failServeAttempt s).modes = s.modes ∧
      (failServeAttempt s).pockets = s.pockets ∧
      (failServeAttempt s).balls = s.balls ∧
      (failServeAttempt s).link = s.link ∧
      (failServeAttempt s).peers = s.peers ∧
      (failServeAttempt s).lamps = s.lamps := by
  unfold failServeAttempt; (repeat' split) <;> simp

/-- `reportTrough` changes control, trough, link alone. -/
@[simp] theorem reportTrough_frame (o : Option Nat) (n : Nat) (s : State) :
      (reportTrough o n s).pending = s.pending ∧
      (reportTrough o n s).scanner = s.scanner ∧
      (reportTrough o n s).analog = s.analog ∧
      (reportTrough o n s).rules = s.rules ∧
      (reportTrough o n s).modes = s.modes ∧
      (reportTrough o n s).pockets = s.pockets ∧
      (reportTrough o n s).balls = s.balls ∧
      (reportTrough o n s).peers = s.peers ∧
      (reportTrough o n s).drivers = s.drivers ∧
      (reportTrough o n s).lamps = s.lamps := by
  unfold reportTrough; (try dsimp only); (repeat' split) <;> simp

/-- `takeTroughCount` changes control, trough, link, drivers alone. -/
@[simp] theorem takeTroughCount_frame (s : State) :
      (takeTroughCount s).pending = s.pending ∧
      (takeTroughCount s).scanner = s.scanner ∧
      (takeTroughCount s).analog = s.analog ∧
      (takeTroughCount s).rules = s.rules ∧
      (takeTroughCount s).modes = s.modes ∧
      (takeTroughCount s).pockets = s.pockets ∧
      (takeTroughCount s).balls = s.balls ∧
      (takeTroughCount s).peers = s.peers ∧
      (takeTroughCount s).lamps = s.lamps := by
  unfold takeTroughCount; (try dsimp only); (repeat' split) <;> simp

/-- `repeatTrough` changes control, link alone. -/
@[simp] theorem repeatTrough_frame (s : State) :
      (repeatTrough s).pending = s.pending ∧
      (repeatTrough s).scanner = s.scanner ∧
      (repeatTrough s).analog = s.analog ∧
      (repeatTrough s).rules = s.rules ∧
      (repeatTrough s).modes = s.modes ∧
      (repeatTrough s).pockets = s.pockets ∧
      (repeatTrough s).balls = s.balls ∧
      (repeatTrough s).trough = s.trough ∧
      (repeatTrough s).peers = s.peers ∧
      (repeatTrough s).drivers = s.drivers ∧
      (repeatTrough s).lamps = s.lamps := by
  unfold repeatTrough; (try dsimp only); (repeat' split) <;> simp

/-! ## Judgements (R142 to R146) -/

/-- `setPhase` changes balls alone. -/
@[simp] theorem setPhase_frame (p : Phase) (s : State) :
      (setPhase p s).pending = s.pending ∧
      (setPhase p s).control = s.control ∧
      (setPhase p s).scanner = s.scanner ∧
      (setPhase p s).analog = s.analog ∧
      (setPhase p s).rules = s.rules ∧
      (setPhase p s).modes = s.modes ∧
      (setPhase p s).pockets = s.pockets ∧
      (setPhase p s).trough = s.trough ∧
      (setPhase p s).link = s.link ∧
      (setPhase p s).peers = s.peers ∧
      (setPhase p s).drivers = s.drivers ∧
      (setPhase p s).lamps = s.lamps := by
  unfold setPhase; simp

/-- `startMultiModes` changes control, modes, drivers alone. -/
@[simp] theorem startMultiModes_frame (s : State) :
      (startMultiModes s).pending = s.pending ∧
      (startMultiModes s).scanner = s.scanner ∧
      (startMultiModes s).analog = s.analog ∧
      (startMultiModes s).rules = s.rules ∧
      (startMultiModes s).pockets = s.pockets ∧
      (startMultiModes s).balls = s.balls ∧
      (startMultiModes s).trough = s.trough ∧
      (startMultiModes s).link = s.link ∧
      (startMultiModes s).peers = s.peers ∧
      (startMultiModes s).lamps = s.lamps := by
  unfold startMultiModes; split
  · simp
  · exact ⟨eachUp_keeps State.pending _ (by intro i t; (repeat' split) <;> simp) s,
      eachUp_keeps State.scanner _ (by intro i t; (repeat' split) <;> simp) s,
      eachUp_keeps State.analog _ (by intro i t; (repeat' split) <;> simp) s,
      eachUp_keeps State.rules _ (by intro i t; (repeat' split) <;> simp) s,
      eachUp_keeps State.pockets _ (by intro i t; (repeat' split) <;> simp) s,
      eachUp_keeps State.balls _ (by intro i t; (repeat' split) <;> simp) s,
      eachUp_keeps State.trough _ (by intro i t; (repeat' split) <;> simp) s,
      eachUp_keeps State.link _ (by intro i t; (repeat' split) <;> simp) s,
      eachUp_keeps State.peers _ (by intro i t; (repeat' split) <;> simp) s,
      eachUp_keeps State.lamps _ (by intro i t; (repeat' split) <;> simp) s⟩

/-- `endMultiModes` changes control, modes, drivers alone. -/
@[simp] theorem endMultiModes_frame (s : State) :
      (endMultiModes s).pending = s.pending ∧
      (endMultiModes s).scanner = s.scanner ∧
      (endMultiModes s).analog = s.analog ∧
      (endMultiModes s).rules = s.rules ∧
      (endMultiModes s).pockets = s.pockets ∧
      (endMultiModes s).balls = s.balls ∧
      (endMultiModes s).trough = s.trough ∧
      (endMultiModes s).link = s.link ∧
      (endMultiModes s).peers = s.peers ∧
      (endMultiModes s).lamps = s.lamps := by
  unfold endMultiModes; simp

/-- `judgePhase` changes control, modes, balls, drivers alone. -/
@[simp] theorem judgePhase_frame (s : State) :
      (judgePhase s).pending = s.pending ∧
      (judgePhase s).scanner = s.scanner ∧
      (judgePhase s).analog = s.analog ∧
      (judgePhase s).rules = s.rules ∧
      (judgePhase s).pockets = s.pockets ∧
      (judgePhase s).trough = s.trough ∧
      (judgePhase s).link = s.link ∧
      (judgePhase s).peers = s.peers ∧
      (judgePhase s).lamps = s.lamps := by
  unfold judgePhase; (repeat' split) <;> simp

/-- `endCombo` changes rules alone. -/
@[simp] theorem endCombo_frame (s : State) :
      (endCombo s).pending = s.pending ∧
      (endCombo s).control = s.control ∧
      (endCombo s).scanner = s.scanner ∧
      (endCombo s).analog = s.analog ∧
      (endCombo s).modes = s.modes ∧
      (endCombo s).pockets = s.pockets ∧
      (endCombo s).balls = s.balls ∧
      (endCombo s).trough = s.trough ∧
      (endCombo s).link = s.link ∧
      (endCombo s).peers = s.peers ∧
      (endCombo s).drivers = s.drivers ∧
      (endCombo s).lamps = s.lamps := by
  unfold endCombo; simp

/-- `endAllModes` changes control, modes, drivers alone. -/
@[simp] theorem endAllModes_frame (s : State) :
      (endAllModes s).pending = s.pending ∧
      (endAllModes s).scanner = s.scanner ∧
      (endAllModes s).analog = s.analog ∧
      (endAllModes s).rules = s.rules ∧
      (endAllModes s).pockets = s.pockets ∧
      (endAllModes s).balls = s.balls ∧
      (endAllModes s).trough = s.trough ∧
      (endAllModes s).link = s.link ∧
      (endAllModes s).peers = s.peers ∧
      (endAllModes s).lamps = s.lamps := by
  unfold endAllModes; simp

/-- `ballOver` changes control, rules, modes, balls, trough, drivers alone. -/
@[simp] theorem ballOver_frame (s : State) :
      (ballOver s).pending = s.pending ∧
      (ballOver s).scanner = s.scanner ∧
      (ballOver s).analog = s.analog ∧
      (ballOver s).pockets = s.pockets ∧
      (ballOver s).link = s.link ∧
      (ballOver s).peers = s.peers ∧
      (ballOver s).lamps = s.lamps := by
  unfold ballOver; simp

/-- `replaceBall` changes control, trough, drivers alone. -/
@[simp] theorem replaceBall_frame (x : Bool) (s : State) :
      (replaceBall x s).pending = s.pending ∧
      (replaceBall x s).scanner = s.scanner ∧
      (replaceBall x s).analog = s.analog ∧
      (replaceBall x s).rules = s.rules ∧
      (replaceBall x s).modes = s.modes ∧
      (replaceBall x s).pockets = s.pockets ∧
      (replaceBall x s).balls = s.balls ∧
      (replaceBall x s).link = s.link ∧
      (replaceBall x s).peers = s.peers ∧
      (replaceBall x s).lamps = s.lamps := by
  unfold replaceBall; (repeat' split) <;> simp

/-- `judgeZero` changes control, rules, modes, balls, trough, drivers alone. -/
@[simp] theorem judgeZero_frame (x : ZeroCause) (n : Nat) (y : Bool) (s : State) :
      (judgeZero x n y s).pending = s.pending ∧
      (judgeZero x n y s).scanner = s.scanner ∧
      (judgeZero x n y s).analog = s.analog ∧
      (judgeZero x n y s).pockets = s.pockets ∧
      (judgeZero x n y s).link = s.link ∧
      (judgeZero x n y s).peers = s.peers ∧
      (judgeZero x n y s).lamps = s.lamps := by
  unfold judgeZero; (repeat' split) <;> simp

/-- `raiseCredit` changes balls alone. -/
@[simp] theorem raiseCredit_frame (p : Player) (s : State) :
      (raiseCredit p s).pending = s.pending ∧
      (raiseCredit p s).control = s.control ∧
      (raiseCredit p s).scanner = s.scanner ∧
      (raiseCredit p s).analog = s.analog ∧
      (raiseCredit p s).rules = s.rules ∧
      (raiseCredit p s).modes = s.modes ∧
      (raiseCredit p s).pockets = s.pockets ∧
      (raiseCredit p s).trough = s.trough ∧
      (raiseCredit p s).link = s.link ∧
      (raiseCredit p s).peers = s.peers ∧
      (raiseCredit p s).drivers = s.drivers ∧
      (raiseCredit p s).lamps = s.lamps := by
  unfold raiseCredit; simp

/-- `startMultiball` changes control, pockets, balls, trough, drivers alone. -/
@[simp] theorem startMultiball_frame (s : State) :
      (startMultiball s).pending = s.pending ∧
      (startMultiball s).scanner = s.scanner ∧
      (startMultiball s).analog = s.analog ∧
      (startMultiball s).rules = s.rules ∧
      (startMultiball s).modes = s.modes ∧
      (startMultiball s).link = s.link ∧
      (startMultiball s).peers = s.peers ∧
      (startMultiball s).lamps = s.lamps := by
  unfold startMultiball; (try dsimp only); (repeat' split) <;> simp

/-- R146: no more balls are owed at a multiball start than its ball count lacks, whatever T. -/
theorem shortfall_le (s : State) :
    shortfall s ≤ s.control.image.multiballBalls - (s.balls.inPlay + totalHeld s) := Nat.min_le_right _ _

/-- R146: no more balls are owed than T, where T is known. -/
theorem shortfall_le_trough (s : State) (n : Nat) (h : s.balls.trough = some n) : shortfall s ≤ n := by
  simp [shortfall, h]

/-- `keepLockCounts` changes control, balls alone. -/
@[simp] theorem keepLockCounts_frame (j : StationNo) (x : LockPayload) (s : State) :
      (keepLockCounts j x s).pending = s.pending ∧
      (keepLockCounts j x s).scanner = s.scanner ∧
      (keepLockCounts j x s).analog = s.analog ∧
      (keepLockCounts j x s).rules = s.rules ∧
      (keepLockCounts j x s).modes = s.modes ∧
      (keepLockCounts j x s).pockets = s.pockets ∧
      (keepLockCounts j x s).trough = s.trough ∧
      (keepLockCounts j x s).link = s.link ∧
      (keepLockCounts j x s).peers = s.peers ∧
      (keepLockCounts j x s).drivers = s.drivers ∧
      (keepLockCounts j x s).lamps = s.lamps := by
  unfold keepLockCounts; simp

/-- `takeLock` changes control, rules, modes, pockets, balls, trough, drivers alone. -/
@[simp] theorem takeLock_frame (j : StationNo) (x : LockPayload) (s : State) :
      (takeLock j x s).pending = s.pending ∧
      (takeLock j x s).scanner = s.scanner ∧
      (takeLock j x s).analog = s.analog ∧
      (takeLock j x s).link = s.link ∧
      (takeLock j x s).peers = s.peers ∧
      (takeLock j x s).lamps = s.lamps := by
  unfold takeLock; (try dsimp only); (repeat' split) <;> simp

/-- `takeTroughView` changes control, balls alone. -/
@[simp] theorem takeTroughView_frame (x : Bool) (n : Nat) (s : State) :
      (takeTroughView x n s).pending = s.pending ∧
      (takeTroughView x n s).scanner = s.scanner ∧
      (takeTroughView x n s).analog = s.analog ∧
      (takeTroughView x n s).rules = s.rules ∧
      (takeTroughView x n s).modes = s.modes ∧
      (takeTroughView x n s).pockets = s.pockets ∧
      (takeTroughView x n s).trough = s.trough ∧
      (takeTroughView x n s).link = s.link ∧
      (takeTroughView x n s).peers = s.peers ∧
      (takeTroughView x n s).drivers = s.drivers ∧
      (takeTroughView x n s).lamps = s.lamps := by
  unfold takeTroughView; (try dsimp only); (repeat' split) <;> simp

/-- `takeTrough` changes control, rules, modes, balls, trough, drivers alone. -/
@[simp] theorem takeTrough_frame (x y : Byte) (s : State) :
      (takeTrough x y s).pending = s.pending ∧
      (takeTrough x y s).scanner = s.scanner ∧
      (takeTrough x y s).analog = s.analog ∧
      (takeTrough x y s).pockets = s.pockets ∧
      (takeTrough x y s).link = s.link ∧
      (takeTrough x y s).peers = s.peers ∧
      (takeTrough x y s).lamps = s.lamps := by
  unfold takeTrough; (try dsimp only); (repeat' split) <;> simp

/-- `takeMissing` changes control, rules, modes, balls, trough, drivers alone. -/
@[simp] theorem takeMissing_frame (x : Byte) (s : State) :
      (takeMissing x s).pending = s.pending ∧
      (takeMissing x s).scanner = s.scanner ∧
      (takeMissing x s).analog = s.analog ∧
      (takeMissing x s).pockets = s.pockets ∧
      (takeMissing x s).link = s.link ∧
      (takeMissing x s).peers = s.peers ∧
      (takeMissing x s).lamps = s.lamps := by
  unfold takeMissing; (try dsimp only); simp

/-- `takeCensusCounts` changes control, rules, modes, balls, trough, drivers alone. -/
@[simp] theorem takeCensusCounts_frame (j : StationNo) (r : CensusRecord) (s : State) :
      (takeCensusCounts j r s).pending = s.pending ∧
      (takeCensusCounts j r s).scanner = s.scanner ∧
      (takeCensusCounts j r s).analog = s.analog ∧
      (takeCensusCounts j r s).pockets = s.pockets ∧
      (takeCensusCounts j r s).link = s.link ∧
      (takeCensusCounts j r s).peers = s.peers ∧
      (takeCensusCounts j r s).lamps = s.lamps := by
  unfold takeCensusCounts; (try dsimp only); (repeat' split) <;> simp

/-! ## Reports to requesters (R169 to R175) -/

/-- `askAgain` changes control, rules, pockets, balls, trough, link, drivers alone. -/
@[simp] theorem askAgain_frame (r : Requester) (s : State) :
      (askAgain r s).pending = s.pending ∧
      (askAgain r s).scanner = s.scanner ∧
      (askAgain r s).analog = s.analog ∧
      (askAgain r s).modes = s.modes ∧
      (askAgain r s).peers = s.peers ∧
      (askAgain r s).lamps = s.lamps := by
  unfold askAgain; (repeat' split) <;> simp

/-- `tellWaiting` changes control, rules, pockets, balls, trough, link, drivers alone. -/
@[simp] theorem tellWaiting_frame (s : State) :
      (tellWaiting s).pending = s.pending ∧
      (tellWaiting s).scanner = s.scanner ∧
      (tellWaiting s).analog = s.analog ∧
      (tellWaiting s).modes = s.modes ∧
      (tellWaiting s).peers = s.peers ∧
      (tellWaiting s).lamps = s.lamps := by
  unfold tellWaiting
  refine ⟨?_, ?_, ?_, ?_, ?_, ?_⟩ <;> (refine (foldl_keeps _ _ (fun t i => ?_) _ _).trans ?_ <;> simp)

/-- `pulseStarted` changes pockets, trough alone. -/
@[simp] theorem pulseStarted_frame (r : Requester) (s : State) :
      (pulseStarted r s).pending = s.pending ∧
      (pulseStarted r s).control = s.control ∧
      (pulseStarted r s).scanner = s.scanner ∧
      (pulseStarted r s).analog = s.analog ∧
      (pulseStarted r s).rules = s.rules ∧
      (pulseStarted r s).modes = s.modes ∧
      (pulseStarted r s).balls = s.balls ∧
      (pulseStarted r s).link = s.link ∧
      (pulseStarted r s).peers = s.peers ∧
      (pulseStarted r s).drivers = s.drivers ∧
      (pulseStarted r s).lamps = s.lamps := by
  unfold pulseStarted; (repeat' split) <;> simp

/-- `pulseEnded` changes control, rules, pockets, balls, link, drivers alone. -/
@[simp] theorem pulseEnded_frame (r : Requester) (s : State) :
      (pulseEnded r s).pending = s.pending ∧
      (pulseEnded r s).scanner = s.scanner ∧
      (pulseEnded r s).analog = s.analog ∧
      (pulseEnded r s).modes = s.modes ∧
      (pulseEnded r s).trough = s.trough ∧
      (pulseEnded r s).peers = s.peers ∧
      (pulseEnded r s).lamps = s.lamps := by
  unfold pulseEnded; (repeat' split) <;> simp

/-- `driverFaulted` changes control, rules, pockets, balls, trough, link, drivers alone. -/
@[simp] theorem driverFaulted_frame (r : Requester) (s : State) :
      (driverFaulted r s).pending = s.pending ∧
      (driverFaulted r s).scanner = s.scanner ∧
      (driverFaulted r s).analog = s.analog ∧
      (driverFaulted r s).modes = s.modes ∧
      (driverFaulted r s).peers = s.peers ∧
      (driverFaulted r s).lamps = s.lamps := by
  unfold driverFaulted; (repeat' split) <;> simp

/-- `energize` changes drivers alone. -/
@[simp] theorem energize_frame (e : PulseEntry) (s : State) :
      (energize e s).pending = s.pending ∧
      (energize e s).control = s.control ∧
      (energize e s).scanner = s.scanner ∧
      (energize e s).analog = s.analog ∧
      (energize e s).rules = s.rules ∧
      (energize e s).modes = s.modes ∧
      (energize e s).pockets = s.pockets ∧
      (energize e s).balls = s.balls ∧
      (energize e s).trough = s.trough ∧
      (energize e s).link = s.link ∧
      (energize e s).peers = s.peers ∧
      (energize e s).lamps = s.lamps := by
  unfold energize; simp

/-! ## The census and the outputs (R80 to R84, R39, R189) -/

/-- `mapPeer` changes peers alone. -/
@[simp] theorem mapPeer_frame (j : StationNo) (f : Peer → Peer) (s : State) :
      (mapPeer j f s).pending = s.pending ∧
      (mapPeer j f s).control = s.control ∧
      (mapPeer j f s).scanner = s.scanner ∧
      (mapPeer j f s).analog = s.analog ∧
      (mapPeer j f s).rules = s.rules ∧
      (mapPeer j f s).modes = s.modes ∧
      (mapPeer j f s).pockets = s.pockets ∧
      (mapPeer j f s).balls = s.balls ∧
      (mapPeer j f s).trough = s.trough ∧
      (mapPeer j f s).link = s.link ∧
      (mapPeer j f s).drivers = s.drivers ∧
      (mapPeer j f s).lamps = s.lamps := by
  unfold mapPeer; simp

/-- `heard` changes peers alone. -/
@[simp] theorem heard_frame (j : StationNo) (s : State) :
      (heard j s).pending = s.pending ∧
      (heard j s).control = s.control ∧
      (heard j s).scanner = s.scanner ∧
      (heard j s).analog = s.analog ∧
      (heard j s).rules = s.rules ∧
      (heard j s).modes = s.modes ∧
      (heard j s).pockets = s.pockets ∧
      (heard j s).balls = s.balls ∧
      (heard j s).trough = s.trough ∧
      (heard j s).link = s.link ∧
      (heard j s).drivers = s.drivers ∧
      (heard j s).lamps = s.lamps := by
  unfold heard; simp

/-- `refreshCensus` changes control, link alone. -/
@[simp] theorem refreshCensus_frame (s : State) :
      (refreshCensus s).pending = s.pending ∧
      (refreshCensus s).scanner = s.scanner ∧
      (refreshCensus s).analog = s.analog ∧
      (refreshCensus s).rules = s.rules ∧
      (refreshCensus s).modes = s.modes ∧
      (refreshCensus s).pockets = s.pockets ∧
      (refreshCensus s).balls = s.balls ∧
      (refreshCensus s).trough = s.trough ∧
      (refreshCensus s).peers = s.peers ∧
      (refreshCensus s).drivers = s.drivers ∧
      (refreshCensus s).lamps = s.lamps := by
  unfold refreshCensus; (repeat' split) <;> simp

/-- `showOutputs` changes control, lamps alone. -/
@[simp] theorem showOutputs_frame (s : State) :
      (showOutputs s).pending = s.pending ∧
      (showOutputs s).scanner = s.scanner ∧
      (showOutputs s).analog = s.analog ∧
      (showOutputs s).rules = s.rules ∧
      (showOutputs s).modes = s.modes ∧
      (showOutputs s).pockets = s.pockets ∧
      (showOutputs s).balls = s.balls ∧
      (showOutputs s).trough = s.trough ∧
      (showOutputs s).link = s.link ∧
      (showOutputs s).peers = s.peers ∧
      (showOutputs s).drivers = s.drivers := by
  unfold showOutputs; (try dsimp only); simp

/-- `finish` changes control, link, lamps alone. -/
@[simp] theorem finish_frame (s : State) :
      (finish s).pending = s.pending ∧
      (finish s).scanner = s.scanner ∧
      (finish s).analog = s.analog ∧
      (finish s).rules = s.rules ∧
      (finish s).modes = s.modes ∧
      (finish s).pockets = s.pockets ∧
      (finish s).balls = s.balls ∧
      (finish s).trough = s.trough ∧
      (finish s).peers = s.peers ∧
      (finish s).drivers = s.drivers := by
  unfold finish; simp

end Sys2Proof.Machine
end

