-- ==== Sys2Proof/Laws/Load.lean ====
section
/-! SUPPORT. What the operations of the load do, each said once (R181, R182, R184). -/

namespace Sys2Proof.Machine

/-- R181: LOADING begins with no byte read, the first poll made and the next one 10 ms away; nothing else changes. -/
theorem beginLoading_eq (s : State) :
    beginLoading s = { s with control := { s.control with
      station := .loading, load := { bytes := [], polls := 1, acknowledged := false, timer := some 10 } } } := rfl

/-- R182, R184: a failed load sets CONFIG, enters LISTEN-ONLY and starts the census timer; nothing else changes. -/
theorem failLoad_eq (s : State) :
    failLoad s = { s with
      control := { s.control with station := .listenOnly, flags := { s.control.flags with config := true } }
      peers := { s.peers with timer := some s.control.image.censusInterval } } := rfl

/-- R181: outside LOADING, after an acknowledge, and with the poll timer stopped, no poll is made. -/
theorem pollAgain_stays {ack : Bool} {s : State}
    (h : s.control.station ≠ .loading ∨ s.control.load.acknowledged = true ∨ s.control.load.timer = none) :
    pollAgain ack s = s := by
  unfold pollAgain
  rw [if_neg]
  rcases h with h | h | h <;> simp [h]

/-- R181: outside LOADING no burst is read. -/
theorem takeBurst_stays {burst : Tab 16 Byte} {s : State} (h : s.control.station ≠ .loading) :
    takeBurst burst s = s := by
  unfold takeBurst
  rw [if_neg h]

end Sys2Proof.Machine
end

