-- ==== Sys2Proof/Laws/Transmit.lean ====
section
/-! SUPPORT. The transmit queue as a list: what placing, evicting and merging keep, what an offer can do,
and what the refresh of a queued CENSUS leaves. -/

namespace Sys2Proof.Machine

/-! ## Lists -/

/-- R68: placing an entry adds that entry and no other. -/
theorem place_perm (e : TxEntry) : ∀ q : List TxEntry, (place e q).Perm (e :: q)
  | [] => List.Perm.refl _
  | x :: xs => by
    unfold place
    split
    · exact ((place_perm e xs).cons x).trans (List.Perm.swap e x xs)
    · exact List.Perm.refl _

/-- Placing an entry makes the queue longer by one. -/
@[simp] theorem place_length (e : TxEntry) (q : List TxEntry) : (place e q).length = q.length + 1 := by
  simpa using (place_perm e q).length_eq

/-- What an eviction takes out satisfies its test, and with the rest makes up the queue. -/
theorem takeYoungest_perm (p : TxEntry → Bool) :
    ∀ (q : List TxEntry) (e : TxEntry) (rest : List TxEntry),
      takeYoungest p q = some (e, rest) → q.Perm (e :: rest) ∧ p e = true
  | [], _, _, h => by simp [takeYoungest] at h
  | x :: xs, e, rest, h => by
    unfold takeYoungest at h
    split at h
    · rename_i e' rest' heq
      obtain ⟨hp, he⟩ := takeYoungest_perm p xs e' rest' heq
      simp only [Option.some.injEq, Prod.mk.injEq] at h
      obtain ⟨rfl, rfl⟩ := h
      exact ⟨(hp.cons x).trans (List.Perm.swap e' x rest'), he⟩
    · split at h
      · simp only [Option.some.injEq, Prod.mk.injEq] at h
        obtain ⟨rfl, rfl⟩ := h
        exact ⟨List.Perm.refl _, by assumption⟩
      · cases h

/-- An eviction makes the queue shorter by one. -/
theorem takeYoungest_length {p : TxEntry → Bool} {q : List TxEntry} {e : TxEntry} {rest : List TxEntry}
    (h : takeYoungest p q = some (e, rest)) : q.length = rest.length + 1 := by
  simpa using (takeYoungest_perm p q e rest h).1.length_eq

/-- A change of one entry keeps the queue's length. -/
theorem changeYoungest_length (p : TxEntry → Bool) (f : TxEntry → TxEntry) :
    ∀ (q r : List TxEntry), changeYoungest p f q = some r → r.length = q.length
  | [], _, h => by simp [changeYoungest] at h
  | x :: xs, r, h => by
    unfold changeYoungest at h
    split at h
    · rename_i rest heq
      cases h
      simp [changeYoungest_length p f xs rest heq]
    · split at h
      · cases h; rfl
      · cases h

/-- A merge keeps the queue's length. -/
theorem mergeInto_length {a : AwardPayload} {q r : List TxEntry} (h : mergeInto a q = some r) :
    r.length = q.length := changeYoungest_length _ _ q r h

/-- Replacing the queued CENSUS keeps the queue's length. -/
@[simp] theorem replaceCensus_length (c : CensusPayload) (q : List TxEntry) :
    (replaceCensus c q).length = q.length := by simp [replaceCensus]

/-! ## The refresh of a queued CENSUS (R84) -/

/-- A queue whose CENSUS was built once holds a CENSUS. -/
theorem any_census_of_lastCensus {l : LinkCtl} {c : CensusPayload} (h : lastCensus l = some c) :
    l.queue.any TxEntry.isCensus = true := by
  unfold lastCensus at h
  split at h
  · cases h
  · rename_i c' heq
    obtain ⟨e, he, hc⟩ := List.exists_of_findSome?_eq_some heq
    refine List.any_eq_true.mpr ⟨e, he, ?_⟩
    cases hb : e.bulletin <;> simp_all [TxEntry.isCensus]

/-- R73: a CENSUS offered while one is queued raises no counter and sets no flag. -/
theorem offerTo_census_queued {l : LinkCtl} (c : CensusPayload) (h : l.queue.any TxEntry.isCensus = true) :
    (offerTo (.census c) l).drop = false ∧ (offerTo (.census c) l).refused = false := by
  unfold offerTo
  dsimp only
  split
  · exact ⟨rfl, rfl⟩
  · exact ⟨rfl, rfl⟩

/-- R84: the refresh leaves Station Control as it was. -/
@[simp] theorem refreshCensus_control (s : State) : (refreshCensus s).control = s.control := by
  unfold refreshCensus
  split
  · rename_i c h
    split
    · rfl
    · obtain ⟨hd, hr⟩ := offerTo_census_queued (censusNow s) (any_census_of_lastCensus h)
      unfold offer
      simp [hd, hr]
  · rfl

/-- R84: with no CENSUS queued the refresh changes nothing. -/
theorem refreshCensus_of_none {s : State} (h : lastCensus s.link = none) : refreshCensus s = s := by
  unfold refreshCensus; rw [h]

/-- With no CENSUS queued, the end of a step leaves the link as it was. -/
theorem finish_link_of_none {s : State} (h : lastCensus s.link = none) : (finish s).link = s.link := by
  unfold finish; rw [refreshCensus_of_none h]; rfl

/-- The end of a step changes nothing of Station Control but the fault line's level. -/
theorem finish_control (s : State) :
    (finish s).control = { s.control with faultLine := faultLineLevel (refreshCensus s) } := by
  unfold finish showOutputs; simp

/-- The end of a step leaves the blink clock. -/
@[simp] theorem finish_blink (s : State) : (finish s).lamps.blink = s.lamps.blink := by
  unfold finish showOutputs; simp

end Sys2Proof.Machine
end

