-- ==== Sys2Proof/Laws/Settle.lean ====
section
/-! SUPPORT. What the end of every command does (`finish`), said once as `settles`, and what a completion
does before the block that owns its kind acts. -/

namespace Sys2Proof.Machine

/-! ## Readings that the link, the fault line and the lamps do not touch -/

/-- The CENSUS of a state does not depend on the link, the lamps or the fault line. -/
theorem censusNow_congr {s t : State} (hc : t.control = { s.control with faultLine := t.control.faultLine })
    (hr : t.rules = s.rules) (hm : t.modes = s.modes) (hp : t.pockets = s.pockets) (hb : t.balls = s.balls)
    (ht : t.trough = s.trough) (hd : t.drivers = s.drivers) : censusNow t = censusNow s := by
  unfold censusNow isTrough ownedActive strap pocket pocketCfg faultByte driverFlag
  rw [hc, hr, hm, hp, hb, ht, hd]

/-- What an offer makes of the link. -/
theorem offer_link (b : Bulletin) (s : State) :
    (offer b s).link =
      beginIfAtRest { s.link with queue := (offerTo b s.link).queue, aside := (offerTo b s.link).aside } := by
  unfold offer
  rcases offerTo b s.link with ⟨q, a, tk, d, r⟩
  cases d <;> cases r <;> rfl

/-- An offer changes flags and counters of Station Control and nothing else of it. -/
theorem offer_control (b : Bulletin) (s : State) :
    (offer b s).control =
      { s.control with flags := (offer b s).control.flags, counters := (offer b s).control.counters } := by
  unfold offer
  rcases offerTo b s.link with ⟨q, a, tk, d, r⟩
  cases d <;> cases r <;> rfl

/-- An offer leaves the station state. -/
@[simp] theorem offer_station (b : Bulletin) (s : State) : (offer b s).control.station = s.control.station := by
  rw [offer_control]

/-- An offer to the link depends on the link alone. -/
theorem offer_link_congr {s t : State} (b : Bulletin) (h : t.link = s.link) : (offer b t).link = (offer b s).link := by
  rw [offer_link, offer_link, h]

/-- The offers of `finish` and the outputs leave the CENSUS as it reads. -/
theorem censusNow_finish (s : State) : censusNow (finish s) = censusNow s := by
  apply censusNow_congr
  · rw [finish_control]
  all_goals unfold finish showOutputs; simp

/-- The end of a command: the state itself, its outputs and its queued CENSUS following it. -/
theorem settles_finish (s : State) : settles s (finish s) := by
  unfold settles
  refine ⟨by simp [finish, showOutputs], ?_, by simp [finish, showOutputs], by simp [finish, showOutputs],
    by simp [finish, showOutputs], by simp [finish, showOutputs], by simp [finish, showOutputs],
    by simp [finish, showOutputs], by simp [finish, showOutputs], by simp [finish, showOutputs],
    by simp [finish, showOutputs], by simp, ?_⟩
  · have h : faultLineLevel (finish s) = faultLineLevel (refreshCensus s) := by
      unfold finish showOutputs faultLineLevel faultByte driverFlag maskByte; simp
    rw [finish_control, h]
  · rw [censusNow_finish]
    have hl : (finish s).link = (refreshCensus s).link := by unfold finish showOutputs; simp
    rw [hl]
    unfold refreshCensus
    split
    · rename_i c h
      split
      · exact .inl rfl
      · exact .inr ⟨by rw [h]; rfl, rfl⟩
    · exact .inl rfl

/-- A command whose own effect leaves `u` settles at `u`. -/
theorem settles_of_eq {u v : State} (h : v = u) : settles u (finish v) := h ▸ settles_finish v

/-! ## Completions -/

/-- A CENSUS held aside and offered leaves the station state. -/
@[simp] theorem offerAside_station (s : State) : (offerAside s).control.station = s.control.station := by
  unfold offerAside; split <;> simp

/-- The end of a bulletin at the link leaves the station state. -/
@[simp] theorem endOnLine_station (own : Bool) (s : State) :
    (endOnLine own s).control.station = s.control.station := by
  unfold endOnLine
  dsimp only
  cases own
  · simp only [Bool.false_eq_true, if_false]; split <;> rfl
  · simp only [if_true]; split <;> simp

/-- Taking the bulletin at the link leaves the station state. -/
@[simp] theorem received_station (o : StationNo) (b : Bulletin) (s : State) :
    (received o b s).control.station = s.control.station := by
  have h := endOnLine_station (isOwn o b s) s
  unfold received noteOrigin
  split
  · exact h
  · split
    · exact h
    · unfold heard mapPeer; exact h

/-- A completion that is heard: the block that owns the kind acts in the game states, the Peer View gathers
in JOINING and LISTEN-ONLY. -/
theorem complete_heard {o : StationNo} {b : Bulletin} {s : State} (act gather : Bool → State → State)
    (h : hears o b s) :
    complete o b act gather s =
      if inGame s then act (isOwn o b s) (received o b s) else gather (isOwn o b s) (received o b s) := by
  have hg : inGame (noteOrigin o (isOwn o b s) (endOnLine (isOwn o b s) s)) = inGame s := by
    have := received_station o b s
    unfold received at this
    unfold inGame; rw [this]
  unfold complete
  unfold hears at h
  rw [if_pos h]
  dsimp only
  rw [hg]
  rfl

/-- A completion that is not heard changes nothing. -/
theorem complete_unheard {o : StationNo} {b : Bulletin} {s : State} (act gather : Bool → State → State)
    (h : ¬ hears o b s) : complete o b act gather s = s := by
  unfold complete
  unfold hears at h
  rw [if_neg h]

/-- R59, R65: a station that waits for rest hears no completion. -/
theorem not_hears_waiting {o : StationNo} {b : Bulletin} {s : State} (h : s.link.receive = .waiting) :
    ¬ hears o b s := by
  simp [hears, cellsAgree, h]

/-! ## A CLEAR without a command of its own -/

/-- Cells that do not spell a CLEAR without a command complete nothing at a sampling point. -/
theorem completeRowless_none {s : State}
    (h : ∀ bits check o b, s.link.receive = .receiving bits check → spelled bits check = some (o, b) →
      hasRow b = true) : completeRowless s = s := by
  unfold completeRowless
  split
  · rename_i bits check hr
    split
    · rename_i o b hb
      rw [if_pos (h bits check o b hr hb)]
    · rfl
  all_goals rfl

/-- Cells that spell one complete it: presence and the receive state are taken, and nothing else. -/
theorem completeRowless_some {s : State} {bits : List Bool} {check : BitVec 16} {o : StationNo} {b : Bulletin}
    (hl : onLink s = true) (hr : s.link.receive = .receiving bits check)
    (hb : spelled bits check = some (o, b)) (hn : hasRow b = false) :
    completeRowless s = received o b s := by
  have hs : hears o b s := by
    refine ⟨hl, ?_, ?_⟩
    · cases b <;> first | rfl | simp [hasRow] at hn
    · unfold cellsAgree; rw [hr]; simp [hb]
  unfold completeRowless
  rw [hr]; dsimp only; rw [hb]; dsimp only
  rw [if_neg (by simp [hn]), complete_heard _ _ hs]
  split <;> rfl

end Sys2Proof.Machine
end

