-- ==== Sys2Proof/WellFormed.lean ====
section
/-! DEFINITION. When a command's operands lie in the ranges that the payload tables of R64 list. The
meanings take every operand, in range or not (R64: the block that takes a bulletin judges each field), so
well-formedness is no hypothesis of theirs; it says what a sender that keeps to the tables sends. -/

namespace Sys2Proof

/-- A player byte that names one of players 1..4. -/
def playerByte (b : Byte) : Bool := 1 ≤ b.toNat && b.toNat ≤ 4

/-- A target byte: a station, or 255 for every station. -/
def targetByte (b : Byte) : Bool := b.toNat ≤ 15 || b.toNat == 255

/-- The ranges of the LOCK layout in R64. -/
def LockPayload.wellFormed (p : LockPayload) : Bool :=
  p.event.toNat ≤ 5 && playerByte p.player && p.credit.toNat ≤ 1 && p.held.toNat ≤ 3 && p.stuck.toNat ≤ 3

/-- The ranges of the AWARD layout in R64: byte 1 is a merged count 2..255 where the coalesced flag is
set, 255 for a collect settlement, and a switch number otherwise. -/
def AwardPayload.wellFormed (p : AwardPayload) : Bool :=
  (if p.coalesced then 2 ≤ p.switch.toNat
   else if p.settled then p.switch.toNat == 255
   else p.switch.toNat ≤ 63) &&
  p.amount.toNat ≤ 99999999 && p.tally.toNat ≤ 99999999

/-- The ranges of the CENSUS layout in R64. -/
def CensusPayload.wellFormed (p : CensusPayload) : Bool :=
  1 ≤ p.state.toNat && p.state.toNat ≤ 6 && p.missing.toNat ≤ 6

/-- The operands lie in the ranges of R64's payload tables. -/
def Instr.wellFormed : Instr → Bool
  | .powerOn _ => true
  | .selftestComplete _ => true
  | .resetLineAssert => true
  | .resetLineRelease => true
  | .loadBurstRead _ => true
  | .loadPollExpiry _ => true
  | .strobe _ => true
  | .scanCompletion => true
  | .stuckTimerExpiry _ => true
  | .bankConfirmTimerExpiry _ => true
  | .settleWindowExpiry _ => true
  | .kickoutTimerExpiry _ => true
  | .conversion _ => true
  | .roundCompletion => true
  | .confirmWindowExpiry _ => true
  | .rearmTimerExpiry _ => true
  | .turnTimerExpiry => true
  | .troughSettleTimerExpiry => true
  | .serveWindowExpiry => true
  | .restGap => true
  | .lostArbitration => true
  | .clash => true
  | .clashHoldEnd => true
  | .receiveError => true
  | .tilt _ => true
  | .gameStart _ count => playerByte count
  | .gameEnd _ => true
  | .playerUp _ player => playerByte player
  | .serve _ count => 1 ≤ count.toNat && count.toNat ≤ 6
  | .lock _ payload => payload.wellFormed
  | .trough _ count reason => count.toNat ≤ 6 && reason.toNat ≤ 2
  | .missing _ count => count.toNat ≤ 6
  | .modeStart _ mode _ => mode.toNat ≤ 31
  | .modeEnd _ mode => mode.toNat ≤ 31
  | .collect _ mode player => mode.toNat ≤ 31 && player.toNat ≤ 4
  | .jackpotAdd _ mode => mode.toNat ≤ 31
  | .featureSet _ target feature state player =>
      targetByte target && feature.toNat ≤ 31 && state.toNat ≤ 4 && player.toNat ≤ 4
  | .award _ payload => payload.wellFormed
  | .census _ payload => payload.wellFormed
  | .status _ _ data => data.length ≤ 9
  | .query _ target item _ => target.toNat ≤ 15 && item.toNat ≤ 7
  | .fire _ target driver => target.toNat ≤ 15 && driver.toNat ≤ 7
  | .clearFaults _ target => targetByte target
  | .clearCounts _ target => targetByte target
  | .clearBoth _ target => targetByte target
  | .restart _ target => target.toNat ≤ 15
  | .comboWindowExpiry => true
  | .silenceTimerExpiry _ => true
  | .censusTimerExpiry => true
  | .joiningTimerExpiry => true
  | .modeTimerExpiry _ => true
  | .graceTimerExpiry _ => true
  | .hurryTickExpiry _ => true
  | .quietTimerExpiry => true
  | .offsetTimerExpiry => true
  | .searchSlotExpiry => true
  | .pauseTimerExpiry => true
  | .pulseStart => true
  | .pulseEnd _ _ => true
  | .maxHoldExpiry _ => true
  | .recycleTimerExpiry _ => true
  | .openDetected _ => true
  | .shortDetected _ => true
  | .blinkClockTick => true
  | .modeRemaining3s _ => true
  | .samplingPoint _ => true

end Sys2Proof
end

