-- ==== Sys2Proof/Tests/Slice0.lean ====
section
/-! SUPPORT. Tests of the model against the manual's own examples and layouts, and one witness for every
statement of Certificates/Slice0/Obligations.lean that has hypotheses. Each expected value comes from the
section named beside it. -/

namespace Sys2Proof.Tests

-- One theorem after another: side by side, the evaluations would want more threads than the check allows.
set_option Elab.async false

open Machine

/-! ## Helpers -/

/-- A command's next state satisfies `p`. -/
def after (c : Instr) (s : State) (p : State → Bool) : Bool :=
  match exec c s with
  | .next t => p t
  | .fault _ => false
  | .refused _ => false

/-- The state after a command. -/
def run (c : Instr) (s : State) : State :=
  match exec c s with
  | .next t => t
  | .fault _ => s
  | .refused _ => s

/-- A rule whose switch scores a plain value of 1,000. -/
def hit : Rule :=
  { cls := .playfield, closeCount := 1, openCount := 1, group := 0, feature := none, plain := 1000, lit := 0,
    action := none, after := .dark, combo := false, activity := true, driver := none, index := 0 }

/-- A mode definition of a kind, untimed. -/
def def0 (k : ModeKind) : ModeDef :=
  { kind := k, duration := 0, startsMulti := false, endsMulti := false, mask := 2, factor := 2, start := 50000,
    step := 375, floor := 20000, tick := 250, base := 100000, percent := 15, max := 400000 }

/-- The rules of the examples: the ramp arrow of section 2.5 (30), the combo ramp of chapter 3 (17), a pocket's
entry (44), a DROP bank's members (40 to 42), a STANDUP bank's (50 to 53), the ramp that advances it (31) and a
trough position (0). -/
def ruleTable : Tab 64 Rule :=
  let none64 := unloadedImage.rules
  let t := none64.set 30 { hit with feature := some 6, plain := 500, lit := 2500, action := some (.lightFeature 7) }
  let t := t.set 17 { hit with feature := some 8, plain := 0, lit := 2500, group := 1, combo := true }
  let t := t.set 44 { hit with cls := .pocketEntry, index := 2, feature := some 4, plain := 100, lit := 300 }
  let t := t.set 31 { hit with action := some (.advanceBank 2) }
  let t := t.set 0 { hit with cls := .trough, activity := false }
  let member (k : Nat) (i : SwitchNo) (f : Option FeatureNo) (t : Tab 64 Rule) : Tab 64 Rule :=
    t.set i { hit with cls := .bankMember, index := k, plain := if k = 2 then 200 else 1000, feature := f }
  let t := member 1 42 (some 14) (member 1 41 (some 13) (member 1 40 (some 12) t))
  member 2 53 none (member 2 52 none (member 2 51 none (member 2 50 none t)))

/-- One configuration for the examples. -/
def img : Image :=
  { unloadedImage with
    troughStation := some 1, installed := 4, threshold := 3, multiballBalls := 4, comboWindow := 3000
    averaging := 8, releaseSpacing := 800, rules := ruleTable
    features := (Tab.fill 32 { initial := .dark, link := none }).set 6 { initial := .dark, link := some 4 }
    banks := (unloadedImage.banks.set 1
        (some { kind := .drop 3, members := [40, 41, 42], completion := 3, value := 10000
                action := some (.startMode 5) })).set 2
        (some { kind := .standup, members := [50, 51, 52, 53], completion := 3, value := 4000, action := none })
    pockets := unloadedImage.pockets.set 2
      (some { capacity := 2, feature := some 4, entry := some 44, opto := some 2, driver := 5, kickout := 1000 })
    lockFeatures := unloadedImage.lockFeatures.set 2 (some 4)
    drivers := ((unloadedImage.drivers.set 3 { unloadedImage.drivers.get 3 with onTime := 40 }).set 5
        { unloadedImage.drivers.get 5 with onTime := 30, search := true }).set 6
        { unloadedImage.drivers.get 6 with
          onTime := 40, holdPower := 2, maxHold := 10, recycle := 100, binding := some 9, search := true }
    modes := (((((unloadedImage.modes.set 4 (some (def0 .plain))).set 2 (some (def0 .multiply))).set 3
        (some { def0 .multiply with factor := 3 })).set 9 (some (def0 .jackpot))).set 14
        (some (def0 .hurry))).set 12 (some { def0 .plain with duration := 20 })
    lamps := ((unloadedImage.lamps.set 0 (.feature 6)).set 1 (.mode 4)).set 2 .faults
    channels := (unloadedImage.channels.set 2 { enabled := true, upper := 600, lower := 400 }).set 5
      { enabled := true, upper := 600, lower := 400 } }

/-- A station in a state, its link at rest, its supply OK, three players in the game, T at 2. -/
def stationIn (st : StationState) (number : StationNo) : State :=
  { powerOnState number with
    control := { controlReset number with station := st, image := img, playerCount := 3 }
    scanner := { scannerReset with running := true, scanEnd := true, baseline := true }
    analog := { analogReset with
      running := true, roundEnd := true, firstDone := true
      channels := analogReset.channels.set 5 { sum := 0, count := 0, average := 700, level := true } }
    rules := { rulesReset with features := .fill 32 .dark }
    link := { linkReset with receive := .atRest }
    balls := { ballsReset with trough := some 2, inPlay := 2 } }

/-- Station 4 in PLAY. -/
def play : State := stationIn .play 4
/-- Station 1, the trough station, in PLAY, with an eject driver for the trough. -/
def trough : State :=
  let s := stationIn .play 1
  { s with control := { s.control with image := { img with
      drivers := img.drivers.set 7 { img.drivers.get 7 with onTime := 20, trough := true } } } }

/-- `s` with switch `i` sampled CLOSED. -/
def sampled (i : SwitchNo) (s : State) : State :=
  { s with scanner := { s.scanner with raw := s.scanner.raw.set i true } }
/-- `s` with feature `f` resting at `r`. -/
def rests (f : FeatureNo) (r : Resting) (s : State) : State :=
  { s with rules := { s.rules with features := s.rules.features.set f r } }
/-- `s` with an entry for mode `m` of kind `k`, owned by station `o`. -/
def holds (m : ModeId) (k : ModeKind) (o : StationNo) (s : State) : State :=
  let e : ModeEntry :=
    { kind := k, owner := o, ending := false, time := .untimed, value := none, tick := none, grace := none,
      endQueued := false }
  { s with modes := s.modes.set m (some e) }
/-- `s` with `p` at pocket P2. -/
def pocket2 (p : PocketState) (s : State) : State :=
  { s with pockets := { s.pockets with pockets := s.pockets.pockets.set 2 p } }
/-- `s` with driver `d` in phase `x`, its pulse asked for by `r`. -/
def drives (d : DriverNo) (x : DriverPhase) (r : List Requester) (s : State) : State :=
  { s with drivers := { s.drivers with
      units := s.drivers.units.set d { driverReset with phase := x, requesters := r, onTime := 30 } } }
/-- `s` with the bulletins `bs` queued: the first on the line where `on`, otherwise all waiting for rest. -/
def queued (on : Bool) (bs : List Bulletin) (s : State) : State :=
  let q := bs.map freshEntry
  { s with link := { s.link with
      receive := if on then s.link.receive else .waiting
      sender := on, agreed := on
      queue := match q with
        | e :: rest => { e with onLine := on } :: rest
        | [] => [] } }
/-- `s` with the pulse entries `es` queued, their IDLE drivers QUEUED. -/
def asks (es : List PulseEntry) (s : State) : State :=
  { s with drivers := { s.drivers with
      queue := es
      units := es.foldl (fun t e => t.set e.driver { t.get e.driver with phase := .queued }) s.drivers.units } }
/-- An AWARD of an amount and a tally for player 2. -/
def awardOf (amount tally : Nat) : Bulletin :=
  .award { coalesced := false, settled := false, combo := false, player := 1, switch := 17
           amount := BitVec.ofNat 32 amount, tally := BitVec.ofNat 32 tally }
/-- A LOCK HELD of pocket P2 with credit for player 2. -/
def lock2 : LockPayload := { event := 0, pocket := 2, player := 2, credit := 1, held := 1, stuck := 0 }
/-- A CENSUS of a station that plays, with nothing held and no mode. -/
def playing : CensusPayload :=
  { state := 4, trough := 2, player := 1, held := .fill 4 0, stuck := .fill 4 0, modes := .fill 32 false
    faults := 0, players := 2, missing := 1, signature := 0 }

/-! ## WellFormed: each check refuses an ill-formed command -/

theorem test_wellFormed_players :
    Instr.wellFormed (.gameStart 0 0) = false ∧ Instr.wellFormed (.gameStart 0 5) = false ∧
    Instr.wellFormed (.playerUp 0 5) = false ∧ Instr.wellFormed (.collect 0 9 5) = false ∧
    Instr.wellFormed (.featureSet 0 4 6 3 5) = false ∧ Instr.wellFormed (.gameStart 0 4) = true := by
  decide +kernel

theorem test_wellFormed_counts :
    Instr.wellFormed (.serve 0 0) = false ∧ Instr.wellFormed (.serve 0 7) = false ∧
    Instr.wellFormed (.trough 0 7 0) = false ∧ Instr.wellFormed (.trough 0 0 3) = false ∧
    Instr.wellFormed (.missing 0 7) = false ∧ Instr.wellFormed (.trough 0 6 2) = true := by
  decide +kernel

theorem test_wellFormed_modes :
    Instr.wellFormed (.modeStart 0 32 0) = false ∧ Instr.wellFormed (.modeEnd 0 32) = false ∧
    Instr.wellFormed (.collect 0 32 1) = false ∧ Instr.wellFormed (.jackpotAdd 0 32) = false ∧
    Instr.wellFormed (.modeEnd 0 31) = true := by
  decide +kernel

theorem test_wellFormed_targets :
    Instr.wellFormed (.featureSet 0 16 6 3 0) = false ∧ Instr.wellFormed (.featureSet 0 4 32 3 0) = false ∧
    Instr.wellFormed (.featureSet 0 4 6 5 0) = false ∧ Instr.wellFormed (.query 0 255 0 0) = false ∧
    Instr.wellFormed (.query 0 4 8 0) = false ∧ Instr.wellFormed (.fire 0 16 0) = false ∧
    Instr.wellFormed (.fire 0 4 8) = false ∧ Instr.wellFormed (.clearFaults 0 16) = false ∧
    Instr.wellFormed (.clearCounts 0 254) = false ∧ Instr.wellFormed (.clearBoth 0 16) = false ∧
    Instr.wellFormed (.restart 0 255) = false ∧ Instr.wellFormed (.clearBoth 0 255) = true := by
  decide +kernel

theorem test_wellFormed_layouts :
    Instr.wellFormed (.lock 0 { lock2 with event := 6 }) = false ∧
    Instr.wellFormed (.lock 0 { lock2 with player := 0 }) = false ∧
    Instr.wellFormed (.lock 0 { lock2 with credit := 2 }) = false ∧
    Instr.wellFormed (.lock 0 { lock2 with held := 4 }) = false ∧
    Instr.wellFormed (.lock 0 { lock2 with stuck := 4 }) = false ∧
    Instr.wellFormed (.census 0 { playing with state := 0 }) = false ∧
    Instr.wellFormed (.census 0 { playing with state := 7 }) = false ∧
    Instr.wellFormed (.census 0 { playing with missing := 7 }) = false ∧
    Instr.wellFormed (.status 0 0 (List.replicate 10 0)) = false ∧
    Instr.wellFormed (.lock 0 lock2) = true ∧ Instr.wellFormed (.census 0 playing) = true := by
  decide +kernel

theorem test_wellFormed_awards :
    let a : AwardPayload :=
      { coalesced := false, settled := false, combo := false, player := 0, switch := 17, amount := 1, tally := 1 }
    Instr.wellFormed (.award 0 { a with switch := 64 }) = false ∧
    Instr.wellFormed (.award 0 { a with settled := true }) = false ∧
    Instr.wellFormed (.award 0 { a with coalesced := true, switch := 1 }) = false ∧
    Instr.wellFormed (.award 0 { a with amount := 100000000 }) = false ∧
    Instr.wellFormed (.award 0 { a with tally := 100000000 }) = false ∧
    Instr.wellFormed (.award 0 a) = true := by
  decide +kernel

/-! ## The wire (sections 4.2 to 4.5) -/

/-- R61's register is the CRC of polynomial x^16 + x^12 + x^5 + 1 from all ones, whose published value over the
nine characters "123456789" is 29B1 hexadecimal. -/
theorem test_check_of_nine_digits : checkBits (bytesBits [49, 50, 51, 52, 53, 54, 55, 56, 57]) = 0x29B1#16 := by
  decide +kernel

/-- The LOCK of station 3 in section 4.3's example, written bit by bit from R60 and R64: class 00, kind 000010,
origin 0011, length 0101, then HELD of P2 for player 2 with credit, held 1, stuck 0; the check by hand. -/
theorem test_lock_of_station_3 :
    (bulletinCells 3 (.lock lock2)).map Bool.toNat =
      [0, 0, 0, 0, 0, 0, 1, 0, 0, 0, 1, 1, 0, 1, 0, 1] ++
      [0, 0, 0, 0, 0, 0, 1, 0] ++ [0, 0, 0, 0, 0, 0, 1, 0] ++ [0, 0, 0, 0, 0, 0, 0, 1] ++
      [0, 0, 0, 0, 0, 0, 0, 1] ++ [0, 0, 0, 0, 0, 0, 0, 0] ++
      [0, 1, 0, 1, 0, 0, 0, 0, 0, 1, 0, 0, 1, 0, 1, 0] := by
  decide +kernel

/-- The fields of section 4.3's example: AWARD of station 2 is class 10, kind 011000, origin 0010. -/
theorem test_award_of_station_2 :
    ((bulletinCells 2 (awardOf 0 0)).take 12).map Bool.toNat = [1, 0, 0, 1, 1, 0, 0, 0, 0, 0, 1, 0] := by
  decide +kernel

/-- A TILT from the game computer at 15 (class 00, kind 000001, origin 1111, length 0000) reads back, and with
class 01 in place of 00 it is of no kind (R63, R65). -/
theorem test_tilt_reads_and_wrong_class_does_not :
    let bits (c : Bool) : List Bool :=
      [false, c, false, false, false, false, false, true, true, true, true, true, false, false, false, false]
    let cells (c : Bool) : List Bool := bits c ++ bitsOf 16 (checkBits (bits c)).toNat
    spelled (cells false) 0xC121#16 = some (15, .tilt) ∧ spelled (cells true) (checkBits (bits true)) = none := by
  decide +kernel

/-- R73 to R76, section 4.8's backlog: an AWARD merges into B8; a LOCK evicts the STATUS and takes the head; a
CENSUS at a queue with none of its kind and no STATUS is dropped. -/
def backlog : State :=
  queued false ([.collect 9 2] ++ List.replicate 5 (.award { coalesced := false, settled := false, combo := false
                                                             player := 0, switch := 3, amount := 1, tally := 1 }) ++
    List.replicate 6 (awardOf 2 2) ++ [awardOf 500 237700, awardOf 800 238500, .census playing, .status 2 []]) play

theorem test_backlog_award_merges :
    (offer (awardOf 1500 240000) backlog).link.queue[13]?.map (·.bulletin) =
      some (.award { coalesced := true, settled := false, combo := false, player := 1, switch := 2
                     amount := 2300, tally := 240000 }) := by
  decide +kernel

theorem test_backlog_lock_evicts :
    let t := offer (.lock lock2) backlog
    t.link.queue.map (·.bulletin.kindCode) = [2, 14] ++ List.replicate 13 24 ++ [32] ∧ counter t .txDrops = 1 := by
  decide +kernel

/-! ## Switches, analog, load -/

/-- Section 1.8: 4,924 over 8 conversions is 615; at the round A2 turns PRESENT at 615, holds at 401 and turns
ABSENT at 400. -/
theorem test_average_rounds_down :
    let c : ChannelState := { sum := 4313, count := 7, average := 0, level := false }
    let s := { play with analog := { play.analog with turn := 2, channels := play.analog.channels.set 2 c } }
    after (.conversion 611) s fun t => (t.analog.channels.get 2).average == 615 := by
  decide +kernel

theorem test_levels_hold_between_thresholds :
    let c (average : Nat) (level : Bool) : ChannelState := { sum := 0, count := 0, average := average, level := level }
    let s (average : Nat) (level : Bool) : State := { play with analog := { play.analog with
      channels := play.analog.channels.set 2 (c average level) } }
    let reads (t : State) : Bool := (t.analog.channels.get 2).level
    after .roundCompletion (s 615 false) reads ∧ after .roundCompletion (s 401 true) reads ∧
    !after .roundCompletion (s 400 true) reads := by
  decide +kernel

/-- A header-only image by the layout of section 11.3, its check formed by hand: good, 3 balls installed, a census
interval of 1,000 ms, a combo window of 3,000 ms. -/
def header : List Byte :=
  [167, 18, 1, 0, 24, 0, 1, 3, 3, 4, 0x03, 0xE8, 0x0B, 0xB8, 10, 8, 0x01, 0xF4, 255, 0, 0, 0, 0x7D, 0xD4]
/-- Sixteen bytes of an image from byte `n` on. -/
def burstAt (n : Nat) : Tab 16 Byte := .ofFn fun i => header.getD (n + i.val) 0
/-- A station in LOADING. -/
def loading : State := beginLoading (powerOnState 4)

theorem test_header_image_loads :
    after (.loadBurstRead (burstAt 16)) (run (.loadBurstRead (burstAt 0)) loading) fun t =>
      t.control.station == .joining && t.control.image.installed == 3 && t.control.joining == some 2000 &&
      t.control.image.comboWindow == 3000 && t.control.image.signature == 109 := by
  decide +kernel

theorem test_bad_check_fails_the_load :
    let bad : Tab 16 Byte := (burstAt 16).set 7 0
    after (.loadBurstRead bad) (run (.loadBurstRead (burstAt 0)) loading) fun t =>
      t.control.station == .listenOnly && t.control.flags.config && t.control.faultLine := by
  decide +kernel

/-! ## Rules, features, banks (chapter 2) -/

/-- Section 2.5: DARK scores 500; lit by overlay it scores 2,500, lights feature 7 and stays DARK; LATENT scores
500 and turns LIT. -/
def arrow (r : Resting) : State :=
  rests 6 r { play with rules := { play.rules with tallies := play.rules.tallies.set 0 80500 } }

theorem test_arrow_overlay :
    after .scanCompletion (sampled 30 (holds 4 .plain 2 (arrow .dark))) fun t =>
      t.rules.tallies.get 0 == 83000 && resting t 6 == .dark && resting t 7 == .lit := by
  decide +kernel

theorem test_arrow_latent :
    after .scanCompletion (sampled 30 (arrow .latent)) fun t =>
      t.rules.tallies.get 0 == 81000 && resting t 6 == .lit && resting t 7 == .dark := by
  decide +kernel

/-- Section 2.9: a second hit on 52 adds no mark; the ramp marks 50, the lowest; the third mark completes the
bank, worth 200 and then 4,000. -/
theorem test_standup_advance :
    let s := { play with rules := { play.rules with marks := play.rules.marks.set 52 true } }
    after .scanCompletion (sampled 31 s) fun t => t.rules.marks.get 50 && t.rules.tallies.get 0 == 1000 := by
  decide +kernel

theorem test_standup_completes :
    let s := { play with rules := { play.rules with marks := (play.rules.marks.set 50 true).set 52 true } }
    after .scanCompletion (sampled 53 s) fun t =>
      t.rules.tallies.get 0 == 4200 && !t.rules.marks.get 50 && !t.rules.marks.get 53 := by
  decide +kernel

/-- Section 2.8: the close of 42 scores 1,000 and then 10,000, and queues a MODE START for mode 5. -/
theorem test_drop_bank_completes :
    let s := { play with rules := { play.rules with marks := (play.rules.marks.set 40 true).set 41 true } }
    after .scanCompletion (sampled 42 s) fun t =>
      t.rules.tallies.get 0 == 11000 && (bank t 1).phase == .resetting && pulseQueued t 3 &&
      (t.link.queue.any fun e => e.bulletin == .modeStart 5 0) := by
  decide +kernel

/-! ## Awards and modes (chapters 3 and 6) -/

/-- Chapter 3, a combo ramp on a nearly full tally: V 2,500, M 6, k 2; 9,999 of 22,500 fit. -/
def ramp (tally : Nat) : State :=
  rests 8 .lit (holds 2 .multiply 1 (holds 3 .multiply 1 { play with rules := { play.rules with
    current := 1, combo := 2, tallies := play.rules.tallies.set 1 tally } }))

theorem test_combo_ramp_clipped :
    let told : AwardPayload :=
      { coalesced := false, settled := false, combo := true, player := 1, switch := 17, amount := 9999,
        tally := 99999999 }
    after .scanCompletion (sampled 17 (ramp 99990000)) fun t =>
      t.rules.tallies.get 1 == 99999999 && t.rules.combo == 2 &&
      t.link.queue.any fun e => e.bulletin == .award told := by
  decide +kernel

theorem test_combo_ramp_with_room :
    after .scanCompletion (sampled 17 (ramp 1200000)) fun t => t.rules.tallies.get 1 == 1222500 := by
  decide +kernel

/-- The largest awards of chapter 3. -/
theorem test_largest_awards :
    let s := { play with rules := { play.rules with combo := 5 } }
    (65535 * 10 + 65535 * 10 * 5 / 4 = 1474537) ∧ rawAward s 65535 1 (.hit 17 true) = 65535 + 65535 * 5 / 4 ∧
    rawAward s 65535 1 (.hit 17 false) = 65535 := by
  decide +kernel

/-- Chapter 3: the twentieth ADD reaches the max of 400,000, and the next leaves it there. -/
def jackpot (value : Nat) : State :=
  let s := holds 9 .jackpot 2 play
  { s with modes := s.modes.map fun e => e.map fun x => { x with value := some value } }

theorem test_jackpot_add :
    (after (.jackpotAdd 3 9) (jackpot 385000) fun t => (t.modes.get 9).elim false fun e => e.value == some 400000) ∧
    after (.jackpotAdd 3 9) (jackpot 400000) fun t => (t.modes.get 9).elim false fun e => e.value == some 400000 := by
  decide +kernel

/-- Chapter 3: a peer's COLLECT returns the jackpot to 100,000 and scores nothing here; this station's own scores
115,000 in its group. -/
theorem test_collect_own_and_peer :
    let s := queued true [.collect 9 2] { jackpot 115000 with rules := { play.rules with
      collects := play.rules.collects.set 9 (some 4) } }
    (after (.collect 4 9 2) s fun t => t.rules.tallies.get 1 == 115000 &&
      (t.modes.get 9).elim false fun e => e.value == some 100000) ∧
    after (.collect 5 9 2) (jackpot 115000) fun t => t.rules.tallies.get 1 == 0 &&
      (t.modes.get 9).elim false fun e => e.value == some 100000 := by
  decide +kernel

/-- Chapter 3: the 80th tick of the hurry reaches 20,000, and the next leaves it there. -/
theorem test_hurry_floor :
    let e (v : Nat) : ModeEntry :=
      { kind := .hurry, ending := false, owner := 2, time := .untimed, value := some v, tick := some 0, grace := none,
        endQueued := false }
    let s (v : Nat) : State := { play with modes := play.modes.set 14 (some (e v)) }
    (after (.hurryTickExpiry 14) (s 20375) fun t => (t.modes.get 14).elim false fun e => e.value == some 20000) ∧
    after (.hurryTickExpiry 14) (s 20000) fun t => (t.modes.get 14).elim false fun e => e.value == some 20000 := by
  decide +kernel

/-! ## Pockets, trough, balls (chapters 7 and 8) -/

/-- A pocket with balls held, in a phase. -/
def pocketWith (held : Nat) (phase : PocketPhase) : PocketState := { pocketReset with held := held, phase := phase }

/-- Section 7.3's example: with the lock feature LIT a second entry is held; a full pocket kicks the ball through
with a credited LOCK; with the feature DARK, with none. -/
def lockPocket (held : Nat) (r : Resting) : State := rests 4 r (pocket2 (pocketWith held .stable) play)

theorem test_entry_is_held :
    after .scanCompletion (sampled 44 (lockPocket 1 .lit)) fun t =>
      (pocket t 2).held == 2 && (pocket t 2).phase == .stable && t.rules.tallies.get 0 == 300 &&
      t.link.queue.any fun e => e.bulletin == .lock { lock2 with player := 1, held := 2 } := by
  decide +kernel

theorem test_full_pocket_kicks_through :
    (after .scanCompletion (sampled 44 (lockPocket 2 .lit)) fun t =>
      (pocket t 2).phase == .ejectWait && (pocket t 2).through == 1 && (pocket t 2).pending == 1 && pulseQueued t 5 &&
      t.link.queue.any fun e => e.bulletin == .lock { lock2 with event := 2, player := 1, held := 2 }) ∧
    after .scanCompletion (sampled 44 (lockPocket 2 .dark)) fun t =>
      (pocket t 2).phase == .ejectWait && !t.link.queue.any fun e => e.bulletin.cls == 0 := by
  decide +kernel

/-- Section 7.5's example: the windows after attempts 1 and 2 raise RETRIED EJECTS; after attempt 3 the resting
ball is stuck. -/
def ejecting (attempt : Nat) : State :=
  pocket2 { pocketReset with
    resting := 1, pending := 1, attempt := attempt, window := some 0, phase := .ejecting } play

theorem test_retry_at_125 :
    after (.confirmWindowExpiry 2) (ejecting 1) fun t =>
      (pocket t 2).attempt == 2 && counter t .retriedEjects == 1 &&
      t.drivers.queue.any fun e => e.driver == 5 && e.percent == 125 := by
  decide +kernel

theorem test_third_window_jams :
    after (.confirmWindowExpiry 2) (ejecting 3) fun t =>
      (pocket t 2).phase == .jammed && (pocket t 2).resting == 0 && (pocket t 2).stuck == 1 &&
      (pocket t 2).pending == 0 && (pocket t 2).attempt == 1 && (pocket t 2).jam == 1 && t.control.flags.ejector := by
  decide +kernel

/-- Section 8.4's example: SERVE in READY: PLAY, one serve pending, D7 requested; the window after attempt 1 asks
again at 125 %, which makes 25 ms of 20. -/
theorem test_serve_in_ready :
    let s := { trough with
      control := { trough.control with station := .ready }, trough := { troughReset with count := some 3 } }
    after (.serve 15 1) s fun t =>
      t.control.station == .play && t.trough.phase == .serveWait && t.trough.pending == 1 && t.trough.attempt == 1 &&
      pulseQueued t 7 := by
  decide +kernel

theorem test_serve_again_at_125 :
    let s := { trough with trough := { troughReset with
      count := some 3, pending := 1, phase := .serving, window := some 0 } }
    (after .serveWindowExpiry s fun t =>
      t.trough.phase == .serveWait && t.trough.attempt == 2 && counter t .retriedEjects == 1) ∧
    after .pulseStart (run .serveWindowExpiry s) fun t => (unit t 7).onTime == 25 := by
  decide +kernel

/-- Section 8.5's example: three balls installed, T 2, B 1: a TROUGH DRAIN of 3 ends the ball. A LOCK HELD that
leaves B at 0 goes on in PLAY and owes a serve at the trough station. -/
def oneBall (s : State) : State :=
  { s with
    control := { s.control with image := { s.control.image with installed := 3 } }
    rules := { s.rules with current := 1 }
    balls := { s.balls with inPlay := 1 } }

theorem test_drain_is_ball_over :
    after (.trough 1 3 1) (oneBall play) fun t =>
      t.control.station == .ready && t.balls.inPlay == 0 && t.balls.trough == some 3 := by
  decide +kernel

theorem test_lock_owes_a_replacement :
    let s := oneBall { trough with trough := { troughReset with count := some 2 } }
    after (.lock 4 lock2) s fun t =>
      t.control.station == .play && t.balls.inPlay == 0 && t.balls.credits.get 1 == 1 && t.trough.pending == 1 := by
  decide +kernel

/-- Section 8.6's example: T 1, held 3 at the start: the shortfall is 4 - (0 + 3) = 1. -/
theorem test_multiball_shortfall :
    let s := { trough with
      trough := { troughReset with count := some 1 }
      balls := { trough.balls with
        trough := some 1, inPlay := 1, credits := .set (.fill 4 0) 0 2
        peers := (trough.balls.peers.set 3 { held := .set (.fill 4 0) 0 1, stuck := .fill 4 0 }).set 5
          { held := .set (.fill 4 0) 2 1, stuck := .fill 4 0 } } }
    after (.lock 5 { lock2 with player := 1, held := 2 }) s fun t =>
      t.balls.credits.get 0 == 0 && t.trough.pending == 1 && t.balls.inPlay == 0 := by
  decide +kernel

/-- Section 5.6: of stations 1 (0 held), 3, 5 and 6 (1 held each), station 6 has two holding stations below it and
waits 1,600 ms. -/
theorem test_rank_times_spacing :
    let one : PeerCounts := { held := .set (.fill 4 0) 0 1, stuck := .fill 4 0 }
    let base := pocket2 (pocketWith 1 .stable) (stationIn .play 6)
    let s := { base with balls := { base.balls with
      trough := some 1, inPlay := 0, credits := .set (.fill 4 0) 0 2
      peers := (base.balls.peers.set 3 one).set 5 one } }
    after (.lock 5 { lock2 with player := 1, pocket := 1 }) s fun t => t.pockets.turn == .waiting 1600 := by
  decide +kernel

/-- Section 5.5: the candidate's game, player 2 of 3; its trough count; MISSING 1; mode 4 made, owned by 1. -/
theorem test_rejoining_takes_the_game :
    let s := { stationIn .joining 4 with control := { (stationIn .joining 4).control with joining := some 0 } }
    let told := run (.census 1 { playing with players := 2, modes := .set (.fill 32 false) 4 true }) s
    after .joiningTimerExpiry told fun t =>
      t.control.station == .play && t.rules.current == 1 && t.control.playerCount == 3 &&
      t.balls.trough == some 2 && t.balls.missing == 1 && (t.modes.get 4).elim false fun e => e.owner == 1 := by
  decide +kernel

/-! ## Drivers, service (chapters 10 and 11) -/

/-- Section 10.4's example: with one slot free the EJECT entry starts, ahead of the RESET; a DIRECT request for a
PULSING driver is dropped and counted. -/
def eject4 : PulseEntry := { driver := 4, band := .eject, percent := 100, requesters := [.pocket 0] }
/-- The RESET entry of D6 behind it. -/
def reset6 : PulseEntry := { driver := 6, band := .reset, percent := 100, requesters := [.bank 2] }

theorem test_queue_order_and_slots :
    after .pulseStart (asks [eject4, reset6] (drives 0 .pulsing [.rule] play)) fun t =>
      (unit t 4).phase == .pulsing && (unit t 6).phase == .queued && t.drivers.queue == [reset6] := by
  decide +kernel

theorem test_direct_request_dropped :
    let t := request 0 .direct 100 .rule (drives 0 .pulsing [.rule] play)
    counter t .pulseDrops = 1 ∧ t.drivers.queue = [] := by
  decide +kernel

/-- Section 10.4's example: the diverter holds after its pulse for 10 s, and its max hold leaves it spent in
RECYCLE for 100 ms. -/
def diverter (x : DriverPhase) : State :=
  let s := rests 9 .lit (drives 6 x [.hold 6] play)
  { s with drivers := { s.drivers with units := s.drivers.units.modify 6 fun u =>
      { u with onTime := 40, maxHold := if x = .holding then some 0 else none } } }

theorem test_diverter_holds :
    after (.pulseEnd 6 40000) (diverter .pulsing) fun t =>
      (unit t 6).phase == .holding && (unit t 6).maxHold == some 10000 && (unit t 6).detail == .none := by
  decide +kernel

theorem test_diverter_spent :
    after (.maxHoldExpiry 6) (diverter .holding) fun t =>
      (unit t 6).phase == .recycle && (unit t 6).recycle == some 100 && (unit t 6).spent := by
  decide +kernel

/-- Section 11.8's example: D2 OPEN reads 10 hexadecimal in byte 3, the flags DRIVER and EJECTOR in byte 1; the
STATUS leads with its item. -/
theorem test_status_of_an_open_coil :
    let s := drives 2 .faulted [] play
    let s := { s with drivers := { s.drivers with units := s.drivers.units.modify 2 fun u => { u with detail := .opened } }
                      control := { s.control with flags := { noFlags with ejector := true } } }
    after (.query 15 4 1 0) s fun t => t.link.queue.any fun e => match e.bulletin with
      | .status item data => item == 1 && data == [faultByte s, 255, 0x10, 0]
      | _ => false := by
  decide +kernel

theorem test_clear_counts :
    let s := { play with control := { play.control with counters := .fill 8 7 } }
    (after (.clearCounts 15 4) s fun t => t.control.counters == .fill 8 0) ∧
    after (.clearCounts 15 5) s fun t => t.control.counters == .fill 8 7 := by
  decide +kernel

/-- R180, R187: RESTART keeps the tallies and CHECK ERRORS, sets the retained mark, and enters LOADING. -/
theorem test_restart_retains :
    let s := { play with
      control := { play.control with counters := .fill 8 7 }
      rules := { play.rules with tallies := play.rules.tallies.set 1 85000 } }
    after (.restart 15 4) s fun t =>
      t.control.station == .loading && t.rules.tallies.get 1 == 85000 && counter t .checkErrors == 7 &&
      counter t .clashes == 0 && t.control.retained := by
  decide +kernel

/-- A block has no words: the table gives its rows no bits. -/
theorem test_no_words : decodeTableWord 8 0 = none ∧ State.withFetchWord State.reset 8 0 = State.reset := by
  decide +kernel

/-! ## Witnesses: states and operands that meet the hypotheses of the statements, clause by clause -/

/-- What a table of options gives holds of each entry that it has. -/
theorem of_all {α : Type} {o : Option α} {p : α → Bool} (h : o.all p = true) : ∀ x, o = some x → p x = true := by
  intro x e
  subst e
  exact h

/-- The mode table of `s` with `e` for mode `m`. -/
def withMode (m : ModeId) (e : ModeEntry) (s : State) : State := { s with modes := s.modes.set m (some e) }
/-- A PLAIN entry owned by station 4, its time running. -/
def entry4 : ModeEntry :=
  { kind := .plain, owner := 4, ending := false, time := .running 3000, value := none, tick := none, grace := none,
    endQueued := false }
/-- A queue full of GAME entries. -/
def gameFull : State := queued false (List.replicate 16 (.serve 1)) play

theorem witness_StepRunsTheFrontCommand :
    ({ play with pending := [.restGap, .pulseStart] } : State).pending = .restGap :: [.pulseStart] := rfl

theorem witness_AnEmptyQueueLetsTimePass :
    State.reset.pending = [] ∧ due State.reset = none ∧ play.pending = [] ∧ due play = some .scanCompletion := by
  decide +kernel

theorem witness_TheQueuesStayWithin :
    ∃ s t, s.link.within ∧ s.drivers.within ∧ s.link.queue.length = 16 ∧ step s = .next t :=
  ⟨{ backlog with pending := [.censusTimerExpiry] }, _, by unfold LinkCtl.within; decide +kernel,
    by unfold DriverCtl.within; decide +kernel, by decide +kernel, rfl⟩

theorem witness_TalliesModesAndCountersStayWithin :
    ∃ s t, s.rules.within ∧ s.rules.tallies.get 1 = 99999999 ∧ modesWithin s.modes ∧ s.control.within ∧
      s.balls.within ∧ s.trough.within ∧ step s = .next t :=
  ⟨{ ramp 99999999 with pending := [.scanCompletion] }, _, by unfold RuleEngine.within; decide +kernel,
    by decide +kernel, by unfold modesWithin; decide +kernel, by unfold Control.within; decide +kernel,
    by unfold Balls.within; decide +kernel, by unfold TroughCtl.within; decide +kernel, rfl⟩

theorem witness_TalliesFallOnlyToZero :
    (∃ t, exec .scanCompletion (ramp 1000) = .next t) ∧ ∃ t, exec (.gameStart 15 2) (ramp 1000) = .next t :=
  ⟨⟨_, rfl⟩, _, rfl⟩

theorem witness_FaultFlagsLatch :
    ∃ s t, s.control.flags.link = true ∧ clearsFlags (.clearCounts 15 4) = false ∧
      exec (.clearCounts 15 4) s = .next t :=
  ⟨setFlag .link play, _, rfl, rfl, rfl⟩

theorem witness_OutputsFollowTheState :
    ∃ s t, exec .blinkClockTick s = .next t ∧ t.control.station.running = true ∧
      t.control.image.lamps.get 1 = .mode 4 ∧ t.modes.get 4 = some entry4 ∧ entry4.time = .running 3000 :=
  ⟨withMode 4 entry4 play, run .blinkClockTick (withMode 4 entry4 play), rfl, by decide +kernel, by decide +kernel,
    by decide +kernel, rfl⟩

theorem witness_a_queued_census :
    ∃ t x, exec .blinkClockTick (queued false [.census playing] play) = .next t ∧ lastCensus t.link = some x :=
  ⟨run .blinkClockTick (queued false [.census playing] play),
    censusNow (run .blinkClockTick (queued false [.census playing] play)), rfl, by decide +kernel⟩

theorem witness_BulletinCellsReadBack :
    Bulletin.tilt.payload.length = 0 ∧ (Bulletin.census playing).payload.length = 10 ∧
    (Bulletin.status 2 (List.replicate 9 0)).payload.length = 10 := by
  decide +kernel

/-- Station 4 in PLAY, its link still waiting for rest. -/
def waiting4 : State := { play with link := linkReset }

theorem witness_SampledCellsAreTheBulletin :
    (Bulletin.census playing).payload.length ≤ 10 ∧ onLink play = true ∧ play.link.receive = .atRest ∧
    play.link.sender = false ∧ (∀ x, lastCensus play.link = some x → x = censusNow play) ∧
    hasRow (.census playing) = true ∧ hasRow (.clear 4 0) = false ∧ (Bulletin.clear 4 0).payload.length ≤ 10 :=
  ⟨by decide +kernel, by decide +kernel, by decide +kernel, by decide +kernel,
    fun x h => absurd h (by rw [show lastCensus play.link = none by decide +kernel]; simp),
    by decide +kernel, by decide +kernel, by decide +kernel⟩

theorem witness_OneWrongBitSpellsNothing :
    let n := (Bulletin.lock lock2).payload.length
    n ≤ 10 ∧ ∀ i ∈ [0, 11, 16, 32 + 8 * n - 1], i < 32 + 8 * n ∧ ¬ (12 ≤ i ∧ i < 16) := by
  decide +kernel

theorem witness_arbitration :
    let x := (bulletinCells 3 (.lock lock2)).take 12
    let y := (bulletinCells 5 (.lock lock2)).take 12
    ((3 : StationNo) ≠ 5) ∧ x.take 9 = y.take 9 ∧ x[9]? = some false ∧ y[9]? = some true := by
  decide +kernel

/-- Station 4 sending `b`, its attempt count at `n`. -/
def sending (n : Nat) (b : Bulletin) : State :=
  let s := queued true [b] play
  { s with link := { s.link with queue := s.link.queue.map fun e => { e with attempts := n } } }

theorem witness_losses_and_clashes :
    (sending 0 (.serve 1)).link.sender = true ∧ showsLoss (sending 0 (.serve 1)) = true ∧ play.link.sender = false ∧
    (∀ n ∈ [0, 1, 2], ((sending n (.serve 1)).link.queue.find? fun x => x.onLine) =
      some { bulletin := .serve 1, attempts := n, onLine := true }) ∧
    ((sending 2 (.modeEnd 31)).link.queue.find? fun x => x.onLine) =
      some { bulletin := .modeEnd 31, attempts := 2, onLine := true } ∧
    (withMode 31 entry4 (sending 2 (.modeEnd 31))).modes.get ⟨(31 : Byte).toNat, by decide⟩ = some entry4 ∧
    ((sending 2 (.collect 31 1)).link.queue.find? fun x => x.onLine) =
      some { bulletin := .collect 31 1, attempts := 2, onLine := true } := by
  decide +kernel

/-- Station 4 sending its third CENSUS, with one held aside. -/
def censusAside : State :=
  let s := sending 2 (.census playing)
  { s with link := { s.link with aside := some { playing with missing := 0 } } }

theorem witness_census_aside :
    censusAside.link.sender = true ∧ censusAside.link.aside = some { playing with missing := 0 } ∧
    (censusAside.link.queue.find? fun x => x.onLine) =
      some { bulletin := .census playing, attempts := 2, onLine := true } := by
  decide +kernel

theorem witness_AnOfferEntersOrGivesWay :
    (queued false [.collect 9 2] play).link.queue.any (TxEntry.isCollectOf 9) = true ∧
    (queued false [.census playing] play).link.queue.any TxEntry.isCensus = true ∧
    ((queued true [.census playing] play).link.queue.any fun e => e.isCensus && e.onLine) = true ∧
    ((queued true [.census playing] play).link.queue.length < 16) ∧
    play.link.queue.any (TxEntry.isCollectOf 9) = false ∧ play.link.queue.any TxEntry.isCensus = false ∧
    backlog.link.queue.length = 16 ∧ (Bulletin.serve 1).cls ≤ 1 ∧ (Bulletin.lock lock2).cls ≤ 1 ∧
    (∃ e ∈ backlog.link.queue, e.onLine = false ∧ 2 ≤ e.bulletin.cls) ∧
    gameFull.link.queue.length = 16 ∧ ∀ e ∈ gameFull.link.queue, e.onLine = false → e.bulletin.cls ≤ 1 := by
  decide +kernel

theorem witness_RestSamplesHoldsAndErrors :
    onLink waiting4 = true ∧ waiting4.link.receive = .waiting ∧ waiting4.link.sender = false ∧
    waiting4.link.hold = false ∧ waiting4.link.queue = [] ∧
    (queued false [.serve 1] play).link.queue = { bulletin := .serve 1, attempts := 0, onLine := false } :: [] ∧
    onLink State.reset = false ∧ play.link.receive = .atRest ∧
    (run (.samplingPoint true) play).link.receive = .receiving [] 0xFFFF#16 := by
  decide +kernel

theorem witness_TheLinkTakesACompletion :
    isOwn 4 (.serve 1) (sending 0 (.serve 1)) = true ∧ (sending 0 (.serve 1)).link.aside = none ∧
    isOwn 4 (.serve 1) play = false ∧ (4 : StationNo) = strap play ∧ isOwn 15 .tilt play = false ∧
    (15 : StationNo) ≠ strap play ∧ play.link.sender = false ∧ isOwn 4 (.census playing) censusAside = true ∧
    censusAside.link.aside.isSome = true ∧ waiting4.link.receive = .waiting := by
  decide +kernel

theorem witness_peer_bulletins :
    bulletinOf (.tilt 15) = some (15, .tilt) ∧ hears 15 .tilt play ∧ (15 : StationNo) ≠ strap play ∧
    bulletinOf (.restart 15 5) = some (15, .restart 5) ∧ hears 15 (.restart 5) play ∧ targets play 5 = false ∧
    ¬ hears 15 .tilt State.reset := by
  unfold hears
  decide +kernel

theorem witness_PowerOnAndTheSelftest :
    State.reset.control.station = .selftest ∧ play.control.station ≠ .selftest ∧ State.reset.control.resetLine = false ∧
    (run .resetLineAssert State.reset).control.resetLine = true := by
  decide +kernel

theorem witness_ResetsKeepTalliesPlayersAndCheckErrors :
    play.control.station ≠ .selftest ∧ play.control.station ≠ .selftestFailed ∧ play.control.station ≠ .held ∧
    State.reset.control.station = .selftest ∧ hears 15 (.restart 4) play ∧
    (4 : Byte).toNat = play.control.strap.val ∧ hears 15 (.restart 5) play ∧
    (5 : Byte).toNat ≠ play.control.strap.val := by
  unfold hears
  decide +kernel

theorem witness_TheImageIsLoaded :
    let first := (burstAt 0).cells
    let all := header
    let bad := header.set 23 0
    loading.control.station = .loading ∧ play.control.station ≠ .loading ∧
    headerGood (List.replicate 16 0) = false ∧
    (headerGood first = true ∧ first.length < imageLength first) ∧
    (headerGood all = true ∧ imageLength all ≤ all.length ∧ checkGood all = true) ∧
    (headerGood bad = true ∧ imageLength bad ≤ bad.length ∧ checkGood bad = false) ∧
    loading.control.load.bytes = [] ∧ (run (.loadBurstRead (burstAt 0)) loading).control.load.bytes = first ∧
    loading.control.load.acknowledged = false ∧ loading.control.load.timer.isSome = true ∧
    play.control.load.timer = none ∧ loading.control.load.polls + 1 < 8 ∧
    8 ≤ (run (.loadPollExpiry false) (run (.loadPollExpiry false) (run (.loadPollExpiry false)
      (run (.loadPollExpiry false) (run (.loadPollExpiry false) (run (.loadPollExpiry false)
        loading)))))).control.load.polls + 1 := by
  decide +kernel

/-- Station 4 at the end of its joining period, with station 1's record of a game where `told`. -/
def joined (told : Bool) : State :=
  let s := { stationIn .joining 4 with control := { (stationIn .joining 4).control with joining := some 0 } }
  if told then run .restGap (run (.census 1 { playing with players := 2 }) s) else s

theorem witness_TheEndOfJoining_none :
    (joined false).control.station = .joining ∧ (joined false).control.joining.isSome = true ∧
    ∀ j r, (peer (joined false) j).presence = .present → (peer (joined false) j).record = some r →
      r.state.playing = none := by
  have h : ∀ j, (peer (joined false) j).record.all (fun _ => false) = true := by decide +kernel
  exact ⟨by decide +kernel, by decide +kernel, fun j r _ e => by simpa using of_all (h j) r e⟩

theorem witness_TheEndOfJoining_game :
    (joined true).control.station = .joining ∧ (peer (joined true) 1).presence = .present ∧
    (peer (joined true) 1).record = some (recordOf { playing with players := 2 }) ∧
    (recordOf { playing with players := 2 }).state.playing = some .play ∧
    ∀ k r', k < 1 → (peer (joined true) k).presence = .present → (peer (joined true) k).record = some r' →
      r'.state.playing = none := by
  have h : ∀ k : StationNo, k < 1 → (peer (joined true) k).record.all (fun _ => false) = true := by decide +kernel
  exact ⟨by decide +kernel, by decide +kernel, by decide +kernel, by decide +kernel,
    fun k r' lt _ e => by simpa using of_all (h k lt) r' e⟩

/-- `s` with switch `i` as `x`. -/
def switchIs (i : SwitchNo) (x : SwitchState) (s : State) : State :=
  { s with scanner := { s.scanner with switches := s.scanner.switches.set i x } }

theorem witness_StrobesAndStuckSwitches :
    play.scanner.running = true ∧ State.reset.scanner.running = false ∧
    ((switchIs 63 { closed := true, count := 0, stuck := false, timer := some 0 } play).scanner.switches.get
      63).timer.isSome = true ∧ (play.scanner.switches.get 0).timer = none := by
  decide +kernel

theorem witness_AScanDebouncesEverySwitch :
    play.scanner.running = true ∧ play.scanner.scanEnd = true ∧ play.scanner.baseline = true ∧
    play.scanner.raw.get 0 = (play.scanner.switches.get 0).closed ∧
    (sampled 63 play).scanner.raw.get 63 = true ∧ ((sampled 63 play).scanner.switches.get 63).closed = false ∧
    ((switchIs 0 { closed := true, count := 0, stuck := true, timer := none } play).scanner.switches.get 0).closed =
      true ∧
    ({ play with scanner := { play.scanner with baseline := false } } : State).scanner.baseline = false ∧
    (bankCfg play 1).elim false (fun c => c.isDrop && decide (42 ∈ c.members)) = true := by
  decide +kernel

/-- Channel `c` in turn, its count at `n`. -/
def turnOf (c : ChannelNo) (n : Nat) : State :=
  { play with analog := { play.analog with
      turn := c
      channels := play.analog.channels.set c { sum := 4313, count := n, average := 0, level := true } } }

theorem witness_ConversionsAverageAndRoundsConfirm :
    (turnOf 2 6).analog.running = true ∧ ((turnOf 2 6).analog.channels.get 2).count + 1 < 8 ∧
    8 ≤ ((turnOf 2 7).analog.channels.get 2).count + 1 ∧ (turnOf 2 7).analog.turn.val < 5 ∧
    8 ≤ ((turnOf 5 7).analog.channels.get 5).count + 1 ∧ (turnOf 5 7).analog.turn.val = 5 ∧
    play.control.image.averaging = 8 ∧ State.reset.analog.running = false := by
  decide +kernel

theorem witness_LevelsAreJudgedAtTheRound :
    let bare := { play with control := { play.control with image := { img with pockets := .fill 4 none } } }
    bare.analog.running = true ∧ bare.analog.roundEnd = true ∧ isTrough bare = false ∧
    (∀ p c, pocketCfg bare p = some c → c.opto = none) ∧ State.reset.analog.running = false := by
  have h : ∀ p, (pocketCfg { play with
      control := { play.control with image := { img with pockets := .fill 4 none } } } p).all (fun _ => false) = true := by
    decide +kernel
  exact ⟨by decide +kernel, by decide +kernel, by decide +kernel, fun p c e => by simpa using of_all (h p) c e,
    by decide +kernel⟩

theorem witness_EffectiveStateOfAFeature :
    let s := holds 4 .plain 2 play
    (∃ m, (s.control.image.features.get 6).link = some m ∧ (s.modes.get m).isSome = true) ∧ resting s 6 = .dark ∧
    resting (rests 6 .held s) 6 = .held ∧
    ¬ ∃ m, (play.control.image.features.get 6).link = some m ∧ (play.modes.get m).isSome = true := by
  decide +kernel

/-- Four MULTIPLY entries over group 1. -/
def fourFactors : State :=
  let two : Option ModeDef := some (def0 .multiply)
  let t := (((unloadedImage.modes.set 2 two).set 3 two).set 4 two).set 9 two
  let s := { play with control := { play.control with image := { img with modes := t } } }
  holds 9 .multiply 1 (holds 4 .multiply 1 (holds 3 .multiply 1 (holds 2 .multiply 1 s)))

theorem witness_multiplier :
    (∀ m d, modeDef fourFactors m = some d → 2 ≤ d.factor ∧ d.factor ≤ 5) ∧ [2, 3, 4, (9 : ModeId)].Nodup ∧
    (∀ m ∈ [2, 3, 4, (9 : ModeId)], (fourFactors.modes.get m).elim false (·.kind == .multiply) = true ∧
      (modeDef fourFactors m).elim false (·.mask.getLsbD 1) = true) ∧
    ∀ m, play.modes.get m = none := by
  have h : ∀ m, (modeDef fourFactors m).all (fun d => decide (2 ≤ d.factor ∧ d.factor ≤ 5)) = true := by
    decide +kernel
  exact ⟨fun m d e => of_decide_eq_true (of_all (h m) d e), by decide +kernel, by decide +kernel, by decide +kernel⟩

theorem witness_AnAwardFillsTheTallyAndIsReported :
    let s := ramp 99999999
    s.rules.tallies.get 1 ≤ 99999999 ∧ min (rawAward s 2500 1 (.hit 17 false)) (99999999 - 99999999) = 0 ∧
    s.link.queue.length < 16 ∧ 0 < min (rawAward (ramp 0) 2500 1 (.hit 17 true)) 99999999 := by
  decide +kernel

theorem witness_APlayfieldHitScores :
    let s := sampled 17 (ramp 99999999)
    s.control.station = .play ∧ s.scanner.running = true ∧ s.scanner.scanEnd = true ∧ s.scanner.baseline = true ∧
    (s.scanner.switches.get 17).closed = false ∧ (debounced s 17).closed = true ∧
    (∀ j, j ≠ 17 → (debounced s j).closed = (s.scanner.switches.get j).closed) ∧ (∀ b, (bank s b).timer = none) ∧
    s.rules.tallies.get s.rules.current ≤ 99999999 ∧ (ruleOf s 17).cls = .playfield ∧
    (ruleOf s 17).action = none := by
  decide +kernel

/-- DROP bank 1 RESETTING at an attempt, its member 41 still CLOSED, its driver in a phase. -/
def resettingBank (attempt : Nat) (x : DriverPhase) : State :=
  let s := drives 3 x [] (switchIs 41 { closed := true, count := 0, stuck := false, timer := none } play)
  { s with rules := { s.rules with
      banks := s.rules.banks.set 1 { phase := .resetting, attempt := attempt, timer := some 0, restart := false } } }

theorem witness_ABankIsConfirmedOrFaulted :
    ∃ c, c.resetDriver = some 3 ∧ (∀ s ∈ [resettingBank 1 .idle, resettingBank 2 .idle, resettingBank 1 .faulted],
        bankCfg s 1 = some c ∧ (bank s 1).phase = .resetting ∧ (bank s 1).timer.isSome = true ∧
        membersOpen s c = false) ∧
      (bank (resettingBank 1 .idle) 1).attempt = 1 ∧ (unit (resettingBank 1 .idle) 3).phase ≠ .faulted ∧
      (bank (resettingBank 2 .idle) 1).attempt = 2 ∧ (unit (resettingBank 1 .faulted) 3).phase = .faulted ∧
      bankCfg play 1 = some c ∧ (bank play 1).phase ≠ .resetting :=
  ⟨{ kind := .drop 3, members := [40, 41, 42], completion := 3, value := 10000, action := some (.startMode 5) },
    by decide +kernel⟩

theorem witness_TheComboCountRisesAndRunsOut :
    let s := { play with rules := { play.rules with comboTimer := some 0 } }
    s.rules.comboTimer.isSome = true ∧ play.rules.comboTimer = none ∧ hears 15 (awardOf 1 1) play ∧
    inGame play = true ∧ hears 15 (awardOf 1 1) (joined false) ∧ inGame (joined false) = false := by
  unfold hears
  decide +kernel

/-- A mode table of twelve entries. -/
def twelve : State :=
  { play with modes := .ofFn fun m => if 20 ≤ m.val then some entry4 else none }

theorem witness_AModeStartsOrIsExtended :
    hears 15 (.modeStart 12 255) play ∧ (12 : Byte).toNat = (12 : ModeId).val ∧ play.control.station = .play ∧
    (modeDef play 12).isSome = true ∧ play.modes.get 12 = none ∧ modeCount play < 12 ∧
    hears 15 (.modeStart 12 0) twelve ∧ twelve.modes.get 12 = none ∧ 12 ≤ modeCount twelve ∧
    (withMode 12 entry4 play).modes.get 12 = some entry4 ∧ hears 15 (.modeStart 12 1) (withMode 12 entry4 play) ∧
    hears 15 (.modeStart 32 0) play ∧ 32 ≤ (32 : Byte).toNat ∧ modeDef play 31 = none ∧
    hears 15 (.modeStart 12 0) (stationIn .tilt 4) ∧ (stationIn .tilt 4).control.station ≠ .play := by
  unfold hears
  decide +kernel

theorem witness_AModeEndEndsTheEntry :
    hears 15 (.modeEnd 12) (withMode 12 entry4 play) ∧ inGame (withMode 12 entry4 play) = true ∧
    ((withMode 12 entry4 play).modes.get 12).isSome = true ∧ hears 15 (.modeEnd 12) (joined false) ∧
    inGame (joined false) = false ∧ hears 15 (.modeEnd 32) play ∧ play.modes.get 12 = none := by
  unfold hears
  decide +kernel

/-- A HURRY entry with its tick running. -/
def hurry4 : ModeEntry := { entry4 with kind := .hurry, value := some 20375, tick := some 0 }

theorem witness_TheTimersOfAMode :
    let s := withMode 12 entry4 play
    s.modes.get 12 = some entry4 ∧ entry4.time = .running 3000 ∧ entry4.owner = strap s ∧
    ({ entry4 with owner := 5 } : ModeEntry).owner ≠ strap s ∧
    ({ entry4 with grace := some 0 } : ModeEntry).grace.isSome = true ∧
    (withMode 14 hurry4 play).modes.get 14 = some hurry4 ∧ modeDef play 14 = some (def0 .hurry) ∧
    hurry4.kind = .hurry ∧ hurry4.tick.isSome = true ∧ entry4.grace = none ∧ entry4.tick = none ∧
    play.modes.get 12 = none := by
  decide +kernel

theorem witness_JackpotsAddAndCollectsSettleOnce :
    let s := jackpot 385000
    hears 15 (.jackpotAdd 9) s ∧ inGame s = true ∧ (s.modes.get 9).elim false (·.kind == .jackpot) = true ∧
    (modeDef s 9).isSome = true ∧ hears 15 (.jackpotAdd 9) (joined false) ∧ inGame (joined false) = false ∧
    hears 15 (.jackpotAdd 32) play ∧ 32 ≤ (32 : Byte).toNat ∧ hears 15 (.collect 9 2) s ∧
    (9 : Byte).toNat = (9 : ModeId).val ∧ isOwn 15 (.collect 9 2) s = false ∧
    isOwn 4 (.collect 9 2) (sending 0 (.collect 9 2)) = true := by
  unfold hears
  decide +kernel

theorem witness_BallsEnterAndLeaveAPocket :
    ∃ c, pocketCfg play 2 = some c ∧ (unit play c.driver).phase ≠ .faulted ∧
      lockCondition c (lockPocket 1 .lit) = true ∧ lockCondition c (lockPocket 0 .dark) = false ∧
      ¬ c.capacity ≤ (pocket (lockPocket 1 .lit) 2).held + (pocket (lockPocket 1 .lit) 2).resting ∧
      (pocket (lockPocket 0 .dark) 2).resting = 0 ∧
      c.capacity ≤ (pocket (lockPocket 2 .lit) 2).held + (pocket (lockPocket 2 .lit) 2).resting ∧
      (lockPocket 2 .lit).link.queue.length < 16 ∧ (pocket (ejecting 1) 2).deferred = false :=
  ⟨{ capacity := 2, feature := some 4, entry := some 44, opto := some 2, driver := 5, kickout := 1000 },
    by decide +kernel⟩

/-- Pocket P2 with every timer run out, in a phase. -/
def ranOutIn (x : PocketPhase) : State :=
  pocket2 { pocketReset with
    resting := 1, settle := some 0, kickout := some 0, window := some 0, rearm := some 0, phase := x } play

theorem witness_PocketTimersAndTheTurn :
    (pocketCfg play 2).isSome = true ∧ (pocket (ranOutIn .settling) 2).settle.isSome = true ∧
    (pocket (ranOutIn .kickoutWait) 2).kickout.isSome = true ∧
    (pocket (ranOutIn .kickoutWait) 2).phase = .kickoutWait ∧ (unit play 5).phase ≠ .faulted ∧
    (pocket (ranOutIn .stable) 2).phase ≠ .kickoutWait ∧ (pocket (ranOutIn .rearm) 2).rearm.isSome = true ∧
    (pocket (ranOutIn .rearm) 2).phase = .rearm ∧ (pocket play 2).settle = none ∧ (pocket play 2).kickout = none ∧
    (pocket play 2).rearm = none ∧
    ({ play with pockets := { play.pockets with turn := .waiting 0, release := [2] } } : State).pockets.release =
      2 :: [] ∧ (pocket play 2).deferred = false ∧ play.pockets.turn = .idle := by
  decide +kernel

theorem witness_AConfirmWindowRetriesThenJams :
    (pocketCfg play 2).isSome = true ∧ (∀ n ∈ [1, 2, 3], (pocket (ejecting n) 2).phase = .ejecting ∧
      (pocket (ejecting n) 2).window.isSome = true ∧ (pocket (ejecting n) 2).attempt = n) ∧
    (unit (ejecting 1) 5).phase ≠ .faulted ∧ (ejecting 3).link.queue.length < 16 := by
  decide +kernel

/-- The trough station with its settle timer run out, trough position 0 CLOSED, its last count `o`. -/
def counting (o : Option Nat) : State :=
  switchIs 0 { closed := true, count := 0, stuck := false, timer := none }
    { trough with trough := { troughReset with count := o, settle := some 0 } }
/-- The trough station SERVING at an attempt, its window run out. -/
def serving (n : Nat) : State :=
  { trough with trough := { troughReset with
      count := some 1, pending := 1, phase := .serving, attempt := n, window := some 0 } }

theorem witness_TheTroughCountsAndServes :
    (∀ o ∈ [none, some 0, some 1, some 6], (counting o).trough.settle.isSome = true ∧
      (counting o).trough.phase = .idle ∧ (counting o).trough.pending = 0 ∧ troughPositions (counting o) = 1) ∧
    play.trough.settle = none ∧ (∀ n ∈ [1, 2, 3], (serving n).trough.phase = .serving ∧
      (serving n).trough.window.isSome = true ∧ (serving n).trough.attempt = n ∧
      troughDriver (serving n) = some 7 ∧ (unit (serving n) 7).phase ≠ .faulted) ∧ play.trough.window = none := by
  decide +kernel

theorem witness_BIsWhatIsLeft :
    State.reset.balls.trough = none ∧ play.balls.trough = some 2 ∧
    play.balls.missing + 2 + totalHeld play + totalStuck play ≤ play.control.image.installed ∧
    (let s := { play with balls := { play.balls with trough := some 5 } }
     s.control.image.installed < s.balls.missing + 5 + totalHeld s + totalStuck s) := by
  decide +kernel

/-- Station 4 in a search, the drivers `todo` left in its round, its timer run out. -/
def searches (x : SearchPhase) (round : Nat) (todo : List DriverNo) : State :=
  { play with balls := { play.balls with
      quiet := some 0, search := x, round := round, todo := todo, searchTimer := some 0 } }

theorem witness_QuietLeadsToASearch :
    (searches .idle 0 []).balls.quiet.isSome = true ∧ 0 < (searches .idle 0 []).balls.inPlay ∧
    (searches .offset 0 []).balls.searchTimer.isSome = true ∧ searchList play = 5 :: [6] ∧
    searchList { play with control := { play.control with image := { img with
      drivers := img.drivers.set 5 (img.drivers.get 0) } } } = 6 :: [] ∧
    pocketOfDriver play 6 = none ∧ searchList (stationIn .play 4) ≠ [] ∧
    searchList { play with control := { play.control with image := unloadedImage } } = [] ∧
    (searches .round 1 [5]).balls.todo = [5] ∧ pocketOfDriver play 5 = some 2 ∧
    (pocket (pocket2 (pocketWith 0 .jammed) (searches .round 1 [5])) 2).phase = .jammed ∧
    (pocket (pocket2 (pocketWith 1 .stable) (searches .round 1 [5])) 2).phase = .stable ∧
    (searches .round 1 []).balls.todo = [] ∧ (searches .pause 2 []).balls.round < 3 ∧
    3 ≤ (searches .pause 3 []).balls.round ∧ play.balls.quiet = none ∧ play.balls.searchTimer = none := by
  decide +kernel

theorem witness_TroughAndMissingMoveTheView :
    inGame play = true ∧ hears 1 (.trough 4 1) play ∧ hears 1 (.trough 6 0) play ∧ 0 < play.balls.inPlay ∧
    (run (.trough 1 4 1) play).balls.inPlay = 0 ∧ (run (.trough 1 4 1) (stationIn .tilt 4)).balls.inPlay = 0 ∧
    hears 1 (.trough 4 1) (stationIn .tilt 4) ∧ 0 < (run (.trough 1 3 1) play).balls.inPlay ∧
    hears 1 (.missing 2) { trough with trough := { troughReset with count := some 0 } } ∧ isTrough trough = true ∧
    trough.trough.pending = 0 ∧ trough.trough.phase = .idle ∧ trough.balls.trough.isSome = true ∧
    (run (.missing 1 2) { trough with trough := { troughReset with count := some 0 } }).balls.inPlay = 0 := by
  unfold hears
  decide +kernel

theorem witness_ALockInReadyRaisesTheCredit :
    let s := stationIn .ready 4
    hears 5 (.lock { lock2 with held := 3 }) s ∧ s.control.station = .ready ∧ s.balls.phase = .single ∧
    lock2.credit.toNat ≤ 1 ∧ (3 : Byte).toNat ≤ 3 ∧ lock2.stuck.toNat ≤ 3 ∧ (5 : StationNo) ≠ strap s ∧
    lock2.event = 0 ∧ lock2.credit = 1 ∧ lock2.player.toNat = (1 : Player).val + 1 ∧
    (1 : Player).val + 1 ≤ s.control.playerCount := by
  unfold hears
  decide +kernel

/-- Station 4 with a ball held in P2 and the credit of player 1 one short of the threshold. -/
def oneShort : State :=
  let s := pocket2 (pocketWith 1 .stable) play
  { s with balls := { s.balls with trough := some 2, inPlay := 1, credits := .set (.fill 4 0) 0 2 } }

theorem witness_LocksMoveCountsAndStartAMultiball :
    let x := { lock2 with player := 1 }
    hears 5 (.lock x) oneShort ∧ oneShort.control.station = .play ∧ (5 : StationNo) ≠ strap oneShort ∧ x.event = 0 ∧
    x.credit = 1 ∧ x.player.toNat = oneShort.rules.current.val + 1 ∧
    oneShort.rules.current.val + 1 ≤ oneShort.control.playerCount ∧ oneShort.balls.phase = .single ∧
    oneShort.balls.inPlay ≤ 1 ∧ x.held.toNat = (oneShort.balls.peers.get 5).held.get x.pocket + 1 ∧
    x.stuck.toNat = (oneShort.balls.peers.get 5).stuck.get x.pocket ∧ x.held.toNat ≤ 3 ∧
    oneShort.balls.inPlay = inPlayCount oneShort ∧
    oneShort.control.image.threshold ≤ min 4 (oneShort.balls.credits.get oneShort.rules.current + 1) ∧
    oneShort.pockets.release = [] ∧ oneShort.pockets.turn = .idle ∧
    (∀ p, (pocket oneShort p).phase = .stable ∨ (pocket oneShort p).phase = .kickoutWait ∨
      (pocket oneShort p).phase = .empty) ∧
    (∀ p, 0 < (pocket oneShort p).held → (pocketCfg oneShort p).isSome = true) ∧ 0 < ownHeld oneShort := by
  unfold hears
  decide +kernel

theorem witness_SilenceAndCensusTimersExpire :
    (peer (run (.tilt 15) play) 15).silence.isSome = true ∧ (peer play 15).silence = none ∧
    ({ play with peers := { play.peers with timer := some 0 } } : State).peers.timer.isSome = true ∧
    (∀ m, endOwed play m = false) ∧ isTrough play = false ∧ play.peers.timer = none := by
  decide +kernel

theorem witness_ACensusIsHandedOn :
    let s := withMode 12 { entry4 with owner := 5 } play
    let idle := { s with control := { s.control with station := .idle } }
    hears 5 (.census playing) s ∧ inGame s = true ∧ (5 : StationNo) ≠ strap s ∧
    (recordOf playing).state ≠ .listenOnly ∧ (recordOf { playing with state := 6 }).state = .listenOnly ∧
    (recordOf { playing with signature := 1 }).signature ≠ s.control.image.signature ∧
    playing.modes.get 12 = false ∧ idle.balls.phase = .single ∧ hears 7 (.census playing) idle ∧
    hears 4 (.census playing) play ∧ isOwn 4 (.census playing) play = false := by
  unfold hears
  decide +kernel

theorem witness_AGameStarts :
    let s := stationIn .idle 4
    hears 15 (.gameStart 4) s ∧ s.control.station = .idle ∧ 1 ≤ (4 : Byte).toNat ∧ (4 : Byte).toNat ≤ 4 ∧
    (∀ b, (bank s b).phase = .counting) ∧
    (∀ b c, bankCfg s b = some c → c.isDrop = true → markedCount s c = 0 ∨ (bank s b).phase ≠ .counting) ∧
    hears 15 (.gameStart 5) s ∧ 4 < (5 : Byte).toNat ∧ hears 15 (.gameStart 0) s ∧
    hears 15 (.gameStart 4) play ∧ play.control.station ≠ .idle := by
  have h : ∀ b, (bankCfg (stationIn .idle 4) b).all (fun c => decide (markedCount (stationIn .idle 4) c = 0)) = true := by
    decide +kernel
  exact ⟨by unfold hears; decide +kernel, by decide +kernel, by decide +kernel, by decide +kernel, by decide +kernel,
    fun b c e _ => .inl (of_decide_eq_true (of_all (h b) c e)), by unfold hears; decide +kernel, by decide +kernel,
    by unfold hears; decide +kernel, by unfold hears; decide +kernel, by decide +kernel⟩

/-- `s` with no trough eject driver. -/
def noLane (s : State) : State := { s with control := { s.control with image := img } }

theorem witness_AServeOwesItsBalls :
    (∀ n ∈ [1, 6, 255], hears 15 (.serve n) trough ∧ hears 15 (.serve n) play) ∧ hears 15 (.serve 0) play ∧
    isTrough play = false ∧ isTrough trough = true ∧ trough.trough.count = none ∧ trough.trough.phase = .idle ∧
    0 < (counting (some 1)).trough.count.getD 0 ∧ (counting (some 1)).trough.recount = false ∧
    troughDriver (counting (some 1)) = some 7 ∧ (unit (counting (some 1)) 7).phase ≠ .faulted ∧
    (serving 1).trough.phase = .serving ∧ hears 15 (.serve 1) (serving 1) ∧
    hears 15 (.serve 1) (stationIn .idle 4) ∧ hears 15 (.serve 1) (noLane (counting (some 1))) ∧
    0 < (noLane (counting (some 1))).trough.count.getD 0 ∧ (noLane (counting (some 1))).trough.recount = false ∧
    isTrough (noLane (counting (some 1))) = true ∧ troughDriver (noLane (counting (some 1))) = none := by
  unfold hears
  decide +kernel

theorem witness_ATiltAndAGameEnd :
    hears 15 .tilt play ∧ play.control.station = .play ∧ play.balls.inPlay ≠ 0 ∧ play.trough.phase = .idle ∧
    hears 15 .tilt (serving 1) ∧ (serving 1).trough.phase = .serving ∧ 0 < (serving 1).trough.pending ∧
    (let s := { play with balls := { play.balls with inPlay := 0 } }
     hears 15 .tilt s ∧ s.balls.trough.isSome = true ∧ s.balls.inPlay = 0) ∧
    hears 15 .tilt (stationIn .ready 4) ∧ hears 15 .gameEnd play ∧ inGame play = true ∧
    hears 15 .gameEnd (joined false) ∧ inGame (joined false) = false := by
  unfold hears
  decide +kernel

theorem witness_APlayerComesUp :
    let s := stationIn .ready 4
    hears 15 (.playerUp 3) s ∧ s.control.station = .ready ∧ (3 : Byte).toNat = (2 : Player).val + 1 ∧
    (2 : Player).val + 1 ≤ s.control.playerCount ∧ (∀ d, (unit s d).phase ≠ .faulted) ∧
    (bank s 1).phase = .counting ∧ hears 15 (.playerUp 4) s ∧ playerOf s.control.playerCount 4 = none ∧
    hears 15 (.playerUp 1) play ∧ play.control.station ≠ .ready := by
  unfold hears
  decide +kernel

theorem witness_AFeatureIsSet :
    hears 15 (.featureSet 4 31 3 0) play ∧ inGame play = true ∧ (4 : Byte).toNat = play.control.strap.val ∧
    (31 : Byte).toNat = (31 : FeatureNo).val ∧ (3 : Byte).toNat = Resting.lit.code ∧ Resting.lit ≠ .held ∧
    hears 15 (.featureSet 255 0 0 1) play ∧ (1 : Byte).toNat = play.rules.current.val + 1 ∧
    (2 : Player) ≠ play.rules.current ∧ (3 : Byte).toNat = (2 : Player).val + 1 ∧
    (3 : Byte).toNat ≤ play.control.playerCount ∧ hears 15 (.featureSet 5 0 0 0) play ∧
    hears 15 (.featureSet 4 32 0 0) play ∧ hears 15 (.featureSet 4 0 4 0) play ∧
    hears 15 (.featureSet 4 0 0 4) play ∧ play.control.playerCount < (4 : Byte).toNat := by
  unfold hears
  decide +kernel

/-- A pulse queue of eight entries. -/
def eight : State :=
  asks ((List.finRange 8).map fun d => { driver := d, band := .eject, percent := 100, requesters := [.fire] }) play

theorem witness_AnEntryJoinsThePulseQueue :
    (unit (drives 2 .faulted [] play) 2).phase = .faulted ∧ (unit (drives 0 .pulsing [] play) 0).phase = .pulsing ∧
    pulseQueued play 2 = false ∧ play.drivers.queue.length < 8 ∧ 8 ≤ eight.drivers.queue.length ∧
    (let s := { play with drivers := { eight.drivers with queue := eight.drivers.queue ++ [eject4] } }
     8 ≤ s.drivers.queue.length) ∧
    (eight.drivers.queue.find? fun x => x.driver == 2) =
      some { driver := 2, band := .eject, percent := 100, requesters := [.fire] } ∧ eight.drivers.within := by
  unfold DriverCtl.within
  decide +kernel

theorem witness_PulsesStartInQueueOrder :
    let s := asks [eject4, reset6] (drives 0 .pulsing [.rule] play)
    s.drivers.within ∧ startable play = [] ∧ (s.analog.channels.get 5).level = true ∧ s.drivers.waiting = [] ∧
    (State.reset.analog.channels.get 5).level = false ∧ State.reset.drivers.within ∧ play.drivers.within := by
  unfold DriverCtl.within
  decide +kernel

theorem witness_PulsesAndHoldsEnd :
    (unit (diverter .pulsing) 6).phase = .pulsing ∧ (unit (diverter .pulsing) 6).requesters = [.hold 6] ∧
    effective (diverter .pulsing) 9 = .lit ∧ (driverCfg (diverter .pulsing) 6).binding = some 9 ∧
    0 < (driverCfg (diverter .pulsing) 6).holdPower ∧ (unit (diverter .pulsing) 6).spent = false ∧
    0 < (driverCfg play 6).recycle ∧ (driverCfg play 5).recycle = 0 ∧
    (unit (drives 5 .pulsing [.fire] play) 5).phase = .pulsing ∧ (unit play 5).phase ≠ .pulsing ∧
    (unit (diverter .holding) 6).phase = .holding ∧ (unit (diverter .holding) 6).maxHold.isSome = true ∧
    (unit (run (.maxHoldExpiry 6) (diverter .holding)) 6).phase = .recycle ∧
    (unit (run (.maxHoldExpiry 6) (diverter .holding)) 6).recycle.isSome = true := by
  decide +kernel

theorem witness_OpenAndShortFaultTheDriver :
    let s := drives 5 .pulsing [.pocket 2] (ejecting 1)
    s.drivers.within ∧ (unit s 5).phase = .pulsing ∧ .pocket 2 ∈ (unit s 5).requesters ∧
    (pocket s 2).phase = .ejecting ∧ (unit (diverter .holding) 6).phase = .holding ∧
    (diverter .holding).drivers.within ∧ (unit play 5).phase ≠ .pulsing ∧ (unit play 5).phase ≠ .holding ∧
    play.drivers.within := by
  unfold DriverCtl.within
  decide +kernel

theorem witness_blink_clock :
    play.control.station.running = true ∧ State.reset.control.station.running = false := by
  decide +kernel

theorem witness_StatusQueryAndFire :
    hears 4 (.status 2 []) (sending 0 (.status 2 [])) ∧ hears 15 (.query 4 7 0) play ∧
    (4 : Byte).toNat = play.control.strap.val ∧ hears 15 (.query 5 7 0) play ∧
    hears 15 (.fire 4 7) (stationIn .idle 4) ∧ (7 : Byte).toNat = (7 : DriverNo).val ∧
    (stationIn .idle 4).control.station = .idle ∧ hears 15 (.fire 4 8) (stationIn .idle 4) ∧
    hears 15 (.fire 4 0) play ∧ hears 15 (.fire 5 0) (stationIn .idle 4) ∧ (1 : Byte).toNat = (0 : Player).val + 1 ∧
    4 < (5 : Byte).toNat ∧ 7 < (8 : Byte).toNat := by
  unfold hears
  decide +kernel

theorem witness_ClearFaultsAndCounts :
    hears 15 (.clear 4 1) play ∧ hears 15 (.clear 255 2) play ∧ hears 15 (.clear 4 3) play ∧ inGame play = true ∧
    (∀ p, (pocket play p).phase ≠ .jammed) ∧ (∀ b, (bank play b).phase ≠ .faulted) ∧
    (let s := drives 5 .faulted [] play
     hears 15 (.clear 4 1) s ∧ ∀ d, (unit s d).phase = .faulted → (driverCfg s d).binding = none) ∧
    hears 15 (.clear 5 1) play ∧ (5 : Byte).toNat ≠ play.control.strap.val ∧
    hears 15 (.clear 4 1) (joined false) ∧ inGame (joined false) = false := by
  unfold hears
  decide +kernel

/-! ## More of the line, the pockets and the drivers -/

/-- R60, R66, R191: a CLEAR with second byte 9, sampled cell by cell, makes its origin PRESENT and leaves the
receiver waiting for rest; nothing is cleared. -/
theorem test_clear_without_a_row :
    (samples (false :: bulletinCells 15 (.clear 4 9)) (setFlag .link play)).elim false (fun t =>
      t.link.receive == .waiting && (peer t 15).presence == .present && t.control.flags.link) = true := by
  decide +kernel

/-- R146: with 1 installed ball a multiball start sets the credit to 0 and starts no release. -/
theorem test_one_installed_ball :
    let s := pocket2 (pocketWith 1 .stable) play
    let s := { s with control := { s.control with image := { img with installed := 1 } }
                      balls := { s.balls with credits := .set (.fill 4 0) 0 3 } }
    (startMultiball s).balls.credits.get 0 = 0 ∧ (startMultiball s).pockets.release = [] ∧
    (startMultiball { s with control := play.control }).pockets.release = [2] := by
  decide +kernel

/-- R121, R174: a pocket confirmed by its opto in its pulse and re-arming jams at an OPEN in that pulse. -/
theorem test_open_jams_in_rearm :
    let s := drives 5 .pulsing [.pocket 2] (pocket2 { pocketWith 1 .rearm with pending := 1, rearm := some 600 } play)
    after (.openDetected 5) s (fun t => (pocket t 2).phase == .jammed && (pocket t 2).stuck == 1 &&
      (pocket t 2).jam == 1 && (pocket t 2).rearm == none && t.control.flags.ejector) = true := by
  decide +kernel

/-! ## More witnesses -/

/-- What every fitted pocket of `s` satisfies, from a test of each. -/
theorem of_fitted {s : State} {P : PocketNo → PocketCfg → Bool}
    (h : ∀ p, (pocketCfg s p).all (P p) = true) : ∀ p c, pocketCfg s p = some c → P p c = true :=
  fun p c e => of_all (h p) c e

theorem witness_ResetLeavesThePowerOnValues : pocketsSound State.reset := by
  have h : ∀ p, (pocketCfg State.reset p).all (fun _ => false) = true := by decide +kernel
  exact ⟨fun p c e => by simpa using of_fitted h p c e, fun p c e => by simpa using of_fitted h p c e,
    List.nodup_nil, fun p e => by cases e⟩

theorem witness_OrdersAndBoundsAreKept :
    ∃ s t, s.link.ordered ∧ s.link.queue.length = 16 ∧ s.drivers.within ∧ s.drivers.ordered ∧
      s.drivers.queue ≠ [] ∧ missingWithin s ∧ s.balls.missing = 4 ∧ countsWithin s ∧ step s = .next t :=
  ⟨{ asks [eject4, reset6] backlog with
      pending := [.censusTimerExpiry], balls := { play.balls with missing := 4 } }, _,
    by unfold LinkCtl.ordered; decide +kernel, by decide +kernel, by unfold DriverCtl.within; decide +kernel,
    by unfold DriverCtl.ordered; decide +kernel, by decide +kernel, by unfold missingWithin; decide +kernel,
    by decide +kernel, by unfold countsWithin; decide +kernel, rfl⟩

/-- Pocket P2 full, its release begun, an eject owed for each ball, a command waiting. -/
def releasing : State :=
  let s := pocket2 { pocketWith 2 .releaseWait with pending := 2 } play
  { s with pending := [.turnTimerExpiry], pockets := { s.pockets with release := [2], turn := .waiting 0 } }

/-- The fitted pocket's counts and capacity, tested. -/
def soundAt (s : State) (p : PocketNo) (c : PocketCfg) : Bool :=
  let x := pocket s p
  decide (1 ≤ c.capacity ∧ c.capacity ≤ 3) &&
  decide (x.held + x.resting + x.stuck ≤ c.capacity ∧ x.resting ≤ 1 ∧ x.through ≤ 1 ∧
    x.pending + (if x.kickout.isSome then 1 else 0) ≤ x.through + x.held + x.resting ∧
    (x.kickout.isSome = true → x.resting = 1 ∧ (x.phase = .kickoutWait ∨ x.phase.ejects = true)) ∧
    (x.phase = .jammed → x.held = 0 ∧ x.resting = 0) ∧ (x.phase ≠ .jammed → x.stuck = 0) ∧
    (x.phase = .empty ∨ x.phase = .settling → x.held = 0) ∧
    (x.phase.owes = false → x.pending = 0) ∧ (x.phase.ejects = false → x.through = 0))

/-- Station 4 in JOINING with the one ball of P2 re-sensed, its joining timer's expiry waiting. -/
def joiningHeld : State :=
  { pocket2 (pocketWith 1 .stable) (joined false) with pending := [.joiningTimerExpiry] }

theorem witness_ThePocketsStaySound :
    (inGame releasing = true ∧ pocketsSound releasing ∧ ∃ t, step releasing = .next t) ∧
    (joiningHeld.control.station = .joining ∧ pocketsJoining joiningHeld ∧
      ∃ t, step joiningHeld = .next t ∧ inGame t = true) ∧
    (loading.pockets = pocketsReset ∧ loading.drivers = driversReset ∧ loading.control.station = .loading) := by
  have h : ∀ p, (pocketCfg releasing p).all (soundAt releasing p) = true := by decide +kernel
  have k : ∀ p, (pocketCfg joiningHeld p).all (fun c => decide (1 ≤ c.capacity ∧ c.capacity ≤ 3)) = true := by
    decide +kernel
  have both : ∀ p c, pocketCfg releasing p = some c → _ ∧ _ :=
    fun p c e => (Bool.and_eq_true_iff.mp (of_fitted h p c e))
  refine ⟨⟨by decide +kernel, ⟨fun p c e => of_decide_eq_true (both p c e).1,
    fun p c e => (have q := of_decide_eq_true (both p c e).2; q), by decide +kernel, by decide +kernel⟩, _, rfl⟩,
    ⟨by decide +kernel, ⟨fun p c e => of_decide_eq_true (of_fitted k p c e), by decide +kernel, ?_, by decide +kernel⟩,
      run .joiningTimerExpiry { joiningHeld with pending := [] }, rfl, by decide +kernel⟩, by decide +kernel⟩
  unfold noPocketRequest
  decide +kernel

/-- A queue of 13 COLLECTs and three AWARDs, the last two of one player. -/
def awardsLast : State :=
  queued false ((List.range 13).map (fun n => .collect (BitVec.ofNat 8 n) 1) ++
    [awardOf 1 1, awardOf 2 2, awardOf 3 3]) play

theorem witness_offers_to_a_full_queue :
    let q := backlog.link.queue
    let full := awardsLast.link.queue
    q.length = 16 ∧ q = q.take 13 ++ freshEntry (awardOf 800 238500) :: q.drop 14 ∧
    (∀ k ∈ q.drop 14, k.isAwardOf 1 = false) ∧ (∀ k ∈ q, k.isAwardOf 2 = false) ∧
    q = q.take 15 ++ freshEntry (.status 2 []) :: [] ∧ (Bulletin.status 2 []).cls = 3 ∧
    (freshEntry (.status 2 [])).isStatus = true ∧ (freshEntry (.status 2 [])).isCensus = false ∧
    gameFull.link.queue.length = 16 ∧ gameFull.link.queue.any TxEntry.isCensus = false ∧
    (∀ k ∈ gameFull.link.queue, k.bulletin.cls ≠ 3 ∧ k.isStatus = false ∧ k.isAwardOf 1 = false) ∧
    full.length = 16 ∧ full = full.take 15 ++ freshEntry (awardOf 3 3) :: [] ∧
    full.take 15 = full.take 14 ++ freshEntry (awardOf 2 2) :: [] ∧ (∀ k ∈ full, k.bulletin.cls ≠ 3) ∧
    (∀ k ∈ full.take 14 ++ [freshEntry (.serve 1)], k.isAwardOf 0 = false) ∧ (Bulletin.serve 1).cls ≤ 1 := by
  decide +kernel

theorem witness_last_check_cell :
    ∃ bits check, let s := run (.samplingPoint true) play
      onLink s = true ∧ s.link.receive = .receiving bits check ∧
      spelled (bulletinCells 15 (.clear 4 9)) (checkBits (bulletinBits 15 (.clear 4 9))) = some (15, .clear 4 9) ∧
      hasRow (.clear 4 9) = false ∧ hasRow (.clear 4 3) = true ∧ spelled [] 0xFFFF#16 = none :=
  ⟨[], 0xFFFF#16, by decide +kernel⟩

/-- Station 4 with a TILT of station 15 read to its last check cell. -/
def tiltRead : State :=
  { play with link := { play.link with
      receive := .receiving (bulletinCells 15 .tilt) (checkBits (bulletinBits 15 .tilt)) } }

-- R59: no completion before the rest gap, after a reset or after a receive error, the presence of R65 included.
theorem test_no_completion_before_rest :
    (∀ s ∈ [waiting4, run .receiveError play], (run (.tilt 15) s).control.station = .play ∧
      (peer (run (.tilt 15) s) 15).presence = (peer play 15).presence ∧
      (run (.tilt 15) (run .restGap s)).control.station = .tilt) := by
  decide +kernel

-- R60, R65: a bulletin read whole and good gives no receive error, and completes.
theorem test_good_bulletin_gives_no_error :
    spelled (bulletinCells 15 .tilt) (checkBits (bulletinBits 15 .tilt)) = some (15, .tilt) ∧
    (run .receiveError tiltRead).control.counters.get 0 = 0 ∧
    (run (.tilt 15) (run .receiveError tiltRead)).control.station = .tilt := by
  decide +kernel

theorem witness_hand_over :
    let s := joined true
    let r := recordOf { playing with players := 2 }
    (peer s 1).record = some r ∧ r.state ≠ .listenOnly ∧ s.control.image.troughStation = some 1 ∧
    (peer (joined false) 1).record = none ∧ (run .joiningTimerExpiry s).control.station = .play ∧
    (run .joiningTimerExpiry (joined false)).control.station = .idle := by
  decide +kernel

/-- Station 4 with A2's average, P2 as `x`, the first round taken or not. -/
def rounds (average : Nat) (level first : Bool) (x : PocketState) : State :=
  let s := pocket2 x play
  { s with analog := { s.analog with
      firstDone := first
      channels := s.analog.channels.set 2 { sum := 0, count := 0, average := average, level := level } } }

theorem witness_rounds_at_a_pocket :
    let s := rounds 600 false true (pocketWith 0 .settling)
    let t := rounds 400 true true (pocketWith 1 .stable)
    s.analog.running = true ∧ s.analog.roundEnd = true ∧ isTrough s = false ∧ inGame s = true ∧
    (pocketCfg s 2).elim false (·.opto == some 2) = true ∧ (∀ q, q ≠ 2 → pocketCfg s q = none) ∧
    ((run .roundCompletion s).analog.channels.get 2).level = true ∧ (pocket s 2).phase = .settling ∧
    ((run .roundCompletion t).analog.channels.get 2).level = false ∧ (t.analog.channels.get 2).level = true ∧
    (rounds 600 false false pocketReset).analog.firstDone = false ∧
    (play.control.image.channels.get 5).enabled = true := by
  decide +kernel

/-- The trough station SERVING with A4 enabled and turning PRESENT. -/
def servedAt (average : Nat) : State :=
  let s := serving 1
  let i := { s.control.image with
    pockets := .fill 4 none, channels := s.control.image.channels.set 4 { enabled := true, upper := 600, lower := 400 } }
  { s with
    control := { s.control with image := i }
    analog := { s.analog with
      channels := s.analog.channels.set 4 { sum := 0, count := 0, average := average, level := false } } }

theorem witness_rounds_at_the_trough :
    (∀ q, pocketCfg (servedAt 600) q = none) ∧ isTrough (servedAt 600) = true ∧
    (servedAt 600).analog.roundEnd = true ∧ (servedAt 600).trough.phase = .serving ∧
    ((servedAt 600).analog.channels.get 4).level = false ∧
    ((run .roundCompletion (servedAt 600)).analog.channels.get 4).level = true ∧
    ((run .roundCompletion (servedAt 599)).analog.channels.get 4).level = false := by
  decide +kernel

/-- `s` with the rule `r` for switch `i`. -/
def ruled (i : SwitchNo) (r : Rule) (s : State) : State :=
  { s with control := { s.control with image := { s.control.image with
      rules := s.control.image.rules.set i r } } }

/-- Switch `i` alone changes state at the scan completion that is due. -/
def alone (i : SwitchNo) (s : State) : Bool :=
  s.scanner.running && s.scanner.scanEnd && s.scanner.baseline &&
  decide ((debounced s i).closed = !(s.scanner.switches.get i).closed) &&
  decide (∀ j, j ≠ i → (debounced s j).closed = (s.scanner.switches.get j).closed) &&
  decide (∀ b, (bank s b).timer = none)

theorem witness_actions_at_hits :
    let r := { hit with activity := false, action := some (.lightFeature 7), feature := some 6, after := .dark }
    let s := sampled 63 (ruled 63 r play)
    alone 63 s = true ∧ s.control.station = .play ∧ (ruleOf s 63).activity = false ∧ (ruleOf s 63).cls = .playfield ∧
    (ruleOf s 63).action = some (.lightFeature 7) ∧ effective s 6 = .dark ∧ effective (rests 6 .off s) 6 = .off ∧
    effective (rests 6 .latent s) 6 = .latent ∧ effective (rests 6 .lit s) 6 = .lit ∧
    resting (rests 6 .lit s) 6 = .lit ∧ r.after ≠ .lit ∧ effective (holds 4 .plain 2 s) 6 = .lit ∧
    resting (holds 4 .plain 2 s) 6 ≠ .lit := by
  decide +kernel

theorem witness_actions :
    play.rules.collects.get 9 = none ∧ offerTaken (.collect 9 1) play = true ∧
    offerTaken (.collect 9 1) gameFull = false ∧
    (({ play with rules := { play.rules with collects := play.rules.collects.set 9 (some 0) } } :
      State).rules.collects.get 9).isSome = true ∧
    (bankCfg play 2).elim false (fun c => c.members == [50] ++ 51 :: [52, 53] && decide (markedCount
      { play with rules := { play.rules with marks := (play.rules.marks.set 50 true).set 51 true } } c ≠ 3)) = true ∧
    (play.rules.marks.set 50 true).get 50 = true ∧ play.rules.marks.get 51 = false := by
  decide +kernel

theorem witness_openings_and_direct :
    let open17 := switchIs 17 { closed := true, count := 0, stuck := false, timer := none } play
    let s := sampled 20 (ruled 20 { hit with cls := .direct, driver := some 3 } play)
    let f := sampled 20 (ruled 20 { hit with cls := .direct, driver := some 3, feature := some 31 } play)
    alone 17 open17 = true ∧ (debounced open17 17).closed = false ∧ (ruleOf open17 17).cls = .playfield ∧
    inGame open17 = true ∧ alone 20 s = true ∧ (debounced s 20).closed = true ∧ s.control.station = .play ∧
    (ruleOf s 20).driver = some 3 ∧ (ruleOf s 20).action = none ∧ (ruleOf s 20).feature = none ∧
    effective (rests 31 .off f) 31 = .off ∧ (stationIn .tilt 4).control.station ≠ .play := by
  decide +kernel

theorem witness_pocket_entry :
    let s := sampled 44 (lockPocket 1 .lit)
    alone 44 s = true ∧ inGame s = true ∧ (s.scanner.switches.get 44).closed = false ∧
    (ruleOf s 44).cls = .pocketEntry ∧ (ruleOf s 44).index = (2 : PocketNo).val ∧
    (pocketCfg s 2).elim false (·.entry == some 44) = true ∧ s.control.image.lockFeatures.get 2 = some 4 ∧
    s.control.station = .play ∧ (ruleOf s 44).feature = some 4 ∧ resting s 4 = .lit ∧ (ruleOf s 44).action = none ∧
    alone 44 (sampled 44 (stationIn .idle 4)) = true ∧ (stationIn .idle 4).control.station ≠ .play := by
  decide +kernel

/-- Station 4 in READY, switch 42 of DROP bank 1 closing, the marks of 40 and 41 as `v`. -/
def dropping (v : Bool) : State :=
  let s := stationIn .ready 4
  let r := { s.control.image.rules.get 42 with activity := false }
  let s := sampled 42 (ruled 42 r s)
  { s with rules := { s.rules with marks := (s.rules.marks.set 40 v).set 41 v } }

theorem witness_marks_outside_play :
    ∀ v, alone 42 (dropping v) = true ∧ inGame (dropping v) = true ∧ (dropping v).control.station ≠ .play ∧
      (ruleOf (dropping v) 42).activity = false ∧ (ruleOf (dropping v) 42).cls = .bankMember ∧
      (ruleOf (dropping v) 42).index = (1 : BankNo).val ∧
      (bankCfg (dropping v) 1).elim false (fun c => c.isDrop && c.resetDriver == some 3 && c.completion == 3) = true ∧
      (dropping v).rules.marks.get 42 = false ∧ (bank (dropping v) 1).phase = .counting ∧
      (unit (dropping v) 3).phase ≠ .faulted ∧ ∀ f ∈ [12, 13, (14 : FeatureNo)], ∀ k,
        (driverCfg (dropping v) k).binding ≠ some f := by
  decide +kernel

theorem witness_marks :
    let s := { play with rules := { play.rules with marks := (play.rules.marks.set 40 true).set 41 true } }
    s.rules.marks.get 41 = true ∧ s.rules.marks.get 42 = false ∧ (bank s 1).phase = .counting ∧
    s.control.station = .play ∧ (bankCfg s 1).elim false (fun c => c.isDrop && c.resetDriver == some 3 &&
      markedCount { s with rules := { s.rules with marks := s.rules.marks.set 42 true } } c == c.completion) = true ∧
    (bankCfg s 2).elim false (fun c => !c.isDrop) = true := by
  decide +kernel

theorem witness_collect_elsewhere :
    hears 15 (.collect 9 1) (joined false) ∧ inGame (joined false) = false ∧ hears 15 (.collect 32 1) play ∧
    32 ≤ (32 : Byte).toNat := by
  unfold hears
  decide +kernel

theorem witness_trough_and_missing_elsewhere :
    (∀ n ∈ [0, 6, 255], hears 1 (.trough n 2) (joined true) ∧ hears 1 (.missing n) (joined true)) ∧
    (joined true).control.station = .joining ∧
    (peer (joined true) 1).record = some (recordOf { playing with players := 2 }) ∧ (1 : StationNo) ≠ strap (joined true) ∧
    (recordOf { playing with players := 2 }).state ≠ .listenOnly ∧
    (∀ st ∈ [StationState.idle, .ready, .tilt], hears 1 (.trough 2 2) (stationIn st 4) ∧ inGame (stationIn st 4) = true ∧
      hears 1 (.missing 2) (stationIn st 4) ∧ (stationIn st 4).balls.phase = .single ∧
      (stationIn st 4).balls.trough.isSome = true ∧ (run (.missing 1 2) (stationIn st 4)).balls.inPlay = 0 ∧
      (run (.missing 1 1) (stationIn st 4)).balls.inPlay ≠ 0) := by
  unfold hears
  decide +kernel

theorem witness_locks :
    let x := { lock2 with player := 2 }
    let one := { oneShort with control := { oneShort.control with image := { img with installed := 1 } } }
    (∀ s ∈ [play, stationIn .tilt 4, stationIn .idle 4, joined false], hears 5 (.lock x) s ∧ (5 : StationNo) ≠ strap s) ∧
    x.credit.toNat ≤ 1 ∧ x.held.toNat ≤ 3 ∧ x.stuck.toNat ≤ 3 ∧ x.player.toNat = (1 : Player).val + 1 ∧
    (1 : Player).val + 1 ≤ play.control.playerCount ∧ (1 : Player) ≠ play.rules.current ∧
    hears 1 (.lock { x with held := 3 }) (joined true) ∧
    (peer (joined true) 1).record = some (recordOf { playing with players := 2 }) ∧
    2 ≤ oneShort.control.image.installed ∧ one.control.image.installed = 1 ∧ trough.balls.trough = some 2 ∧
    troughDriver trough = some 7 ∧ (unit trough 7).phase ≠ .faulted ∧
    (counting (some 0)).trough.pending = 0 ∧ (counting (some 0)).trough.phase = .idle ∧
    (run (.lock 5 { x with held := 2 }) (counting (some 0))).balls.inPlay = 0 ∧
    (run (.lock 5 { x with held := 2 }) (stationIn .tilt 4)).balls.inPlay = 0 := by
  unfold hears
  decide +kernel

/-- The trough station at its census interval, its count not yet in the view, mode 12's time over. -/
def owing : State :=
  let s := withMode 12 { entry4 with owner := 1, time := .expired } (counting (some 1))
  { s with peers := { s.peers with timer := some 0 } }

theorem witness_census_interval :
    owing.peers.timer.isSome = true ∧ inGame owing = true ∧
    owing.link.queue.length + (List.finRange 32).countP (endOwed owing) + 2 ≤ 16 ∧
    owing.modes.get 12 = some { entry4 with owner := 1, time := .expired } ∧ (1 : StationNo) = owing.control.strap ∧
    isTrough owing = true ∧ owing.trough.count = some 1 ∧ owing.balls.trough ≠ some 1 ∧ owing.link.queue = [] := by
  decide +kernel

theorem witness_census_makes_modes :
    let x := { playing with modes := .ofFn fun m => decide (20 ≤ m.val) }
    let r := recordOf x
    hears 5 (.census x) play ∧ hears 1 (.census x) play ∧ inGame play = true ∧ (5 : StationNo) ≠ strap play ∧
    r.state ≠ .listenOnly ∧ r.trough = some 2 ∧ play.control.image.troughStation = some 1 ∧
    play.control.image.troughStation ≠ some 5 ∧ play.control.station = .play ∧ play.balls.phase = .single ∧
    modeCount play + (List.finRange 32).countP (fun m => x.modes.get m) ≤ 12 ∧ x.modes.get 31 = true := by
  unfold hears
  decide +kernel

theorem witness_restarts :
    let c := { kind := .drop 3, members := [40, 41, 42], completion := 3, value := 10000, action := some (.startMode 5) }
    let s := pocket2 { pocketWith 0 .jammed with stuck := 2, jam := 1 } play
    let s := { s with rules := { s.rules with
      banks := s.rules.banks.set 1 { phase := .faulted, attempt := 2, timer := none, restart := false } } }
    hears 15 (.clear 255 1) s ∧ inGame s = true ∧ (pocket s 2).phase = .jammed ∧ (pocketCfg s 2).isSome = true ∧
    s.link.queue.length ≤ 12 ∧ s.link.queue.any TxEntry.isCensus = false ∧ (bank s 1).phase = .faulted ∧
    bankCfg s 1 = some c ∧ c.resetDriver = some 3 := by
  unfold hears
  decide +kernel

/-- Station 4 with P2 unfitted for want of an entry and an opto, its record still naming feature 4; switch 44, of
a POCKET-ENTRY rule that names feature `f`, closing, `f` LIT. -/
def unfitted (f : FeatureNo) : State :=
  let r := { hit with
    cls := .pocketEntry, index := 2, feature := some f, plain := 100, lit := 300, after := .dark, activity := false }
  let s := sampled 44 (rests f .lit (ruled 44 r play))
  { s with control := { s.control with image := { s.control.image with pockets := .fill 4 none } } }

/-- R23, R109: the lock light that the record names stays LIT at a hit that no pocket takes; another takes its
after-state. -/
theorem test_lock_light_of_an_unfitted_pocket :
    (after .scanCompletion (unfitted 4) fun t => resting t 4 == .lit && t.rules.tallies.get 0 == 300) = true ∧
    (after .scanCompletion (unfitted 5) fun t => resting t 5 == .dark && t.rules.tallies.get 0 == 300) = true := by
  decide +kernel

theorem witness_closes_that_no_pocket_takes :
    (∀ f ∈ [4, 5], alone 44 (unfitted f) = true ∧ inGame (unfitted f) = true ∧ (debounced (unfitted f) 44).closed = true ∧
      (ruleOf (unfitted f) 44).activity = false ∧ (ruleOf (unfitted f) 44).cls = .pocketEntry ∧
      (ruleOf (unfitted f) 44).index = (2 : PocketNo).val ∧ (pocketCfg (unfitted f) 2).isNone = true ∧
      (unfitted f).control.station = .play ∧ (ruleOf (unfitted f) 44).feature = some f ∧
      resting (unfitted f) f = .lit ∧ (ruleOf (unfitted f) 44).action = none ∧ (ruleOf (unfitted f) 44).after ≠ .lit) ∧
    (unfitted 4).control.image.lockFeatures.get 2 = some 4 ∧
    (unfitted 5).control.image.lockFeatures.get 2 ≠ some 5 := by
  decide +kernel

/-- Bank 1 in its confirm window, its restart mark as `v`, member 41 opening at this scan and 42 as `c`. -/
def confirming (v c : Bool) : State :=
  let s := resettingBank 1 .idle
  let s := if c then sampled 42 (switchIs 42 { closed := true, count := 0, stuck := false, timer := none } s) else s
  { s with rules := { s.rules with
      marks := s.rules.marks.set 41 true
      features := (s.rules.features.set 12 .held).set 13 .off
      banks := s.rules.banks.set 1 { phase := .resetting, attempt := 1, timer := some 400, restart := v } } }

/-- R35, R37: HELD turns DARK at the confirm, and OFF after a restart alone; a member still CLOSED leaves it. -/
theorem test_bank_confirmed :
    (∀ v, (after .scanCompletion (confirming v false) fun t =>
      bank t 1 == bankReset && resting t 12 == .dark && (resting t 13 == .dark) == v && !t.rules.marks.get 41) = true) ∧
    (after .scanCompletion (confirming false true) fun t =>
      (bank t 1).phase == .resetting && (bank t 1).timer == some 400 && resting t 12 == .held) = true := by
  decide +kernel

theorem witness_bank_confirms :
    ∀ v c, let s := confirming v c
      s.scanner.running = true ∧ s.scanner.scanEnd = true ∧ s.scanner.baseline = true ∧ inGame s = true ∧
      (∀ i, (debounced s i).closed ≠ (s.scanner.switches.get i).closed → (debounced s i).closed = false ∧
        (ruleOf s i).cls = .bankMember ∧
        ∃ k : BankNo, (ruleOf s i).index = k.val ∧ (bankCfg s k).any BankCfg.isDrop = true) ∧
      (∀ k, k ≠ 1 → (bank s k).timer = none) ∧ (bank s 1).phase = .resetting ∧ (bank s 1).timer.isSome = true ∧
      (bankCfg s 1).elim false (fun b => b.members.any fun i => (debounced s i).closed) = c ∧
      (∀ d, (driverCfg s d).binding = none ∨ d = 6) := by
  decide +kernel

/-- Station 4 at the end of its joining period: the opto of P2 at `level` with `n` balls re-sensed, every member
of DROP bank 1 marked, and the diverter's feature LIT. -/
def joins (level : Bool) (n : Nat) : State :=
  let s := rests 9 .lit (pocket2 (pocketWith n (if n = 0 then .empty else .stable)) (joined true))
  { s with
    analog := { s.analog with channels := s.analog.channels.modify 2 fun x => { x with level := level } }
    rules := { s.rules with marks := ((s.rules.marks.set 40 true).set 41 true).set 42 true } }

/-- R132, R34, R172: at the end of joining the ball seen rests in P2, bank 1 resets unscored, the diverter asks. -/
theorem test_end_of_joining_judges :
    (after .joiningTimerExpiry (joins true 0) fun t =>
      (pocket t 2).resting == 1 && (bank t 1).phase == .resetting && resting t 12 == .held &&
      t.rules.tallies.get 0 == 0 && t.drivers.queue.map (fun e => e.driver) == [6, 3]) = true ∧
    (after .joiningTimerExpiry (joins false 1) fun t => (pocket t 2).held == 0) = true := by
  decide +kernel

theorem witness_end_of_joining_judges :
    (∀ v, ∀ n ∈ [0, 1], (joins v n).control.station = .joining ∧ (joins v n).control.joining.isSome = true ∧
      (pocketCfg (joins v n) 2).elim false (fun c => optoLevel (joins v n) c == some v) = true ∧
      (pocket (joins v n) 2).held = n ∧ (pocket (joins v n) 2).resting = 0 ∧ (pocket (joins v n) 2).pending = 0) ∧
    (let s := joins true 0
     (bank s 1).phase = .counting ∧ (unit s 3).phase ≠ .faulted ∧
     (bankCfg s 1).elim false (fun c => c.resetDriver == some 3 && decide (c.completion ≤ markedCount s c)) = true ∧
     effective s 9 = .lit ∧ (driverCfg s 6).binding = some 9 ∧ (unit s 6).spent = false) := by
  decide +kernel

/-- Station 4 in IDLE with member 41 of DROP bank 1 marked, its reset driver in phase `x`. -/
def fallen (x : DriverPhase) : State :=
  let s := drives 3 x [] (stationIn .idle 4)
  { s with rules := { s.rules with marks := s.rules.marks.set 41 true } }

theorem witness_game_start_resets :
    (∀ x ∈ [DriverPhase.idle, .faulted], hears 15 (.gameStart 1) (fallen x) ∧ (fallen x).control.station = .idle ∧
      (bank (fallen x) 1).phase = .counting ∧
      (bankCfg (fallen x) 1).elim false (fun c => c.resetDriver == some 3 &&
        decide (0 < markedCount (run (.gameStart 15 1) (fallen x)) c)) = true) ∧
    (∀ d, (unit (fallen .idle) d).phase ≠ .faulted) ∧ (unit (fallen .faulted) 3).phase = .faulted := by
  unfold hears
  decide +kernel

/-- Two entries that can start, and requesters of every kind waiting for a place. -/
def waitingList : State :=
  let s := asks [eject4, reset6] (resettingBank 1 .idle)
  let s := rests 9 .lit (pocket2 { pocketReset with held := 1, pending := 1, phase := .ejectWait } s)
  { s with drivers := { s.drivers with waiting := [.bank 1, .pocket 2, .hold 6] } }

/-- R169: the requesters told ask again in the order of the waiting list, and the list is empty. -/
theorem test_waiting_requesters_ask_again :
    after .pulseStart waitingList fun t =>
      t.drivers.waiting == [] && t.drivers.queue.map (fun e => (e.driver, e.requesters)) ==
        [(5, [.pocket 2]), (6, [.hold 6]), (3, [.bank 1])] := by
  decide +kernel

theorem witness_waiting_requesters :
    waitingList.drivers.within ∧ (waitingList.analog.channels.get 5).level = true ∧
    startable waitingList = [eject4, reset6] ∧ waitingList.drivers.waiting ≠ [] ∧
    (pocket waitingList 2).phase = .ejectWait ∧ (unit waitingList 5).phase ≠ .faulted ∧
    (unit (drives 5 .faulted [] waitingList) 5).phase = .faulted ∧ (bank waitingList 1).phase = .resetting ∧
    (unit waitingList 3).phase ≠ .faulted ∧ (unit (drives 3 .faulted [] waitingList) 3).phase = .faulted ∧
    effective waitingList 9 = .lit ∧ (unit waitingList 6).spent = false ∧
    (let s := { serving 1 with trough := { (serving 1).trough with phase := .serveWait } }
     s.trough.phase = .serveWait ∧ troughDriver s = some 7 ∧ (unit s 7).phase ≠ .faulted ∧
     (unit (drives 7 .faulted [] s) 7).phase = .faulted) := by
  unfold DriverCtl.within
  decide +kernel

/-- P2 without an opto, EJECTING in the pulse of D5. -/
def blindEject (x : PocketPhase) : State :=
  let s := drives 5 .pulsing [.pocket 2] (pocket2 { pocketReset with held := 1, pending := 1, phase := x } play)
  { s with control := { s.control with image := { img with
      pockets := img.pockets.set 2 ((img.pockets.get 2).map fun c => { c with opto := none }) } } }

/-- R118: the end of the pulse confirms the eject of a pocket without an opto. R35: it starts a bank's window. -/
theorem test_pulse_ends_are_taken :
    (after (.pulseEnd 5 30000) (blindEject .ejecting) fun t =>
      (pocket t 2).held == 0 && (pocket t 2).phase == .empty && (pocket t 2).pending == 0) = true ∧
    (after (.pulseEnd 3 30000) (drives 3 .pulsing [.bank 1] (resettingBank 1 .pulsing)) fun t =>
      (bank t 1).timer == some 500) = true := by
  decide +kernel

theorem witness_pulse_ends_are_taken :
    (∀ x ∈ [PocketPhase.ejecting, .empty], (unit (blindEject x) 5).phase = .pulsing ∧
      (unit (blindEject x) 5).requesters = [.pocket 2] ∧ (pocket (blindEject x) 2).phase = x ∧
      (pocketCfg (blindEject x) 2).elim false (fun c => c.opto.isNone && decide (0 < c.capacity)) = true) ∧
    (let s := drives 3 .pulsing [.bank 1] (resettingBank 1 .pulsing)
     (unit s 3).phase = .pulsing ∧ (∀ p, .pocket p ∉ (unit s 3).requesters) ∧ .bank 1 ∈ (unit s 3).requesters ∧
     (bank s 1).phase = .resetting) ∧ (driverCfg play 5).recycle = 0 ∧ 0 < (driverCfg play 6).recycle := by
  decide +kernel

/-- R172: FEATURE SET of the diverter's feature to LIT asks for the hold; to DARK it releases a HOLDING driver,
clears the spent mark, and asks for nothing. -/
theorem test_hold_follows_its_feature :
    (after (.featureSet 15 4 9 3 0) (rests 9 .dark play) fun t =>
      t.drivers.queue == [{ driver := 6, band := .eject, percent := 100, requesters := [.hold 6] }]) = true ∧
    (let s := { diverter .holding with drivers := { (diverter .holding).drivers with
       units := (diverter .holding).drivers.units.modify 6 fun u => { u with spent := true } } }
     after (.featureSet 15 4 9 1 0) s fun t =>
       (unit t 6).phase == .recycle && !(unit t 6).spent && t.drivers.queue == []) = true := by
  decide +kernel

/-- R146 with T unknown: the shortfall of 0 owes nothing, whatever T may be (log entry 5). -/
theorem test_shortfall_of_none :
    shortfall { play with balls := { play.balls with trough := none, inPlay := 4 } } = 0 := by
  have h : ∀ n, min n 0 = 0 := Nat.min_zero
  exact h _

/-! ## The load and the image -/

/-- R181: LOADING begins with the poll timer at 10 ms; a ms takes 1 off it; run out, it polls unacknowledged and
restarts. -/
theorem test_poll_timer :
    (run (.selftestComplete true) State.reset).control.load.timer = some 10 ∧
    (passMs loading).control.load.timer = some 9 ∧
    (let s := { loading with control := { loading.control with load := { loading.control.load with timer := some 0 } } }
     due s = some (.loadPollExpiry false) ∧
       after (.loadPollExpiry false) s fun t => t.control.load.timer == some 10 && t.control.load.polls == 2) := by
  decide +kernel

/-- Section 11.3: a rule record: DIRECT, group 2, combo; counts 3 and 0; feature 7; 500 and 2,500; LIGHT FEATURE 7;
after-state LIT, direct driver 3. The other 63 records are missing bytes, which read as 0: UNUSED. -/
def oneRule : List Byte := header.set 5 1 ++ [170, 48, 7, 0x01, 0xF4, 0x09, 0xC4, 39, 195, 255]

theorem test_rule_record :
    ruleFor oneRule 0 =
      { cls := .direct, closeCount := 3, openCount := 1, group := 2, feature := some 7, plain := 500, lit := 2500
        action := some (.lightFeature 7), after := .lit, combo := true, activity := false, driver := some 3
        index := 3 } ∧
    (ruleFor oneRule 1).cls = .unused ∧ (ruleFor header 5).cls = .playfield ∧ (ruleFor header 5).plain = 500 := by
  decide +kernel

/-- R10, R82, R150: fields of the header example, and of one whose fields lie outside their ranges. -/
theorem test_header_fields :
    let t := buildImage 1 header
    let u := buildImage 1 ((((header.set 7 9).set 9 1).set 10 0).set 15 12)
    t.threshold = 3 ∧ t.multiballBalls = 3 ∧ t.averaging = 8 ∧ t.searchDelay = 10 ∧ t.releaseSpacing = 400 ∧
    (t.channels.get 4).enabled = true ∧ u.installed = 6 ∧ u.multiballBalls = 2 ∧ u.censusInterval = 250 ∧
    u.averaging = 8 := by
  decide +kernel

theorem witness_TheImageIsCorrected :
    (imgByte header 5).testBit 0 = false ∧ (∀ k : Fin 8, (imgByte (header.set 5 255) 5).testBit k.val = true) ∧
    imgByte oneRule 24 / 32 = 5 ∧
    (∀ c : Fin 8, imgByte (header.set 5 1 ++ [BitVec.ofNat 8 (32 * c.val)]) 24 / 32 = c.val) := by
  decide +kernel

/-! ## The census and the fault byte -/

/-- R83: station 4 in PLAY with two balls in P2, mode 12 its own, mode 4 another's; the same in LISTEN-ONLY. -/
def reporting (st : StationState) : State :=
  withMode 12 entry4 (holds 4 .plain 2 (pocket2 { pocketWith 2 .stable with stuck := 1 } (stationIn st 4)))

theorem test_census_fields :
    (let x := censusNow (reporting .play)
     x.state = 4 ∧ x.trough = 7 ∧ (x.held.get 2).val = 2 ∧ (x.stuck.get 2).val = 1 ∧ x.modes.get 12 = true ∧
       x.modes.get 4 = false ∧ x.players.val = 2) ∧
    (let x := censusNow (reporting .listenOnly)
     x.state = 6 ∧ x.held.get 2 = 0 ∧ x.stuck.get 2 = 0 ∧ x.modes.get 12 = false) ∧
    (censusNow (counting (some 1))).trough = 1 := by
  decide +kernel

/-- R64 byte 7: EJECTOR is bit 3; a detail shows in bit 2. -/
theorem test_fault_byte :
    faultByte (setFlag .ejector play) = 8 ∧
    faultByte (run (.shortDetected 6) (diverter .holding)) = 4 ∧ faultByte (setFlag .switch play) = 128 := by
  decide +kernel

theorem witness_census_fields :
    (reporting .play).control.station ≠ .listenOnly ∧ (reporting .listenOnly).control.station = .listenOnly ∧
    pocketCfg (reporting .play) 0 = none ∧ (pocketCfg (reporting .play) 2).isSome = true ∧
    (pocket (reporting .play) 2).held ≤ 3 ∧ isTrough (counting (some 1)) = true ∧
    (counting (some 1)).trough.count = some 1 ∧ isTrough play = false ∧ play.balls.missing ≤ 6 := by
  decide +kernel

/-! ## Serves and multiball starts -/

/-- The trough station at a settle expiry, trough position 0 CLOSED, `n` serves pending, in phase `x`. -/
def settling (o : Option Nat) (n : Nat) (x : ServePhase) : State :=
  { counting o with trough := { (counting o).trough with pending := n, phase := x } }

/-- R140: a fall of the count confirms the serve, reported as SERVE; the next pending one starts. -/
theorem test_fall_confirms_the_serve :
    (after .troughSettleTimerExpiry (settling (some 2) 2 .serving) fun t =>
      t.trough.phase == .serveWait && t.trough.pending == 1 && t.trough.count == some 1 && pulseQueued t 7 &&
      t.link.queue.any fun e => e.bulletin == .trough 1 0) = true ∧
    (after .troughSettleTimerExpiry (settling (some 0) 1 .waiting) fun t => t.trough.phase == .serveWait) = true := by
  decide +kernel

theorem witness_settle_with_serves :
    (∀ x ∈ [ServePhase.idle, .waiting, .serveWait, .serving], ∀ n ∈ [0, 1, 2],
      (settling (some 2) n x).trough.settle.isSome = true ∧ (settling (some 2) n x).trough.phase = x ∧
      (settling (some 2) n x).trough.pending = n ∧ troughPositions (settling (some 2) n x) = 1 ∧
      troughDriver (settling (some 2) n x) = some 7 ∧ (unit (settling (some 2) n x) 7).phase ≠ .faulted) ∧
    troughDriver (noLane (settling (some 2) 1 .waiting)) = none ∧
    troughPositions { trough with trough := (settling (some 2) 2 .serving).trough } = 0 ∧
    (unit (drives 7 .faulted [] (settling (some 2) 1 .waiting)) 7).phase = .faulted := by
  decide +kernel

/-- Station 4's own LOCK on the line, the credit of player 1 one short. -/
def ownLock (x : LockPayload) : State := { oneShort with link := (queued true [.lock x] oneShort).link }

/-- R145, R146: this station's own LOCK KICK-THROUGH starts the multiball. -/
theorem test_own_lock_starts_multiball :
    let x := { lock2 with player := 1, event := 2 }
    after (.lock 4 x) (ownLock x) (fun t =>
      t.balls.credits.get 0 == 0 && t.pockets.release == [2] && (pocket t 2).phase == .releaseWait) = true := by
  decide +kernel

theorem witness_multiball_starts :
    let x := { lock2 with player := 1, event := 2 }
    let multi := { oneShort with balls := { oneShort.balls with phase := .multi, inPlay := 2 } }
    hears 4 (.lock x) (ownLock x) ∧ isOwn 4 (.lock x) (ownLock x) = true ∧ (4 : StationNo) = strap (ownLock x) ∧
    hears 5 (.lock x) multi ∧ multi.control.station = .play ∧
    multi.control.image.threshold ≤ min 4 (multi.balls.credits.get multi.rules.current + 1) ∧
    hears 4 (.lock lock2) play ∧ hears 4 (.lock lock2) (stationIn .tilt 4) ∧ x.held.toNat ≤ 3 := by
  unfold hears
  decide +kernel

/-! ## Faulted drivers, shared pulses, restarts by BOTH, deferred entries -/

/-- R36, R141: an OPEN in a bank's pulse faults the bank; in a serve's pulse, the serve fails. -/
theorem test_open_in_other_pulses :
    (after (.openDetected 3) (drives 3 .pulsing [.bank 1] (resettingBank 1 .pulsing)) fun t =>
      (bank t 1).phase == .faulted && resting t 12 == .off && t.control.flags.ejector) = true ∧
    (after (.openDetected 7) (drives 7 .pulsing [.trough] (serving 1)) fun t =>
      t.trough.phase == .idle && t.trough.pending == 0 && t.control.flags.ejector) = true := by
  decide +kernel

/-- D5 PULSING for P2, an entry of a search for it queued. -/
def queuedAgain : State :=
  let s := drives 5 .pulsing [.pocket 2] (ejecting 1)
  { s with drivers := { s.drivers with
      queue := [{ driver := 5, band := .search, percent := 100, requesters := [.search] }] } }

theorem witness_faulted_drivers :
    pulseQueued queuedAgain 5 = true ∧ (queuedAgain.drivers.queue.find? fun k => k.driver == 5).isSome = true ∧
    queuedAgain.drivers.waiting = [] ∧ (∀ b, .bank b ∉ (unit queuedAgain 5).requesters) ∧
    (unit queuedAgain 5).phase = .pulsing ∧ pulseQueued (drives 5 .pulsing [.pocket 2] (ejecting 1)) 5 = false ∧
    (serving 1).trough.phase = .serving ∧ play.trough.phase ≠ .serveWait ∧ play.trough.phase ≠ .serving ∧
    (bank (resettingBank 1 .pulsing) 1).phase = .resetting ∧ (bankCfg (resettingBank 1 .pulsing) 1).isSome = true ∧
    (bank play 1).phase ≠ .resetting ∧ (pocket play 2).phase ≠ .jammed ∧
    (pocket (pocket2 (pocketWith 0 .jammed) play) 2).phase = .jammed := by
  decide +kernel

/-- R118: the end of a pulse that a search and a FIRE share with a blind pocket confirms its eject. -/
def sharedPulse : State :=
  let s := blindEject .ejecting
  { s with drivers := { s.drivers with
      units := s.drivers.units.modify 5 fun u => { u with requesters := [.search, .pocket 2, .fire] } } }

theorem test_shared_pulse :
    after (.pulseEnd 5 30000) sharedPulse fun t => (pocket t 2).held == 0 && (pocket t 2).phase == .empty := by
  decide +kernel

theorem witness_shared_pulse :
    (unit sharedPulse 5).phase = .pulsing ∧ (unit sharedPulse 5).requesters.Nodup ∧
    .pocket 2 ∈ (unit sharedPulse 5).requesters ∧ (∀ q, .pocket q ∈ (unit sharedPulse 5).requesters → q = 2) ∧
    (pocket sharedPulse 2).phase = .ejecting ∧
    (pocketCfg sharedPulse 2).elim false (fun c => c.opto.isNone && decide (0 < c.capacity)) = true := by
  decide +kernel

/-- R191, R190, R37: a CLEAR of BOTH restarts a FAULTED bank and leaves every counter 0. -/
theorem test_clear_both_restarts :
    let s := raiseCounter .clashes { play with rules := { play.rules with
      banks := play.rules.banks.set 1 { phase := .faulted, attempt := 2, timer := none, restart := false } } }
    after (.clearBoth 15 4) s (fun t =>
      (bank t 1).phase == .resetting && (bank t 1).restart && counter t .clashes == 0 && pulseQueued t 3) = true := by
  decide +kernel

theorem witness_clear_both :
    let s := pocket2 { pocketWith 0 .jammed with stuck := 2, jam := 1 } play
    hears 15 (.clear 255 3) s ∧ inGame s = true ∧ (pocket s 2).phase = .jammed ∧ (pocketCfg s 2).isSome = true ∧
    (bankCfg play 1).elim false (fun c => c.resetDriver == some 3) = true := by
  unfold hears
  decide +kernel

/-- P2 EJECTING its one ball, `x` more resting, with a deferred entry. -/
def deferring (x : Nat) : State :=
  pocket2 { pocketWith 1 .ejecting with pending := 1, deferred := true, stuck := x } play

/-- R118, R114: a deferred close at a pocket that the confirm leaves empty starts its settle window. -/
theorem test_deferred_close :
    let c : PocketCfg := { capacity := 2, feature := some 4, entry := some 44, opto := some 2, driver := 5, kickout := 1000 }
    let t := confirmEject 2 c (deferring 0)
    (pocket t 2).phase = .settling ∧ (pocket t 2).settle = some 300 ∧
    (pocket (confirmEject 2 c (deferring 1)) 2).resting = 1 := by
  decide +kernel

theorem witness_deferred_entries :
    (∀ x ∈ [0, 1], (pocket (deferring x) 2).deferred = true ∧ (pocket (deferring x) 2).stuck = x) ∧
    (pocketCfg (deferring 0) 2).elim false (fun c => c.opto.isSome) = true ∧
    (pocketCfg (blindEject .ejecting) 2).elim false (fun c => c.opto.isNone) = true ∧
    (pocketCfg play 2).elim false (fun c => lockCondition c (rests 4 .lit (deferring 1))) = true ∧
    (pocketCfg play 2).elim true (fun c => lockCondition c (deferring 1)) = false ∧
    (deferring 1).link.queue.length < 15 := by
  decide +kernel

/-! ## The queued CENSUS in an idle ms, offers at rest, the course of a game -/

/-- Station 4, idle, its own mode 12 at its last ms, a CENSUS that reports it queued. -/
def lastMs : State :=
  let s := withMode 12 { entry4 with owner := 4, time := .running 1 } (stationIn .play 4)
  let s := { s with
    scanner := { s.scanner with scanEnd := false }, analog := { s.analog with roundEnd := false }
    control := { s.control with image := { s.control.image with drivers := unloadedImage.drivers } } }
  queued false [.census (censusNow s)] s

-- R84: the ms in which the mode leaves the owned-and-active set renews the queued CENSUS.
theorem test_idle_ms_renews_the_census :
    lastMs.pending = [] ∧ due lastMs = none ∧ (lastCensus lastMs.link).any (fun x => x.modes.get 12) = true ∧
    (match step lastMs with
      | .next t => (lastCensus t.link).any fun x => !x.modes.get 12
      | .fault _ | .refused _ => false) = true := by
  decide +kernel

theorem witness_an_offer_at_rest :
    play.link.receive = .atRest ∧ play.link.sender = false ∧ play.link.hold = false ∧
    (offerTo (.serve 1) play.link).queue = freshEntry (.serve 1) :: [] ∧ waiting4.link.receive ≠ .atRest ∧
    (offerTo (.serve 1) gameFull.link).refused = true ∧ (offerTo (.status 2 []) gameFull.link).drop = true := by
  decide +kernel

-- R60, R71: a dominant sample after a sender's own last check cell leaves its read-back.
theorem test_a_sample_past_the_end :
    let s := sending 0 .tilt
    let s := { s with link := { s.link with
      receive := .receiving (bulletinCells 4 .tilt) (checkBits (bulletinBits 4 .tilt)) } }
    isOwn 4 .tilt (run (.samplingPoint true) s) = true := by
  decide +kernel

theorem witness_census_in_tilt :
    let s := withMode 12 { entry4 with owner := 5 } (stationIn .tilt 4)
    let none := { playing with state := 6 }
    let full := { playing with held := .fill 4 2 }
    hears 5 (.census none) s ∧ inGame s = true ∧ (5 : StationNo) ≠ strap s ∧
    (recordOf none).state = .listenOnly ∧ (run (.census 5 none) s).modes.get 12 = .none ∧
    (run (.census 5 none) (withMode 12 entry4 (stationIn .tilt 4))).modes.get 12 = some entry4 ∧
    hears 5 (.census full) s ∧ (run (.census 5 full) s).balls.inPlay = 0 ∧
    (run (.census 5 full) s).control.station = .ready ∧ (run (.census 5 playing) s).control.station = .tilt := by
  unfold hears
  decide +kernel

-- R36, R37: at PLAYER UP a COUNTING DROP bank whose reset driver is FAULTED is FAULTED; a sound one requests.
theorem test_player_up_at_a_drop_bank :
    let s := stationIn .ready 4
    let bad := run (.playerUp 15 3) (drives 3 .faulted [] s)
    let good := run (.playerUp 15 3) s
    (bank bad 1).phase = .faulted ∧ bad.control.flags.ejector = true ∧ resting bad 12 = .off ∧
    (bank good 1).phase = .resetting ∧ good.control.flags.ejector = false ∧
    good.drivers.queue = [{ driver := 3, band := .reset, percent := 100, requesters := [.bank 1] }] := by
  decide +kernel

theorem witness_player_up :
    let s := stationIn .ready 4
    (bank s 1).phase = .counting ∧ (bankCfg s 1).bind BankCfg.resetDriver = some 3 ∧
    hears 15 (.playerUp 3) (drives 3 .faulted [] s) ∧ (unit (drives 3 .faulted [] s) 3).phase = .faulted := by
  unfold hears
  decide +kernel

-- R172, R176: CLEAR FAULTS returns a diverter's driver to IDLE while its feature is LIT: its hold binding asks.
theorem test_clear_faults_asks_the_hold :
    let s := rests 9 .lit (drives 6 .faulted [] play)
    hears 15 (.clear 4 1) s ∧ (unit s 6).spent = false ∧ (driverCfg s 6).binding.any (fun f => effective s f == .lit) = true ∧
    (run (.clearFaults 15 4) s).drivers.queue =
      [{ driver := 6, band := .eject, percent := 100, requesters := [.hold 6] }] := by
  unfold hears
  decide +kernel

-- R117, R124: a restarted pocket has its eject driver requested.
theorem test_clear_faults_asks_the_eject :
    (run (.clearFaults 15 4) (pocket2 { pocketWith 0 .jammed with stuck := 2, jam := 1 } play)).drivers.queue =
      [{ driver := 5, band := .eject, percent := 100, requesters := [.pocket 2] }] := by
  decide +kernel

/-! ## The load without an image, TROUGH and UNUSED switches, the forms of a round, a confirm and an offer -/

theorem witness_no_image :
    unloadedWithin State.reset ∧ unloadedWithin loading ∧ loading.control.station = .loading ∧
    loading.control.station.running = false ∧ (∃ t, step { loading with pending := [.restGap] } = .next t) ∧
    unloadedWithin { loading with pending := [.restGap] } ∧
    let t := run (.loadBurstRead (.fill 16 0)) loading
    exec (.loadBurstRead (.fill 16 0)) loading = .next t ∧ t.control.station = .listenOnly ∧
      t.peers.timer = some 1000 ∧ t.control.faultLine = true :=
  ⟨fun _ => rfl, fun _ => rfl, rfl, rfl, ⟨_, rfl⟩, fun _ => rfl, rfl, by decide +kernel⟩

/-- A full queue with a CENSUS in it, on the line where `on`. -/
def censusFull (on : Bool) : State :=
  if on then queued true (.census playing :: List.replicate 15 (.serve 1)) play
  else queued false (List.replicate 15 (.serve 1) ++ [.census playing]) play

theorem witness_census_at_a_full_queue :
    ∀ on, (censusFull on).link.queue.length = 16 ∧ (censusFull on).link.queue.any TxEntry.isCensus = true ∧
      ((censusFull on).link.queue.any fun e => e.isCensus && e.onLine) = on ∧
      (censusFull on).link.queue[15]?.map TxEntry.isCensus = some !on := by
  decide +kernel

/-- Station `n` in state `st`, switch 0 of class TROUGH and switch 5, UNUSED with its activity flag set, CLOSED
where `c` and sampled otherwise. -/
def troughMoves (st : StationState) (n : StationNo) (c : Bool) : State :=
  let x : SwitchState := { closed := c, count := 0, stuck := false, timer := none }
  let s := ruled 0 { hit with cls := .trough } (ruled 5 { hit with cls := .unused } (stationIn st n))
  let s := switchIs 5 x (switchIs 0 x s)
  if c then s else sampled 5 (sampled 0 s)

/-- R5, R136, R3: the trough station's settle timer restarts at an opening, in JOINING too; another station's does
not; a close in PLAY scores; an UNUSED switch alone does nothing. -/
theorem test_trough_and_unused_switches :
    (run .scanCompletion (troughMoves .joining 1 true)).trough.settle = some 300 ∧
    (run .scanCompletion (troughMoves .joining 4 true)).trough.settle = none ∧
    (run .scanCompletion (troughMoves .idle 4 true)).balls.quiet = some 5000 ∧
    (run .scanCompletion (troughMoves .play 1 false)).rules.tallies.get 0 = 1000 ∧
    (let t := run .scanCompletion (sampled 5 (ruled 5 { hit with cls := .unused } play))
     (t.scanner.switches.get 5).closed = true ∧ t.balls.quiet = none ∧ t.rules.tallies.get 0 = 0) := by
  decide +kernel

theorem witness_trough_and_unused_switches :
    (∀ s ∈ [troughMoves .play 1 false, troughMoves .idle 1 true, sampled 5 (ruled 5 { hit with cls := .unused } play)],
      s.scanner.running = true ∧ s.scanner.scanEnd = true ∧ s.scanner.baseline = true ∧
      (∀ b, (bank s b).timer = none) ∧
      (∀ i, (debounced s i).closed ≠ (s.scanner.switches.get i).closed → i = 0 ∨ (ruleOf s i).cls = .unused)) ∧
    (let s := sampled 5 (ruled 5 { hit with cls := .unused } play)
     (debounced s 0).closed = (s.scanner.switches.get 0).closed ∧ (ruleOf s 5).activity = true) ∧
    (let s := troughMoves .play 1 false
     isTrough s = true ∧ (debounced s 0).closed = true ∧ (ruleOf s 0).cls = .trough ∧ (ruleOf s 0).feature = none ∧
     (ruleOf s 0).action = none) ∧ (debounced (troughMoves .idle 1 true) 0).closed = false := by
  decide +kernel

/-- Pocket P2 with one ball of each kind, an eject for each owed, in RELEASE-WAIT at the head of the list. -/
def losing (pending : Nat) (deferred : Bool) (through held : Nat) : PocketState :=
  { pocketWith held .releaseWait with pending := pending, deferred := deferred, through := through }

theorem witness_rounds_that_change_nothing :
    (∀ x ∈ [PocketPhase.settling, .empty], (run .roundCompletion (rounds 400 true true (pocketWith 0 x))).pockets =
      (rounds 400 true true (pocketWith 0 x)).pockets) ∧
    (∀ x ∈ [PocketPhase.stable, .kickoutWait, .releaseWait, .ejecting, .jammed],
      (run .roundCompletion (rounds 600 false true (pocketWith 1 x))).pockets =
        (rounds 600 false true (pocketWith 1 x)).pockets) ∧
    (inGame { rounds 600 false true pocketReset with control :=
      { play.control with station := .joining } } = false) ∧
    (rounds 600 false false (pocketWith 1 .empty)).analog.firstDone = false := by
  decide +kernel

/-- R122, R118: a RELEASE-WAIT pocket that loses its ball takes the deferred entry last, in EMPTY or by R112. -/
theorem test_ball_lost_in_release :
    let after (x : PocketState) : PocketState := pocket (run .roundCompletion (rounds 400 true true x)) 2
    (after (losing 2 true 0 2)).phase = .releaseWait ∧ (after (losing 2 true 0 2)).deferred = true ∧
    (after (losing 1 true 1 0)).phase = .settling ∧ (after (losing 1 true 1 0)).through = 0 ∧
    (after (losing 1 true 1 1)).held = 1 ∧ (after (losing 1 true 1 1)).phase = .kickoutWait := by
  decide +kernel

theorem witness_ball_lost_in_release :
    ∀ x ∈ [losing 2 true 0 2, losing 1 false 1 0, losing 1 true 1 0, losing 1 true 1 1],
      let s := rounds 400 true true x
      (s.analog.channels.get 2).level = true ∧ ((run .roundCompletion s).analog.channels.get 2).level = false ∧
      s.analog.firstDone = true ∧ inGame s = true ∧ (pocket s 2).phase = .releaseWait ∧
      (isTrough s = false ∨ (s.analog.channels.get 4).level = true) := by
  decide +kernel

/-- The DROP bank 1 with its confirm timer run out and every member OPEN. -/
def openAtExpiry (restart : Bool) : State :=
  let s := confirming restart false
  switchIs 41 { closed := false, count := 0, stuck := false, timer := none } s

theorem witness_bank_confirms_at_expiry :
    ∀ v, let s := openAtExpiry v
      (bank s 1).phase = .resetting ∧ (bank s 1).timer.isSome = true ∧
      (bankCfg s 1).elim false (fun c => membersOpen s c && c.resetDriver == some 3) = true ∧
      resting (run (.bankConfirmTimerExpiry 1) s) 12 = .dark ∧ (bank (run (.bankConfirmTimerExpiry 1) s) 1) = bankReset ∧
      (resting (run (.bankConfirmTimerExpiry 1) s) 13 = .dark ↔ v = true) := by
  decide +kernel

/-- Station 4 whose P2 ejects its one held ball, with the release turn and `rest` behind it on the list. -/
def ejectsInTurn (rest : List PocketNo) : State :=
  let s := pocket2 { pocketWith 1 .ejecting with pending := 1, window := some 100 } play
  { s with pockets := { s.pockets with release := rest, turn := .taken 2 } }

/-- R129: the end of the sequence passes the turn; a pocket that still owes an eject keeps it. -/
theorem test_confirm_passes_the_turn :
    let c : PocketCfg := { capacity := 2, feature := some 4, entry := some 44, opto := some 2, driver := 5, kickout := 1000 }
    let more := { ejectsInTurn [] with pockets := { (ejectsInTurn []).pockets with
      pockets := (ejectsInTurn []).pockets.pockets.set 2 { pocketWith 2 .ejecting with pending := 2 } } }
    (confirmEject 2 c (ejectsInTurn [])).pockets.turn = .idle ∧
    (confirmEject 2 c (ejectsInTurn [0])).pockets.turn = .waiting 600 ∧
    (confirmEject 2 c more).pockets.turn = .taken 2 := by
  decide +kernel

theorem witness_kick_through_at_a_faulted_driver :
    let s := drives 5 .faulted [] (lockPocket 2 .lit)
    (unit s 5).phase = .faulted ∧ (pocketCfg s 2).elim false (fun c => decide (c.capacity ≤ (pocket s 2).held +
      (pocket s 2).resting) && c.driver == 5 && lockCondition c s) = true ∧
    (pocket (ejectsInTurn [0]) 2).deferred = false := by
  decide +kernel

/-- The trough station in PLAY, all four balls away but two in the trough, its trough count at `count`, its trough
eject driver in `x`, its serve state `ph`. -/
def awaits (count : Option Nat) (x : DriverPhase) (ph : ServePhase) : State :=
  { drives 7 x [] trough with trough := { troughReset with count := count, phase := ph } }

/-- R143, R139: a census that raises held counts and leaves B at 0 in PLAY owes one ball at the trough station. -/
theorem test_census_owes_a_replacement :
    let x := { playing with held := .set (.fill 4 0) 2 2 }
    let t := run (.census 5 x) (awaits (some 2) .idle .idle)
    t.balls.inPlay = 0 ∧ t.control.station = .play ∧ t.trough.phase = .serveWait ∧ t.trough.pending = 1 ∧
    pulseQueued t 7 = true ∧ (run (.census 5 x) (awaits (some 0) .idle .idle)).trough.phase = .waiting ∧
    (run (.census 5 x) (awaits (some 2) .faulted .idle)).control.flags.ejector = true := by
  decide +kernel

theorem witness_census_owes_a_replacement :
    let x := { playing with held := .set (.fill 4 0) 2 2 }
    ∀ s ∈ [awaits (some 2) .idle .idle, awaits (some 0) .idle .waiting, awaits (some 2) .faulted .idle,
        awaits (some 2) .idle .serving],
      hears 5 (.census x) s ∧ inGame s = true ∧ (5 : StationNo) ≠ strap s ∧ (recordOf x).state ≠ .listenOnly ∧
      isTrough s = true ∧ s.control.station = .play ∧ (run (.census 5 x) s).balls.trough.isSome = true ∧
      (run (.census 5 x) s).balls.inPlay = 0 ∧ (s.balls.peers.get 5).held.get 2 < (recordOf x).held.get 2 ∧
      s.trough.pending = 0 ∧ s.trough.recount = false ∧ troughDriver s = some 7 ∧ s.balls.phase = .single ∧
      ∀ m, x.modes.get m = (s.modes.get m).isSome := by
  unfold hears
  decide +kernel

theorem witness_merges_move_in_the_queue :
    let s := asks [eject4, { driver := 2, band := .search, percent := 100, requesters := [.search] }] play
    (s.drivers.queue.find? fun x => x.driver == 2) =
      some { driver := 2, band := .search, percent := 100, requesters := [.search] } ∧
    (unit s 2).phase ≠ .faulted ∧ Band.rank .direct < Band.rank .search ∧ Band.rank .search ≤ Band.rank .search ∧
    s.drivers.within := by
  unfold DriverCtl.within
  decide +kernel

/-- Station 4 in PLAY, member 40 of DROP bank 1 closing, of feature `f`, the bank in `x` with no confirm window. -/
def memberCloses (x : BankPhase) (f : Option FeatureNo) : State :=
  let s := sampled 40 (ruled 40 { play.control.image.rules.get 40 with feature := f } play)
  { s with rules := { s.rules with banks := s.rules.banks.set 1 { bankReset with phase := x } } }

/-- R35: a member that closes while its bank is RESETTING is marked and scores nothing, its feature DARK, absent, or
LATENT; in COUNTING, and in FAULTED with its feature set DARK (R36), it scores its plain value. -/
theorem test_a_member_of_a_bank_in_reset_scores_nothing :
    (∀ f ∈ [none, some 12, (some 31 : Option FeatureNo)],
      let t := run .scanCompletion (rests 31 .latent (memberCloses .resetting f))
      t.rules.tallies.get 0 = 0 ∧ t.rules.marks.get 40 = true ∧ (bank t 1).phase = .resetting ∧ t.link.queue = [] ∧
      resting t 31 = .latent) ∧
    ∀ x ∈ [BankPhase.counting, .faulted],
      (run .scanCompletion (memberCloses x (some 12))).rules.tallies.get 0 = 1000 := by
  decide +kernel

/-- R32, R33, R35: the hypotheses of each clause: a DROP bank in RESETTING and in COUNTING, a STANDUP member with a
value and one whose feature is OFF. -/
theorem witness_members_in_play :
    (∀ x ∈ [BankPhase.resetting, .counting, .faulted], ∀ f ∈ [none, (some 12 : Option FeatureNo)],
      let s := memberCloses x f
      alone 40 s = true ∧ s.control.station = .play ∧ (s.scanner.switches.get 40).closed = false ∧
      (debounced s 40).closed = true ∧ (ruleOf s 40).cls = .bankMember ∧ (ruleOf s 40).index = (1 : BankNo).val ∧
      (bankCfg s 1).any BankCfg.isDrop = true ∧ (bank s 1).phase = x) ∧
    ∀ f ∈ [none, (some 31 : Option FeatureNo)],
      let s := rests 31 .off (sampled 50 (ruled 50 { play.control.image.rules.get 50 with feature := f } play))
      alone 50 s = true ∧ (ruleOf s 50).cls = .bankMember ∧ (ruleOf s 50).index = (2 : BankNo).val ∧
      (bankCfg s 2).any (fun c => !c.isDrop) = true ∧ (f = some 31 → effective s 31 = .off) := by
  decide +kernel

/-- A DROP bank's completion in PLAY with its reset driver sound and FAULTED, no member feature bound. -/
theorem witness_drop_completions_in_play :
    ∀ x ∈ [DriverPhase.idle, .faulted],
      let s := drives 3 x [] { play with rules := { play.rules with marks := (play.rules.marks.set 40 true).set 41 true } }
      (bankCfg s 1).elim false (fun c => c.isDrop && c.resetDriver == some 3 && c.members == [40, 41, 42] && decide
        (markedCount { s with rules := { s.rules with marks := s.rules.marks.set 42 true } } c = c.completion)) = true ∧
      (bank s 1).phase = .counting ∧ s.rules.marks.get 42 = false ∧ s.control.station = .play ∧
      ((unit s 3).phase = .faulted ↔ x = .faulted) ∧
      ∀ f ∈ [12, 13, (14 : FeatureNo)], ∀ k, (driverCfg s k).binding ≠ some f := by
  decide +kernel

/-- Switch 20, of a DIRECT rule for D3 that names feature 6 and lights feature 7, closing in PLAY. -/
def slingshot (r : Resting) : State :=
  rests 6 r (sampled 20 (ruled 20 { hit with
    cls := .direct, driver := some 3, feature := some 6, lit := 2500, action := some (.lightFeature 7) } play))

/-- R19, R21: the pulse is requested in every row; the value and the action follow the feature. -/
theorem test_direct_close_follows_the_table :
    ∀ x ∈ [(Resting.off, 0, Resting.off, Resting.dark), (.dark, 1000, .dark, .dark), (.latent, 1000, .lit, .dark),
        (.lit, 2500, .dark, .lit)],
      let t := run .scanCompletion (slingshot x.1)
      pulseQueued t 3 = true ∧ t.rules.tallies.get 0 = x.2.1 ∧ resting t 6 = x.2.2.1 ∧ resting t 7 = x.2.2.2 := by
  decide +kernel

theorem witness_direct_close_of_any_feature :
    ∀ x ∈ [Resting.off, .held, .dark, .latent, .lit], alone 20 (slingshot x) = true ∧ inGame (slingshot x) = true ∧
      (debounced (slingshot x) 20).closed = true ∧ (slingshot x).control.station = .play ∧
      (ruleOf (slingshot x) 20).cls = .direct ∧ (ruleOf (slingshot x) 20).driver = some 3 := by
  decide +kernel

/-- P2's entry switch closing in PLAY, the pocket STABLE with one ball; its rule names no feature and takes `a`. -/
def entryLights (a : Option Action) : State :=
  sampled 44 (ruled 44 { img.rules.get 44 with feature := none, action := a } (lockPocket 1 .dark))

/-- R114: an action that lights the lock feature locks the very ball that lit it. -/
theorem test_the_ball_that_lit_the_lock_is_locked :
    (pocket (run .scanCompletion (entryLights (some (.lightFeature 4)))) 2).held = 2 ∧
    (pocket (run .scanCompletion (entryLights none)) 2).held = 1 ∧
    (pocket (run .scanCompletion (entryLights none)) 2).resting = 1 := by
  decide +kernel

theorem witness_entries_by_the_table :
    ∀ a ∈ [none, some (.lightFeature 4)], alone 44 (entryLights a) = true ∧ inGame (entryLights a) = true ∧
      (entryLights a).control.station = .play ∧ ((entryLights a).scanner.switches.get 44).closed = false ∧
      (debounced (entryLights a) 44).closed = true ∧ (ruleOf (entryLights a) 44).cls = .pocketEntry ∧
      (ruleOf (entryLights a) 44).index = (2 : PocketNo).val ∧
      (pocketCfg (entryLights a) 2).elim false (fun c => c.entry == some 44) = true := by
  decide +kernel

/-- P2 at the head of the release list as the turn timer runs out, holding `held` balls, its lock feature at `r`, an
entry deferred where `v`, its driver in `x`. -/
def turning (held : Nat) (r : Resting) (v : Bool) (x : DriverPhase) : State :=
  let s := drives 5 x [] (lockPocket held r)
  { s with pockets := {
      pockets := s.pockets.pockets.set 2 { pocketWith held .releaseWait with pending := held, deferred := v }
      release := [2, 0], turn := .waiting 0 } }

/-- R129, R112, R117: the deferred ball joins held, rests, or is kicked through, and then the eject starts; with the
driver FAULTED the pocket jams and the turn passes. -/
theorem test_turn_takes_the_deferred_entry :
    (∀ y ∈ [(1, Resting.lit, 2, 0, 1), (1, .dark, 1, 1, 1), (2, .lit, 2, 0, 3), (2, .dark, 2, 0, 3)],
      let t := run .turnTimerExpiry (turning y.1 y.2.1 true .idle)
      (pocket t 2).held = y.2.2.1 ∧ (pocket t 2).resting = y.2.2.2.1 ∧ (pocket t 2).pending = y.2.2.2.2 ∧
      (pocket t 2).phase = .ejectWait ∧ t.pockets.turn = .taken 2 ∧ pulseQueued t 5 = true) ∧
    (let t := run .turnTimerExpiry (turning 1 .lit true .faulted)
     (pocket t 2).phase = .jammed ∧ (pocket t 2).stuck = 2 ∧ t.pockets.turn = .waiting 600) := by
  decide +kernel

theorem witness_turns_and_faulted_drivers :
    (∀ v x, x ∈ [DriverPhase.idle, .faulted] → (turning 1 .lit v x).pockets.turn = .waiting 0 ∧
      (turning 1 .lit v x).pockets.release = 2 :: [0] ∧ (pocketCfg (turning 1 .lit v x) 2).isSome = true ∧
      (pocket (turning 1 .lit v x) 2).deferred = v ∧ ((unit (turning 1 .lit v x) 5).phase = .faulted ↔ x = .faulted)) ∧
    (∀ x ∈ [PocketPhase.kickoutWait, .rearm], let s := drives 5 .faulted [] (ranOutIn x)
      (pocketCfg s 2).elim false (·.driver == 5) = true ∧ (unit s 5).phase = .faulted ∧ (pocket s 2).phase = x ∧
      (pocket s 2).kickout.isSome = true ∧ (pocket s 2).rearm.isSome = true) ∧
    ∀ n ∈ [1, 2], let s := drives 5 .faulted [] (ejecting n)
      (pocket s 2).phase = .ejecting ∧ (pocket s 2).window.isSome = true ∧ (pocket s 2).attempt = n ∧
      (unit s 5).phase = .faulted := by
  decide +kernel

/-- R125, R148: a later slot passes a pocket that holds a ball, and asks the driver of no pocket at 100 %; an EMPTY
pocket's driver is asked at 100 %. -/
theorem test_search_slots :
    (let t := run .searchSlotExpiry (pocket2 (pocketWith 1 .stable) (searches .round 1 [5, 6]))
     t.balls.todo = [] ∧ t.balls.searchTimer = some 500 ∧ pulseQueued t 5 = false ∧ pulseQueued t 6 = true) ∧
    (run .searchSlotExpiry (searches .round 1 [5, 6])).drivers.queue =
      [{ driver := 5, band := .search, percent := 100, requesters := [.search] }] := by
  decide +kernel

theorem witness_search_slots :
    let s := pocket2 (pocketWith 1 .stable) (searches .round 1 [5, 6])
    s.balls.todo = [5] ++ 6 :: [] ∧ pocketOfDriver s 5 = some 2 ∧ (pocket s 2).phase ≠ .empty ∧
    (pocket s 2).phase ≠ .jammed ∧ pocketOfDriver s 6 = none ∧ s.balls.search = .round ∧
    s.balls.searchTimer.isSome = true ∧ (pocket (searches .round 1 [5, 6]) 2).phase = .empty ∧
    (∀ n ∈ [1, 2], searchList (searches .pause n []) = [] ++ 5 :: [6] ∧ (searches .pause n []).balls.round < 3) := by
  decide +kernel

/-- R143, R140: a MISSING, and a LOCK HELD, that leave B at 0 in PLAY ask for the serve at once. -/
theorem test_missing_and_lock_owe_a_serve :
    ∀ c ∈ [Instr.missing 1 2, .lock 5 { lock2 with player := 2, held := 2 }],
      let t := run c (awaits (some 2) .idle .idle)
      t.balls.inPlay = 0 ∧ t.trough.phase = .serveWait ∧ t.trough.pending = 1 ∧ pulseQueued t 7 = true ∧
      (run c (awaits (some 0) .idle .idle)).trough.phase = .waiting ∧
      (run c (awaits (some 2) .faulted .idle)).control.flags.ejector = true := by
  decide +kernel

theorem witness_missing_and_lock_owe_a_serve :
    let x := { lock2 with player := 2, held := 2 }
    ∀ s ∈ [awaits (some 2) .idle .idle, awaits (some 0) .idle .waiting, awaits (some 2) .faulted .idle,
        awaits (some 2) .idle .serving],
      hears 1 (.missing 2) s ∧ hears 5 (.lock x) s ∧ hears 1 (.trough 2 2) s ∧ s.control.station = .play ∧
      isTrough s = true ∧ s.trough.pending = 0 ∧ s.balls.trough.isSome = true ∧ s.balls.phase = .single ∧
      (run (.missing 1 2) s).balls.inPlay = 0 ∧ (run (.lock 5 x) s).balls.inPlay = 0 ∧ troughDriver s = some 7 := by
  unfold hears
  decide +kernel

/-- Station 4 with P2 JAMMED and the transmit queue of `q`. -/
def jammedWith (q : State) : State :=
  pocket2 { pocketWith 0 .jammed with stuck := 2, jam := 1 } { play with link := { play.link with queue := q.link.queue } }

/-- R124, R75 (log entry 47): a LOCK FREED that a full queue refuses sets TRANSMIT; with room the flag is clear. -/
theorem test_a_refused_lock_freed_sets_transmit :
    (∀ c ∈ [Instr.clearFaults 15 4, .clearBoth 15 255],
      (run c (jammedWith gameFull)).control.flags.transmit = true ∧
      (run c (jammedWith play)).control.flags.transmit = false) := by
  decide +kernel

theorem witness_a_refused_lock_freed :
    (∀ c ∈ [1, (3 : Byte)], let s := jammedWith gameFull
      let q := (received 15 (.clear 255 c) s).link.queue
      hears 15 (.clear 255 c) s ∧ inGame s = true ∧ (pocket s 2).phase = .jammed ∧ (pocketCfg s 2).isSome = true ∧
      q.length = 16 ∧ (∀ e ∈ q, e.onLine = false → e.bulletin.cls ≤ 1) ∧
      hears 15 (.clear 255 c) (jammedWith play) ∧ (received 15 (.clear 255 c) (jammedWith play)).link.queue.length ≤ 12) := by
  unfold hears
  decide +kernel

end Sys2Proof.Tests
end

