-- ==== Sys2Proof/Proofs/PowerOn.lean ====
section
/-! SUPPORT. The values after power-on (R4, R15, R38, R41, R51, R79, R90, R93, R132, R151, R178, R180). -/

namespace Sys2Proof.Machine

/-! ## The state after power-on -/

/-- R41, R50, R68, R93, R139, R145, R167, R170, R190: the ceilings hold after power-on. -/
theorem inv_reset : Inv State.reset := by
  refine ⟨⟨by decide, by decide, fun _ => Nat.zero_le _⟩, ⟨by decide, List.nodup_nil, by decide⟩,
    ⟨fun p => ?_, Nat.zero_le _⟩, fun k => ?_, by unfold modesWithin; decide, fun p => ?_,
    ⟨Nat.zero_le _, Nat.zero_le _⟩⟩
  · exact (Tab.get_fill 0 p).trans_le (Nat.zero_le _)
  · exact (Tab.get_fill 0 k).trans_le (Nat.zero_le _)
  · exact (Tab.get_fill 0 p).trans_le (Nat.zero_le _)

/-- Section 1.2: the debounce counts, and the close and open counts of the image not yet loaded, lie within 0..15. -/
theorem countsWithin_reset : countsWithin State.reset := by
  intro i
  simp [State.reset, powerOnState, scannerReset, ruleOf, controlReset, unloadedImage]

/-- R110, R127: with no pocket fitted and the release list empty the pockets are sound. -/
theorem pocketsSound_reset : pocketsSound State.reset := by
  have unfitted (p : PocketNo) : pocketCfg State.reset p = none := Tab.get_fill none p
  refine ⟨fun p c h => ?_, fun p c h => ?_, List.nodup_nil, by simp [State.reset, powerOnState, pocketsReset]⟩
  · simp [unfitted p] at h
  · simp [unfitted p] at h

/-- Settles O4: block by block, each table being a table of one thing. -/
theorem resetLeavesThePowerOnValues : Obligations.ResetLeavesThePowerOnValues := by
  refine ⟨?station, ?sensing, ?rules, ?pockets, ?balls, ?link, ?drivers, ?kept⟩
  case station =>
    exact ⟨rfl, rfl, rfl, rfl, rfl, Tab.get_fill 0, rfl, rfl, rfl⟩
  case sensing =>
    exact ⟨rfl, rfl, Tab.get_fill _, rfl, rfl, Tab.get_fill _⟩
  case rules =>
    have counting (b : BankNo) : bank State.reset b = bankReset := Tab.get_fill _ b
    refine ⟨Tab.get_fill 0, rfl, rfl, rfl, Tab.get_fill _, Tab.get_fill _, fun b => ?_, Tab.get_fill _⟩
    rw [counting b]
    exact ⟨rfl, rfl, rfl⟩
  case pockets =>
    exact ⟨Tab.get_fill _, rfl, rfl⟩
  case balls =>
    refine ⟨rfl, rfl, rfl, rfl, Tab.get_fill 0, fun j p => ?_, rfl, rfl, rfl, rfl, rfl⟩
    have empty : State.reset.balls.peers.get j = { held := .fill 4 0, stuck := .fill 4 0 } := Tab.get_fill _ j
    rw [empty]
    exact ⟨Tab.get_fill 0 p, Tab.get_fill 0 p⟩
  case link =>
    refine ⟨rfl, rfl, rfl, rfl, rfl, rfl, rfl, fun j => ?_⟩
    have silent : peer State.reset j = { presence := .unknown, silence := none, record := none } := Tab.get_fill _ j
    rw [silent]
    exact ⟨rfl, rfl, rfl⟩
  case drivers =>
    refine ⟨rfl, rfl, fun d => ?_, Tab.get_fill _⟩
    have idle : unit State.reset d = driverReset := Tab.get_fill _ d
    rw [idle]
    exact ⟨rfl, rfl, rfl, rfl, rfl, rfl⟩
  case kept =>
    exact ⟨inv_reset, List.Pairwise.nil, List.Pairwise.nil, ⟨Nat.zero_le _, fun _ => rfl⟩, countsWithin_reset,
      pocketsSound_reset⟩

end Sys2Proof.Machine

end

