-- ==== Sys2Proof/Proofs/IdleStep.lean ====
section
/-! SUPPORT. What the end of a step makes of the link and the lamps, and a step with no command waiting. -/

namespace Sys2Proof.Machine

/-! ## The end of a step: the link and the lamps -/

/-- R84: what the end of a step makes of the link. -/
theorem finish_link (s : State) :
    (finish s).link = match lastCensus s.link with
      | some c => if c = censusNow s then s.link else (offer (.census (censusNow s)) s).link
      | none => s.link := by
  change (refreshCensus s).link = _
  unfold refreshCensus
  cases lastCensus s.link with
  | none => rfl
  | some c => exact apply_ite State.link _ _ _

/-- R39, R179: the end of a step shows each lamp's pattern, at the level that the blink clock gives it. -/
theorem finish_lamp (s : State) (l : LampNo) :
    (finish s).lamps.patterns.get l = lampPattern (finish s) l ∧
      (finish s).lamps.outputs.get l = patternLevel (finish s).lamps.blink ((finish s).lamps.patterns.get l) := by
  have pattern : (finish s).lamps.patterns.get l = lampPattern (finish s) l := Tab.get_ofFn _ l
  refine ⟨pattern, ?_⟩
  rw [pattern]
  exact Tab.get_ofFn _ l

/-! ## An idle step -/

/-- Log entry 8: with no command waiting and none due, a step is one ms and its end. -/
theorem step_idle {s : State} (hp : s.pending = []) (hd : due s = none) : step s = .next (finish (passMs s)) := by
  unfold step idle
  rw [hp, hd]

/-- Log entry 8: with no command waiting, the command that is due is run. -/
theorem step_due {s : State} {c : Instr} (hp : s.pending = []) (hd : due s = some c) : step s = exec c s := by
  unfold step idle
  rw [hp, hd]

/-- Settles O2: the blocks as `passMs` leaves them, and `settles_finish`, `finish_link` and `finish_lamp` for what
follows the state. -/
theorem anEmptyQueueLetsTimePass : Obligations.AnEmptyQueueLetsTimePass := by
  intro s hp
  refine ⟨fun c hc => step_due hp hc, fun hd => ⟨finish (passMs s), step_idle hp hd, ?_⟩⟩
  obtain ⟨pending, control, scanner, analog, rules, modes, pockets, balls, trough, peers, drivers, blink, -⟩ :=
    settles_finish (passMs s)
  refine ⟨pending.trans hp, analog, ?link, control, trough, balls, rules, fun m => ?mode, fun i => ?switch, ?scanner,
    fun p => ?pocket, (by rw [pockets]; rfl), ?turn, fun j => ?peer, (by rw [peers]; rfl),
    fun d => ?driver, ?drivers, blink, finish_lamp _⟩
  case link =>
    rw [finish_link, censusNow_finish, show (passMs s).link = s.link from rfl]
    cases lastCensus s.link with
    | none => rfl
    | some c => simp only [offer_link_congr (.census (censusNow (passMs s))) (show (passMs s).link = s.link from rfl)]
  case mode =>
    rw [modes]
    refine (Tab.get_map s.modes _ m).trans ?_
    cases s.modes.get m with
    | none => rfl
    | some e => cases e with | mk kind owner ending time => cases time <;> rfl
  case switch =>
    rw [scanner]
    exact Tab.get_map _ _ i
  case scanner =>
    rw [scanner]
    rfl
  case pocket =>
    unfold pocket
    rw [pockets]
    exact Tab.get_map _ _ p
  case turn =>
    rw [pockets]
    change s.pockets.turn.less = _
    cases s.pockets.turn <;> rfl
  case peer =>
    unfold peer
    rw [peers]
    exact Tab.get_map _ _ j
  case driver =>
    unfold unit
    rw [drivers]
    exact Tab.get_map _ _ d
  case drivers =>
    rw [drivers]
    rfl

end Sys2Proof.Machine

end

