-- ==== Sys2Proof/Proofs/Strobes.lean ====
section
/-! SUPPORT. Tables written place by place, strobes and stuck switches (R1, R6). -/

namespace Sys2Proof

/-- What is read after a fold that writes at each place a value of that place. -/
theorem Tab.get_foldl_set {m : Nat} {α β : Type} (place : β → Fin m) (w : Fin m → α) (k : Fin m) (l : List β)
    (t : Tab m α) :
    (l.foldl (fun u i => u.set (place i) (w (place i))) t).get k = if k ∈ l.map place then w k else t.get k := by
  induction l generalizing t with
  | nil => rfl
  | cons i l ih =>
    rw [List.foldl_cons, ih, Tab.get_set]
    by_cases h : k = place i
    · simp [h]
    · simp [h]

end Sys2Proof

namespace Sys2Proof.Machine

/-- A command whose effect is `v`, where `v` is `u`, settles at `u`. -/
theorem settles_exec {c : Instr} {s u v : State} (h : exec c s = .next (finish v)) (e : v = u) :
    ∃ t, exec c s = .next t ∧ settles u t := ⟨finish v, h, settles_of_eq e⟩

/-! ## Strobes (R1) -/

/-- Section 1.1: the switches of a strobe line. -/
theorem mem_switchAt_iff (line : Fin 8) (n : SwitchNo) :
    n ∈ (List.finRange 8).map (switchAt line) ↔ n.val / 8 = line.val := by
  simp only [List.mem_map, List.mem_finRange, true_and]
  constructor
  · rintro ⟨i, rfl⟩
    simp only [switchAt]
    omega
  · intro h
    exact ⟨⟨n.val % 8, Nat.mod_lt _ (by decide)⟩, Fin.ext (by simp only [switchAt]; omega)⟩

/-- R1: the raw samples after a strobe. -/
theorem strobeLine_raw {s : State} (returns : Byte) (h : s.scanner.running = true) (n : SwitchNo) :
    (strobeLine returns s).scanner.raw.get n =
      if n.val / 8 = s.scanner.line.val then returns.getLsbD (n.val % 8) else s.scanner.raw.get n := by
  have byPlace : (fun (u : Tab 64 Bool) (i : Fin 8) => u.set (switchAt s.scanner.line i) (returns.getLsbD i.val)) =
      fun u i => u.set (switchAt s.scanner.line i) (returns.getLsbD ((switchAt s.scanner.line i).val % 8)) := by
    funext u i
    have : (switchAt s.scanner.line i).val % 8 = i.val := by simp only [switchAt]; omega
    rw [this]
  unfold strobeLine eachUp
  rw [if_pos h, State.mapScanner_scanner, byPlace,
    Tab.get_foldl_set (switchAt s.scanner.line) (fun k => returns.getLsbD (k.val % 8))]
  simp only [mem_switchAt_iff]

/-- R1: a strobe of a station that does not scan changes nothing. -/
theorem strobeLine_stays {s : State} (returns : Byte) (h : s.scanner.running = false) : strobeLine returns s = s := by
  unfold strobeLine
  rw [h]
  rfl

/-- R1: what a strobe changes. -/
theorem strobeLine_eq {s : State} (returns : Byte) (h : s.scanner.running = true) :
    strobeLine returns s = { s with scanner := { s.scanner with
      raw := (strobeLine returns s).scanner.raw, line := s.scanner.line + 1, scanEnd := s.scanner.line == 7 } } := by
  unfold strobeLine
  rw [if_pos h]
  rfl

/-! ## Stuck switches (R6) -/

/-- R6: what the expiry of a stuck timer that runs changes. -/
theorem markStuck_eq {s : State} {i : SwitchNo} (h : (s.scanner.switches.get i).timer.isSome = true) :
    markStuck i s = { s with
      scanner := { s.scanner with
        switches := s.scanner.switches.set i { s.scanner.switches.get i with stuck := true, timer := none } }
      control := { s.control with
        flags := { s.control.flags with switch := true }
        counters := s.control.counters.set 6 (min 255 (s.control.counters.get 6 + 1)) } } := by
  unfold markStuck switch
  rw [if_pos h]
  rfl

/-- R6: the expiry of a stopped stuck timer changes nothing (log entry 7). -/
theorem markStuck_stays {s : State} {i : SwitchNo} (h : (s.scanner.switches.get i).timer = none) :
    markStuck i s = s := by
  unfold markStuck switch
  rw [h]
  rfl

/-- Settles O24. -/
theorem strobesAndStuckSwitches : Obligations.StrobesAndStuckSwitches := by
  refine ⟨fun returns s => ⟨fun h => ?strobe, fun h => ?still⟩, fun i s => ⟨fun h => ?stuck, fun h => ?stopped⟩⟩
  case strobe =>
    have scanner : (finish (strobeLine returns s)).scanner = (strobeLine returns s).scanner := by simp
    refine ⟨finish (strobeLine returns s), rfl, ?_, ?_⟩
    · rw [scanner]
      exact strobeLine_raw returns h
    · rw [scanner, ← strobeLine_eq returns h]
      exact settles_finish _
  case still => exact settles_exec rfl (strobeLine_stays returns h)
  case stuck => exact settles_exec rfl (markStuck_eq h)
  case stopped => exact settles_exec rfl (markStuck_stays h)

end Sys2Proof.Machine

end

