-- ==== Sys2Proof/Proofs/Rounds.lean ====
section
/-! SUPPORT. Round completions (R12 to R14): levels, and what each channel is handed to. -/

namespace Sys2Proof

/-- A pass over numbers none of which changes the state changes nothing. -/
theorem eachUp_fixed {σ : Type} {n : Nat} {f : Fin n → σ → σ} {s : σ} (h : ∀ i, f i s = s) : eachUp n f s = s :=
  List.foldl_fixed' h _

/-- A pass that acts at one number alone, the others' passes changing nothing while `P` holds. -/
theorem eachUp_only {σ : Type} {n : Nat} (P : σ → Prop) (f : Fin n → σ → σ) (k : Fin n) {s : σ} (hs : P s)
    (hk : P (f k s)) (others : ∀ i, i ≠ k → ∀ u, P u → f i u = u) : eachUp n f s = f k s := by
  have stays (l : List (Fin n)) (absent : k ∉ l) {u : σ} (hu : P u) : l.foldl (fun t i => f i t) u = u := by
    induction l with
    | nil => rfl
    | cons i l ih =>
      rw [List.mem_cons, not_or] at absent
      rw [List.foldl_cons, others i (Ne.symm absent.1) u hu, ih absent.2]
  obtain ⟨before, after, split⟩ := List.append_of_mem (List.mem_finRange k)
  have once := List.nodup_finRange n
  rw [split, List.nodup_append, List.nodup_cons] at once
  obtain ⟨-, ⟨absentAfter, -⟩, apart⟩ := once
  have absentBefore : k ∉ before := fun h => apart k h k List.mem_cons_self rfl
  rw [eachUp, split, List.foldl_append, List.foldl_cons, stays before absentBefore hs, stays after absentAfter hk]

/-- The last number's pass comes last. -/
theorem eachUp_last {σ : Type} {n : Nat} (f : Fin (n + 1) → σ → σ) (s : σ) :
    eachUp (n + 1) f s = f (Fin.last n) (eachUp n (fun i => f i.castSucc) s) := by
  unfold eachUp
  rw [List.finRange_succ_last, List.foldl_append, List.foldl_map]
  rfl

end Sys2Proof

namespace Sys2Proof.Machine

/-! ## What a round hands on (R14) -/

/-- `handChannel` changes control, pockets, balls, trough, link, drivers alone. -/
@[simp] theorem handChannel_frame (before : State) (c : ChannelNo) (s : State) :
      (handChannel before c s).pending = s.pending ∧
      (handChannel before c s).scanner = s.scanner ∧
      (handChannel before c s).analog = s.analog ∧
      (handChannel before c s).rules = s.rules ∧
      (handChannel before c s).modes = s.modes ∧
      (handChannel before c s).peers = s.peers ∧
      (handChannel before c s).lamps = s.lamps := by
  have pockets {τ : Type} (g : State → τ) (h : ∀ p d l x y u, g (pocketRound p d l x y u) = g u) :
      g (eachUp 4 (handPocket before c) s) = g s :=
    eachUp_keeps g _ (fun p u => by unfold handPocket; (repeat' split) <;> simp only [h]) s
  unfold handChannel
  split
  · exact ⟨pockets State.pending (by simp), pockets State.scanner (by simp), pockets State.analog (by simp),
      pockets State.rules (by simp), pockets State.modes (by simp), pockets State.peers (by simp),
      pockets State.lamps (by simp)⟩
  · (repeat' split) <;> simp

/-- R13: SUPPLY is set where the supply level is LOW. -/
def noteSupply (s : State) : State := if levelOf s 5 then s else setFlag .supply s

/-- SUPPLY is the one thing that A5 can change. -/
theorem noteSupply_eq (s : State) :
    noteSupply s = { s with control := if levelOf s 5 then s.control
      else { s.control with flags := { s.control.flags with supply := true } } } := by
  unfold noteSupply
  split <;> rfl

/-- `noteSupply` leaves the Analog Monitor. -/
@[simp] theorem noteSupply_analog (s : State) : (noteSupply s).analog = s.analog := by
  unfold noteSupply
  split <;> simp

/-- The analog channel A0 to A3 of an opto. -/
def optoChannel (a : Fin 4) : ChannelNo := a.castLE (by decide)

/-- R14: the channels A0 to A3 handed to the pockets after a round that found the levels of `before`. -/
def handPockets (before : State) (s : State) : State :=
  eachUp 4 (fun a => eachUp 4 (handPocket before (optoChannel a))) s

/-- R14: A0 to A3 are handed to the pockets, A4 to the Trough Controller, A5 to Station Control, in that order. -/
theorem handChannels_eq (before s : State) :
    eachUp 6 (handChannel before) s = noteSupply (handChannel before 4 (handPockets before s)) := by
  have pockets (a : Fin 4) :
      handChannel before a.castSucc.castSucc = eachUp 4 (handPocket before (optoChannel a)) := by
    funext u
    exact if_pos a.isLt
  have supply : handChannel before (Fin.last 5) = noteSupply := by
    funext u
    unfold handChannel noteSupply
    rw [if_neg (by decide), if_neg (by decide)]
  rw [eachUp_last, eachUp_last, supply]
  simp only [pockets]
  unfold handPockets
  rfl

/-- R14: a round completion that is due. -/
theorem completeRound_due {s : State} (hr : s.analog.running = true) (he : s.analog.roundEnd = true) :
    completeRound s = noteSupply (handChannel s 4 (handPockets s (judgeLevels s))) := by
  unfold completeRound
  rw [if_pos ⟨hr, he⟩, handChannels_eq]

/-- Log entry 7: a round completion that is not due changes nothing. -/
theorem completeRound_stays {s : State} (h : s.analog.running = false ∨ s.analog.roundEnd = false) :
    completeRound s = s := by
  unfold completeRound
  rw [if_neg]
  rintro ⟨hr, he⟩
  rcases h with h | h
  · exact Bool.noConfusion (h.symm.trans hr)
  · exact Bool.noConfusion (h.symm.trans he)

/-- R12: after a round completion the Analog Monitor is as its levels have been judged. -/
theorem completeRound_analog {s : State} (hr : s.analog.running = true) (he : s.analog.roundEnd = true) :
    (completeRound s).analog = (judgeLevels s).analog := by
  unfold completeRound
  rw [if_pos ⟨hr, he⟩]
  exact eachUp_keeps State.analog _ (by simp) _

/-- R13: with the supply level LOW after the round, SUPPLY is set. -/
theorem completeRound_supply {s : State} (hr : s.analog.running = true) (he : s.analog.roundEnd = true)
    (low : levelOf (completeRound s) 5 = false) : (completeRound s).control.flags.supply = true := by
  rw [completeRound_due hr he] at low ⊢
  unfold levelOf at low
  rw [noteSupply_analog] at low
  rw [noteSupply_eq, levelOf, low]
  rfl

/-- R14: a pocket that names no opto is handed no channel. -/
theorem handPocket_stays {before s : State} {c : ChannelNo} {p : PocketNo}
    (h : ∀ d, pocketCfg s p = some d → d.opto.map Fin.val ≠ some c.val) : handPocket before c p s = s := by
  unfold handPocket
  split
  · rename_i d hd
    rw [if_neg (h d hd)]
  · rfl

/-- R140: away from the trough station, and where A4 was PRESENT already, A4 is handed to nobody. -/
theorem handChannel_four_stays {before s : State} (h : isTrough s = false ∨ levelOf before 4 = true) :
    handChannel before 4 s = s := by
  unfold handChannel
  rw [if_neg (by decide), if_pos (by decide), if_neg]
  rintro ⟨ht, -, hb⟩
  rcases h with h | h
  · exact Bool.noConfusion (h.symm.trans ht)
  · exact Bool.noConfusion (hb.symm.trans h)

/-- R14: with no opto at any pocket, the channels A0 to A3 are handed to nobody. -/
theorem handPockets_stay {before s : State} (h : ∀ p c, pocketCfg s p = some c → c.opto = none) :
    handPockets before s = s :=
  eachUp_fixed fun _ => eachUp_fixed fun p => handPocket_stays fun d hd => by simp [h p d hd]

/-- R12, R13: the level that the two thresholds give, as the statement spells it. -/
theorem judgeLevels_channel (s : State) (c : ChannelNo) :
    (judgeLevels s).analog.channels.get c = { s.analog.channels.get c with
      level := levelAfter c (s.control.image.channels.get c) (s.analog.channels.get c) } :=
  Tab.get_ofFn _ c

/-- Settles O27. -/
theorem levelsAreJudgedAtTheRound : Obligations.LevelsAreJudgedAtTheRound := by
  refine fun s => ⟨fun hr he => ⟨finish (completeRound s), rfl, ?_⟩,
    fun h => settles_exec rfl (completeRound_stays h)⟩
  have analog : (finish (completeRound s)).analog = (judgeLevels s).analog := by
    simp [completeRound_analog hr he]
  refine ⟨?_, fun c => ?_, fun low => ?_, fun bare away => ?_⟩
  · rw [analog]
    rfl
  · rw [analog, judgeLevels_channel]
    unfold levelAfter
    cases h : (s.control.image.channels.get c).enabled with
    | false => simp [h]
    | true => by_cases hc : c.val = 5 <;> simp [h, hc]
  · have supply := completeRound_supply hr he (by simpa [levelOf] using low)
    rwa [finish_control]
  · refine settles_of_eq ?_
    have bare' : ∀ p c, pocketCfg (judgeLevels s) p = some c → c.opto = none := bare
    have away' : isTrough (judgeLevels s) = false := away
    rw [analog, completeRound_due hr he, handPockets_stay bare', handChannel_four_stays (.inl away'), noteSupply_eq]
    rfl

end Sys2Proof.Machine

end

