-- ==== Sys2Proof/Proofs/Conversions.lean ====
section
/-! SUPPORT. Conversions (R10) and the channel in turn (R9). -/

namespace Sys2Proof

/-- The lowest number that satisfies a test. -/
theorem find?_finRange_eq_some {n : Nat} {p : Fin n → Bool} {k : Fin n} :
    (List.finRange n).find? p = some k ↔ p k = true ∧ ∀ j, j < k → p j = false := by
  rw [List.find?_eq_some_iff_getElem]
  constructor
  · rintro ⟨hk, i, hi, rfl, before⟩
    refine ⟨hk, fun j hj => ?_⟩
    have hlt : j.val < i := by simpa [Fin.lt_def] using hj
    simpa using before j.val hlt
  · rintro ⟨hk, before⟩
    refine ⟨hk, k.val, by simp, by simp, fun j hj => ?_⟩
    simpa using before ⟨j, hj.trans k.isLt⟩ hj

end Sys2Proof

namespace Sys2Proof.Machine

/-! ## The channel in turn (R9, R10) -/

/-- R10: the next channel in turn is not passed over again, A5 being the last. -/
theorem le_enabledFrom (img : Image) {n : Nat} (h : n ≤ 5) : n ≤ (enabledFrom img n).val := by
  unfold enabledFrom
  cases hf : (List.finRange 6).find? fun c => decide (n ≤ c.val) && (img.channels.get c).enabled with
  | none => exact h
  | some c =>
    have test := (find?_finRange_eq_some.mp hf).1
    simp only [Bool.and_eq_true, decide_eq_true_eq] at test
    exact test.1

/-- R9: the channel in turn is an enabled one, where A5 is. -/
theorem enabledFrom_enabled {img : Image} (n : Nat) (h : (img.channels.get 5).enabled = true) :
    (img.channels.get (enabledFrom img n)).enabled = true := by
  unfold enabledFrom
  cases hf : (List.finRange 6).find? fun c => decide (n ≤ c.val) && (img.channels.get c).enabled with
  | none => exact h
  | some c =>
    have test := (find?_finRange_eq_some.mp hf).1
    simp only [Bool.and_eq_true] at test
    exact test.2

/-- R10: the channels passed over are disabled ones. -/
theorem enabledFrom_skips {img : Image} {n : Nat} {k : ChannelNo} (hn : n ≤ k.val) (hk : k < enabledFrom img n) :
    (img.channels.get k).enabled = false := by
  have failed (h : (decide (n ≤ k.val) && (img.channels.get k).enabled) = false) :
      (img.channels.get k).enabled = false := by
    simpa [hn] using h
  unfold enabledFrom at hk
  cases hf : (List.finRange 6).find? fun c => decide (n ≤ c.val) && (img.channels.get c).enabled with
  | none =>
    exact failed (Bool.eq_false_iff.mpr (List.find?_eq_none.mp hf k (List.mem_finRange k)))
  | some c =>
    rw [hf] at hk
    exact failed ((find?_finRange_eq_some.mp hf).2 k hk)

/-- R10: the channel that follows `c`: the next enabled one, and after A5 the first enabled one. -/
def turnAfter (img : Image) (c : ChannelNo) : ChannelNo := enabledFrom img (if c.val = 5 then 0 else c.val + 1)

/-! ## Conversions (R10) -/

/-- Log entry 7: a station that does not convert takes no conversion. -/
theorem convert_stays {s : State} (result : Nat) (h : s.analog.running = false) : convert result s = s := by
  unfold convert
  rw [h]
  rfl

/-- R10: a conversion before the Nth of its channel. -/
theorem convert_gathers {s : State} {result : Nat} (h : s.analog.running = true)
    (few : (s.analog.channels.get s.analog.turn).count + 1 < s.control.image.averaging) :
    convert result s = { s with analog := { s.analog with
      roundEnd := false
      channels := s.analog.channels.set s.analog.turn { s.analog.channels.get s.analog.turn with
        sum := (s.analog.channels.get s.analog.turn).sum + result
        count := (s.analog.channels.get s.analog.turn).count + 1 } } } := by
  unfold convert
  rw [if_pos h]
  simp [State.mapAnalog, Tab.modify, ChannelState.take, few, Nat.not_le.mpr few]

/-- R10: the Nth conversion of a channel forms its average, and passes the turn. -/
theorem convert_averages {s : State} {result : Nat} (h : s.analog.running = true)
    (full : s.control.image.averaging ≤ (s.analog.channels.get s.analog.turn).count + 1) :
    convert result s = { s with analog := { beginTurn (turnAfter s.control.image s.analog.turn) { s.analog with
        channels := s.analog.channels.modify s.analog.turn (ChannelState.take s.control.image.averaging result) } with
      roundEnd := decide (s.analog.turn.val = 5) } } := by
  have taken : ¬ (ChannelState.take s.control.image.averaging result
      (s.analog.channels.get s.analog.turn)).count < s.control.image.averaging := Nat.not_lt.mpr full
  unfold convert
  rw [if_pos h]
  simp only [State.mapAnalog, Tab.get_modify_self, if_neg taken, turnAfter]
  by_cases last : s.analog.turn.val = 5
  · simp [last, beginTurn]
  · simp [last, beginTurn]

/-- R10: the channel whose turn begins starts from 0, and another stays. -/
theorem beginTurn_channel (c k : ChannelNo) (a : Analog) :
    (beginTurn c a).channels.get k =
      if k = c then { a.channels.get k with sum := 0, count := 0 } else a.channels.get k := by
  unfold beginTurn
  rw [Tab.get_modify]
  split
  · rename_i h
    rw [h]
  · rfl

/-- R10: the channels after the Nth conversion of the channel in turn. -/
theorem convert_averages_channel {s : State} {result : Nat} (h : s.analog.running = true)
    (full : s.control.image.averaging ≤ (s.analog.channels.get s.analog.turn).count + 1) :
    let c := s.analog.turn
    let x := s.analog.channels.get c
    let channels := (convert result s).analog.channels
    (channels.get c).average = (x.sum + result) / s.control.image.averaging ∧ (channels.get c).level = x.level ∧
      (channels.get (turnAfter s.control.image c)).sum = 0 ∧ (channels.get (turnAfter s.control.image c)).count = 0 ∧
      ∀ k, k ≠ c → k ≠ turnAfter s.control.image c → channels.get k = s.analog.channels.get k := by
  intro c x channels
  have read (k : ChannelNo) : channels.get k = if k = turnAfter s.control.image c then
      { (s.analog.channels.modify c (ChannelState.take s.control.image.averaging result)).get k with sum := 0, count := 0 }
      else (s.analog.channels.modify c (ChannelState.take s.control.image.averaging result)).get k := by
    unfold channels
    rw [convert_averages h full]
    exact beginTurn_channel _ k _
  have average : (ChannelState.take s.control.image.averaging result x).average =
      (x.sum + result) / s.control.image.averaging := if_pos full
  refine ⟨?_, ?_, ?_, ?_, fun k hc ht => ?_⟩
  · rw [read, Tab.get_modify_self, ← average]
    split <;> rfl
  · rw [read, Tab.get_modify_self]
    split <;> rfl
  · rw [read, if_pos rfl]
  · rw [read, if_pos rfl]
  · rw [read, if_neg ht, Tab.get_modify_other _ _ hc]

/-- R10: after A0 to A4 a later channel is in turn, those between being disabled. -/
theorem turnAfter_of_lt {img : Image} {c : ChannelNo} (h : c.val < 5) :
    c < turnAfter img c ∧ ∀ k : ChannelNo, c < k → k < turnAfter img c → (img.channels.get k).enabled = false := by
  unfold turnAfter
  rw [if_neg h.ne]
  exact ⟨le_enabledFrom img h, fun k hk => enabledFrom_skips hk⟩

/-- R10: after A5 the first enabled channel is in turn. -/
theorem turnAfter_of_last {img : Image} {c k : ChannelNo} (h : c.val = 5) (hk : k < turnAfter img c) :
    (img.channels.get k).enabled = false := by
  unfold turnAfter at hk
  rw [if_pos h] at hk
  exact enabledFrom_skips (Nat.zero_le _) hk

/-- R10: the part of O26 about conversions. -/
theorem conversions_average (r : BitVec 10) (s : State) :
    let n := s.control.image.averaging
    let c := s.analog.turn
    let x := s.analog.channels.get c
    (s.analog.running = true → x.count + 1 < n → ∃ t, exec (.conversion r) s = .next t ∧
      settles { s with analog := { s.analog with
        roundEnd := false
        channels := s.analog.channels.set c { x with sum := x.sum + r.toNat, count := x.count + 1 } } } t) ∧
    (s.analog.running = true → n ≤ x.count + 1 → ∃ t, exec (.conversion r) s = .next t ∧
      t.analog.running = true ∧ t.analog.firstDone = s.analog.firstDone ∧
      t.analog.roundEnd = decide (c.val = 5) ∧ settles { s with analog := t.analog } t ∧
      (t.analog.channels.get c).average = (x.sum + r.toNat) / n ∧
      (t.analog.channels.get c).level = x.level ∧
      (t.analog.channels.get t.analog.turn).sum = 0 ∧ (t.analog.channels.get t.analog.turn).count = 0 ∧
      ((s.control.image.channels.get 5).enabled = true →
        (s.control.image.channels.get t.analog.turn).enabled = true) ∧
      (c.val < 5 → c < t.analog.turn ∧
        ∀ k : ChannelNo, c < k → k < t.analog.turn → (s.control.image.channels.get k).enabled = false) ∧
      (c.val = 5 → ∀ k : ChannelNo, k < t.analog.turn → (s.control.image.channels.get k).enabled = false) ∧
      ∀ k, k ≠ c → k ≠ t.analog.turn → t.analog.channels.get k = s.analog.channels.get k) ∧
    (s.analog.running = false → ∃ t, exec (.conversion r) s = .next t ∧ settles s t) := by
  intro n c x
  refine ⟨fun h few => settles_exec rfl (convert_gathers h few), fun h full => ?_,
    fun h => settles_exec rfl (convert_stays _ h)⟩
  have analog : (finish (convert r.toNat s)).analog = (convert r.toNat s).analog := by simp
  have whole : convert r.toNat s = { s with analog := (convert r.toNat s).analog } := by
    rw [convert_averages h full]
  have turn : (convert r.toNat s).analog.turn = turnAfter s.control.image c := by
    rw [convert_averages h full]
    rfl
  obtain ⟨average, level, sum, count, others⟩ := convert_averages_channel (result := r.toNat) h full
  refine ⟨finish (convert r.toNat s), rfl, ?_⟩
  rw [analog, ← whole, turn]
  refine ⟨?_, ?_, ?_, settles_finish _, average, level, sum, count, enabledFrom_enabled _, turnAfter_of_lt,
    fun last k => turnAfter_of_last last, others⟩
  all_goals rw [convert_averages h full]
  · exact h
  · rfl

end Sys2Proof.Machine

end

