-- ==== Sys2Proof/Proofs/Setup.lean ====
section
/-! SUPPORT. What of Station Control the operations on pockets, features, banks and hits leave as it was. -/

namespace Sys2Proof.Machine

/-! ## What of Station Control no flag and no counter touches -/

/-- Station Control without its latched flags and its counters: straps, station state, load, image, player count. -/
def Control.setup (c : Control) : Control := { c with flags := noFlags, counters := .fill 8 0 }

section
variable {s t : State}

/-! The readings of the image, the straps and the station state that a like setup gives alike. -/

theorem image_of_setup (h : t.control.setup = s.control.setup) : t.control.image = s.control.image :=
  have e := congrArg Control.image h
  e
theorem strap_of_setup (h : t.control.setup = s.control.setup) : t.control.strap = s.control.strap :=
  have e := congrArg Control.strap h
  e
theorem station_of_setup (h : t.control.setup = s.control.setup) : t.control.station = s.control.station :=
  have e := congrArg Control.station h
  e
theorem ruleOf_of_setup (h : t.control.setup = s.control.setup) (i : SwitchNo) : ruleOf t i = ruleOf s i :=
  congrArg (·.rules.get i) (image_of_setup h)
theorem bankCfg_of_setup (h : t.control.setup = s.control.setup) (b : BankNo) : bankCfg t b = bankCfg s b :=
  congrArg (·.banks.get b) (image_of_setup h)
theorem pocketCfg_of_setup (h : t.control.setup = s.control.setup) (p : PocketNo) : pocketCfg t p = pocketCfg s p :=
  congrArg (·.pockets.get p) (image_of_setup h)
theorem isTrough_of_setup (h : t.control.setup = s.control.setup) : isTrough t = isTrough s :=
  congrArg₂ (fun (i : Image) (k : StationNo) => i.troughStation == some k) (image_of_setup h) (strap_of_setup h)
theorem inGame_of_setup (h : t.control.setup = s.control.setup) : inGame t = inGame s :=
  congrArg StationState.inGame (station_of_setup h)
theorem inPlay_of_setup (h : t.control.setup = s.control.setup) : inPlay t = inPlay s :=
  congrArg (· == StationState.play) (station_of_setup h)

end

@[simp] theorem setFlag_setup (f : Flag) (s : State) : (setFlag f s).control.setup = s.control.setup := rfl
@[simp] theorem raiseCounter_setup (c : Counter) (s : State) : (raiseCounter c s).control.setup = s.control.setup := rfl

@[simp] theorem offer_setup (b : Bulletin) (s : State) : (offer b s).control.setup = s.control.setup := by
  unfold offer; dsimp only; (repeat' split) <;> simp

@[simp] theorem request_setup (d : DriverNo) (b : Band) (n : Nat) (r : Requester) (s : State) :
    (request d b n r s).control.setup = s.control.setup := by
  unfold request; (repeat' split) <;> simp

@[simp] theorem recomputeB_setup (s : State) : (recomputeB s).control.setup = s.control.setup := by
  unfold recomputeB; dsimp only; (repeat' split) <;> simp

/-! ### Pockets -/

@[simp] theorem countPocket_setup (p : PocketNo) (f : PocketState → PocketState) (s : State) :
    (countPocket p f s).control.setup = s.control.setup := by
  unfold countPocket; simp
@[simp] theorem offerLock_setup (e : BitVec 4) (x : Byte) (p : PocketNo) (s : State) :
    (offerLock e x p s).control.setup = s.control.setup := by
  unfold offerLock; simp
@[simp] theorem jamPocket_setup (p : PocketNo) (s : State) : (jamPocket p s).control.setup = s.control.setup := by
  unfold jamPocket; simp
@[simp] theorem startEject_setup (p : PocketNo) (c : PocketCfg) (n : Nat) (s : State) :
    (startEject p c n s).control.setup = s.control.setup := by
  unfold startEject askEject; split <;> simp
@[simp] theorem kickThrough_setup (p : PocketNo) (c : PocketCfg) (x y : Bool) (s : State) :
    (kickThrough p c x y s).control.setup = s.control.setup := by
  unfold kickThrough; dsimp only; (repeat' split) <;> simp
@[simp] theorem ballEnters_setup (p : PocketNo) (c : PocketCfg) (x : Bool) (s : State) :
    (ballEnters p c x s).control.setup = s.control.setup := by
  unfold ballEnters; dsimp only; (repeat' split) <;> simp
@[simp] theorem closeInEmpty_setup (p : PocketNo) (c : PocketCfg) (s : State) :
    (closeInEmpty p c s).control.setup = s.control.setup := by
  unfold closeInEmpty; split <;> simp
@[simp] theorem entryCloses_setup (p : PocketNo) (c : PocketCfg) (s : State) :
    (entryCloses p c s).control.setup = s.control.setup := by
  unfold entryCloses; (repeat' split) <;> simp
@[simp] theorem confirmEject_setup (p : PocketNo) (c : PocketCfg) (s : State) :
    (confirmEject p c s).control.setup = s.control.setup := by
  unfold confirmEject; dsimp only; (repeat' split) <;> simp
@[simp] theorem lostInRelease_setup (p : PocketNo) (c : PocketCfg) (s : State) :
    (lostInRelease p c s).control.setup = s.control.setup := by
  unfold lostInRelease; dsimp only; (repeat' split) <;> simp
/-- A round at a pocket leaves the setup. -/
@[simp] theorem pocketRound_setup (p : PocketNo) (c : PocketCfg) (x y z : Bool) (s : State) :
    (pocketRound p c x y z s).control.setup = s.control.setup := by
  unfold pocketRound resense seenEntering freePocket leftUnseen; (repeat' split) <;> simp

/-! ### Features, awards, banks and hits -/

@[simp] theorem requestHold_setup (d : DriverNo) (s : State) : (requestHold d s).control.setup = s.control.setup := by
  unfold requestHold; split <;> simp
@[simp] theorem followLit_setup (x y : State) (d : DriverNo) (s : State) :
    (followLit x y d s).control.setup = s.control.setup := by
  unfold followLit; (repeat' split) <;> simp
@[simp] theorem setFeature_setup (f : FeatureNo) (r : Resting) (s : State) :
    (setFeature f r s).control.setup = s.control.setup :=
  changeLit_keeps (·.control.setup) followLit_setup _ s
@[simp] theorem setFeatures_setup (p : Resting → Bool) (r : Resting) (l : List FeatureNo) (s : State) :
    (setFeatures p r l s).control.setup = s.control.setup :=
  foldl_keeps (·.control.setup) _ (fun t f => by split <;> simp) l s
@[simp] theorem award_setup (p : Player) (v : Nat) (g : Fin 8) (k : Scoring) (s : State) :
    (award p v g k s).control.setup = s.control.setup := by
  unfold award; dsimp only; split <;> simp
@[simp] theorem dropCompletes_setup (b : BankNo) (c : BankCfg) (s : State) :
    (dropCompletes b c s).control.setup = s.control.setup := by
  unfold dropCompletes beginReset askReset faultBank; (repeat' split) <;> simp
@[simp] theorem clearMarks_setup (c : BankCfg) (s : State) : (clearMarks c s).control.setup = s.control.setup := by
  rw [(clearMarks_frame c s).2.1]
@[simp] theorem collectAction_setup (m : ModeId) (g : Fin 8) (s : State) :
    (collectAction m g s).control.setup = s.control.setup := by
  unfold collectAction; dsimp only; (repeat' split) <;> simp
@[simp] theorem lightFeature_setup (f : FeatureNo) (s : State) : (lightFeature f s).control.setup = s.control.setup := by
  unfold lightFeature; split <;> simp
/-- A mark leaves whatever of the setup the bank's action leaves. -/
theorem markMember_setup {act : Action → Fin 8 → State → State} (b : BankNo) (c : BankCfg) (i : SwitchNo)
    (h : ∀ a g t, (act a g t).control.setup = t.control.setup) (s : State) :
    (markMember act b c i s).control.setup = s.control.setup := by
  unfold markMember scoredCompletion; dsimp only; (repeat' split) <;> simp [h]
theorem takeAction_setup (n : Nat) (a : Action) (g : Fin 8) (s : State) :
    (takeAction n a g s).control.setup = s.control.setup := by
  induction n generalizing a g s with
  | zero => cases a <;> simp [takeAction]
  | succ n ih => cases a <;> simp only [takeAction] <;> (repeat' split) <;> simp [markMember_setup _ _ _ ih]
@[simp] theorem doAction_setup (a : Action) (g : Fin 8) (s : State) : (doAction a g s).control.setup = s.control.setup :=
  takeAction_setup 5 a g s
@[simp] theorem standupMark_setup (i : SwitchNo) (r : Rule) (s : State) :
    (standupMark i r s).control.setup = s.control.setup := by
  unfold standupMark; (repeat' split) <;> simp [markMember_setup _ _ _ doAction_setup]
@[simp] theorem directPulse_setup (r : Rule) (s : State) : (directPulse r s).control.setup = s.control.setup := by
  unfold directPulse; (repeat' split) <;> simp
@[simp] theorem hit_setup (i : SwitchNo) (s : State) : (hit i s).control.setup = s.control.setup := by
  unfold hit; dsimp only; (repeat' split) <;> simp
@[simp] theorem dropMark_setup (i : SwitchNo) (x : Bool) (s : State) :
    (dropMark i x s).control.setup = s.control.setup := by
  unfold dropMark; dsimp only; (repeat' split) <;> simp [markMember_setup _ _ _ doAction_setup]
/-- The Rule Engine leaves the setup at a switch event. -/
@[simp] theorem ruleTakes_setup (i : SwitchNo) (x : Bool) (s : State) :
    (ruleTakes i x s).control.setup = s.control.setup := by
  unfold ruleTakes; split <;> simp

end Sys2Proof.Machine

end

