-- ==== Sys2Proof/Proofs/Losses.lean ====
section
/-! SUPPORT. Counts and the recount of B (R110, R134), and a ball lost in RELEASE-WAIT (R122). -/

namespace Sys2Proof

/-- Of two writes of one entry the later stands. -/
@[simp] theorem Tab.set_set {n : Nat} {α : Type} (t : Tab n α) (i : Fin n) (v w : α) : (t.set i v).set i w = t.set i w :=
  Tab.ext_cells (List.set_set _)

end Sys2Proof

namespace Sys2Proof.Machine

/-! ## Counts and the view (R110, R134) -/

/-- The state with pocket `p` as `y`. -/
def putPocket (p : PocketNo) (y : PocketState) (s : State) : State :=
  { s with pockets := { s.pockets with pockets := s.pockets.pockets.set p y } }

/-- A change of pocket `p` puts what it makes of it. -/
theorem mapPocket_eq (p : PocketNo) (f : PocketState → PocketState) (s : State) :
    mapPocket p f s = putPocket p (f (pocket s p)) s := rfl

/-- The pocket put is read back. -/
@[simp] theorem pocket_putPocket (p : PocketNo) (y : PocketState) (s : State) : pocket (putPocket p y s) p = y :=
  Tab.get_set_self _ p y

/-- Of two puts of one pocket the later stands. -/
@[simp] theorem putPocket_putPocket (p : PocketNo) (y z : PocketState) (s : State) :
    putPocket p z (putPocket p y s) = putPocket p z s := by
  simp [putPocket]

/-- A total over a table depends on what is written of it alone. -/
theorem sum_set_congr {n : Nat} {α : Type} (t : Tab n α) (i : Fin n) {x y : α} (f : α → Nat) (h : f x = f y) :
    (t.set i x).sum f = (t.set i y).sum f := by
  simp only [Tab.sum, Tab.set, List.map_set, h]

/-- R134, R148: what a recount of B changes. -/
theorem recomputeB_eq (s : State) :
    recomputeB s = { s with
      control := if sumNegative s then { s.control with flags := { s.control.flags with accounting := true } }
        else s.control
      balls := if inPlayCount s = 0 then
          { s.balls with inPlay := inPlayCount s, search := .idle, round := 0, todo := [], searchTimer := none }
        else { s.balls with inPlay := inPlayCount s } } := by
  have negative : sumNegative (s.mapBalls fun b => { b with inPlay := inPlayCount s }) = sumNegative s := rfl
  unfold recomputeB
  simp only [negative]
  cases sumNegative s <;> by_cases h : inPlayCount s = 0 <;> simp [State.mapBalls, endSearch, setFlag,
    State.mapControl, FaultFlags.raise, h]

/-- R134: B depends on the pockets through their held and stuck totals. -/
theorem recomputeB_withPockets (s : State) (k : PocketCtl) (held : k.pockets.sum (·.held) = ownHeld s)
    (stuck : k.pockets.sum (·.stuck) = ownStuck s) :
    recomputeB { s with pockets := k } = { recomputeB s with pockets := k } := by
  have heldSame : heldAt { s with pockets := k } = heldAt s := by
    funext j
    exact congrArg (fun n => if j = strap s then n else (s.balls.peers.get j).held.sum id) held
  have stuckSame : stuckAt { s with pockets := k } = stuckAt s := by
    funext j
    exact congrArg (fun n => if j = strap s then n else (s.balls.peers.get j).stuck.sum id) stuck
  have away : ballsAway { s with pockets := k } = ballsAway s := by
    funext t
    simp only [ballsAway, totalHeld, totalStuck, heldSame, stuckSame]
  have count : inPlayCount { s with pockets := k } = inPlayCount s := by
    simp only [inPlayCount, away]
  have negative : sumNegative { s with pockets := k } = sumNegative s := by
    simp only [sumNegative, away]
  rw [recomputeB_eq, recomputeB_eq, count, negative]

/-- R110: a change of counts that the recount sees, and one it does not, of one pocket at once. -/
theorem recomputeB_putPocket (p : PocketNo) {x y : PocketState} (s : State) (held : x.held = y.held)
    (stuck : x.stuck = y.stuck) (release : List PocketNo) (turn : Turn) :
    recomputeB { putPocket p y s with pockets :=
        { pockets := s.pockets.pockets.set p y, release := release, turn := turn } } =
      { recomputeB (putPocket p x s) with pockets :=
        { pockets := s.pockets.pockets.set p y, release := release, turn := turn } } :=
  recomputeB_withPockets (putPocket p x s)
    { pockets := s.pockets.pockets.set p y, release := release, turn := turn }
    (sum_set_congr s.pockets.pockets p _ held.symm) (sum_set_congr s.pockets.pockets p _ stuck.symm)

/-- An offer does not read the pockets. -/
theorem offer_withPockets (b : Bulletin) (s : State) (k : PocketCtl) :
    offer b { s with pockets := k } = { offer b s with pockets := k } := by
  unfold offer
  rcases offerTo b s.link with ⟨q, a, tk, d, r⟩
  cases d <;> cases r <;> rfl

/-! ## A ball lost in RELEASE-WAIT (R122) -/

/-- R118: a ball counted out leaves the pocket's stuck and pending counts, its deferred mark and its state. -/
theorem countOut_keeps (x : PocketState) : x.countOut.1.stuck = x.stuck ∧ x.countOut.1.pending = x.pending ∧
    x.countOut.1.deferred = x.deferred ∧ x.countOut.1.phase = x.phase := by
  unfold PocketState.countOut
  (repeat' split) <;> exact ⟨rfl, rfl, rfl, rfl⟩

/-- R118: the pocket after a ball is counted out: the through ball, a resting ball whose kickout is owed, a held ball,
a resting ball whose kickout timer runs. -/
theorem countOut_fst (x : PocketState) : x.countOut.1 =
    if x.through = 1 then { x with through := 0 }
    else if x.resting = 1 ∧ x.kickout = none then { x with resting := 0 }
    else if 0 < x.held then { x with held := x.held - 1 }
    else if x.resting = 1 then { x with resting := 0, kickout := none }
    else x := by
  unfold PocketState.countOut
  (repeat' split) <;> rfl

/-- R118: the flag of a ball counted out says that a held one was. -/
theorem countOut_held (x : PocketState) : x.countOut.2 = decide (x.countOut.1.held < x.held) := by
  unfold PocketState.countOut
  (repeat' split) <;> (simp; try omega)

/-- R122: the pocket after the loss of a ball in RELEASE-WAIT: a ball counted out, pending down by 1, and at 0 the
state that the counts give. -/
def PocketState.afterLoss (x : PocketState) : PocketState :=
  { x.countOut.1 with
    pending := x.pending - 1, deferred := decide (1 < x.pending) && x.deferred
    phase := if 1 < x.pending then x.phase else x.countOut.1.byCounts }

/-- R122: the Pocket Controller after it: at pending 0 the pocket leaves the release list. -/
def PocketCtl.afterLoss (k : PocketCtl) (p : PocketNo) : PocketCtl :=
  { k with
    pockets := k.pockets.set p (k.pockets.get p).afterLoss
    release := if 1 < (k.pockets.get p).pending then k.release else k.release.filter fun q => decide (q ≠ p) }

/-- R130: the LOCK that tells of an event at pocket `p`, which stands as `y`, with `player` the current one. -/
def tellLock (event : BitVec 4) (p : PocketNo) (player : Player) (y : PocketState) (s : State) : State :=
  offer (.lock { event := event, pocket := p, player := BitVec.ofNat 8 (player.val + 1), credit := 0
                 held := BitVec.ofNat 8 y.held, stuck := BitVec.ofNat 8 y.stuck }) s

/-- R130: an event told carries the current player and the pocket's counts. -/
theorem offerLock_eq (event : BitVec 4) {p : PocketNo} {player : Player} {y : PocketState} {s : State}
    (hr : s.rules.current = player) (hp : pocket s p = y) : offerLock event 0 p s = tellLock event p player y s := by
  unfold offerLock lockOf tellLock
  rw [hr, hp]
  rfl

/-- R122: the loss counted and, of a held ball, told; the deferred entry is still to be taken. -/
def lossTaken (p : PocketNo) (s : State) : State :=
  let counted := recomputeB { s with pockets := s.pockets.afterLoss p }
  if (pocket s p).countOut.2 then tellLock lockLost p s.rules.current (pocket s p).afterLoss counted else counted

/-- R122: the loss counted before pending falls and the release list changes. -/
theorem lossTaken_eq (p : PocketNo) (s : State) :
    lossTaken p s =
      { (if (pocket s p).countOut.2 then offerLock lockLost 0 p (countPocket p (fun _ => (pocket s p).countOut.1) s)
          else countPocket p (fun _ => (pocket s p).countOut.1) s) with pockets := s.pockets.afterLoss p } := by
  obtain ⟨stuck, -, -, -⟩ := countOut_keeps (pocket s p)
  have counted : recomputeB { s with pockets := s.pockets.afterLoss p } =
      { countPocket p (fun _ => (pocket s p).countOut.1) s with pockets := s.pockets.afterLoss p } :=
    recomputeB_putPocket p (x := (pocket s p).countOut.1) (y := (pocket s p).afterLoss) s rfl rfl _ _
  have stands : pocket (countPocket p (fun _ => (pocket s p).countOut.1) s) p = (pocket s p).countOut.1 := by
    unfold countPocket pocket
    rw [(recomputeB_frame _).2.2.2.2.2.1]
    exact pocket_putPocket p _ s
  have player : (countPocket p (fun _ => (pocket s p).countOut.1) s).rules.current = s.rules.current := by simp
  unfold lossTaken
  dsimp only
  rw [counted, offerLock_eq lockLost player stands]
  split
  · exact offer_withPockets _ _ _
  · rfl

/-- R122: a held ball that is lost is told of. -/
theorem lossTaken_told (p : PocketNo) (s : State) :
    lossTaken p s =
      if (pocket s p).countOut.1.held < (pocket s p).held then
        tellLock lockLost p s.rules.current (pocket s p).afterLoss (recomputeB { s with pockets := s.pockets.afterLoss p })
      else recomputeB { s with pockets := s.pockets.afterLoss p } := by
  unfold lossTaken
  rw [countOut_held]
  simp only [decide_eq_true_eq]

/-- R122: the pocket as the loss leaves it is read back. -/
@[simp] theorem pocket_lossTaken (p : PocketNo) (s : State) : pocket (lossTaken p s) p = (pocket s p).afterLoss := by
  rw [lossTaken_eq]
  exact Tab.get_set_self _ p _

/-- R122: what the loss of a ball in RELEASE-WAIT changes. -/
theorem lostInRelease_eq (p : PocketNo) (c : PocketCfg) (s : State) :
    lostInRelease p c s =
      if 1 < (pocket s p).pending ∨ (pocket s p).deferred = false then lossTaken p s
      else if (pocket s p).afterLoss.clear then closeInEmpty p c (lossTaken p s)
      else ballEnters p c false (lossTaken p s) := by
  obtain ⟨-, pending, deferred, phase⟩ := countOut_keeps (pocket s p)
  rw [lossTaken_eq]
  unfold lostInRelease
  dsimp only
  generalize hX : (if (pocket s p).countOut.2 then
      offerLock lockLost 0 p (countPocket p (fun _ => (pocket s p).countOut.1) s)
    else countPocket p (fun _ => (pocket s p).countOut.1) s) = X
  have pockets : X.pockets = { s.pockets with pockets := s.pockets.pockets.set p (pocket s p).countOut.1 } := by
    rw [← hX]
    split <;> simp [countPocket] <;> rfl
  have stands : pocket X p = (pocket s p).countOut.1 := by
    unfold pocket
    rw [pockets]
    exact Tab.get_set_self _ p _
  have put (y : PocketState) :
      putPocket p y X = { X with pockets := { s.pockets with pockets := s.pockets.pockets.set p y } } := by
    simp [putPocket, pockets]
  have after : s.pockets.afterLoss p = { s.pockets with
      pockets := s.pockets.pockets.set p (pocket s p).afterLoss
      release := if 1 < (pocket s p).pending then s.pockets.release
        else s.pockets.release.filter fun q => decide (q ≠ p) } := rfl
  simp only [mapPocket_eq, stands, pocket_putPocket, putPocket_putPocket, pending, deferred]
  simp only [put, State.mapPockets, after, PocketState.afterLoss, PocketState.rest]
  by_cases many : 1 < (pocket s p).pending
  · rw [if_neg (by omega), if_pos (.inl many)]
    simp [many, phase]
  · rw [if_pos (by omega)]
    have none : (pocket s p).pending - 1 = 0 := by omega
    cases h : (pocket s p).deferred
    · simp [many, none, PocketState.byCounts]
    · have read (y : PocketState) (release : List PocketNo) (turn : Turn) : pocket { X with pockets :=
          { pockets := s.pockets.pockets.set p y, release := release, turn := turn } } p = y :=
        Tab.get_set_self _ p y
      simp [many, none, read, PocketState.byCounts, PocketState.clear]

/-! ## A round at the one pocket with an opto (R14) -/

/-- R122: with ejects still owed, or no entry deferred, the loss is all. -/
theorem lostInRelease_counted {p : PocketNo} {c : PocketCfg} {s : State}
    (h : 1 < (pocket s p).pending ∨ (pocket s p).deferred = false) : lostInRelease p c s = lossTaken p s := by
  rw [lostInRelease_eq, if_pos h]

/-- R122: at pending 0 a deferred entry is taken, as a close in EMPTY where every count is 0. -/
theorem lostInRelease_deferred {p : PocketNo} {c : PocketCfg} {s : State} (few : (pocket s p).pending ≤ 1)
    (deferred : (pocket s p).deferred = true) :
    lostInRelease p c s =
      if (pocket s p).afterLoss.clear then closeInEmpty p c (lossTaken p s)
      else ballEnters p c false (lossTaken p s) := by
  have ended : ¬ (1 < (pocket s p).pending ∨ (pocket s p).deferred = false) := by
    simp [deferred, few]
  rw [lostInRelease_eq, if_neg ended]

end Sys2Proof.Machine

end

