-- ==== Sys2Proof/Proofs/PocketRounds.lean ====
section
/-! SUPPORT. What a round does at a pocket with an opto (R14, R115, R118, R122, R123, R132). -/

namespace Sys2Proof.Machine

/-! ## A round at the one pocket with an opto (R14) -/

/-- R14: with one opto, at pocket `p`, and A4 handed to nobody, a round completion is the round at that pocket. -/
theorem completeRound_pocket {s : State} {p : PocketNo} {c : PocketCfg} {a : Fin 4} (hr : s.analog.running = true)
    (he : s.analog.roundEnd = true) (hp : pocketCfg s p = some c) (ho : c.opto = some a)
    (alone : ∀ q k, q ≠ p → pocketCfg s q = some k → k.opto = none)
    (lane : isTrough s = false ∨ levelOf s 4 = true) :
    completeRound s = noteSupply (pocketRound p c (levelOf (judgeLevels s) (optoChannel a))
      (levelOf (judgeLevels s) (optoChannel a) != levelOf s (optoChannel a)) (!s.analog.firstDone) (judgeLevels s)) := by
  let kept (u : State) : Prop := u.control.setup = s.control.setup
  have kept_round (x y z : Bool) (u : State) (hu : kept u) : kept (pocketRound p c x y z u) :=
    (pocketRound_setup p c x y z u).trans hu
  have given : handPocket s (optoChannel a) p (judgeLevels s) =
      pocketRound p c (levelOf (judgeLevels s) (optoChannel a))
        (levelOf (judgeLevels s) (optoChannel a) != levelOf s (optoChannel a)) (!s.analog.firstDone) (judgeLevels s) := by
    have cfg : pocketCfg (judgeLevels s) p = some c := hp
    have names : c.opto.map Fin.val = some (optoChannel a).val := by rw [ho]; rfl
    unfold handPocket
    rw [cfg]
    exact if_pos names
  have others (b : Fin 4) (q : PocketNo) (h : b ≠ a ∨ q ≠ p) (u : State) (hu : kept u) :
      handPocket s (optoChannel b) q u = u := by
    refine handPocket_stays fun d hd => ?_
    rw [pocketCfg_of_setup hu] at hd
    by_cases hq : q = p
    · rw [hq, hp, Option.some.injEq] at hd
      rw [← hd, ho]
      intro e
      exact h.resolve_right (not_not_intro hq) (Fin.ext (Option.some.inj e).symm)
    · simp [alone q d hq hd]
  have round : handPockets s (judgeLevels s) = handPocket s (optoChannel a) p (judgeLevels s) := by
    have kept_given : kept (handPocket s (optoChannel a) p (judgeLevels s)) := by
      rw [given]
      exact kept_round _ _ _ _ rfl
    have here : eachUp 4 (handPocket s (optoChannel a)) (judgeLevels s) =
        handPocket s (optoChannel a) p (judgeLevels s) :=
      eachUp_only kept _ p rfl kept_given fun q hq => others a q (.inr hq)
    unfold handPockets
    rw [← here]
    exact eachUp_only kept _ a rfl (here ▸ kept_given) fun b hb u hu =>
      eachUp_fixed fun q => others b q (.inl hb) u hu
  have away : isTrough (pocketRound p c (levelOf (judgeLevels s) (optoChannel a))
      (levelOf (judgeLevels s) (optoChannel a) != levelOf s (optoChannel a)) (!s.analog.firstDone) (judgeLevels s)) =
      isTrough s := isTrough_of_setup (kept_round _ _ _ _ rfl)
  rw [completeRound_due hr he, round, given, handChannel_four_stays (lane.imp_left away.trans)]

/-- R132: at the first round after a reset a ball PRESENT in a clear, EMPTY pocket is re-sensed, and held. -/
theorem pocketRound_resense {p : PocketNo} {c : PocketCfg} {changed : Bool} {s : State}
    (clear : (pocket s p).clear = true) (empty : (pocket s p).phase = .empty) :
    pocketRound p c true changed true s =
      recomputeB (putPocket p { pocket s p with held := 1, phase := .stable } s) := by
  unfold pocketRound resense
  rw [if_pos rfl, if_pos rfl, if_pos ⟨clear, empty⟩]
  rfl

/-- R132: at the first round after a reset nothing else is done. -/
theorem pocketRound_first_stays {p : PocketNo} {c : PocketCfg} {level changed : Bool} {s : State}
    (h : level = false ∨ (pocket s p).clear = false ∨ (pocket s p).phase ≠ .empty) :
    pocketRound p c level changed true s = s := by
  unfold pocketRound resense
  rw [if_pos rfl]
  cases level with
  | false => rfl
  | true =>
    refine (if_pos rfl).trans (if_neg fun ⟨clear, empty⟩ => ?_)
    rcases h with h | h | h
    · exact Bool.noConfusion h
    · exact Bool.noConfusion (h.symm.trans clear)
    · exact h empty

/-- R14: outside the game states a later round does nothing at a pocket. -/
theorem pocketRound_outside {p : PocketNo} {c : PocketCfg} {level changed : Bool} {s : State}
    (h : inGame s = false) : pocketRound p c level changed false s = s := by
  simp [pocketRound, h]

/-- The levels and states at which a later round has nothing to do at a pocket: no ball enters, leaves or is confirmed. -/
def PocketPhase.atRest (level changed : Bool) : PocketPhase → Prop
  | .ejectWait | .rearm => True
  | .settling => level = false
  | .ejecting | .jammed => level = true
  | .empty => level = false ∨ changed = false
  | .stable | .kickoutWait | .releaseWait => level = true ∨ changed = false

/-- R115, R118, R122, R123: there it changes nothing. -/
theorem pocketRound_stays {p : PocketNo} {c : PocketCfg} {level changed : Bool} {s : State}
    (h : (pocket s p).phase.atRest level changed) : pocketRound p c level changed false s = s := by
  unfold pocketRound
  rw [if_neg Bool.false_ne_true]
  split
  case isTrue => rfl
  split
  case h_1 phase => simp [PocketPhase.atRest, phase] at h
  case h_2 phase => simp [PocketPhase.atRest, phase] at h
  case h_3 phase => simp [PocketPhase.atRest, phase] at h
  case h_4 phase => simp [PocketPhase.atRest, phase] at h
  case h_5 =>
    unfold leftUnseen
    split
    case h_1 phase => simp [PocketPhase.atRest, phase] at h
    case h_2 phase => simp [PocketPhase.atRest, phase] at h
    case h_3 phase => simp [PocketPhase.atRest, phase] at h
    case h_4 => rfl
  case h_6 => rfl

section
variable {p : PocketNo} {c : PocketCfg} {level changed : Bool} {s : State} (game : inGame s = true)
include game

/-- R115: a ball that a round finds PRESENT in SETTLING, or newly in EMPTY, has entered. -/
theorem pocketRound_enters (h : (pocket s p).phase = .settling ∨ (pocket s p).phase = .empty ∧ changed = true) :
    pocketRound p c true changed false s =
      ballEnters p c false (putPocket p { pocket s p with settle := none, phase := .empty } s) := by
  rcases h with h | ⟨h, rfl⟩ <;> simp [pocketRound, game, h] <;> rfl

/-- R118: ABSENT in EJECTING confirms the eject. -/
theorem pocketRound_confirms (h : (pocket s p).phase = .ejecting) :
    pocketRound p c false changed false s = confirmEject p c s := by
  simp [pocketRound, game, h]

/-- R123: ABSENT in JAMMED frees the pocket. -/
theorem pocketRound_frees (h : (pocket s p).phase = .jammed) :
    pocketRound p c false changed false s = freePocket p s := by
  simp [pocketRound, game, h]

/-- R122: newly ABSENT in STABLE, KICKOUT-WAIT and RELEASE-WAIT is the loss of a ball. -/
theorem pocketRound_loses (h : (pocket s p).phase = .stable ∨ (pocket s p).phase = .kickoutWait ∨
    (pocket s p).phase = .releaseWait) : pocketRound p c false true false s = leftUnseen p c s := by
  rcases h with h | h | h <;> simp [pocketRound, game, h]

end

/-- R110: a change of counts, as the pocket that it puts. -/
theorem countPocket_eq (p : PocketNo) (f : PocketState → PocketState) (s : State) :
    countPocket p f s = recomputeB (putPocket p (f (pocket s p)) s) := rfl

/-- The pocket put, whose counts the view has taken, is read back. -/
@[simp] theorem pocket_recomputeB_putPocket (p : PocketNo) (y : PocketState) (s : State) :
    pocket (recomputeB (putPocket p y s)) p = y := by
  unfold pocket
  rw [(recomputeB_frame _).2.2.2.2.2.1]
  exact pocket_putPocket p y s

/-- A pocket put and counted leaves the current player. -/
theorem rules_recomputeB_putPocket (p : PocketNo) (y : PocketState) (s : State) :
    (recomputeB (putPocket p y s)).rules.current = s.rules.current := by
  simp only [recomputeB_frame]
  rfl

/-- R123: a pocket freed. -/
theorem freePocket_eq (p : PocketNo) (s : State) :
    freePocket p s = tellLock 4 p s.rules.current { pocket s p with stuck := 0, jam := 0, phase := .empty }
      (recomputeB (putPocket p { pocket s p with stuck := 0, jam := 0, phase := .empty } s)) :=
  offerLock_eq lockFreed (rules_recomputeB_putPocket p _ s) (pocket_recomputeB_putPocket p _ s)

/-- R122: a held ball lost from STABLE. -/
theorem leftUnseen_stable {p : PocketNo} {c : PocketCfg} {s : State} (h : (pocket s p).phase = .stable) :
    leftUnseen p c s =
      let x := pocket s p
      let y : PocketState := { x with held := x.held - 1, phase :=
        if x.resting = 1 ∧ x.kickout.isSome then .kickoutWait else if 1 < x.held then .stable else .empty }
      tellLock 5 p s.rules.current y (recomputeB (putPocket p y s)) := by
  have rested : ({ pocket s p with held := (pocket s p).held - 1 } : PocketState).rest = { pocket s p with
      held := (pocket s p).held - 1, phase := if (pocket s p).resting = 1 ∧ (pocket s p).kickout.isSome then
        .kickoutWait else if 1 < (pocket s p).held then .stable else .empty } := by
    simp only [PocketState.rest, PocketState.byCounts, Nat.sub_pos_iff_lt]
  unfold leftUnseen
  rw [h]
  dsimp only
  rw [countPocket_eq, rested, offerLock_eq lockLost (rules_recomputeB_putPocket p _ s) (pocket_recomputeB_putPocket p _ s)]
  rfl

/-- R122: a resting ball lost from KICKOUT-WAIT. -/
theorem leftUnseen_kickoutWait {p : PocketNo} {c : PocketCfg} {s : State} (h : (pocket s p).phase = .kickoutWait) :
    leftUnseen p c s = putPocket p { pocket s p with
      resting := 0, kickout := none, phase := if 0 < (pocket s p).held then .stable else .empty } s := by
  unfold leftUnseen
  rw [h]
  dsimp only
  rw [mapPocket_eq]
  simp [PocketState.rest, PocketState.byCounts]

/-- R122: a ball lost from RELEASE-WAIT. -/
theorem leftUnseen_releaseWait {p : PocketNo} {c : PocketCfg} {s : State} (h : (pocket s p).phase = .releaseWait) :
    leftUnseen p c s = lostInRelease p c s := by
  unfold leftUnseen
  rw [h]

/-- R114: a close in EMPTY of a pocket with an opto starts its settle window. -/
theorem closeInEmpty_opto {p : PocketNo} {c : PocketCfg} {s : State} (h : c.opto.isSome = true) :
    closeInEmpty p c s = putPocket p { pocket s p with phase := .settling, settle := some 300 } s :=
  if_pos h

end Sys2Proof.Machine

end

