-- ==== Sys2Proof/Proofs/RoundsConfirm.lean ====
section
/-! SUPPORT. A4 at a round (R140), and the rounds of O26. -/

namespace Sys2Proof.Machine

/-! ## A4 (R140) -/

/-- R140: A4 newly PRESENT while SERVING confirms the serve; a next one pending waits for a count. -/
theorem laneTurnsPresent_serving {s : State} (h : s.trough.phase = .serving) :
    laneTurnsPresent s = { s with trough := { s.trough with
      window := none, pending := s.trough.pending - 1, unreported := min 6 (s.trough.unreported + 1)
      attempt := 1, phase := if 1 < s.trough.pending then .waiting else .idle
      recount := decide (1 < s.trough.pending) } } := by
  unfold laneTurnsPresent serveNext
  rw [if_pos h]
  by_cases more : 1 < s.trough.pending
  · have left : s.trough.pending - 1 ≠ 0 := by omega
    simp [confirmServe, State.mapTrough, more, left, Config.serveMax]
  · have left : s.trough.pending - 1 = 0 := by omega
    simp [confirmServe, State.mapTrough, more, left, Config.serveMax]

/-- R14, R140: A4 at the trough station. -/
theorem handChannel_four {before s : State} (h : isTrough s = true) :
    handChannel before 4 s = if levelOf s 4 = true ∧ levelOf before 4 = false then laneTurnsPresent s else s := by
  unfold handChannel
  rw [if_neg (by decide), if_pos (by decide)]
  simp [h]

/-- R13: SUPPLY as a change of the whole state. -/
theorem noteSupply_of_analog {s : State} {a : Analog} (h : s.analog = a) :
    noteSupply s = if (a.channels.get 5).level then s
      else { s with control := { s.control with flags := { s.control.flags with supply := true } } } := by
  subst h
  rfl

/-- A level that is ABSENT, or was PRESENT, has not newly turned PRESENT. -/
theorem unchanged_of_absent_or_was :
    ∀ now was : Bool, now = false ∨ was = true → now = false ∨ (now != was) = false := by
  decide

/-- A level that is PRESENT, or was ABSENT, has not newly turned ABSENT. -/
theorem unchanged_of_present_or_wasnt :
    ∀ now was : Bool, now = true ∨ was = false → now = true ∨ (now != was) = false := by
  decide

/-- Settles O26: conversions by `convert_gathers` and `convert_averages`; a round by the phase of the one pocket that
names an opto, or by A4. -/
theorem conversionsAverageAndRoundsConfirm : Obligations.ConversionsAverageAndRoundsConfirm := by
  refine ⟨fun r s => ?conversion, fun s p c a hr he hp ho alone lane => ?pocket, fun s hr he bare station => ?lane⟩
  case conversion =>
    refine ⟨fun h few => settles_exec rfl (convert_gathers h few), fun h full => ?_,
      fun h => settles_exec rfl (convert_stays _ h)⟩
    have analog : (finish (convert r.toNat s)).analog = (convert r.toNat s).analog := by simp
    have whole : convert r.toNat s = { s with analog := (convert r.toNat s).analog } := by
      rw [convert_averages h full]
    have turn : (convert r.toNat s).analog.turn = turnAfter s.control.image s.analog.turn := by
      rw [convert_averages h full]
      rfl
    obtain ⟨average, level, sum, count, others⟩ := convert_averages_channel (result := r.toNat) h full
    refine ⟨finish (convert r.toNat s), rfl, ?_⟩
    rw [analog, ← whole, turn]
    refine ⟨?_, ?_, ?_, settles_finish _, average, level, sum, count, enabledFrom_enabled _, turnAfter_of_lt,
      fun last k => turnAfter_of_last last, others⟩
    all_goals rw [convert_averages h full]
    · exact h
    · rfl
  case pocket =>
    intro ch x was
    have analog : (finish (completeRound s)).analog = (judgeLevels s).analog := by
      simp [completeRound_analog hr he]
    refine ⟨finish (completeRound s), rfl, ?_⟩
    rw [analog]
    intro now judged put supply told
    have round : completeRound s =
        noteSupply (pocketRound p c now (now != was) (!s.analog.firstDone) judged) :=
      completeRound_pocket hr he hp ho alone lane
    have settled {changed first : Bool} {v : State} (hc : (now != was) = changed)
        (hf : (!s.analog.firstDone) = first) (h : pocketRound p c now changed first judged = v) :
        settles (supply v) (finish (completeRound s)) := by
      have kept : v.analog = (judgeLevels s).analog := by rw [← h, (pocketRound_frame _ _ _ _ _ _).2.2.1]
      rw [round, hc, hf, h, noteSupply_of_analog kept]
      exact settles_finish _
    refine ⟨fun first => ⟨?resensed, ?nothing⟩, fun later outside => ?outside, fun later game =>
      ⟨?enters, ?confirms, ?frees, ?stable, ?kickout, ?release, ?rest⟩⟩
    case resensed =>
      intro present held resting stuck through pending empty
      have clear : (pocket judged p).clear = true := by
        change x.clear = true
        simp [PocketState.clear, held, resting, stuck, through, pending]
      refine settled rfl (by rw [first, Bool.not_false]) ?_
      rw [present]
      exact pocketRound_resense clear empty
    case nothing =>
      intro h
      refine settled rfl (by rw [first, Bool.not_false]) (pocketRound_first_stays ?_)
      rcases h with h | h | h | h | h | h | h
      · exact .inl h
      · exact .inr (.inr h)
      all_goals
        right; left
        change x.clear = false
        simp [PocketState.clear, h]
    case outside => exact settled rfl (by rw [later, Bool.not_true]) (pocketRound_outside outside)
    case enters =>
      intro present h
      refine settled rfl (by rw [later, Bool.not_true]) ?_
      rw [present]
      refine pocketRound_enters (s := judged) game (h.imp_right fun ⟨empty, absent⟩ => ⟨empty, ?_⟩)
      rw [absent]
      rfl
    case confirms =>
      intro absent ejecting
      refine settled rfl (by rw [later, Bool.not_true]) ?_
      rw [absent]
      exact pocketRound_confirms (s := judged) game ejecting
    case frees =>
      intro absent jammed y
      refine settled rfl (by rw [later, Bool.not_true]) ?_
      rw [absent]
      exact (pocketRound_frees (s := judged) game jammed).trans (freePocket_eq p judged)
    case stable =>
      intro absent present phase y
      refine settled (changed := true) (by rw [absent, present, Bool.false_bne]) (by rw [later, Bool.not_true]) ?_
      rw [absent]
      exact (pocketRound_loses (s := judged) game (.inl phase)).trans (leftUnseen_stable (s := judged) phase)
    case kickout =>
      intro absent present phase
      refine settled (changed := true) (by rw [absent, present, Bool.false_bne]) (by rw [later, Bool.not_true]) ?_
      rw [absent]
      exact (pocketRound_loses (s := judged) game (.inr (.inl phase))).trans (leftUnseen_kickoutWait (s := judged) phase)
    case release =>
      intro absent present phase out y counted lost bare
      have loses {v : State} (h : lostInRelease p c judged = v) : settles (supply v) (finish (completeRound s)) := by
        refine settled (changed := true) (by rw [absent, present, Bool.false_bne]) (by rw [later, Bool.not_true]) ?_
        rw [absent]
        exact (pocketRound_loses (s := judged) game (.inr (.inr phase))).trans
          ((leftUnseen_releaseWait (s := judged) phase).trans h)
      have out_eq : (pocket judged p).countOut.1 = out := countOut_fst x
      have y_eq : (pocket judged p).afterLoss = y := by
        unfold PocketState.afterLoss PocketState.byCounts
        rw [out_eq, show (pocket judged p).phase = .releaseWait from phase]
        rfl
      have counted_eq : recomputeB { judged with pockets := judged.pockets.afterLoss p } = counted := by
        unfold PocketCtl.afterLoss
        rw [show (judged.pockets.pockets.get p).afterLoss = y from y_eq]
        rfl
      have lost_eq : lossTaken p judged = lost := by
        rw [lossTaken_told, counted_eq, y_eq, out_eq]
        rfl
      refine ⟨fun h => loses ?_, fun few deferred => ⟨fun h => loses ?_, fun h => loses ?_⟩⟩
      · rw [lostInRelease_counted (s := judged) h, lost_eq]
      all_goals
        have left : y.pending = 0 := Nat.sub_eq_zero_of_le few
        rw [lostInRelease_deferred (s := judged) few deferred]
      · have clear : (pocket judged p).afterLoss.clear = true := by
          obtain ⟨held, resting, stuck, through⟩ := h
          rw [y_eq]
          simp [PocketState.clear, held, resting, stuck, through, left]
        rw [if_pos clear, closeInEmpty_opto (by rw [ho]; rfl), pocket_lossTaken, y_eq, lost_eq]
        rfl
      · have taken : ¬ (pocket judged p).afterLoss.clear = true := by
          rw [y_eq]
          simp only [PocketState.clear, Bool.and_eq_true, beq_iff_eq]
          rintro ⟨⟨⟨⟨held, resting⟩, stuck⟩, through⟩, -⟩
          exact h ⟨held, resting, stuck, through⟩
        rw [if_neg taken, lost_eq]
    case rest =>
      intro h
      refine settled rfl (by rw [later, Bool.not_true]) (pocketRound_stays ?_)
      change PocketPhase.atRest now (now != was) x.phase
      rcases h with h | h | ⟨h, absent⟩ | ⟨h | h, present⟩ | ⟨h, still⟩ | ⟨h | h | h, still⟩ <;> rw [h]
      · trivial
      · trivial
      · exact absent
      · exact present
      · exact present
      · exact unchanged_of_absent_or_was now was still
      all_goals exact unchanged_of_present_or_wasnt now was still
  case lane =>
    have analog : (finish (completeRound s)).analog = (judgeLevels s).analog := by
      simp [completeRound_analog hr he]
    refine ⟨finish (completeRound s), rfl, ?_⟩
    rw [analog]
    intro judged turned
    have nowhere : handPockets s (judgeLevels s) = judgeLevels s := handPockets_stay bare
    have round : completeRound s = noteSupply (if levelOf (judgeLevels s) 4 = true ∧ levelOf s 4 = false
        then laneTurnsPresent (judgeLevels s) else judgeLevels s) := by
      have here : isTrough (judgeLevels s) = true := station
      rw [completeRound_due hr he, nowhere, handChannel_four here]
    refine ⟨fun ⟨was, now⟩ serving => settles_of_eq ?_, fun h => settles_of_eq ?_⟩
    · have serves : (judgeLevels s).trough.phase = .serving := serving
      rw [round, if_pos ⟨now, was⟩, laneTurnsPresent_serving serves, noteSupply_eq]
      rfl
    · have stays : (if levelOf (judgeLevels s) 4 = true ∧ levelOf s 4 = false
          then laneTurnsPresent (judgeLevels s) else judgeLevels s) = judgeLevels s := by
        rcases h with h | h
        · exact if_neg fun ⟨now, was⟩ => h ⟨was, now⟩
        · have idle : laneTurnsPresent (judgeLevels s) = judgeLevels s := if_neg h
          rw [idle, ite_self]
      rw [round, stays, noteSupply_eq]
      rfl

end Sys2Proof.Machine

end

