-- ==== Sys2Proof/Proofs/Scans.lean ====
section
/-! SUPPORT. Scan completions (R2 to R7): debounce, the events, the timers they restart, the baseline marks. -/

namespace Sys2Proof.Machine

/-! ## Debounce (R2, R6, R7) -/

/-- The switches after a scan completion. -/
@[simp] theorem switch_scanWith (f : State → SwitchNo → SwitchState) (s : State) (i : SwitchNo) :
    switch (scanWith f s) i = f s i := Tab.get_ofFn _ i

/-- R2, R6, R7: the cases of the debounce, as the statement spells them. -/
theorem debounced_cases (s : State) (i : SwitchNo) :
    let x := s.scanner.switches.get i
    let raw := s.scanner.raw.get i
    (raw = x.closed → debounced s i = { x with count := 0 }) ∧
    (raw = true → x.closed = false →
      debounced s i = if x.count + 1 < (ruleOf s i).closeCount then { x with count := x.count + 1 }
        else { x with closed := true, count := 0, timer := if stuckExempt s i then none else some 20000 }) ∧
    (raw = false → x.closed = true →
      debounced s i = if x.count + 1 < (ruleOf s i).openCount then { x with count := x.count + 1 }
        else { closed := false, count := 0, stuck := false, timer := none }) := by
  intro x raw
  unfold debounced
  refine ⟨fun agrees => if_pos agrees, fun hr hx => ?_, fun hr hx => ?_⟩
  all_goals
    have differs : ¬ raw = x.closed := by simp [hr, hx]
    have hx' : (switch s i).closed = _ := hx
    have hr' : s.scanner.raw.get i = _ := hr
    refine (if_neg differs).trans ?_
    rw [hx', hr', hx]
    rfl

/-! ## The events of a scan (R5) -/

/-- Switch `i` changes state at the scan completion of `s`. -/
def changes (s : State) (i : SwitchNo) : Bool := (debounced s i).closed != (s.scanner.switches.get i).closed

/-- R3, R5: a switch that keeps its state, and one of class UNUSED, has no event. -/
theorem deliverChange_stays {s u : State} {i : SwitchNo} (h : changes s i = true → (ruleOf s i).cls = .unused) :
    deliverChange s (scanWith debounced s) i u = u := by
  unfold deliverChange
  refine if_pos ?_
  rw [switch_scanWith]
  cases hc : changes s i with
  | false => 
    left
    unfold changes at hc
    exact (bne_eq_false_iff_eq.mp hc).symm
  | true => exact .inr (h hc)

/-- R5: the event of a switch that changes is delivered. -/
theorem deliverChange_delivers {s u : State} {i : SwitchNo} (hc : changes s i = true)
    (h : (ruleOf s i).cls ≠ .unused) :
    deliverChange s (scanWith debounced s) i u =
      deliver i (debounced s i).closed ((s.scanner.switches.get i).stuck && !(debounced s i).closed) u := by
  unfold deliverChange
  rw [switch_scanWith]
  refine if_neg ?_
  rintro (same | unused)
  · exact bne_iff_ne.mp hc same.symm
  · exact h unused

/-- R2: a later scan completion. -/
theorem completeScan_later {s : State} (hr : s.scanner.running = true) (he : s.scanner.scanEnd = true)
    (hb : s.scanner.baseline = true) :
    completeScan s =
      eachUp 4 confirmAtScan (eachUp 64 (deliverChange s (scanWith debounced s)) (scanWith debounced s)) := by
  unfold completeScan
  rw [if_pos ⟨hr, he⟩, if_pos hb]
  rfl

/-- `deliver` changes control, rules, pockets, balls, trough, link, drivers alone. -/
@[simp] theorem deliver_frame (i : SwitchNo) (x y : Bool) (s : State) :
      (deliver i x y s).pending = s.pending ∧
      (deliver i x y s).scanner = s.scanner ∧
      (deliver i x y s).analog = s.analog ∧
      (deliver i x y s).modes = s.modes ∧
      (deliver i x y s).peers = s.peers ∧
      (deliver i x y s).lamps = s.lamps := by
  unfold deliver troughTakes pocketTakes; dsimp only; (repeat' split) <;> simp

@[simp] theorem deliver_setup (i : SwitchNo) (x y : Bool) (s : State) :
    (deliver i x y s).control.setup = s.control.setup := by
  unfold deliver troughTakes pocketTakes; dsimp only; (repeat' split) <;> simp

/-- An event leaves the setup. -/
@[simp] theorem deliverChange_setup (s t : State) (i : SwitchNo) (u : State) :
    (deliverChange s t i u).control.setup = u.control.setup := by
  unfold deliverChange; dsimp only; split <;> simp

/-- What every delivered event keeps, a later scan completion keeps, but for the switches and the banks' confirms. -/
theorem completeScan_keeps {τ : Type} (g : State → τ) {s : State} (hr : s.scanner.running = true)
    (he : s.scanner.scanEnd = true) (hb : s.scanner.baseline = true) (deliver : ∀ i x y u, g (deliver i x y u) = g u)
    (confirm : ∀ b u, g (confirmAtScan b u) = g u) : g (completeScan s) = g (scanWith debounced s) := by
  rw [completeScan_later hr he hb, eachUp_keeps g _ confirm]
  refine eachUp_keeps g _ (fun i u => ?_) _
  unfold deliverChange
  dsimp only
  split
  · rfl
  · exact deliver _ _ _ _

/-- R2: the Switch Scanner after a later scan completion. -/
theorem completeScan_scanner {s : State} (hr : s.scanner.running = true) (he : s.scanner.scanEnd = true)
    (hb : s.scanner.baseline = true) :
    (completeScan s).scanner = { s.scanner with switches := .ofFn (debounced s), scanEnd := false } := by
  rw [completeScan_keeps State.scanner hr he hb (by simp) (by simp)]
  simp [scanWith, hb]

/-! ## The trough station's settle timer (R136) -/

/-- The trough after an event of a TROUGH-class switch, where `restarts` says that this is its station. -/
def TroughCtl.restartedIf (restarts : Bool) (t : TroughCtl) : TroughCtl :=
  { t with settle := if restarts then some 300 else t.settle }

/-- A settle timer restarted twice is restarted. -/
@[simp] theorem restartedIf_restartedIf (a b : Bool) (t : TroughCtl) :
    (t.restartedIf a).restartedIf b = t.restartedIf (a || b) := by
  cases a <;> cases b <;> rfl

/-- R136: a TROUGH-class switch changes state. -/
def feels (s : State) (i : SwitchNo) : Bool := changes s i && (ruleOf s i).cls == .trough

/-- R3, R136: a switch that keeps its state, or is of class UNUSED, is not felt. -/
theorem feels_of_unused {s : State} {i : SwitchNo} (h : changes s i = true → (ruleOf s i).cls = .unused) :
    feels s i = false := by
  cases hc : changes s i with
  | false => simp [feels, hc]
  | true => simp [feels, h hc]

/-- R136: the Trough Controller at an event. -/
theorem troughTakes_eq (i : SwitchNo) (s : State) :
    troughTakes i s = { s with trough := s.trough.restartedIf ((ruleOf s i).cls == .trough && isTrough s) } := by
  unfold troughTakes
  split
  · rename_i h
    simp [h, TroughCtl.restartedIf, State.mapTrough, Config.troughSettleMs]
  · rename_i h
    have no : ((ruleOf s i).cls == .trough && isTrough s) = false := by simpa using h
    rw [no]
    rfl

/-- `pocketTakes` leaves the setup. -/
@[simp] theorem pocketTakes_setup (i : SwitchNo) (x : Bool) (s : State) :
    (pocketTakes i x s).control.setup = s.control.setup := by
  unfold pocketTakes; dsimp only; (repeat' split) <;> simp

/-- `pocketTakes` leaves the trough. -/
@[simp] theorem pocketTakes_trough (i : SwitchNo) (x : Bool) (s : State) : (pocketTakes i x s).trough = s.trough := by
  unfold pocketTakes; dsimp only; (repeat' split) <;> simp

/-- R136: an event delivered restarts the settle timer where its switch is of class TROUGH. -/
theorem deliver_trough (i : SwitchNo) (x y : Bool) (s : State) :
    (deliver i x y s).trough = s.trough.restartedIf ((ruleOf s i).cls == .trough && isTrough s) := by
  have setup : (pocketTakes i x (ruleTakes i x s)).control.setup = s.control.setup := by simp
  have taken : (troughTakes i (pocketTakes i x (ruleTakes i x s))).trough =
      s.trough.restartedIf ((ruleOf s i).cls == .trough && isTrough s) := by
    rw [troughTakes_eq, ruleOf_of_setup setup, isTrough_of_setup setup]
    simp
  unfold deliver
  dsimp only
  split
  · exact (restartQuiet_frame _).2.2.2.2.2.2.2.1.trans taken
  · exact taken

/-- R136: what the settle timer makes of a switch at a scan completion. -/
theorem deliverChange_trough {s u : State} (i : SwitchNo) (h : u.control.setup = s.control.setup) :
    (deliverChange s (scanWith debounced s) i u).trough = u.trough.restartedIf (isTrough s && feels s i) := by
  by_cases event : changes s i = true ∧ (ruleOf s i).cls ≠ .unused
  · obtain ⟨hc, hu⟩ := event
    rw [deliverChange_delivers hc hu, deliver_trough, ruleOf_of_setup h, isTrough_of_setup h, feels, hc, Bool.true_and,
      Bool.and_comm]
  · have unused : changes s i = true → (ruleOf s i).cls = .unused := by simpa using event
    rw [deliverChange_stays unused, feels_of_unused unused, Bool.and_false]
    rfl

/-- R136: the Trough Controller after a later scan completion. -/
theorem completeScan_trough {s : State} (hr : s.scanner.running = true) (he : s.scanner.scanEnd = true)
    (hb : s.scanner.baseline = true) :
    (completeScan s).trough = s.trough.restartedIf (isTrough s && (List.finRange 64).any (feels s)) := by
  have events (l : List SwitchNo) (u : State) (h : u.control.setup = s.control.setup) :
      (l.foldl (fun t i => deliverChange s (scanWith debounced s) i t) u).trough =
        u.trough.restartedIf (isTrough s && l.any (feels s)) := by
    induction l generalizing u with
    | nil =>
      rw [List.any_nil, Bool.and_false]
      rfl
    | cons i l ih =>
      rw [List.foldl_cons, ih _ ((deliverChange_setup _ _ _ _).trans h), deliverChange_trough i h,
        restartedIf_restartedIf, List.any_cons, Bool.and_or_distrib_left]
  rw [completeScan_later hr he hb, eachUp_keeps State.trough _ (by simp)]
  exact events _ (scanWith debounced s) rfl

/-! ## Events that score nothing (R3, R5, R147) -/

/-- R35: a bank whose confirm timer is stopped is not judged at a scan completion. -/
theorem confirmAtScan_stays {b : BankNo} {s : State} (h : (bank s b).timer = none) : confirmAtScan b s = s := by
  unfold confirmAtScan
  split
  · exact if_neg (by simp [h])
  · rfl

/-- R136, R147: the state with the trough's settle timer restarted, and with the quiet timer restarted and the search
ended, each where it is. -/
def State.stirredBy (stirs restarts : Bool) (s : State) : State :=
  { s with
    trough := s.trough.restartedIf restarts
    balls := if stirs then
        { s.balls with quiet := some (s.control.image.searchDelay * 1000), search := .idle, round := 0, todo := []
                       searchTimer := none }
      else s.balls }

/-- Timers restarted one after another are restarted together. -/
theorem stirredBy_stirredBy (a b c d : Bool) (s : State) :
    (s.stirredBy a b).stirredBy c d = s.stirredBy (a || c) (b || d) := by
  unfold State.stirredBy
  rw [restartedIf_restartedIf]
  cases a <;> cases c <;> rfl

/-- R147: the quiet timer restarts in the game states. -/
theorem restartQuiet_eq (s : State) : restartQuiet s = s.stirredBy (inGame s) false := by
  unfold restartQuiet
  split
  · rename_i h
    rw [h]
    rfl
  · rename_i h
    rw [Bool.eq_false_iff.mpr h]
    rfl

/-- R32: only a BANK-MEMBER switch follows a DROP bank. -/
theorem dropMark_stays {i : SwitchNo} {x : Bool} {s : State} (h : (ruleOf s i).cls ≠ .bankMember) :
    dropMark i x s = s := if_neg h

/-- R114: only a POCKET-ENTRY switch closes for a pocket. -/
theorem pocketTakes_stays {i : SwitchNo} {x : Bool} {s : State} (h : (ruleOf s i).cls ≠ .pocketEntry) :
    pocketTakes i x s = s := if_neg fun e => h e.2.1

/-- R136: the Trough Controller's part, as a restart of timers. -/
theorem troughTakes_stirredBy (i : SwitchNo) (s : State) :
    troughTakes i s = s.stirredBy false ((ruleOf s i).cls == .trough && isTrough s) := troughTakes_eq i s

/-- R5: what follows the Rule Engine at the event of a switch that is no pocket's. -/
theorem deliver_eq {i : SwitchNo} {x y : Bool} {s u : State} (h : ruleTakes i x s = u)
    (hc : (ruleOf s i).cls ≠ .pocketEntry) :
    deliver i x y s = u.stirredBy (activityOf s i y && inGame s) ((ruleOf s i).cls == .trough && isTrough s) := by
  have setup : u.control.setup = s.control.setup := by rw [← h, ruleTakes_setup]
  have restart (z : Bool) : (u.stirredBy false z).control.setup = s.control.setup := setup
  unfold deliver
  dsimp only
  rw [h, pocketTakes_stays (by rwa [ruleOf_of_setup setup]), troughTakes_stirredBy, restartQuiet_eq,
    stirredBy_stirredBy, ruleOf_of_setup setup, isTrough_of_setup setup, inGame_of_setup (restart _), activityOf,
    ruleOf_of_setup (restart _), activityOf]
  cases (ruleOf s i).activity && !y <;> simp

/-- R18, R32: an opening, and a close outside PLAY, of a switch that is no member of a bank is nothing to the Rule
Engine. -/
theorem ruleTakes_stays {i : SwitchNo} {x : Bool} {s : State} (hc : (ruleOf s i).cls ≠ .bankMember)
    (h : x = false ∨ inPlay s = false) : ruleTakes i x s = s := by
  have noHit : ¬ (x = true ∧ inPlay s = true) := by
    rintro ⟨hx, hp⟩
    rcases h with h | h
    · exact Bool.noConfusion (h.symm.trans hx)
    · exact Bool.noConfusion (h.symm.trans hp)
  unfold ruleTakes
  rw [if_neg noHit, dropMark_stays hc]

/-- R147: a TROUGH-class switch with its activity flag set changes state, and is no stuck one opening. -/
def stirs (s : State) (i : SwitchNo) : Bool :=
  feels s i && (ruleOf s i).activity && ((debounced s i).closed || !(s.scanner.switches.get i).stuck)

/-- R3, R5: a switch that keeps its state, is of class UNUSED, or is of class TROUGH and opens or closes outside PLAY. -/
def scoreless (s : State) (i : SwitchNo) : Prop :=
  changes s i = true → (ruleOf s i).cls = .unused ∨
    ((ruleOf s i).cls = .trough ∧ ((debounced s i).closed = false ∨ s.control.station ≠ .play))

/-- R5, R136, R147: all that such a switch does at a scan completion. -/
theorem deliverChange_scoreless {s u : State} {i : SwitchNo} (h : scoreless s i)
    (setup : u.control.setup = s.control.setup) :
    deliverChange s (scanWith debounced s) i u =
      u.stirredBy (inGame s && stirs s i) (isTrough s && feels s i) := by
  by_cases event : changes s i = true ∧ (ruleOf s i).cls = .trough
  · obtain ⟨hc, ht⟩ := event
    have ht' : (ruleOf u i).cls = .trough := by rw [ruleOf_of_setup setup, ht]
    have silent : ruleTakes i (debounced s i).closed u = u := by
      refine ruleTakes_stays (by rw [ht']; decide) ?_
      rcases h hc with unused | ⟨-, opens | outside⟩
      · rw [ht] at unused
        cases unused
      · exact .inl opens
      · right
        rw [inPlay_of_setup setup]
        exact beq_false_of_ne outside
    rw [deliverChange_delivers hc (by rw [ht]; decide), deliver_eq silent (by rw [ht']; decide), activityOf,
      ruleOf_of_setup setup, inGame_of_setup setup, isTrough_of_setup setup]
    have felt : feels s i = true := by simp [feels, hc, ht]
    simp [stirs, felt, ht, Bool.and_comm]
  · have quiet : feels s i = false := by
      simpa [feels] using event
    have stays : changes s i = true → (ruleOf s i).cls = .unused := fun hc =>
      (h hc).resolve_right fun e => event ⟨hc, e.1⟩
    rw [deliverChange_stays stays, stirs, quiet]
    simp [State.stirredBy, TroughCtl.restartedIf]

/-- R5, R136, R147: a later scan completion at which every switch that changes is such a one. -/
theorem completeScan_scoreless {s : State} (hr : s.scanner.running = true) (he : s.scanner.scanEnd = true)
    (hb : s.scanner.baseline = true) (calm : ∀ b, (bank s b).timer = none) (h : ∀ i, scoreless s i) :
    completeScan s = (scanWith debounced s).stirredBy (inGame s && (List.finRange 64).any (stirs s))
      (isTrough s && (List.finRange 64).any (feels s)) := by
  have events (l : List SwitchNo) (u : State) (setup : u.control.setup = s.control.setup) :
      l.foldl (fun t i => deliverChange s (scanWith debounced s) i t) u =
        u.stirredBy (inGame s && l.any (stirs s)) (isTrough s && l.any (feels s)) := by
    induction l generalizing u with
    | nil => simp [State.stirredBy, TroughCtl.restartedIf]
    | cons i l ih =>
      rw [List.foldl_cons, ih _ ((deliverChange_setup _ _ _ _).trans setup), deliverChange_scoreless (h i) setup,
        stirredBy_stirredBy, List.any_cons, List.any_cons, Bool.and_or_distrib_left, Bool.and_or_distrib_left]
  have heard : eachUp 64 (deliverChange s (scanWith debounced s)) (scanWith debounced s) = _ :=
    events _ (scanWith debounced s) rfl
  rw [completeScan_later hr he hb, heard]
  exact eachUp_fixed fun b => confirmAtScan_stays (calm b)

/-- R5: a scan completion with one event, which starts no bank's confirm timer. -/
theorem completeScan_single {s : State} {i : SwitchNo} (hr : s.scanner.running = true)
    (he : s.scanner.scanEnd = true) (hb : s.scanner.baseline = true)
    (others : ∀ j, j ≠ i → changes s j = true → (ruleOf s j).cls = .unused) (hc : changes s i = true)
    (hu : (ruleOf s i).cls ≠ .unused) {u : State}
    (event : deliver i (debounced s i).closed ((s.scanner.switches.get i).stuck && !(debounced s i).closed)
      (scanWith debounced s) = u)
    (calm : ∀ b, (bank u b).timer = none) : completeScan s = u := by
  have delivered : deliverChange s (scanWith debounced s) i (scanWith debounced s) = u :=
    (deliverChange_delivers hc hu).trans event
  have only : eachUp 64 (deliverChange s (scanWith debounced s)) (scanWith debounced s) = u :=
    (eachUp_only (fun _ => True) _ i trivial trivial fun j hj _ _ => deliverChange_stays (others j hj)).trans delivered
  rw [completeScan_later hr he hb, only]
  exact eachUp_fixed fun b => confirmAtScan_stays (calm b)

/-! ## The baseline scan (R4, R32) -/

/-- The members of DROP bank `b`: none where it is no DROP bank. -/
def dropMembers (s : State) (b : BankNo) : List SwitchNo :=
  match bankCfg s b with
  | some c => if c.isDrop then c.members else []
  | none => []

/-- The members of DROP bank `b`, by the bank's configuration. -/
theorem mem_dropMembers {s : State} {b : BankNo} {i : SwitchNo} :
    i ∈ dropMembers s b ↔ ∃ c, bankCfg s b = some c ∧ c.isDrop = true ∧ i ∈ c.members := by
  unfold dropMembers
  cases bankCfg s b with
  | none => simp
  | some c => cases hd : c.isDrop <;> simp [hd]

/-- R32: the marks of bank `b` that the baseline scan sets. -/
theorem baselineMarks_eq (b : BankNo) (s : State) :
    baselineMarks b s = (dropMembers s b).foldl (fun t i => setMark i (switch t i).closed t) s := by
  unfold baselineMarks dropMembers
  cases bankCfg s b with
  | none => rfl
  | some c => cases hd : c.isDrop <;> simp [hd]

/-- Marks set to what their switches read change the marks alone. -/
theorem foldl_setMark (l : List SwitchNo) (s : State) :
    l.foldl (fun t i => setMark i (switch t i).closed t) s = { s with rules := { s.rules with
      marks := l.foldl (fun m i => m.set i (switch s i).closed) s.rules.marks } } := by
  induction l generalizing s with
  | nil => rfl
  | cons i l ih =>
    rw [List.foldl_cons, ih]
    rfl

/-- R32: the marks after the baseline scan of `s`: those of DROP members follow their switches. -/
theorem eachUp_baselineMarks (s : State) :
    eachUp 4 baselineMarks s = { s with rules := { s.rules with
      marks := ((List.finRange 4).flatMap (dropMembers s)).foldl (fun m i => m.set i (switch s i).closed)
        s.rules.marks } } := by
  have banks (l : List BankNo) (u : State) (hu : u.control = s.control) (hs : u.scanner = s.scanner) :
      l.foldl (fun t b => baselineMarks b t) u =
        (l.flatMap (dropMembers s)).foldl (fun t i => setMark i (switch t i).closed t) u := by
    induction l generalizing u with
    | nil => rfl
    | cons b l ih =>
      have members : dropMembers u b = dropMembers s b := by
        unfold dropMembers bankCfg
        rw [hu]
      rw [List.foldl_cons, List.flatMap_cons, List.foldl_append, baselineMarks_eq, members]
      rw [foldl_setMark]
      exact ih _ hu hs
  rw [eachUp, banks _ s rfl rfl, foldl_setMark]

end Sys2Proof.Machine

end

