-- ==== Sys2Proof/Proofs/Hits.lean ====
section
/-! SUPPORT. Awards (R42 to R48) and a hit without an action in PLAY (R18, R21, R22). -/

namespace Sys2Proof

/-- Where one number alone can pass a test, the test of all is the test of that one. -/
theorem any_finRange_of_only {n : Nat} {p : Fin n → Bool} {i : Fin n} (h : ∀ j, j ≠ i → p j = false) :
    (List.finRange n).any p = p i := by
  cases hi : p i with
  | true => exact List.any_eq_true.mpr ⟨i, List.mem_finRange i, hi⟩
  | false =>
    refine List.any_eq_false.mpr fun j _ => ?_
    by_cases e : j = i
    · simp [e, hi]
    · simp [h j e]

end Sys2Proof

namespace Sys2Proof.Machine

/-! ## Awards (R42 to R48) -/

/-- R46, R47: an award changes one tally of the Rule Engine. -/
theorem award_rules (p : Player) (v : Nat) (g : Fin 8) (k : Scoring) (s : State) :
    let tally := s.rules.tallies.get p
    (award p v g k s).rules = { s.rules with
      tallies := s.rules.tallies.set p (tally + amountAdded tally (rawAward s v g k)) } := by
  unfold award
  dsimp only
  split <;> simp

/-- R47: within its ceiling a tally rises by the raw award, up to the ceiling. -/
theorem tally_after {tally : Nat} (raw : Nat) (h : tally ≤ 99999999) :
    tally + amountAdded tally raw = min 99999999 (tally + raw) := by
  unfold amountAdded Config.tallyMax
  omega

/-- R45, R46: the raw award of a hit. -/
theorem rawAward_hit (s : State) (v : Nat) (g : Fin 8) (i : SwitchNo) (c : Bool) :
    rawAward s v g (.hit i c) =
      v * multiplier s g + (if c then v * multiplier s g * s.rules.combo / 4 else 0) := by
  cases c <;> simp [rawAward, comboBonus]

/-- An offer does not read the Trough Controller. -/
theorem offer_withTrough (b : Bulletin) (s : State) (t : TroughCtl) :
    offer b { s with trough := t } = { offer b s with trough := t } := by
  unfold offer
  rcases offerTo b s.link with ⟨q, a, tk, d, r⟩
  cases d <;> cases r <;> rfl

/-- An award does not read the Trough Controller. -/
theorem award_withTrough (p : Player) (v : Nat) (g : Fin 8) (k : Scoring) (s : State) (t : TroughCtl) :
    award p v g k { s with trough := t } = { award p v g k s with trough := t } := by
  have raw : rawAward { s with trough := t } v g k = rawAward s v g k := rfl
  unfold award
  dsimp only
  rw [raw]
  split
  · exact offer_withTrough _ { s with rules := _ } t
  · rfl

/-! ## Hits without an action (R18, R21, R22) -/

/-- R21: the resting state of the feature of rule `r` after a hit that `s` judges, in `u`. -/
def featureAfter (r : Rule) (s u : State) : State :=
  match r.feature with
  | some f => if resting u f = restingAfter s r f then u else setFeature f (restingAfter s r f) u
  | none => u

section
variable {i : SwitchNo} {s : State} (hm : (ruleOf s i).cls ≠ .bankMember) (hd : (ruleOf s i).cls ≠ .direct)
include hd

/-- R19: a hit on no DIRECT switch requests no driver. -/
theorem directPulse_stays : directPulse (ruleOf s i) s = s := by
  unfold directPulse
  split
  · exact if_neg hd
  · rfl

/-- R22: a hit that is handed no value does nothing. -/
theorem hit_worthless (hv : hitValue s (ruleOf s i) = none) : hit i s = s := by
  unfold hit
  dsimp only
  rw [directPulse_stays hd, hv]

include hm

/-- R18, R21, R32: a hit without an action on no member of a bank: the award, then the feature's resting state. -/
theorem hit_scores (ha : (ruleOf s i).action = none) {v : Nat} (hv : hitValue s (ruleOf s i) = some v) :
    hit i s = featureAfter (ruleOf s i) s
      (award s.rules.current v (ruleOf s i).group (.hit i (ruleOf s i).combo) s) := by
  unfold hit featureAfter
  dsimp only
  rw [directPulse_stays hd, hv, ha]
  unfold standupMark
  dsimp only
  rw [if_neg hm]
  cases (ruleOf s i).feature <;> rfl

end

/-- R21: the change of one feature changes the feature table alone, of the Rule Engine. -/
theorem setFeature_rules (f : FeatureNo) (r : Resting) (s : State) :
    (setFeature f r s).rules = { s.rules with features := s.rules.features.set f r } := by
  unfold setFeature
  simp

/-- R21: a hit leaves, of the Rule Engine, everything but the tallies and the feature table. -/
theorem featureAfter_rules (r : Rule) (s u : State) :
    (featureAfter r s u).rules = { u.rules with features := match r.feature with
      | some f => u.rules.features.set f (restingAfter s r f)
      | none => u.rules.features } := by
  unfold featureAfter
  cases r.feature with
  | none => rfl
  | some f =>
    dsimp only
    split
    · rename_i h
      rw [← h, resting, Tab.set_get]
    · exact setFeature_rules _ _ _

/-- R21, R22: a feature that hands no value keeps its resting state. -/
theorem restingAfter_of_worthless {s : State} {r : Rule} {f : FeatureNo} (hm : r.cls ≠ .bankMember)
    (hf : r.feature = some f) (hv : hitValue s r = none) : restingAfter s r f = resting s f := by
  unfold hitValue at hv
  rw [memberResetting_of_cls_ne s r hm, hf] at hv
  unfold restingAfter
  cases he : effective s f <;> simp [he] at hv ⊢

/-- R18, R21, R22, R47: what a hit without an action on no member of a bank makes of the Rule Engine. -/
theorem hit_rules {i : SwitchNo} {s : State} (hm : (ruleOf s i).cls ≠ .bankMember)
    (hd : (ruleOf s i).cls ≠ .direct) (ha : (ruleOf s i).action = none) :
    let r := ruleOf s i
    let tally := s.rules.tallies.get s.rules.current
    (hit i s).rules = { s.rules with
      tallies := match hitValue s r with
        | some v => s.rules.tallies.set s.rules.current
            (tally + amountAdded tally (rawAward s v r.group (.hit i r.combo)))
        | none => s.rules.tallies
      features := match r.feature with
        | some f => s.rules.features.set f (restingAfter s r f)
        | none => s.rules.features } := by
  intro r tally
  cases hv : hitValue s r with
  | some v =>
    rw [hit_scores hm hd ha hv, featureAfter_rules, award_rules]
  | none =>
    rw [hit_worthless hd hv]
    cases hf : r.feature with
    | none => rfl
    | some f =>
      dsimp only
      rw [restingAfter_of_worthless hm hf hv, resting, Tab.set_get]

/-- R18: in PLAY the Rule Engine takes a close of no member of a bank as a hit, and as no more. -/
theorem ruleTakes_hit {i : SwitchNo} {s : State} (hp : inPlay s = true) (hm : (ruleOf s i).cls ≠ .bankMember) :
    ruleTakes i true s = hit i s := by
  unfold ruleTakes
  rw [if_pos ⟨rfl, hp⟩]
  exact dropMark_stays (by rwa [ruleOf_of_setup (hit_setup i s)])

/-- R5, R18: a later scan completion in PLAY whose one event is the close of a switch that is no pocket's, no bank's and
no DIRECT one's, and whose rule has no action. -/
theorem completeScan_hit {s : State} {i : SwitchNo} (play : s.control.station = .play)
    (hr : s.scanner.running = true) (he : s.scanner.scanEnd = true) (hb : s.scanner.baseline = true)
    (others : ∀ j, j ≠ i → changes s j = true → (ruleOf s j).cls = .unused) (hc : changes s i = true)
    (closes : (debounced s i).closed = true) (calm : ∀ b, (bank s b).timer = none)
    (cls : (ruleOf s i).cls = .playfield ∨ (ruleOf s i).cls = .trough) (ha : (ruleOf s i).action = none) :
    completeScan s = (hit i (scanWith debounced s)).stirredBy (ruleOf s i).activity
      ((ruleOf s i).cls == .trough && isTrough s) := by
  have cls_ne (c : RuleClass) (h : c ≠ .playfield ∧ c ≠ .trough) : (ruleOf s i).cls ≠ c := by
    rintro rfl
    exact cls.elim h.1 h.2
  have member : (ruleOf s i).cls ≠ .bankMember := cls_ne _ (by decide)
  have inPlay : inPlay (scanWith debounced s) = true := beq_iff_eq.mpr play
  have game : inGame (scanWith debounced s) = true := congrArg StationState.inGame play
  have event := deliver_eq (y := (s.scanner.switches.get i).stuck && !(debounced s i).closed)
    (ruleTakes_hit (s := scanWith debounced s) inPlay member) (cls_ne _ (by decide))
  rw [closes, Bool.not_true, Bool.and_false, game, Bool.and_true] at event
  have active : activityOf (scanWith debounced s) i false = (ruleOf s i).activity := Bool.and_true _
  rw [active] at event
  refine completeScan_single hr he hb others hc (cls_ne _ (by decide)) ?_ fun b => ?_
  · rw [closes, Bool.not_true, Bool.and_false]
    exact event
  · have rules := hit_rules (s := scanWith debounced s) member (cls_ne _ (by decide)) ha
    change ((hit i (scanWith debounced s)).rules.banks.get b).timer = none
    rw [rules]
    exact calm b

/-- R21, R22: the value that a hit on no member of a bank hands to the award. -/
theorem hitValue_eq {s : State} {r : Rule} (hm : r.cls ≠ .bankMember) :
    hitValue s r = match r.feature with
      | none => some r.plain
      | some f =>
        match effective s f with
        | .off | .held => none
        | .dark | .latent => some r.plain
        | .lit => some r.lit := by
  unfold hitValue
  rw [memberResetting_of_cls_ne s r hm]
  rfl

/-- R21: the resting state after a hit on a switch that is no pocket's. -/
theorem restingAfter_eq {s : State} {r : Rule} {f : FeatureNo} (hp : r.cls ≠ .pocketEntry) :
    restingAfter s r f = if effective s f = .latent then .lit
      else if effective s f = .lit ∧ resting s f = .lit then r.after else resting s f := by
  have noLight : isLockLight s r f = false := by simp [isLockLight, hp]
  unfold restingAfter
  rw [noLight]
  cases effective s f <;> simp

/-- Settles O31: the one event of the scan is the hit. -/
theorem aPlayfieldHitScores : Obligations.APlayfieldHitScores := by
  intro s i play hr he hb opened closes others calm ceiling cls ha r value m scored
  have only : ∀ j, j ≠ i → changes s j = true → (ruleOf s j).cls = .unused := fun j hj hc =>
    absurd (others j hj) (bne_iff_ne.mp hc)
  have change : changes s i = true := by simp [changes, closes, opened]
  have member : r.cls ≠ .bankMember := by rw [show r.cls = .playfield from cls]; decide
  have direct : r.cls ≠ .direct := by rw [show r.cls = .playfield from cls]; decide
  have pocket : r.cls ≠ .pocketEntry := by rw [show r.cls = .playfield from cls]; decide
  have after := completeScan_hit play hr he hb only change closes calm (.inl cls) ha
  have rules := hit_rules (s := scanWith debounced s) (i := i) member direct ha
  obtain ⟨-, -, fAnalog, fRules, fModes, fPockets, fBalls, fTrough, fPeers, -⟩ := finish_frame (completeScan s)
  obtain ⟨-, -, hAnalog, hModes, hPockets, hBalls, hTrough, hPeers, -⟩ := hit_frame i (scanWith debounced s)
  have noTrough : ((ruleOf s i).cls == .trough && isTrough s) = false := by
    rw [show (ruleOf s i).cls = .playfield from cls]
    rfl
  rw [noTrough] at after
  have block : (finish (completeScan s)).rules = (hit i (scanWith debounced s)).rules := by
    rw [fRules, after]
    rfl
  have feature (f : FeatureNo) : resting (finish (completeScan s)) f = match r.feature with
      | some g => if f = g then restingAfter (scanWith debounced s) r g else resting s f
      | none => resting s f := by
    unfold resting
    rw [block, rules]
    change Tab.get (match r.feature with
      | some g => s.rules.features.set g (restingAfter (scanWith debounced s) r g)
      | none => s.rules.features) f = _
    cases r.feature with
    | none => rfl
    | some g => exact Tab.get_set _ _ _ _
  refine ⟨finish (completeScan s), rfl, ?station, by rw [block, rules]; rfl, ?tallies, fun f hf => ?other,
    fun f hf => ?own, ?quiet, by rw [block, rules]; rfl, by rw [block, rules]; rfl, ?_, ?_, ?_, ?_, ?_⟩
  case station =>
    rw [finish_control, after]
    exact (station_of_setup (hit_setup i (scanWith debounced s))).trans play
  case tallies =>
    have value_eq : hitValue (scanWith debounced s) r = value := hitValue_eq member
    rw [block, rules]
    change (match hitValue (scanWith debounced s) r with
      | some v => _
      | none => _) = _
    rw [value_eq]
    cases value with
    | none => rfl
    | some v =>
      exact congrArg (s.rules.tallies.set s.rules.current)
        ((tally_after _ ceiling).trans (by rw [rawAward_hit]; rfl))
  case other =>
    rw [feature]
    cases hg : r.feature with
    | none => rfl
    | some g =>
      have ne : f ≠ g := fun e => hf (hg.trans (congrArg some e.symm))
      exact if_neg ne
  case own =>
    rw [feature, hf]
    exact (if_pos rfl).trans (restingAfter_eq pocket)
  case quiet =>
    rw [fBalls, after]
    unfold State.stirredBy
    dsimp only
    rw [apply_ite Balls.quiet, image_of_setup (hit_setup i (scanWith debounced s)), hBalls]
    rfl
  · rw [fModes, after]
    exact hModes
  · rw [fPockets, after]
    exact hPockets
  · rw [fTrough, after]
    exact hTrough
  · rw [fPeers, after]
    exact hPeers
  · rw [fAnalog, after]
    exact hAnalog

end Sys2Proof.Machine

end

