-- ==== Sys2Proof/Proofs/ScansDebounce.lean ====
section
/-! SUPPORT. The scans of O25: UNUSED and TROUGH switches, a bare hit, the baseline scan. -/

namespace Sys2Proof.Machine

/-! ## Scans without a hit -/

/-- R3: a later scan completion at which switches of class UNUSED alone change. -/
theorem completeScan_unused {s : State} (hr : s.scanner.running = true) (he : s.scanner.scanEnd = true)
    (hb : s.scanner.baseline = true) (calm : ∀ b, (bank s b).timer = none)
    (h : ∀ i, changes s i = true → (ruleOf s i).cls = .unused) : completeScan s = scanWith debounced s := by
  rw [completeScan_later hr he hb, eachUp_fixed fun i => deliverChange_stays (h i)]
  exact eachUp_fixed fun b => confirmAtScan_stays (calm b)

/-- The timers restarted, spelled with the quiet timer's restart last. -/
theorem stirredBy_eq (a b : Bool) (s : State) :
    s.stirredBy a b = if a then { s with
        trough := s.trough.restartedIf b
        balls := { s.balls with quiet := some (s.control.image.searchDelay * 1000), search := .idle, round := 0
                                todo := [], searchTimer := none } }
      else { s with trough := s.trough.restartedIf b } := by
  cases a <;> rfl

/-- R5, R18: the hit on a TROUGH-class switch without a feature or an action is its award. -/
theorem hit_bare {i : SwitchNo} {s : State} (hm : (ruleOf s i).cls ≠ .bankMember) (hd : (ruleOf s i).cls ≠ .direct)
    (hf : (ruleOf s i).feature = none) (ha : (ruleOf s i).action = none) :
    hit i s = award s.rules.current (ruleOf s i).plain (ruleOf s i).group (.hit i (ruleOf s i).combo) s := by
  have value : hitValue s (ruleOf s i) = some (ruleOf s i).plain := by
    rw [hitValue_eq hm, hf]
  rw [hit_scores hm hd ha value, featureAfter, hf]

/-- R5, R18, R136, R147: in PLAY the one close of a TROUGH-class switch without a feature or an action is its award,
and restarts the settle timer and, with its activity flag set, the quiet timer. -/
theorem completeScan_bareHit {s : State} {i : SwitchNo} (play : s.control.station = .play)
    (hr : s.scanner.running = true) (he : s.scanner.scanEnd = true) (hb : s.scanner.baseline = true)
    (others : ∀ j, j ≠ i → changes s j = true → (ruleOf s j).cls = .unused) (hc : changes s i = true)
    (closes : (debounced s i).closed = true) (calm : ∀ b, (bank s b).timer = none)
    (cls : (ruleOf s i).cls = .trough) (hf : (ruleOf s i).feature = none) (ha : (ruleOf s i).action = none) :
    let u := award s.rules.current (ruleOf s i).plain (ruleOf s i).group (.hit i (ruleOf s i).combo)
      { scanWith debounced s with trough := s.trough.restartedIf (isTrough s && (List.finRange 64).any (feels s)) }
    completeScan s =
      if inGame s && (List.finRange 64).any (stirs s) then { u with balls := { u.balls with
        quiet := some (s.control.image.searchDelay * 1000), search := .idle, round := 0, todo := []
        searchTimer := none } }
      else u := by
  have member : (ruleOf s i).cls ≠ .bankMember := by rw [cls]; decide
  have direct : (ruleOf s i).cls ≠ .direct := by rw [cls]; decide
  have silent (j : SwitchNo) (hj : j ≠ i) : feels s j = false := feels_of_unused (others j hj)
  have felt : (List.finRange 64).any (feels s) = true := by
    rw [any_finRange_of_only silent]
    simp [feels, hc, cls]
  have stirred : (List.finRange 64).any (stirs s) = (ruleOf s i).activity := by
    rw [any_finRange_of_only (i := i) fun j hj => by simp [stirs, silent j hj]]
    simp [stirs, feels, hc, cls, closes]
  have game : inGame s = true := congrArg StationState.inGame play
  have image : (hit i (scanWith debounced s)).control.image = s.control.image :=
    image_of_setup (hit_setup i (scanWith debounced s))
  have trough : (hit i (scanWith debounced s)).trough = s.trough := by
    simp only [hit_frame]
    rfl
  intro u
  have u_eq : u = { hit i (scanWith debounced s) with trough := s.trough.restartedIf (isTrough s) } := by
    unfold u
    rw [award_withTrough, felt, Bool.and_true, hit_bare (s := scanWith debounced s) member direct hf ha]
    rfl
  rw [completeScan_hit play hr he hb others hc closes calm (.inr cls) ha, stirredBy_eq, trough, image, stirred, game,
    u_eq, cls]
  rfl

/-! ## The baseline scan -/

/-- R4, R32, R136: what the baseline scan changes. -/
theorem completeScan_baseline {s : State} (hr : s.scanner.running = true) (he : s.scanner.scanEnd = true)
    (hb : s.scanner.baseline = false) :
    completeScan s = { s with
      scanner := { s.scanner with switches := .ofFn (baselined s), scanEnd := false, baseline := true }
      rules := { s.rules with
        marks := ((List.finRange 4).flatMap (dropMembers s)).foldl (fun m i => m.set i (baselined s i).closed)
          s.rules.marks }
      trough := s.trough.restartedIf (isTrough s) } := by
  have marks := eachUp_baselineMarks (scanWith baselined s)
  simp only [switch_scanWith] at marks
  have trough : completeScan s = let u := eachUp 4 baselineMarks (scanWith baselined s)
      { u with trough := u.trough.restartedIf (isTrough u) } := by
    unfold completeScan baselineScan
    rw [if_pos ⟨hr, he⟩, hb]
    generalize eachUp 4 baselineMarks (scanWith baselined s) = u
    cases h : isTrough u <;> simp [h, State.mapTrough, TroughCtl.restartedIf, Config.troughSettleMs]
  rw [trough, marks]
  rfl

/-- R4: a switch after the baseline scan, as the statement spells it. -/
theorem baselined_eq (s : State) (i : SwitchNo) :
    baselined s i = { closed := s.scanner.raw.get i, count := 0, stuck := false
                      timer := if s.scanner.raw.get i && !stuckExempt s i then some 20000 else none } := by
  unfold baselined stuckTimer
  cases s.scanner.raw.get i <;> cases stuckExempt s i <;> rfl

/-- Settles O25. -/
theorem aScanDebouncesEverySwitch : Obligations.AScanDebouncesEverySwitch := by
  refine ⟨fun s hr he hb => ?debounce, fun s hr he hb => ?events, fun s hr he hb => ?baseline⟩
  case debounce =>
    have scanner : (finish (completeScan s)).scanner =
        { s.scanner with switches := .ofFn (debounced s), scanEnd := false } := by
      simp [completeScan_scanner hr he hb]
    refine ⟨finish (completeScan s), rfl, ?_⟩
    rw [scanner]
    refine ⟨rfl, fun i => ?_⟩
    have debounce := debounced_cases s i
    rw [show Tab.get _ i = debounced s i from Tab.get_ofFn (debounced s) i]
    exact debounce
  case events =>
    intro changed felt restarted stirs' heard
    have scanner : (finish (completeScan s)).scanner = (scanWith debounced s).scanner := by
      simp [completeScan_scanner hr he hb, scanWith, hb]
    have trough : (completeScan s).trough = restarted := completeScan_trough hr he hb
    refine ⟨⟨finish (completeScan s), rfl, ?_⟩, fun calm =>
      ⟨fun h => ⟨finish (completeScan s), rfl, ?unused⟩, fun h => ⟨finish (completeScan s), rfl, ?scoreless⟩,
        fun i play others change closes cls hf ha => ⟨finish (completeScan s), rfl, ?hit⟩⟩⟩
    · simp [trough]
    case unused =>
      rw [scanner]
      exact settles_of_eq (completeScan_unused hr he hb calm h)
    case scoreless =>
      rw [scanner]
      refine settles_of_eq ?_
      rw [completeScan_scoreless hr he hb calm h, stirredBy_eq]
      rfl
    case hit =>
      rw [scanner]
      refine settles_of_eq ?_
      have only : ∀ j, j ≠ i → changes s j = true → (ruleOf s j).cls = .unused := fun j hj hc =>
        (others j hc).resolve_left hj
      exact completeScan_bareHit play hr he hb only change closes calm cls hf ha
  case baseline =>
    have settled : settles (completeScan s) (finish (completeScan s)) := settles_finish _
    have same := completeScan_baseline hr he hb
    have scanner : (finish (completeScan s)).scanner = (completeScan s).scanner := by simp
    have rules : (finish (completeScan s)).rules = (completeScan s).rules := by simp
    have mark (i : SwitchNo) : (completeScan s).rules.marks.get i =
        if i ∈ (List.finRange 4).flatMap (dropMembers s) then s.scanner.raw.get i else s.rules.marks.get i := by
      rw [same]
      have read := Tab.get_foldl_set id (fun k => (baselined s k).closed) i
        ((List.finRange 4).flatMap (dropMembers s)) s.rules.marks
      rw [List.map_id] at read
      exact read
    refine ⟨finish (completeScan s), rfl, fun i => ?_, fun i drop => ?_, fun i none => ?_, ?_⟩
    · rw [scanner, same, ← baselined_eq]
      exact Tab.get_ofFn _ i
    · rw [rules, mark, if_pos]
      obtain ⟨b, c, hc, hd, hi⟩ := drop
      exact List.mem_flatMap.mpr ⟨b, List.mem_finRange b, mem_dropMembers.mpr ⟨c, hc, hd, hi⟩⟩
    · rw [rules, mark, if_neg]
      intro hi
      obtain ⟨b, -, hb⟩ := List.mem_flatMap.mp hi
      obtain ⟨c, hc, hd, hi⟩ := mem_dropMembers.mp hb
      exact none b c hc hd hi
    · rw [scanner, rules]
      refine settles_of_eq ?_
      rw [same]
      rfl

end Sys2Proof.Machine

end

