-- ==== Sys2Proof/Proofs/ImageBytes.lean ====
section
/-! SUPPORT. The image as corrected (R183): sections, records, header fields. -/

namespace Sys2Proof.Machine

/-! ## Numbers taken into a range -/

/-- A number taken into `lo .. hi`, by cases. -/
theorem clamp_eq {lo hi : Nat} (h : lo ≤ hi) (x : Nat) :
    clamp lo hi x = if x < lo then lo else if hi < x then hi else x := by
  unfold clamp
  split
  · omega
  · split <;> omega

/-! ## Bytes, sections and records (R182, section 11.3) -/

/-- A byte is the number it stands for. -/
theorem ofNat_imgByte (img : List Byte) (n : Nat) : BitVec.ofNat 8 (imgByte img n) = img.getD n 0 := by
  simp [imgByte]

/-- A byte of a stretch of the image is a byte of the image. -/
theorem getD_take_drop (img : List Byte) {place size n : Nat} (h : n < size) :
    ((img.drop place).take size).getD n 0 = img.getD (place + n) 0 := by
  simp [List.getD, List.getElem?_drop, h]

/-- R182: the lengths of the eight sections. -/
theorem sectionLength_eq (img : List Byte) (k : Nat) :
    sectionLength img k = if present img k then [640, 64, 48, 32, 64, 384, 32, 24].getD k 0 else 0 := by
  unfold sectionLength
  congr 1
  match k with
  | 0 | 1 | 2 | 3 | 4 | 5 | 6 | 7 => rfl
  | _ + 8 => rfl

/-- R182: where section `k` begins. -/
theorem sectionStart_eq (img : List Byte) (k : Nat) :
    sectionStart img k = 24 + ((List.range k).map fun j =>
      if present img j then [640, 64, 48, 32, 64, 384, 32, 24].getD j 0 else 0).sum := by
  unfold sectionStart
  rw [funext (sectionLength_eq img)]

/-- Where record `i` of section `k` stands, its records `size` bytes long. -/
def recordPlace (img : List Byte) (k i size : Nat) : Nat := sectionStart img k + i * size

/-- The bytes of record `i` of section `k`, its records `size` bytes long. -/
def recordBytes (img : List Byte) (k i size : Nat) : List Byte := (img.drop (recordPlace img k i size)).take size

/-- R182: the records of a present section. -/
theorem record_present {img : List Byte} {k : Nat} (h : present img k = true) (i : Nat) :
    record img k i = some (recordBytes img k i (sections.getD k (0, 0)).2) := by
  unfold record
  rw [if_pos h]
  rfl

/-- R182: an absent section has no records. -/
theorem record_absent {img : List Byte} {k : Nat} (h : present img k = false) (i : Nat) : record img k i = none := by
  unfold record
  rw [h]
  rfl

/-- A byte of a record, as a byte of the image. -/
theorem imgByte_recordBytes (img : List Byte) (k i : Nat) {size n : Nat} (h : n < size) :
    imgByte (recordBytes img k i size) n = imgByte img (recordPlace img k i size + n) := by
  unfold imgByte recordBytes
  rw [getD_take_drop img h]

/-- A number of two bytes in a record, as one in the image. -/
theorem imgWord_recordBytes (img : List Byte) (k i : Nat) {size n : Nat} (h : n + 1 < size) :
    imgWord (recordBytes img k i size) n = imgWord img (recordPlace img k i size + n) := by
  unfold imgWord
  rw [imgByte_recordBytes img k i h, imgByte_recordBytes img k i (Nat.lt_of_succ_lt h), Nat.add_assoc]

/-! ## Header fields (R10, R57, R82, R150, R183) -/

/-- R183: the signature is the check's high byte XOR its low byte. -/
theorem xor_bytes_toNat (r : BitVec 16) :
    ((r.extractLsb' 8 8) ^^^ (r.extractLsb' 0 8)).toNat = (r.toNat / 256) ^^^ (r.toNat % 256) := by
  have small : r.toNat / 256 < 256 := by
    have := r.isLt
    omega
  simp [BitVec.toNat_xor, BitVec.extractLsb'_toNat, Nat.shiftRight_eq_div_pow, Nat.mod_eq_of_lt small]

/-- R183: the signature, over header bytes 6..13 and the mode section as stored. -/
theorem signatureOf_toNat (img : List Byte) :
    let check := checkBits (bytesBits ((img.drop 6).take 8 ++
      if present img 5 then (img.drop (sectionStart img 5)).take 384 else []))
    (signatureOf img).toNat = (check.toNat / 256) ^^^ (check.toNat % 256) := by
  have modes : (img.drop (sectionStart img 5)).take (sectionLength img 5) =
      if present img 5 then (img.drop (sectionStart img 5)).take 384 else [] := by
    rw [sectionLength_eq]
    cases present img 5 <;> rfl
  unfold signatureOf
  dsimp only
  rw [modes]
  exact xor_bytes_toNat _

/-- R150: the multiball count lies within 2 and the installed balls, and is 1 with 1 installed ball. -/
theorem multiballOf_eq {installed : Nat} (h : 1 ≤ installed) (x : Nat) :
    multiballOf installed x =
      if installed = 1 then 1 else if x < 2 then 2 else if installed < x then installed else x := by
  unfold multiballOf
  split
  · rfl
  · exact clamp_eq (by omega) x

/-- R109: the release spacing of P0's record. -/
theorem spacingOf_eq (img : List Byte) :
    spacingOf img = if present img 3 then
      stepped 400 2000 100 (Config.pocketRecord (recordBytes img 3 0 8)).spacing else 400 := by
  unfold spacingOf rawPocket
  cases h : present img 3 with
  | true => rw [record_present h]; rfl
  | false => rw [record_absent h]; rfl

end Sys2Proof.Machine

end

