-- ==== Sys2Proof/Proofs/ImageBanks.lean ====
section
/-! SUPPORT. The image as corrected: banks and actions (R16, R31). -/

namespace Sys2Proof

/-- Appending the new ones of a list, in order, leaves out what is there and what comes again. -/
theorem foldl_appendNew {α : Type} [DecidableEq α] (p : α → Bool) (l got : List α) :
    l.foldl (fun got i => if p i ∧ i ∉ got then got ++ [i] else got) got =
      got ++ (l.filter fun i => p i && decide (i ∉ got)).eraseDups := by
  induction l generalizing got with
  | nil => simp
  | cons a l ih =>
    rw [List.foldl_cons, ih, List.filter_cons]
    by_cases h : p a = true ∧ a ∉ got
    · have keep : (p a && decide (a ∉ got)) = true := by simpa using h
      have rest : (l.filter fun i => p i && decide (i ∉ got ++ [a])) =
          ((l.filter fun i => p i && decide (i ∉ got)).filter fun i => !i == a) := by
        rw [List.filter_filter]
        refine List.filter_congr fun i _ => ?_
        simp only [List.mem_append, List.mem_singleton, not_or]
        by_cases e : i = a <;> simp [e]
      rw [if_pos h, if_pos keep, List.eraseDups_cons, rest, List.append_assoc, List.singleton_append]
    · have drop : ¬ (p a && decide (a ∉ got)) = true := by simpa using h
      rw [if_neg h, if_neg drop]

end Sys2Proof

namespace Sys2Proof.Machine

/-! ## Banks (R31) -/

/-- R31: the members that bank `b` may have: those whose stored rule is a BANK-MEMBER's and names the bank. -/
theorem bankMembers_eq {img : List Byte} (h : present img 0 = true) (b : BankNo) (listed : List Nat) :
    bankMembers img b listed = (((listed.take 8).filterMap switch?).filter fun i =>
      decide (imgByte img (recordPlace img 0 i.val 10) / 32 = 4) &&
        decide (imgByte img (recordPlace img 0 i.val 10 + 8) % 16 = b.val)).eraseDups := by
  have step (got : List SwitchNo) (i : SwitchNo) :
      (match record img 0 i.val with
      | none => got
      | some r => if (readRule r).cls = 4 ∧ (readRule r).index = b.val ∧ i ∉ got then got ++ [i] else got) =
      if (decide (imgByte img (recordPlace img 0 i.val 10) / 32 = 4) &&
        decide (imgByte img (recordPlace img 0 i.val 10 + 8) % 16 = b.val)) = true ∧ i ∉ got then got ++ [i]
      else got := by
    rw [record_present h]
    have cls : (readRule (recordBytes img 0 i.val 10)).cls = imgByte img (recordPlace img 0 i.val 10) / 32 :=
      congrArg (· / 32) (imgByte_recordBytes img 0 i.val (by decide))
    have index : (readRule (recordBytes img 0 i.val 10)).index = imgByte img (recordPlace img 0 i.val 10 + 8) % 16 :=
      congrArg (· % 16) (imgByte_recordBytes img 0 i.val (by decide))
    change (if (readRule (recordBytes img 0 i.val 10)).cls = 4 ∧
      (readRule (recordBytes img 0 i.val 10)).index = b.val ∧ i ∉ got then got ++ [i] else got) = _
    simp only [cls, index, Bool.and_eq_true, decide_eq_true_eq, and_assoc]
  unfold bankMembers
  refine (congrArg (fun f => List.foldl f [] _) (funext fun got => funext (step got))).trans ?_
  rw [foldl_appendNew]
  simp

/-- R31: with no rule section no bank has a member. -/
theorem bankMembers_absent {img : List Byte} (h : present img 0 = false) (b : BankNo) (listed : List Nat) :
    bankMembers img b listed = [] := by
  unfold bankMembers
  simp only [record_absent h]
  exact List.foldl_fixed' (fun _ => rfl) _

/-- R31: the kind that a stored bank's kind code and reset driver give. -/
def storedKind (r : RawBank) : Option BankKind :=
  match r.drop with
  | some true => (driver? r.driver).map .drop
  | some false => some .standup
  | none => none

/-- R31: the bank record `r` of a present section, judged. -/
theorem judgeBank_eq {img : List Byte} {b : BankNo} {r : RawBank} (h : present img 2 = true)
    (hr : Config.bankRecord (recordBytes img 2 b.val 12) = r) :
    judgeBank img b =
      let members := bankMembers img b r.members
      match storedKind r with
      | none => none
      | some k =>
        if members.length < 2 then none
        else some { kind := k, members := members, value := r.value.toNat, action := r.action
                    completion := if r.completion = 0 ∨ members.length < r.completion then members.length
                      else r.completion } := by
  unfold judgeBank
  rw [record_present h, ← hr]
  rfl

/-- R31: a bank of neither kind, without its reset driver, or with fewer than two members is not configured. -/
theorem judgeBank_none {img : List Byte} {b : BankNo} {r : RawBank} (h : present img 2 = true)
    (hr : Config.bankRecord (recordBytes img 2 b.val 12) = r)
    (bad : storedKind r = none ∨ (bankMembers img b r.members).length < 2) : judgeBank img b = none := by
  rw [judgeBank_eq h hr]
  cases hk : storedKind r with
  | none => rfl
  | some k => exact if_pos (bad.resolve_left (by simp [hk]))

/-- R31: with no bank section, and with no rule section, no bank is configured. -/
theorem judgeBank_absent {img : List Byte} (b : BankNo) (h : present img 2 = false ∨ present img 0 = false) :
    judgeBank img b = none := by
  cases h2 : present img 2 with
  | false =>
    unfold judgeBank
    rw [record_absent h2]
    rfl
  | true =>
    have noRules := h.resolve_left (by simp [h2])
    exact judgeBank_none h2 rfl (.inr (by simp [bankMembers_absent noRules]))

/-- A bank not judged configured is not configured. -/
theorem bankOf_none {img : List Byte} {b : BankNo} (h : judgeBank img b = none) : bankOf img b = none := by
  unfold bankOf
  rw [h]
  rfl

/-- R16: the STANDUP banks are those configured so. -/
theorem isStandup_eq (img : List Byte) (b : BankNo) :
    isStandup img b = (bankOf img b).any fun k => k.kind == .standup := by
  unfold isStandup bankOf
  cases judgeBank img b <;> rfl

/-- A switch is a member of a bank judged configured as of the bank configured. -/
theorem bankOf_any_member (img : List Byte) (b : BankNo) (i : SwitchNo) :
    ((bankOf img b).any fun c => decide (i ∈ c.members)) = (judgeBank img b).any fun j => decide (i ∈ j.members) := by
  unfold bankOf
  cases judgeBank img b <;> rfl

/-! ## Actions (R16) -/

/-- R16: an action as corrected, spelled by what it names. -/
theorem actionOf_eq (img : List Byte) (a : RawAction) :
    actionOf img a = match a.kind with
      | 1 => (feature? a.argument).map .lightFeature
      | 2 => (mode? a.argument).map .startMode
      | 3 => (mode? a.argument).map .addJackpot
      | 4 => (mode? a.argument).map .collect
      | 5 => match feature? a.argument, a.state with
        | some f, some st =>
          if st ≠ .held ∧ (a.station.toNat ≤ 15 ∨ a.station.toNat = 255) then some (.remoteFeature a.station f st)
          else none
        | _, _ => none
      | 6 => match fourOf a.argument with
        | some b => if (bankOf img b).any (fun k => k.kind == .standup) then some (.advanceBank b) else none
        | none => none
      | _ => none := by
  have remote (st : Resting) (x : Option Action) :
      (if st = .held ∨ (15 < a.station.toNat ∧ a.station.toNat ≠ 255) then none else x) =
        if st ≠ .held ∧ (a.station.toNat ≤ 15 ∨ a.station.toNat = 255) then x else none := by
    rw [← ite_not]
    refine if_congr ?_ rfl rfl
    rw [not_or, not_and_or, not_lt, not_not]
  unfold actionOf
  simp only [remote, isStandup_eq] <;> rfl

/-- R31: an ADVANCE BANK of the bank itself is taken as absent. -/
theorem bankOf_some {img : List Byte} {b : BankNo} {j : JudgedBank} (h : judgeBank img b = some j) :
    bankOf img b = some { kind := j.kind, members := j.members, completion := j.completion, value := j.value
                          action := if actionOf img j.action = some (.advanceBank b) then none
                            else actionOf img j.action } := by
  have own (a : Option Action) :
      (match a with
      | some (.advanceBank c) => if c = b then none else some (.advanceBank c)
      | a => a) = if a = some (.advanceBank b) then none else a := by
    split
    · rename_i c
      by_cases e : c = b <;> simp [e]
    · rename_i other
      rw [if_neg (other b)]
  unfold bankOf
  rw [h]
  exact congrArg some (congrArg _ (own _))

end Sys2Proof.Machine

end

