-- ==== Sys2Proof/Proofs/ImagePockets.lean ====
section
/-! SUPPORT. The image as corrected: pockets (R109). -/

namespace Sys2Proof.Machine

/-! ## Pockets (R109) -/

/-- R109 steps 1 and 2: the eject driver of a pocket record that may be fitted: capacity above 0, a driver D0..D7. -/
def wantedDriver (img : List Byte) (p : PocketNo) : Option DriverNo :=
  (rawPocket img p).bind fun r => if r.capacity = 0 then none else driver? r.driver

/-- The pockets of the pairs that R109's steps have fitted so far, for `l` taken in ascending order. -/
def fitUpTo (img : List Byte) (l : List PocketNo) : List (PocketNo × DriverNo) :=
  l.foldl (init := []) fun fit p =>
    match wantedDriver img p with
    | some d => if fit.any (fun x => x.2 == d) then fit else fit ++ [(p, d)]
    | none => fit

/-- R109: the fitted drivers, by the driver that each record wants. -/
theorem fittedDrivers_eq (img : List Byte) : fittedDrivers img = fitUpTo img (List.finRange 4) := by
  unfold fittedDrivers fitUpTo
  refine congrArg (fun f => List.foldl f [] (List.finRange 4)) (funext fun fit => funext fun p => ?_)
  unfold wantedDriver
  cases rawPocket img p with
  | none => rfl
  | some r =>
    by_cases empty : r.capacity = 0 <;> cases driver : driver? r.driver <;> simp [empty, driver]

/-- R109: one more record is judged against the pockets fitted so far. -/
theorem fitUpTo_append (img : List Byte) (l : List PocketNo) (a : PocketNo) :
    fitUpTo img (l ++ [a]) = match wantedDriver img a with
      | some e => if (fitUpTo img l).any (fun x => x.2 == e) then fitUpTo img l else fitUpTo img l ++ [(a, e)]
      | none => fitUpTo img l := by
  unfold fitUpTo
  rw [List.foldl_append]
  rfl

/-- R109 step 3: pocket `p`, of those in `l`, is the lowest-numbered one that wants driver `d`. -/
def FirstToWant (img : List Byte) (l : List PocketNo) (p : PocketNo) (d : DriverNo) : Prop :=
  p ∈ l ∧ wantedDriver img p = some d ∧ ∀ q ∈ l, q < p → wantedDriver img q ≠ some d

/-- R109: a driver that some pocket wants, the lowest-numbered one of them wants. -/
theorem exists_firstToWant {img : List Byte} {l : List PocketNo} {d : DriverNo} :
    (∃ p, FirstToWant img l p d) ↔ ∃ q ∈ l, wantedDriver img q = some d := by
  refine ⟨fun ⟨p, hp, hd, _⟩ => ⟨p, hp, hd⟩, fun ⟨q, hq, wants⟩ => ?_⟩
  obtain ⟨m, ⟨hm, hd⟩, least⟩ :=
    wellFounded_lt.has_min {k | k ∈ l ∧ wantedDriver img k = some d} ⟨q, hq, wants⟩
  exact ⟨m, hm, hd, fun k hk lower e => least k ⟨hk, e⟩ lower⟩

/-- R109: a further record, of a pocket numbered above those in `l`, gains its pocket the driver it wants where
none of them wants it. -/
theorem firstToWant_append {img : List Byte} {l : List PocketNo} {a : PocketNo} (below : ∀ q ∈ l, q < a)
    (p : PocketNo) (d : DriverNo) :
    FirstToWant img (l ++ [a]) p d ↔
      FirstToWant img l p d ∨ p = a ∧ wantedDriver img a = some d ∧ ∀ q ∈ l, wantedDriver img q ≠ some d := by
  unfold FirstToWant
  simp only [List.mem_append, List.mem_singleton, or_imp, forall_and, forall_eq]
  constructor
  · rintro ⟨hp | rfl, wants, least, -⟩
    · exact .inl ⟨hp, wants, least⟩
    · exact .inr ⟨rfl, wants, fun q hq => least q hq (below q hq)⟩
  · rintro (⟨hp, wants, least⟩ | ⟨rfl, wants, free⟩)
    · exact ⟨.inl hp, wants, least, fun lower => absurd lower (below p hp).asymm⟩
    · exact ⟨.inr rfl, wants, fun q hq _ => free q hq, fun lower => absurd lower (lt_irrefl _)⟩

/-- R109 steps 1 to 3: a pocket is fitted with the driver it wants where no lower-numbered pocket wants that one. -/
theorem mem_fitUpTo {img : List Byte} (l : List PocketNo) (ascending : l.Pairwise (· < ·)) (p : PocketNo)
    (d : DriverNo) : (p, d) ∈ fitUpTo img l ↔ FirstToWant img l p d := by
  induction l using List.reverseRecOn generalizing p d with
  | nil => simp [fitUpTo, FirstToWant]
  | append_singleton l a ih =>
    obtain ⟨sorted, -, below⟩ := List.pairwise_append.mp ascending
    have ih := ih sorted
    have taken (e : DriverNo) : ((fitUpTo img l).any fun x => x.2 == e) = true ↔
        ∃ q ∈ l, wantedDriver img q = some e := by
      rw [← exists_firstToWant]
      simp [← ih]
    rw [firstToWant_append fun q hq => below q hq a List.mem_cons_self, fitUpTo_append, ← ih]
    cases wants : wantedDriver img a with
    | none => simp
    | some e =>
      dsimp only
      by_cases free : ∃ q ∈ l, wantedDriver img q = some e
      · rw [if_pos ((taken e).mpr free)]
        obtain ⟨q, hq, hw⟩ := free
        refine ⟨.inl, fun h => h.resolve_right ?_⟩
        rintro ⟨-, he, none⟩
        exact none q hq (hw.trans he)
      · rw [if_neg (mt (taken e).mp free), List.mem_append, List.mem_singleton, Prod.mk.injEq, Option.some.injEq]
        refine or_congr_right ⟨?_, fun ⟨hp, he, _⟩ => ⟨hp, he.symm⟩⟩
        rintro ⟨hp, rfl⟩
        exact ⟨hp, rfl, fun q hq hw => free ⟨q, hq, hw⟩⟩

/-- The pocket record `p`, where the section is present. -/
def storedPocket (img : List Byte) (p : PocketNo) : RawPocket := Config.pocketRecord (recordBytes img 3 p.val 8)

/-- R109 steps 1 and 2: the record of pocket `p` has room and names an eject driver. -/
def NamesDriver (img : List Byte) (p : PocketNo) : Prop :=
  present img 3 = true ∧ (storedPocket img p).capacity ≠ 0 ∧ (storedPocket img p).driver < 8

/-- R109 steps 1 to 3: pocket `p` is fitted. -/
def Fits (img : List Byte) (p : PocketNo) : Prop :=
  NamesDriver img p ∧ ∀ q, q < p → NamesDriver img q → (storedPocket img q).driver ≠ (storedPocket img p).driver

/-- R109: the stored pocket records of a present section. -/
theorem rawPocket_present {img : List Byte} (h : present img 3 = true) (p : PocketNo) :
    rawPocket img p = some (storedPocket img p) := by
  unfold rawPocket
  rw [record_present h]
  rfl

/-- R109: an absent section has no pocket records. -/
theorem rawPocket_absent {img : List Byte} (h : present img 3 = false) (p : PocketNo) : rawPocket img p = none := by
  unfold rawPocket
  rw [record_absent h]
  rfl

/-- A number that names a driver is that driver's. -/
theorem driver?_eq_some {x : Nat} {d : DriverNo} : driver? x = some d ↔ x = d.val := by
  unfold driver?
  split
  · rw [Option.some.injEq, Fin.ext_iff]
  · have := d.isLt
    simp only [reduceCtorEq, false_iff]
    omega

/-- R109 steps 1 and 2: the driver that a pocket record asks for. -/
theorem wantedDriver_eq_some {img : List Byte} {p : PocketNo} {d : DriverNo} :
    wantedDriver img p = some d ↔ NamesDriver img p ∧ (storedPocket img p).driver = d.val := by
  unfold wantedDriver NamesDriver
  cases h : present img 3 with
  | false => simp [rawPocket_absent h]
  | true =>
    rw [rawPocket_present h, Option.bind_some]
    have small (e : (storedPocket img p).driver = d.val) : (storedPocket img p).driver < 8 := e ▸ d.isLt
    by_cases empty : (storedPocket img p).capacity = 0
    · simp [empty]
    · rw [if_neg empty, driver?_eq_some]
      exact ⟨fun e => ⟨⟨rfl, empty, small e⟩, e⟩, fun e => e.2⟩

/-- R109: the pairs of fitted pockets and their eject drivers. -/
theorem mem_fittedDrivers {img : List Byte} {p : PocketNo} {d : DriverNo} :
    (p, d) ∈ fittedDrivers img ↔ Fits img p ∧ (storedPocket img p).driver = d.val := by
  rw [fittedDrivers_eq, mem_fitUpTo _ (List.pairwise_lt_finRange 4)]
  unfold FirstToWant
  simp only [List.mem_finRange, true_and, forall_const, wantedDriver_eq_some, ne_eq, not_and]
  unfold Fits
  constructor
  · rintro ⟨⟨names, e⟩, lowest⟩
    exact ⟨⟨names, fun q lower other => e ▸ lowest q lower other⟩, e⟩
  · rintro ⟨⟨names, lowest⟩, e⟩
    exact ⟨⟨names, e⟩, fun q lower other => e ▸ lowest q lower other⟩

/-- R109: the fitted pockets. -/
theorem fitted_iff {img : List Byte} {p : PocketNo} : fitted img p = true ↔ Fits img p := by
  unfold fitted
  rw [List.any_eq_true]
  constructor
  · rintro ⟨⟨q, d⟩, mem, e⟩
    obtain rfl : q = p := beq_iff_eq.mp e
    exact (mem_fittedDrivers.mp mem).1
  · intro fits
    exact ⟨(p, ⟨_, fits.1.2.2⟩), mem_fittedDrivers.mpr ⟨fits, rfl⟩, beq_self_eq_true p⟩

/-- R109: the eject driver found for a pocket. -/
theorem find?_fittedDrivers {img : List Byte} {p : PocketNo} :
    (∃ d, (fittedDrivers img).find? (fun x => x.1 == p) = some (p, d) ∧ (storedPocket img p).driver = d.val ∧
        Fits img p) ∨
      ((fittedDrivers img).find? (fun x => x.1 == p) = none ∧ ¬ Fits img p) := by
  cases found : (fittedDrivers img).find? (fun x => x.1 == p) with
  | none =>
    refine .inr ⟨rfl, fun fits => ?_⟩
    obtain ⟨x, mem, same⟩ := List.any_eq_true.mp (fitted_iff.mpr fits)
    exact List.find?_eq_none.mp found x mem same
  | some x =>
    obtain ⟨q, d⟩ := x
    have same : q = p := beq_iff_eq.mp (List.find?_some (p := fun x : PocketNo × DriverNo => x.1 == p) found)
    subst same
    obtain ⟨fits, e⟩ := mem_fittedDrivers.mp (List.mem_of_find?_eq_some found)
    exact .inl ⟨d, rfl, e, fits⟩

/-- R109: the entry switch of a pocket record: one whose corrected rule is a POCKET-ENTRY naming the pocket. -/
def entryOf (img : List Byte) (p : PocketNo) : Option SwitchNo :=
  (switch? (storedPocket img p).entry).filter fun i =>
    (ruleFor img i).cls == .pocketEntry && (ruleFor img i).index == p.val

/-- R109: a fitted pocket, as corrected against the rules. -/
theorem pocketOf_fits {img : List Byte} {p : PocketNo} {d : DriverNo} (fits : Fits img p)
    (hd : (storedPocket img p).driver = d.val) :
    pocketOf img p =
      if entryOf img p = none ∧ fourOf (storedPocket img p).opto = none then none
      else some { capacity := if entryOf img p = none then 1 else min 3 (storedPocket img p).capacity
                  feature := feature? (storedPocket img p).feature
                  entry := entryOf img p
                  opto := fourOf (storedPocket img p).opto
                  driver := d
                  kickout := stepped 500 5000 100 (storedPocket img p).kickout } := by
  have present3 : present img 3 = true := fits.1.1
  have found : (fittedDrivers img).find? (fun x => x.1 == p) = some (p, d) := by
    rcases find?_fittedDrivers (img := img) (p := p) with ⟨e, found, he, -⟩ | ⟨-, unfit⟩
    · rw [found, Fin.ext (hd.symm.trans he)]
    · exact absurd fits unfit
  have entry : ((switch? (storedPocket img p).entry).bind fun i =>
      if (ruleFor img i).cls = .pocketEntry ∧ (ruleFor img i).index = p.val then some i else none) =
      entryOf img p := by
    unfold entryOf
    cases switch? (storedPocket img p).entry <;> simp [Option.filter]
  unfold pocketOf lockFeatureOf
  rw [rawPocket_present present3, found]
  dsimp only [Option.bind_some]
  rw [entry]

/-- R109: a pocket not fitted by steps 1 to 3 has no configuration. -/
theorem pocketOf_unfit {img : List Byte} {p : PocketNo} (unfit : ¬ Fits img p) : pocketOf img p = none := by
  have found : (fittedDrivers img).find? (fun x => x.1 == p) = none := by
    rcases find?_fittedDrivers (img := img) (p := p) with ⟨-, -, -, fits⟩ | ⟨found, -⟩
    · exact absurd fits unfit
    · exact found
  unfold pocketOf
  rw [found]
  cases rawPocket img p <;> rfl

/-- R109: the lock feature of a pocket record. -/
theorem lockFeatureOf_eq (img : List Byte) (p : PocketNo) :
    lockFeatureOf img p = if present img 3 then feature? (storedPocket img p).feature else none := by
  unfold lockFeatureOf
  cases h : present img 3 with
  | false => rw [rawPocket_absent h]; rfl
  | true => rw [rawPocket_present h]; rfl

end Sys2Proof.Machine

end

