-- ==== Sys2Proof/Proofs/ImageRules.lean ====
section
/-! SUPPORT. The image as corrected: rules and their classes (R3, R16, R17). -/

namespace Sys2Proof.Machine

/-! ## Rules (R3, R16, R17, section 11.3) -/

/-- Byte `n` of the stored rule record of switch `i`. -/
def ruleByte (img : List Byte) (i : SwitchNo) (n : Nat) : Nat := imgByte img (recordPlace img 0 i.val 10 + n)

/-- The stored rule record of switch `i`, its fields spelled by the record's bytes. -/
theorem readRule_eq (img : List Byte) (i : SwitchNo) :
    readRule (recordBytes img 0 i.val 10) =
      let b := ruleByte img i
      { cls := b 0 / 32
        group := ⟨b 0 / 4 % 8, Nat.mod_lt _ (by decide)⟩
        combo := (b 0).testBit 1
        activity := (b 0).testBit 0
        closeCount := b 1 / 16
        openCount := b 1 % 16
        feature := b 2
        plain := 256 * b 3 + b 4
        lit := 256 * b 5 + b 6
        action := { kind := b 7 / 32, argument := b 7 % 32, state := remoteState (b 8 / 16 % 4)
                    station := BitVec.ofNat 8 (b 9) }
        after := b 8 / 64
        index := b 8 % 16 } := by
  have byte (n : Nat) (h : n < 10) : imgByte (recordBytes img 0 i.val 10) n = ruleByte img i n :=
    imgByte_recordBytes img 0 i.val h
  unfold readRule imgWord
  simp only [byte, Nat.reduceAdd, Nat.reduceLT, ← ofNat_imgByte]

/-- R16: the four codes of a REMOTE FEATURE's state. -/
theorem remoteState_mod_four (x : Nat) :
    remoteState (x % 4) = match x % 4 with
      | 0 => some .off
      | 1 => some .dark
      | 2 => some .latent
      | _ => some .lit := by
  have : x % 4 < 4 := Nat.mod_lt _ (by decide)
  generalize x % 4 = y at *
  match y with
  | 0 | 1 | 2 | 3 => rfl

/-- R16: the three after-states. -/
theorem afterOf_eq (x : Nat) : afterOf x = if x = 3 then .lit else if x = 2 then .latent else .dark := by
  match x with
  | 0 | 1 | 2 | 3 => rfl
  | _ + 4 => rfl

/-- R17: with no rule section every switch has the default rule. -/
theorem ruleFor_absent {img : List Byte} (h : present img 0 = false) (i : SwitchNo) : ruleFor img i = defaultRule img := by
  unfold ruleFor
  rw [record_absent h]

/-- R3, R16: the rule of switch `i` of a present section, corrected. -/
theorem ruleFor_present {img : List Byte} (h : present img 0 = true) (i : SwitchNo) :
    ruleFor img i =
      let r := readRule (recordBytes img 0 i.val 10)
      { cls := (classOf img i r).1
        closeCount := max 1 r.closeCount
        openCount := max 1 r.openCount
        group := r.group
        feature := feature? r.feature
        plain := r.plain
        lit := r.lit
        action := actionOf img r.action
        after := afterOf r.after
        combo := r.combo
        activity := r.activity
        driver := (classOf img i r).2
        index := r.index } := by
  unfold ruleFor
  rw [record_present h]
  rfl

/-- A number that names one of four things is that thing's. -/
theorem fourOf_eq_some {x : Nat} {k : Fin 4} : fourOf x = some k ↔ x = k.val := by
  unfold fourOf
  split
  · rw [Option.some.injEq, Fin.ext_iff]
  · have := k.isLt
    simp only [reduceCtorEq, false_iff]
    omega

section Class
variable {img : List Byte} {i : SwitchNo} {r : RawRule}

/-- R16: a class code that names no class. -/
theorem classOf_unused (h : r.cls = 0 ∨ 5 < r.cls) : classOf img i r = (.unused, none) := by
  unfold classOf
  rcases h with h | h
  · rw [h]
    rfl
  · obtain ⟨n, hn⟩ : ∃ n, r.cls = n + 6 := ⟨r.cls - 6, by omega⟩
    rw [hn]
    rfl

/-- R16: a PLAYFIELD rule. -/
theorem classOf_playfield (h : r.cls = 1) : classOf img i r = (.playfield, none) := by
  unfold classOf
  rw [h]
  rfl

/-- R16, R109: a POCKET-ENTRY rule that names a fitted pocket. -/
theorem classOf_pocketEntry (h : r.cls = 2) {p : PocketNo} (hp : r.index = p.val) (fits : Fits img p) :
    classOf img i r = (.pocketEntry, none) := by
  unfold classOf
  rw [h, fourOf_eq_some.mpr hp]
  simp only [fitted_iff.mpr fits, if_true]

/-- R16, R109: a POCKET-ENTRY rule that names no fitted pocket is a PLAYFIELD's. -/
theorem classOf_pocketEntry_unfit (h : r.cls = 2) (unfit : ∀ p : PocketNo, r.index = p.val → ¬ Fits img p) :
    classOf img i r = (.playfield, none) := by
  unfold classOf
  rw [h]
  cases named : fourOf r.index with
  | none => rfl
  | some p => simp only [fitted_iff, unfit p (fourOf_eq_some.mp named), if_false]

/-- R16: a TROUGH rule is one of position 0 to 5. -/
theorem classOf_trough (h : r.cls = 3) :
    classOf img i r = (if r.index ≤ 5 then .trough else .unused, none) := by
  unfold classOf
  rw [h]
  simp only [← not_le, ite_not]

/-- R16, R31: a BANK-MEMBER rule of a member of the configured bank it names. -/
theorem classOf_bankMember (h : r.cls = 4) {b : BankNo} (hb : r.index = b.val)
    (member : (bankOf img b).any (fun c => decide (i ∈ c.members)) = true) :
    classOf img i r = (.bankMember, none) := by
  rw [bankOf_any_member] at member
  unfold classOf
  rw [h, fourOf_eq_some.mpr hb, Option.bind_some]
  cases judged : judgeBank img b with
  | none => simp [judged] at member
  | some j =>
    have mem : i ∈ j.members := by simpa [judged] using member
    simp only [mem, if_true]

/-- R16, R31: a BANK-MEMBER rule of a switch that is no member of the bank it names is a PLAYFIELD's. -/
theorem classOf_bankMember_stray (h : r.cls = 4)
    (stray : ∀ b : BankNo, r.index = b.val → (bankOf img b).any (fun c => decide (i ∈ c.members)) ≠ true) :
    classOf img i r = (.playfield, none) := by
  unfold classOf
  rw [h]
  cases named : fourOf r.index with
  | none => rfl
  | some b =>
    have away := stray b (fourOf_eq_some.mp named)
    rw [bankOf_any_member] at away
    rw [Option.bind_some]
    cases judged : judgeBank img b with
    | none => rfl
    | some j =>
      have mem : i ∉ j.members := by simpa [judged] using away
      simp only [mem, if_false]

/-- R16: a DIRECT rule names its driver; above 7 it is a PLAYFIELD's. -/
theorem classOf_direct (h : r.cls = 5) :
    classOf img i r = (if r.index < 8 then .direct else .playfield, driver? r.index) := by
  unfold classOf driver?
  rw [h]
  by_cases small : r.index < 8 <;> simp [small]

/-- R16: only a DIRECT rule has a driver. -/
theorem classOf_no_driver (h : r.cls ≠ 5) : (classOf img i r).2 = none := by
  unfold classOf
  split
  · rfl
  · split <;> rfl
  · rfl
  · split <;> rfl
  · exact absurd ‹r.cls = 5› h
  · rfl

end Class

end Sys2Proof.Machine

end

