-- ==== Sys2Proof/Proofs/ImageRecords.lean ====
section
/-! SUPPORT. The image as corrected: features, drivers, modes, lamps and channels (R9, R11, R29, R39, R92, R165). -/

namespace Sys2Proof.Machine

/-! ## Features (R29) -/

/-- R29: the initial state and the mode link of a feature. -/
theorem featureCfgOf_eq (img : List Byte) (f : FeatureNo) :
    let raw := Config.featureRecord (recordBytes img 1 f.val 2)
    featureCfgOf img f = if present img 1 then
        { initial := if raw.state = some .held then .dark else raw.state.getD .dark
          link := mode? raw.link }
      else { initial := .dark, link := none } := by
  intro raw
  unfold featureCfgOf
  cases h : present img 1 with
  | false => rw [record_absent h]; rfl
  | true =>
    rw [record_present h]
    change FeatureCfg.mk (match raw.state with | none | some .held => .dark | some st => st) _ = _
    refine congrArg (FeatureCfg.mk · (mode? raw.link)) ?_
    match raw.state with
    | none | some .off | some .dark | some .latent | some .lit | some .held => rfl

/-! ## Drivers (R165) -/

/-- R165, R182: the stored record of driver `d`, zeros where the section is absent. -/
theorem rawDriver_eq (img : List Byte) (d : DriverNo) :
    rawDriver img d = if present img 4 then Config.driverRecord (recordBytes img 4 d.val 8) else zeroDriver := by
  unfold rawDriver
  cases h : present img 4 with
  | false => rw [record_absent h]; rfl
  | true => rw [record_present h]; rfl

/-- R165: the trough eject driver. -/
theorem troughEject_eq_some {strap : StationNo} {img : List Byte} {d : DriverNo} :
    troughEject strap img = some d ↔ troughStationOf (imgByte img 6) = some strap ∧ (rawDriver img d).trough = true ∧
      ∀ e, e < d → (rawDriver img e).trough = false := by
  unfold troughEject
  by_cases here : troughStationOf (imgByte img 6) = some strap
  · rw [if_pos here, find?_finRange_eq_some]
    simp only [here, true_and]
  · simp only [here, if_false, false_and, reduceCtorEq]

/-- R165: a driver that ejects from a pocket, resets a DROP bank, is a rule's direct one or serves the trough. -/
theorem otherwiseUsed_iff {strap : StationNo} {img : List Byte} {d : DriverNo} :
    otherwiseUsed strap img d = true ↔
      (∃ p, (pocketOf img p).any (fun c => c.driver == d) = true) ∨
        (∃ b, (bankOf img b).any (fun c => c.kind == .drop d) = true) ∨
          (∃ i, (ruleFor img i).driver = some d) ∨ troughEject strap img = some d := by
  have ejects (p : PocketNo) : (match pocketOf img p with
      | some c => c.driver == d
      | none => false) = (pocketOf img p).any (fun c => c.driver == d) := by
    cases pocketOf img p <;> rfl
  have resets (b : BankNo) : (match bankOf img b with
      | some c => c.resetDriver == some d
      | none => false) = (bankOf img b).any (fun c => c.kind == .drop d) := by
    cases bankOf img b with
    | none => rfl
    | some c =>
      unfold BankCfg.resetDriver
      cases kind : c.kind <;> simp [kind]
  have uses : otherwiseUsed strap img d = ((List.finRange 4).any (fun p => (pocketOf img p).any (fun c => c.driver == d)) ||
      (List.finRange 4).any (fun b => (bankOf img b).any (fun c => c.kind == .drop d)) ||
      (List.finRange 64).any (fun i => (ruleFor img i).driver == some d) || troughEject strap img == some d) := by
    rw [← funext ejects, ← funext resets]
    rfl
  rw [uses]
  simp only [Bool.or_eq_true, List.any_eq_true, List.mem_finRange, true_and, beq_iff_eq, or_assoc]

/-! ## Modes (R57, R92) -/

/-- R92: a record of another id, of no kind, or of an absent section makes no mode. -/
theorem modeDefOf_none {img : List Byte} {m : ModeId}
    (h : present img 5 = false ∨ (Config.modeRecord (recordBytes img 5 m.val 12)).id ≠ m.val ∨
      (Config.modeRecord (recordBytes img 5 m.val 12)).kind = none) : modeDefOf img m = none := by
  unfold modeDefOf
  cases has : present img 5 with
  | false => rw [record_absent has]; rfl
  | true =>
    rw [record_present has]
    rcases h.resolve_left (by simp [has]) with other | bare
    · exact if_pos other
    · refine (ite_eq_left_iff.mpr fun _ => ?_)
      exact congrArg (Option.map _) bare

/-- R57, R92: the definition of a mode, its parameters corrected. -/
theorem modeDefOf_some {img : List Byte} {m : ModeId} {raw : RawMode} {k : ModeKind} (has : present img 5 = true)
    (hr : Config.modeRecord (recordBytes img 5 m.val 12) = raw) (own : raw.id = m.val) (kind : raw.kind = some k) :
    modeDefOf img m = some
      { kind := k
        duration := raw.duration.toNat
        startsMulti := raw.startsMulti
        endsMulti := raw.endsMulti
        mask := raw.mask
        factor := clamp 2 5 raw.factor
        start := raw.start.toNat
        step := raw.step.toNat
        floor := min raw.start.toNat raw.floor.toNat
        tick := stepped 100 1000 10 raw.tick
        base := clamp 1 1000000 raw.base
        percent := clamp 1 100 raw.percent
        max := clamp (clamp 1 1000000 raw.base) 9999999 raw.max } := by
  subst hr
  unfold modeDefOf
  rw [record_present has]
  refine (if_neg (not_not.mpr own)).trans ?_
  exact congrArg (Option.map _) kind

/-! ## Lamps (R39) -/

/-- R39: what a lamp shows, where it names something the station has. -/
theorem bindingOf_eq (img : List Byte) (l : LampNo) :
    let raw := Config.lampRecord (recordBytes img 6 l.val 2)
    bindingOf img l = if present img 6 then match raw.kind with
        | some .feature => (feature? raw.target).elim .none .feature
        | some .mode => (mode? raw.target).elim .none .mode
        | some .pocket => ((fourOf raw.target).filter fun p => (pocketOf img p).isSome).elim .none .pocket
        | some .faults => .faults
        | some .none | none => .none
      else .none := by
  intro raw
  unfold bindingOf
  cases h : present img 6 with
  | false => rw [record_absent h]; rfl
  | true =>
    rw [record_present h, if_pos rfl]
    change (match raw.kind with
      | some .feature => ((feature? raw.target).map Binding.feature).getD .none
      | some .mode => ((mode? raw.target).map Binding.mode).getD .none
      | some .pocket => match fourOf raw.target with
        | some p => if (pocketOf img p).isSome then .pocket p else .none
        | none => .none
      | some .faults => .faults
      | some .none | none => .none) = _
    match raw.kind with
    | some .feature => cases feature? raw.target <;> rfl
    | some .mode => cases mode? raw.target <;> rfl
    | some .pocket =>
      cases fourOf raw.target with
      | none => rfl
      | some p => cases fitted : (pocketOf img p).isSome <;> simp [Option.filter, fitted]
    | some .faults | some .none | none => rfl

/-! ## Channels (R9, R11) -/

/-- The two numbers of the record of channel `c`, zeros where the section is absent (R182). -/
theorem channel_number (img : List Byte) (c : ChannelNo) {n : Nat} (h : n + 1 < 4) :
    imgWord ((record img 7 c.val).getD []) n = if present img 7 then imgWord img (recordPlace img 7 c.val 4 + n) else 0 := by
  cases has : present img 7 with
  | false => rw [record_absent has]; rfl
  | true =>
    rw [record_present has]
    exact imgWord_recordBytes img 7 c.val h

/-- R11: the supply channel is enabled, its lower threshold at most its upper. -/
theorem channelOf_supply {strap : StationNo} {img : List Byte} {c : ChannelNo} (h : c.val = 5) :
    channelOf strap img c =
      let first := imgWord ((record img 7 c.val).getD []) 0
      let second := imgWord ((record img 7 c.val).getD []) 2
      { enabled := true, upper := clamp 0 1023 first, lower := min (clamp 0 1023 first) second } := by
  unfold channelOf
  exact if_pos h

/-- R9, R11: a channel of an opto: A4 is the trough station's, the others are those a configured pocket names. -/
theorem channelOf_opto {strap : StationNo} {img : List Byte} {c : ChannelNo} (h : c.val < 5) :
    channelOf strap img c =
      let first := imgWord ((record img 7 c.val).getD []) 0
      let second := imgWord ((record img 7 c.val).getD []) 2
      { enabled := if c.val = 4 then troughStationOf (imgByte img 6) == some strap
                   else (List.finRange 4).any fun p => (pocketOf img p).any fun k => k.opto.any fun a => a.val == c.val
        upper := clamp 1 1023 first
        lower := min (clamp 1 1023 first - 1) second } := by
  have names (p : PocketNo) : (match pocketOf img p with
      | some k => k.opto.map Fin.val == some c.val
      | none => false) = (pocketOf img p).any fun k => k.opto.any fun a => a.val == c.val := by
    cases pocketOf img p with
    | none => rfl
    | some k => cases opto : k.opto <;> simp [opto]
  rw [← funext names]
  unfold channelOf
  exact if_neg (by omega)

end Sys2Proof.Machine

end

