-- ==== Sys2Proof/Proofs/ImageParts.lean ====
section
/-! SUPPORT. The parts of O22: the header and the rules. -/

namespace Sys2Proof.Machine

/-- A number taken into `lo .. hi`. -/
def inside (lo hi x : Nat) : Nat := if x < lo then lo else if hi < x then hi else x

/-- The model's `clamp` takes a number into its range. -/
theorem clamp_inside {lo hi : Nat} (h : lo ≤ hi) (x : Nat) : clamp lo hi x = inside lo hi x := clamp_eq h x

/-- A number taken into `lo .. hi`, down to a step. -/
theorem stepped_inside {lo hi : Nat} (h : lo ≤ hi) (step x : Nat) :
    stepped lo hi step x = inside lo hi x / step * step :=
  congrArg (· / step * step) (clamp_inside h x)

/-- A number taken into `lo .. hi` is in it. -/
theorem inside_le {lo hi : Nat} (h : lo ≤ hi) (x : Nat) : inside lo hi x ≤ hi := by
  unfold inside
  split
  · exact h
  · split <;> omega

section Parts
variable (strap : StationNo) (img : List Byte)

/-- R10, R57, R82, R109, R150, R183: the header fields, the release spacing and the signature. -/
theorem buildImage_header :
    let t := buildImage strap img
    t.format = img.getD 2 0 ∧ t.troughStation = troughStationOf (imgByte img 6) ∧
      t.installed = inside 1 6 (imgByte img 7) ∧ t.threshold = inside 1 4 (imgByte img 8) ∧
      t.multiballBalls = (if t.installed = 1 then 1 else inside 2 t.installed (imgByte img 9)) ∧
      t.censusInterval = inside 250 2500 (imgWord img 10) / 250 * 250 ∧
      t.comboWindow = inside 500 5000 (imgWord img 12) / 100 * 100 ∧
      t.searchDelay = inside 5 60 (imgByte img 14) ∧ t.averaging = averagingOf (imgByte img 15) ∧
      t.mask = img.getD 18 0 ∧
      t.releaseSpacing =
        (if present img 3 then inside 400 2000 (storedPocket img 0).spacing / 100 * 100 else 400) ∧
      (let check := checkBits (bytesBits ((img.drop 6).take 8 ++
        if present img 5 then (img.drop (sectionStart img 5)).take 384 else []))
       t.signature.toNat = (check.toNat / 256) ^^^ (check.toNat % 256)) := by
  have installed : 1 ≤ clamp 1 6 (imgByte img 7) := le_max_left _ _
  have spacing : spacingOf img =
      if present img 3 then inside 400 2000 (storedPocket img 0).spacing / 100 * 100 else 400 := by
    rw [spacingOf_eq, stepped_inside (by decide)]
    rfl
  exact ⟨ofNat_imgByte img 2, rfl, clamp_inside (by decide) _, clamp_inside (by decide) _, multiballOf_eq installed _,
    stepped_inside (by decide) _ _, stepped_inside (by decide) _ _, clamp_inside (by decide) _, rfl,
    ofNat_imgByte img 18, spacing, signatureOf_toNat img⟩

/-- R3, section 11.3: the fields of a rule record that no other record bears on. -/
theorem ruleFor_fields (h : present img 0 = true) (i : SwitchNo) :
    let b := ruleByte img i
    let r := ruleFor img i
    r.closeCount = max 1 (b 1 / 16) ∧ r.openCount = max 1 (b 1 % 16) ∧ r.group.val = b 0 / 4 % 8 ∧
      (r.combo = true ↔ b 0 / 2 % 2 = 1) ∧ (r.activity = true ↔ b 0 % 2 = 1) ∧ r.feature = feature? (b 2) ∧
      r.plain = 256 * b 3 + b 4 ∧ r.lit = 256 * b 5 + b 6 ∧ r.index = b 8 % 16 ∧
      r.after = (if b 8 / 64 = 3 then .lit else if b 8 / 64 = 2 then .latent else .dark) ∧
      r.action = actionOf img { kind := b 7 / 32, argument := b 7 % 32, station := BitVec.ofNat 8 (b 9)
                                state := match b 8 / 16 % 4 with
                                  | 0 => some .off
                                  | 1 => some .dark
                                  | 2 => some .latent
                                  | _ => some .lit } := by
  intro b r
  have rule : r = _ := ruleFor_present h i
  rw [readRule_eq] at rule
  rw [rule]
  refine ⟨rfl, rfl, rfl, ?_, ?_, rfl, rfl, rfl, rfl, afterOf_eq _, ?_⟩
  · simp [Nat.testBit_eq_decide_div_mod_eq, b]
  · simp [Nat.testBit_eq_decide_div_mod_eq, b]
  · exact congrArg (fun st => actionOf img (RawAction.mk _ _ st _)) (remoteState_mod_four _)

/-- R16: the class of a stored rule and its direct driver, by its class code. -/
theorem ruleFor_class (h : present img 0 = true) (i : SwitchNo) :
    let b := ruleByte img i
    let r := ruleFor img i
    let code := b 0 / 32
    let enters := ∃ p : PocketNo, b 8 % 16 = p.val ∧ Fits img p
    let belongs := ∃ k : BankNo, b 8 % 16 = k.val ∧ (bankOf img k).any (fun c => decide (i ∈ c.members)) = true
    (code = 0 ∨ 5 < code → r.cls = .unused) ∧ (code = 1 → r.cls = .playfield) ∧
      (code = 2 → enters → r.cls = .pocketEntry) ∧ (code = 2 → ¬ enters → r.cls = .playfield) ∧
      (code = 3 → r.cls = if b 8 % 16 ≤ 5 then .trough else .unused) ∧
      (code = 4 → belongs → r.cls = .bankMember) ∧ (code = 4 → ¬ belongs → r.cls = .playfield) ∧
      (code = 5 → r.cls = (if b 8 % 16 < 8 then .direct else .playfield) ∧ r.driver = driver? (b 8 % 16)) ∧
      (code ≠ 5 → r.driver = none) := by
  intro b r code enters belongs
  let stored := readRule (recordBytes img 0 i.val 10)
  have rule : r = _ := ruleFor_present h i
  have cls : stored.cls = code := congrArg RawRule.cls (readRule_eq img i)
  have index : stored.index = b 8 % 16 := congrArg RawRule.index (readRule_eq img i)
  have class_of {x : RuleClass × Option DriverNo} (hx : classOf img i stored = x) : r.cls = x.1 ∧ r.driver = x.2 := by
    rw [rule, ← hx]
    exact ⟨rfl, rfl⟩
  rw [← cls, ← index]
  refine ⟨fun c => (class_of (classOf_unused c)).1, fun c => (class_of (classOf_playfield c)).1, ?_, ?_,
    fun c => (class_of (classOf_trough c)).1, ?_, ?_, fun c => class_of (classOf_direct c), ?_⟩
  · rintro c ⟨p, hp, fits⟩
    exact (class_of (classOf_pocketEntry c (index.trans hp) fits)).1
  · intro c unfit
    exact (class_of (classOf_pocketEntry_unfit c fun p hp fits => unfit ⟨p, index.symm.trans hp, fits⟩)).1
  · rintro c ⟨k, hk, member⟩
    exact (class_of (classOf_bankMember c (index.trans hk) member)).1
  · intro c stray
    exact (class_of (classOf_bankMember_stray c fun k hk member => stray ⟨k, index.symm.trans hk, member⟩)).1
  · exact fun c => (class_of rfl).2.trans (classOf_no_driver c)

end Parts

end Sys2Proof.Machine

end

