-- ==== Sys2Proof/Proofs/ImageDevices.lean ====
section
/-! SUPPORT. The parts of O22: banks, pockets, drivers, modes and channels. -/

namespace Sys2Proof.Machine

/-- R31: the bank record `b`, where the section is present. -/
def storedBank (img : List Byte) (b : BankNo) : RawBank := Config.bankRecord (recordBytes img 2 b.val 12)

/-- R31: the members of bank `b`: the listed switches whose stored rule is a BANK-MEMBER's that names the bank. -/
def storedMembers (img : List Byte) (b : BankNo) : List SwitchNo :=
  ((((storedBank img b).members.take 8).filterMap switch?).filter fun i =>
    decide (ruleByte img i 0 / 32 = 4) && decide (ruleByte img i 8 % 16 = b.val)).eraseDups

section Parts
variable (strap : StationNo) (img : List Byte)

/-- R31: a bank of a present section, configured or not. -/
theorem bankOf_stored (rules : present img 0 = true) (banks : present img 2 = true) (b : BankNo) :
    let raw := storedBank img b
    let members := storedMembers img b
    (storedKind raw = none ∨ members.length < 2 → bankOf img b = none) ∧
      (∀ k, storedKind raw = some k → 2 ≤ members.length → bankOf img b = some
        { kind := k
          members := members
          value := raw.value.toNat
          completion :=
            if raw.completion = 0 ∨ members.length < raw.completion then members.length else raw.completion
          action := if actionOf img raw.action = some (.advanceBank b) then none else actionOf img raw.action }) := by
  intro raw members
  have hm : bankMembers img b raw.members = members := bankMembers_eq rules b _
  constructor
  · intro bad
    refine bankOf_none (judgeBank_none (r := raw) banks rfl ?_)
    rw [hm]
    exact bad
  · intro k kind enough
    have judged : judgeBank img b = some
        { kind := k
          members := members
          value := raw.value.toNat
          completion :=
            if raw.completion = 0 ∨ members.length < raw.completion then members.length else raw.completion
          action := raw.action } := by
      rw [judgeBank_eq (r := raw) banks rfl, hm, kind]
      exact if_neg (not_lt.mpr enough)
    exact bankOf_some judged

/-- R109: a pocket, fitted or not. -/
theorem pocketOf_stored (p : PocketNo) :
    let raw := storedPocket img p
    let entry := entryOf img p
    (¬ Fits img p ∨ (entry = none ∧ 4 ≤ raw.opto) → pocketOf img p = none) ∧
      (Fits img p → entry ≠ none ∨ raw.opto < 4 → ∃ c, pocketOf img p = some c ∧
        c.capacity = (if entry = none then 1 else min 3 raw.capacity) ∧ c.feature = feature? raw.feature ∧
        c.entry = entry ∧ c.opto = fourOf raw.opto ∧ c.driver.val = raw.driver ∧
        c.kickout = inside 500 5000 raw.kickout / 100 * 100) := by
  intro raw entry
  have noOpto : fourOf raw.opto = none ↔ 4 ≤ raw.opto := by
    unfold fourOf
    split <;> simp <;> omega
  constructor
  · intro bad
    by_cases fits : Fits img p
    · rw [pocketOf_fits (d := ⟨raw.driver, fits.1.2.2⟩) fits rfl]
      obtain ⟨none, high⟩ := bad.resolve_left (not_not.mpr fits)
      exact if_pos ⟨none, noOpto.mpr high⟩
    · exact pocketOf_unfit fits
  · intro fits reached
    refine ⟨_, (pocketOf_fits (d := ⟨raw.driver, fits.1.2.2⟩) fits rfl).trans (if_neg ?_), rfl, rfl, rfl, rfl, rfl,
      stepped_inside (by decide) _ _⟩
    rintro ⟨none, optoless⟩
    rcases reached with reached | reached
    · exact reached none
    · exact absurd (noOpto.mp optoless) (not_le.mpr reached)

/-- R165: a driver, its numbers corrected and its hold binding kept where nothing else uses it. -/
theorem driverCfgOf_stored (d : DriverNo) :
    let lane := troughStationOf (imgByte img 6) = some strap ∧ (rawDriver img d).trough = true ∧
      ∀ e, e < d → (rawDriver img e).trough = false
    let used := (∃ p, (pocketOf img p).any (fun c => c.driver == d) = true) ∨
      (∃ b, (bankOf img b).any (fun c => c.kind == .drop d) = true) ∨ (∃ i, (ruleFor img i).driver = some d) ∨ lane
    let raw := rawDriver img d
    let x := driverCfgOf strap img d
    x.onTime = max 1 raw.onTime.toNat ∧ x.power = inside 1 8 raw.power ∧ x.holdPower = min 8 raw.holdPower ∧
      x.maxHold = inside 1 60 raw.maxHold ∧ x.recycle = raw.recycle.toNat ∧ x.tolerance = inside 1 15 raw.tolerance ∧
      x.search = raw.search ∧ (x.trough = true ↔ lane) ∧ (raw.holdPower = 0 ∨ used → x.binding = none) ∧
      (raw.holdPower ≠ 0 → ¬ used → x.binding = feature? raw.binding) := by
  intro lane used raw x
  have used_iff : otherwiseUsed strap img d = true ↔ used := by
    rw [otherwiseUsed_iff, troughEject_eq_some]
  refine ⟨rfl, clamp_inside (by decide) _, rfl, clamp_inside (by decide) _, rfl, clamp_inside (by decide) _, rfl,
    beq_iff_eq.trans troughEject_eq_some, fun h => ?_, fun holds free => ?_⟩
  · exact if_pos (h.imp_right used_iff.mpr)
  · exact if_neg (not_or.mpr ⟨holds, mt used_iff.mp free⟩)

/-- R57, R92: the definition of a mode whose record is its own and of a kind. -/
theorem modeDefOf_stored (m : ModeId) :
    let raw := Config.modeRecord (recordBytes img 5 m.val 12)
    (present img 5 = false ∨ raw.id ≠ m.val ∨ raw.kind = none → modeDefOf img m = none) ∧
      (∀ k, present img 5 = true → raw.id = m.val → raw.kind = some k → ∃ d, modeDefOf img m = some d ∧
        d.kind = k ∧ d.duration = raw.duration.toNat ∧ d.startsMulti = raw.startsMulti ∧
        d.endsMulti = raw.endsMulti ∧
        (k = .multiply → d.mask = raw.mask ∧ d.factor = inside 2 5 raw.factor) ∧
        (k = .hurry → d.start = raw.start.toNat ∧ d.step = raw.step.toNat ∧
          d.floor = min raw.start.toNat raw.floor.toNat ∧ d.tick = inside 100 1000 raw.tick / 10 * 10) ∧
        (k = .jackpot → d.base = inside 1 1000000 raw.base ∧ d.percent = inside 1 100 raw.percent ∧
          d.max = inside d.base 9999999 raw.max)) := by
  intro raw
  refine ⟨modeDefOf_none, fun k has own kind => ⟨_, modeDefOf_some has rfl own kind, rfl, rfl, rfl, rfl, ?_, ?_, ?_⟩⟩
  · exact fun _ => ⟨rfl, clamp_inside (by decide) _⟩
  · exact fun _ => ⟨rfl, rfl, rfl, stepped_inside (by decide) _ _⟩
  · have base : clamp 1 1000000 raw.base = inside 1 1000000 raw.base := clamp_inside (by decide) _
    have small : clamp 1 1000000 raw.base ≤ 9999999 :=
      base ▸ (inside_le (by decide) _).trans (by decide)
    exact fun _ => ⟨base, clamp_inside (by decide) _, clamp_inside small _⟩

/-- R9, R11: a channel's thresholds, and which channels are enabled. -/
theorem channelOf_stored (c : ChannelNo) :
    let first := if present img 7 then imgWord img (recordPlace img 7 c.val 4) else 0
    let second := if present img 7 then imgWord img (recordPlace img 7 c.val 4 + 2) else 0
    let x := channelOf strap img c
    (c.val = 5 → x = { enabled := true, upper := inside 0 1023 first, lower := min (inside 0 1023 first) second }) ∧
      (c.val < 5 → x.upper = inside 1 1023 first ∧ x.lower = min (inside 1 1023 first - 1) second) ∧
      (c.val = 4 → (x.enabled = true ↔ troughStationOf (imgByte img 6) = some strap)) ∧
      (c.val < 4 → (x.enabled = true ↔
        ∃ p, (pocketOf img p).any (fun k => k.opto.any fun a => a.val == c.val) = true)) := by
  intro first second x
  have hfirst : imgWord ((record img 7 c.val).getD []) 0 = first := channel_number img c (by decide)
  have hsecond : imgWord ((record img 7 c.val).getD []) 2 = second := channel_number img c (by decide)
  have opto (h : c.val < 5) : x = _ := channelOf_opto h
  rw [hfirst, hsecond] at opto
  refine ⟨fun h => ?_, fun h => ?_, fun h => ?_, fun h => ?_⟩
  · refine (channelOf_supply h).trans ?_
    rw [hfirst, hsecond]
    simp only [clamp_inside (by decide : 0 ≤ 1023)]
  · rw [opto h]
    have upper := clamp_inside (by decide : 1 ≤ 1023) first
    exact ⟨upper, congrArg (fun u => min (u - 1) second) upper⟩
  · rw [opto (by omega)]
    simp [h]
  · rw [opto (by omega)]
    simp [h.ne]

end Parts

end Sys2Proof.Machine

end

