-- ==== Sys2Proof/Proofs/ImageCorrected.lean ====
section
/-! The image of a good load (R183). -/

namespace Sys2Proof.Machine

/-- Settles O22, part by part: the header, the rules by section and by class code, the banks, pockets, features,
drivers, modes, lamps and channels. The statement's spelled section starts and actions are first turned into the
model's own. -/
theorem theImageIsCorrected : Obligations.TheImageIsCorrected := by
  unfold Obligations.TheImageIsCorrected
  intro strap img t byte word within num has start place row bank pocket named fits action
  have starts : start = sectionStart img := funext fun k => (sectionStart_eq img k).symm
  clear_value start
  subst starts
  have banks (b : BankNo) : t.banks.get b = bankOf img b := Tab.get_ofFn _ b
  have rules (i : SwitchNo) : t.rules.get i = ruleFor img i := Tab.get_ofFn _ i
  have pockets (p : PocketNo) : t.pockets.get p = pocketOf img p := Tab.get_ofFn _ p
  have actions : action = actionOf img := by
    funext a
    rw [actionOf_eq]
    simp only [action, banks] <;> rfl
  clear_value action
  subst actions
  simp only [banks, rules, pockets]
  refine ⟨buildImage_header strap img, ?_, ?_, ?_, ?_, ?_, ?_, ?_, ?_, ?_⟩
  · exact fun h => ⟨fun b => bankOf_none (judgeBank_absent b (.inr h)), ruleFor_absent h⟩
  · intro h i
    obtain ⟨hclose, hopen, hgroup, hcombo, hactivity, hfeature, hplain, hlit, hindex, hafter, haction⟩ :=
      ruleFor_fields img h i
    exact ⟨hclose, hopen, hgroup, hcombo, hactivity, hfeature, hplain, hlit, hindex, hafter, haction,
      ruleFor_class img h i⟩
  · exact ⟨fun b h => bankOf_none (judgeBank_absent b (.inl h)), fun b h0 h2 => bankOf_stored img h0 h2 b⟩
  · intro p
    obtain ⟨bad, good⟩ := pocketOf_stored img p
    exact ⟨(Tab.get_ofFn _ p).trans (lockFeatureOf_eq img p), bad, good⟩
  · exact fun f => (Tab.get_ofFn _ f).trans (featureCfgOf_eq img f)
  · intro d
    have driver : t.drivers.get d = driverCfgOf strap img d := Tab.get_ofFn _ d
    have stored := driverCfgOf_stored strap img d
    simp only [rawDriver_eq] at stored
    rw [driver]
    exact stored
  · intro m
    have mode : t.modes.get m = modeDefOf img m := Tab.get_ofFn _ m
    rw [mode]
    exact modeDefOf_stored img m
  · exact fun l => (Tab.get_ofFn _ l).trans (bindingOf_eq img l)
  · intro c
    have channel : t.channels.get c = channelOf strap img c := Tab.get_ofFn _ c
    rw [channel]
    exact channelOf_stored strap img c

end Sys2Proof.Machine

end


-- ==== Sys2Proof/Proofs/Requests.lean ====
section
/-! SUPPORT. What a pulse request reads and what it changes (R168). -/

namespace Sys2Proof.Machine

section
variable {d k : DriverNo} {band : Band} {n : Nat} {r : Requester} {s t : State}

/-! ## The answer -/

/-- R168 step 1: the Driver Controller answers FAULTED for a FAULTED driver, and for no other. -/
theorem answer_faulted_iff : answer d band s = .faulted ↔ (unit s d).phase = .faulted := by
  unfold answer
  dsimp only
  constructor
  · intro h
    by_contra working
    rw [if_neg working] at h
    revert h
    (repeat' split) <;> simp
  · exact fun h => if_pos h

/-- R168 steps 2 and 4: a request of any other band than DIRECT is not dropped. -/
theorem answer_ne_dropped (h : band ≠ .direct) : answer d band s ≠ .dropped := by
  unfold answer
  dsimp only
  rw [if_neg fun e : band = .direct ∧ _ => h e.1]
  cases band with
  | direct => exact absurd rfl h
  | eject | reset | search =>
    dsimp only
    (repeat' split) <;> simp

/-- The answer reads the driver's own state and the pulse queue. -/
theorem answer_congr (queue : t.drivers.queue = s.drivers.queue) (own : unit t d = unit s d) :
    answer d band t = answer d band s := by
  unfold answer pulseQueued
  rw [queue, own]

/-! ## What a request changes -/

/-- R190: only a DIRECT request can be counted as dropped. -/
theorem request_control (h : band ≠ .direct) : (request d band n r s).control = s.control := by
  unfold request
  cases answered : answer d band s with
  | dropped => exact absurd answered (answer_ne_dropped h)
  | merged => dsimp only; split <;> rfl
  | faulted | skipped | refused | queued => rfl

/-- A unit changed is read back. -/
@[simp] theorem unit_mapUnit {f : DriverState → DriverState} :
    unit (mapUnit d f s) k = if k = d then f (unit s d) else unit s k := Tab.get_modify _ _ _ _

/-- R168: a request changes no other driver. -/
theorem unit_request_other (h : k ≠ d) : unit (request d band n r s) k = unit s k := by
  unfold request
  cases answer d band s with
  | merged => dsimp only; split <;> rfl
  | queued => exact unit_mapUnit.trans (if_neg h)
  | faulted | skipped | dropped | refused => rfl

/-- R168: of its own driver a request changes the phase alone, and only from IDLE to QUEUED. -/
theorem unit_request_self : unit (request d band n r s) d = unit s d ∨
    (unit s d).phase = .idle ∧ unit (request d band n r s) d = { unit s d with phase := .queued } := by
  unfold request
  cases answer d band s with
  | merged => left; dsimp only; split <;> rfl
  | queued =>
    dsimp only
    rw [unit_mapUnit, if_pos rfl]
    by_cases idle : (unit s d).phase = .idle
    · exact .inr ⟨idle, if_pos idle⟩
    · exact .inl (if_neg idle)
  | faulted | skipped | dropped | refused => exact .inl rfl

/-! ## The pulse queue -/

/-- R167: placing an entry adds that entry and no other. -/
theorem mem_placePulse {e x : PulseEntry} {q : List PulseEntry} : x ∈ placePulse e q ↔ x = e ∨ x ∈ q := by
  induction q with
  | nil => simp [placePulse]
  | cons y ys ih =>
    unfold placePulse
    split
    · simp only [List.mem_cons, ih]
      tauto
    · simp only [List.mem_cons]

/-- R168 step 3: a merge leaves the entries of every other driver. -/
theorem any_mergeQueue_other {e : PulseEntry} (q : List PulseEntry) (h : k ≠ e.driver) :
    (mergeQueue band n r e q).any (fun x => x.driver == k) = q.any fun x => x.driver == k := by
  rw [Bool.eq_iff_iff, List.any_eq_true, List.any_eq_true]
  unfold mergeQueue
  split
  · constructor
    · rintro ⟨x, hx, hk⟩
      rcases mem_placePulse.mp hx with rfl | hx
      · exact absurd (beq_iff_eq.mp hk).symm h
      · exact ⟨x, (List.mem_filter.mp hx).1, hk⟩
    · rintro ⟨x, hx, hk⟩
      refine ⟨x, mem_placePulse.mpr (.inr (List.mem_filter.mpr ⟨hx, ?_⟩)), hk⟩
      rw [beq_iff_eq.mp hk]
      exact bne_iff_ne.mpr h
  · constructor
    · rintro ⟨x, hx, hk⟩
      obtain ⟨y, hy, rfl⟩ := List.mem_map.mp hx
      refine ⟨y, hy, ?_⟩
      split at hk <;> exact hk
    · rintro ⟨x, hx, hk⟩
      refine ⟨_, List.mem_map.mpr ⟨x, hx, rfl⟩, ?_⟩
      split <;> exact hk

/-- R168: a request queues nothing for any other driver. -/
theorem pulseQueued_request_other (h : k ≠ d) : pulseQueued (request d band n r s) k = pulseQueued s k := by
  unfold request
  cases answer d band s with
  | merged =>
    dsimp only
    split
    · rename_i e found
      have driver : e.driver = d := beq_iff_eq.mp (List.find?_some (p := fun e : PulseEntry => e.driver == d) found)
      exact any_mergeQueue_other s.drivers.queue (by rwa [driver])
    · rfl
  | queued =>
    change (placePulse _ s.drivers.queue).any (fun e : PulseEntry => e.driver == k) = s.drivers.queue.any _
    rw [Bool.eq_iff_iff, List.any_eq_true, List.any_eq_true]
    constructor
    · rintro ⟨x, hx, hk⟩
      rcases mem_placePulse.mp hx with rfl | hx
      · exact absurd (beq_iff_eq.mp hk).symm h
      · exact ⟨x, hx, hk⟩
    · rintro ⟨x, hx, hk⟩
      exact ⟨x, mem_placePulse.mpr (.inr hx), hk⟩
  | faulted | skipped | dropped | refused => rfl

/-! ## What a request reads -/

/-- R168: a request reads the pulse queue, the waiting list and its driver's own state. -/
theorem request_congr (queue : t.drivers.queue = s.drivers.queue) (waiting : t.drivers.waiting = s.drivers.waiting)
    (own : unit t d = unit s d) :
    (request d band n r t).drivers.queue = (request d band n r s).drivers.queue ∧
      (request d band n r t).drivers.waiting = (request d band n r s).drivers.waiting ∧
      unit (request d band n r t) d = unit (request d band n r s) d := by
  unfold request
  rw [answer_congr queue own]
  cases answer d band s with
  | merged =>
    dsimp only
    rw [queue]
    split
    · exact ⟨congrArg (mergeQueue band n r _) queue, waiting, own⟩
    · exact ⟨queue, waiting, own⟩
  | refused => exact ⟨queue, congrArg (joinSet r) waiting, own⟩
  | queued =>
    refine ⟨congrArg (placePulse _) queue, waiting, ?_⟩
    rw [unit_mapUnit, unit_mapUnit, if_pos rfl, if_pos rfl]
    exact congrArg (fun u : DriverState => if u.phase = .idle then { u with phase := .queued } else u) own
  | faulted | skipped | dropped => exact ⟨queue, waiting, own⟩

/-- R168: what a request makes of the Driver Controller is a matter of the Driver Controller. -/
theorem request_drivers_congr (same : t.drivers = s.drivers) :
    (request d band n r t).drivers = (request d band n r s).drivers := by
  have every (k : DriverNo) : unit t k = unit s k := congrArg (·.units.get k) same
  obtain ⟨queue, waiting, own⟩ := request_congr (band := band) (n := n) (r := r) (congrArg DriverCtl.queue same)
    (congrArg DriverCtl.waiting same) (every d)
  have units : (request d band n r t).drivers.units = (request d band n r s).drivers.units := Tab.ext_get fun k => by
    by_cases self : k = d
    · exact self ▸ own
    · exact (unit_request_other self).trans ((every k).trans (unit_request_other self).symm)
  exact DriverCtl.mk.injEq .. ▸ ⟨units, queue, waiting⟩

end

end Sys2Proof.Machine

end

