-- ==== Sys2Proof/Proofs/Holds.lean ====
section
/-! SUPPORT. Hold bindings that follow a change of the effective states (R172). -/

namespace Sys2Proof.Machine

/-! ## What a driver does -/

/-- R172: the feature bound to driver `d` reads LIT as `before` in `u`, and as `after` in `v`. -/
def bindingMoves (u v : State) (d : DriverNo) (before after : Bool) : Bool :=
  (driverCfg v d).binding.any fun f => (effective u f == .lit) == before && (effective v f == .lit) == after

/-- R172, R173: driver `d` of `v` once its bound feature has left LIT. -/
def released (v : State) (d : DriverNo) : DriverState :=
  if (unit v d).phase = .holding then
    if (driverCfg v d).recycle = 0 then
      { unit v d with spent := false, maxHold := none, recycle := none
                      phase := if pulseQueued v d then .queued else .idle }
    else
      { unit v d with spent := false, maxHold := none, recycle := some (driverCfg v d).recycle, phase := .recycle }
  else { unit v d with spent := false }

/-- R172: the request of driver `d` where its bound feature has turned LIT. -/
def askIfLit (u v : State) (d : DriverNo) (w : State) : State :=
  if bindingMoves u v d false true && !(unit v d).spent then request d .eject 100 (.hold d) w else w

/-- R172: `holdsFollow` in these words. -/
theorem holdsFollow_iff {u v : State} {x : DriverCtl} : holdsFollow u v x ↔
    x.queue = (eachUp 8 (askIfLit u v) v).drivers.queue ∧ x.waiting = (eachUp 8 (askIfLit u v) v).drivers.waiting ∧
      ∀ d, x.units.get d =
        if bindingMoves u v d true false then released v d else unit (eachUp 8 (askIfLit u v) v) d := Iff.rfl

section
variable {u v w : State} {d : DriverNo}

/-- R172: a driver whose bound feature reads LIT as it did does nothing. -/
theorem followLit_stays (h : ∀ f, (driverCfg w d).binding = some f → isLit u f = isLit v f) :
    followLit u v d w = w := by
  unfold followLit
  split
  · rfl
  · rename_i f bound
    exact if_pos (h f bound)

/-- R172: what a driver does, by whether its bound feature has left LIT or turned LIT. -/
theorem followLit_eq (cfg : driverCfg w d = driverCfg v d) : followLit u v d w =
    if bindingMoves u v d true false then releaseHold d w
    else if bindingMoves u v d false true then requestHold d w else w := by
  unfold followLit bindingMoves
  rw [cfg]
  cases (driverCfg v d).binding with
  | none => rfl
  | some f =>
    change (if isLit u f = isLit v f then w else _) = if (isLit u f == true && isLit v f == false) = true then _ else
      if (isLit u f == false && isLit v f == true) = true then _ else w
    cases isLit u f <;> cases isLit v f <;> rfl

/-- R172, R173: a release leaves the queue and the waiting list, and every other driver. -/
theorem releaseHold_drivers (d : DriverNo) (w : State) : (releaseHold d w).drivers =
    { w.drivers with units := w.drivers.units.set d (released w d) } := by
  have put (f : DriverState → DriverState) (w : State) : (mapUnit d f w).drivers =
      { w.drivers with units := w.drivers.units.set d (f (unit w d)) } := rfl
  have recycle (w : State) (f : DriverState → DriverState) : driverCfg (mapUnit d f w) d = driverCfg w d := rfl
  have queued (w : State) (f : DriverState → DriverState) : pulseQueued (mapUnit d f w) d = pulseQueued w d := rfl
  unfold releaseHold released
  dsimp only
  simp only [unit_mapUnit, if_true]
  split
  · unfold enterRecycle leaveRecycle
    dsimp only
    simp only [recycle, queued]
    split <;> simp only [put, unit_mapUnit, if_true, Tab.set_set]
  · rfl

end

/-! ## All drivers together -/

/-- What the drivers of `l` have done, in `w`, beside what those that ask have asked, in `a`. -/
structure FollowsFor (u v : State) (l : List DriverNo) (w a : State) : Prop where
  control : w.control = v.control
  queue : w.drivers.queue = a.drivers.queue
  waiting : w.drivers.waiting = a.drivers.waiting
  done : ∀ d ∈ l, unit w d = if bindingMoves u v d true false then released v d else unit a d
  ahead : ∀ d, d ∉ l → unit w d = unit v d ∧ unit a d = unit v d ∧ pulseQueued w d = pulseQueued v d

/-- R172: one more driver follows. -/
theorem FollowsFor.step {u v w a : State} {l : List DriverNo} {d : DriverNo} (h : FollowsFor u v l w a) (hd : d ∉ l) :
    FollowsFor u v (l ++ [d]) (followLit u v d w) (askIfLit u v d a) := by
  obtain ⟨control, queue, waiting, done, ahead⟩ := h
  obtain ⟨own, ownAsked, queued⟩ := ahead d hd
  have cfg : driverCfg w d = driverCfg v d := congrArg (fun c => c.image.drivers.get d) control
  have others (k : DriverNo) (hk : k ∈ l) : k ≠ d := fun e => hd (e ▸ hk)
  have cases (k : DriverNo) (hk : k ∈ l ++ [d]) : k ∈ l ∨ k = d := by simpa using hk
  rw [followLit_eq cfg]
  cases leaves : bindingMoves u v d true false with
  | true =>
    have turns : bindingMoves u v d false true = false := by
      unfold bindingMoves at leaves ⊢
      cases bound : (driverCfg v d).binding with
      | none => rfl
      | some f => revert leaves; rw [bound]; cases h1 : effective u f == .lit <;> simp [h1]
    have asks : askIfLit u v d a = a := by simp [askIfLit, turns]
    have same : released w d = released v d := by simp only [released, own, cfg, queued]
    have unit_eq (k : DriverNo) : unit (releaseHold d w) k = if k = d then released v d else unit w k := by
      rw [← same]
      exact (congrArg (fun c : DriverCtl => c.units.get k) (releaseHold_drivers d w)).trans (Tab.get_set _ _ _ _)
    rw [asks, if_pos rfl]
    refine ⟨by simpa using control, ?_, ?_, fun k hk => ?_, fun k hk => ?_⟩
    · rw [releaseHold_drivers, ← queue]
    · rw [releaseHold_drivers, ← waiting]
    · rw [unit_eq]
      rcases cases k hk with hl | rfl
      · rw [if_neg (others k hl), done k hl]
      · rw [if_pos rfl, leaves, if_pos rfl]
    · simp only [List.mem_append, List.mem_singleton, not_or] at hk
      obtain ⟨kOwn, kAsked, kQueued⟩ := ahead k hk.1
      refine ⟨by rw [unit_eq, if_neg hk.2, kOwn], kAsked, ?_⟩
      unfold pulseQueued
      rw [releaseHold_drivers]
      exact kQueued
  | false =>
    rw [if_neg Bool.false_ne_true]
    have stays (hw : w = w) (turns : (bindingMoves u v d false true && !(unit v d).spent) = false) :
        FollowsFor u v (l ++ [d]) w (askIfLit u v d a) := by
      have asks : askIfLit u v d a = a := by simp [askIfLit, turns]
      rw [asks]
      refine ⟨control, queue, waiting, fun k hk => ?_, fun k hk => ahead k fun hl => hk (by simp [hl])⟩
      rcases cases k hk with hl | rfl
      · exact done k hl
      · rw [leaves, own, ownAsked]; rfl
    cases turns : bindingMoves u v d false true with
    | false => exact stays rfl (by simp [turns])
    | true =>
      rw [if_pos rfl, requestHold, own]
      cases spent : (unit v d).spent with
      | true => exact stays rfl (by simp [spent])
      | false =>
        have asks : askIfLit u v d a = request d .eject 100 (.hold d) a := by simp [askIfLit, turns, spent]
        have eject : Band.eject ≠ .direct := by decide
        obtain ⟨sameQueue, sameWaiting, sameUnit⟩ := request_congr (band := .eject) (n := 100) (r := .hold d) queue
          waiting (own.trans ownAsked.symm)
        rw [asks, if_neg Bool.false_ne_true]
        refine ⟨(request_control eject).trans control, sameQueue, sameWaiting, fun k hk => ?_, fun k hk => ?_⟩
        · rcases cases k hk with hl | rfl
          · rw [unit_request_other (others k hl), unit_request_other (others k hl), done k hl]
          · rw [leaves, sameUnit]; rfl
        · simp only [List.mem_append, List.mem_singleton, not_or] at hk
          obtain ⟨kOwn, kAsked, kQueued⟩ := ahead k hk.1
          rw [unit_request_other hk.2, unit_request_other hk.2, pulseQueued_request_other hk.2]
          exact ⟨kOwn, kAsked, kQueued⟩

/-- R172: the drivers of a list follow one after another. -/
theorem followsFor_foldl (u v : State) (l : List DriverNo) (once : l.Nodup) :
    FollowsFor u v l (l.foldl (fun t d => followLit u v d t) v) (l.foldl (fun t d => askIfLit u v d t) v) := by
  induction l using List.reverseRecOn with
  | nil => exact ⟨rfl, rfl, rfl, fun _ h => absurd h List.not_mem_nil, fun _ _ => ⟨rfl, rfl, rfl⟩⟩
  | append_singleton l d ih =>
    have apart := List.nodup_append.mp once
    rw [List.foldl_append, List.foldl_append]
    exact (ih apart.1).step fun h => apart.2.2 d h d List.mem_cons_self rfl

/-- R172: drivers that follow a change from `u` to `v` in ascending number leave the Driver Controller as `holdsFollow`
says, and Station Control as it was. -/
theorem eachUp_followLit (u v : State) : (eachUp 8 (followLit u v) v).control = v.control ∧
    holdsFollow u v (eachUp 8 (followLit u v) v).drivers := by
  have all : FollowsFor u v (List.finRange 8) (eachUp 8 (followLit u v) v) (eachUp 8 (askIfLit u v) v) :=
    followsFor_foldl u v _ (List.nodup_finRange 8)
  rw [holdsFollow_iff]
  exact ⟨all.control, all.queue, all.waiting, fun d => all.done d (List.mem_finRange d)⟩

/-- R172: a change of the feature table or the mode table, its hold bindings following: the change itself, and the
drivers. -/
theorem changeLit_eq (g : State → State) (s : State) :
    changeLit g s = { g s with drivers := (changeLit g s).drivers } := by
  obtain ⟨pending, scanner, analog, rules, modes, pockets, balls, trough, link, peers, lamps⟩ := changeLit_frame g s
  have control : (changeLit g s).control = (g s).control := (eachUp_followLit s (g s)).1
  generalize changeLit g s = u at *
  cases u
  simp only at *
  simp only [*]

/-- R172: its drivers follow it. -/
theorem changeLit_follows (g : State → State) (s : State) : holdsFollow s (g s) (changeLit g s).drivers :=
  (eachUp_followLit s (g s)).2

end Sys2Proof.Machine

end

