-- ==== Sys2Proof/Proofs/FeatureSets.lean ====
section
/-! SUPPORT. Effective states (R20), and feature tables changed with the hold bindings following (R172). -/

namespace Sys2Proof.Machine

/-! ## Effective states (R20) -/

section
variable {s t u v : State} {f k : FeatureNo} {d : DriverNo} {r : Resting}

/-- R20: OFF and HELD are not overlaid; any other resting state is LIT under an overlay. -/
theorem effective_eq (s : State) (f : FeatureNo) :
    effective s f = if resting s f = .off ∨ resting s f = .held then resting s f
      else if overlaid s f = true then .lit else resting s f := by
  unfold effective
  cases resting s f <;> rfl

/-- R20: the overlay is an entry of the linked mode. -/
theorem overlaid_iff : overlaid s f = true ↔
    ∃ m, (s.control.image.features.get f).link = some m ∧ (s.modes.get m).isSome = true := by
  unfold overlaid modeIn
  cases (s.control.image.features.get f).link <;> simp

/-- R20: the effective state reads the resting state, the mode link and the mode table. -/
theorem effective_congr (image : t.control.image = s.control.image) (modes : t.modes = s.modes)
    (same : resting t f = resting s f) : effective t f = effective s f := by
  unfold effective overlaid modeIn
  rw [same, image, modes]

/-- R20: so does whether it is LIT. -/
theorem isLit_congr (image : t.control.image = s.control.image) (modes : t.modes = s.modes)
    (same : resting t f = resting s f) : isLit t f = isLit s f :=
  congrArg (· == Resting.lit) (effective_congr image modes same)

/-- R20: a feature that rests OFF or HELD is not LIT. -/
theorem isLit_of_off_or_held (h : resting s f = .off ∨ resting s f = .held) : isLit s f = false := by
  unfold isLit
  rw [effective_eq, if_pos h]
  rcases h with h | h <;> rw [h] <;> rfl

/-- Settles O28. -/
theorem effectiveStateOfAFeature : Obligations.EffectiveStateOfAFeature := by
  intro s f linked
  have overlay : overlaid s f = true ↔ linked := overlaid_iff
  refine ⟨fun h rests => ?_, fun h rests => ?_, fun h => ?_, ?_⟩
  · have lights : ¬ (resting s f = .off ∨ resting s f = .held) := by
      rcases rests with e | e | e <;> rw [e] <;> decide
    rw [effective_eq, if_neg lights, if_pos (overlay.mpr h)]
  · rw [effective_eq, if_pos rests]
  · rw [effective_eq, if_neg (mt overlay.mp h), ite_self]
  · unfold litByOverlay isLit
    simp

/-! ## A feature table put -/

/-- The state with the current feature table as `table`. -/
def State.withFeatures (table : Tab 32 Resting) (s : State) : State :=
  { s with rules := { s.rules with features := table } }

/-- The state with the Driver Controller as `x`. -/
def State.withDrivers (x : DriverCtl) (s : State) : State := { s with drivers := x }

/-- The table put is read back. -/
@[simp] theorem resting_withFeatures (table : Tab 32 Resting) : resting (s.withFeatures table) f = table.get f := rfl

/-- Of two tables put the later stands. -/
@[simp] theorem withFeatures_withFeatures (first second : Tab 32 Resting) :
    (s.withFeatures first).withFeatures second = s.withFeatures second := rfl

/-- Of two Driver Controllers put the later stands. -/
@[simp] theorem withDrivers_withDrivers (x y : DriverCtl) : (s.withDrivers x).withDrivers y = s.withDrivers y := rfl

/-- R20: a feature whose resting state a new table keeps has its effective state. -/
theorem isLit_withFeatures {table : Tab 32 Resting} (same : table.get f = resting s f) :
    isLit (s.withFeatures table) f = isLit s f := isLit_congr rfl rfl same

/-- R172: how the drivers follow is a matter of which bound features were LIT and which are. -/
theorem bindingMoves_congr {u' v' : State} (before : ∀ f, (driverCfg v d).binding = some f → isLit u' f = isLit u f)
    (after : ∀ f, (driverCfg v d).binding = some f → isLit v' f = isLit v f) (cfg : driverCfg v' d = driverCfg v d)
    (x y : Bool) : bindingMoves u' v' d x y = bindingMoves u v d x y := by
  unfold bindingMoves
  rw [cfg]
  cases bound : (driverCfg v d).binding with
  | none => rfl
  | some f =>
    have was : (effective u' f == .lit) = (effective u f == .lit) := before f bound
    have is : (effective v' f == .lit) = (effective v f == .lit) := after f bound
    simp only [Option.any_some, was, is]

/-- R172: `holdsFollow` between states with the same drivers whose bound features read LIT alike. -/
theorem holdsFollow_congr {u' v' : State} {x : DriverCtl} (drivers : v'.drivers = v.drivers)
    (cfg : ∀ d, driverCfg v' d = driverCfg v d)
    (before : ∀ d f, (driverCfg v d).binding = some f → isLit u' f = isLit u f)
    (after : ∀ d f, (driverCfg v d).binding = some f → isLit v' f = isLit v f) (h : holdsFollow u v x) :
    holdsFollow u' v' x := by
  have moves (d : DriverNo) (a b : Bool) : bindingMoves u' v' d a b = bindingMoves u v d a b :=
    bindingMoves_congr (before d) (after d) (cfg d) a b
  have unit_eq (d : DriverNo) : unit v' d = unit v d := congrArg (·.units.get d) drivers
  have asks (l : List DriverNo) (w w' : State) (same : w'.drivers = w.drivers) :
      (l.foldl (fun t d => askIfLit u' v' d t) w').drivers = (l.foldl (fun t d => askIfLit u v d t) w).drivers := by
    induction l generalizing w w' with
    | nil => exact same
    | cons d l ih =>
      refine ih _ _ ?_
      unfold askIfLit
      dsimp only
      rw [moves, unit_eq]
      split
      · exact request_drivers_congr same
      · exact same
  have asked : (eachUp 8 (askIfLit u' v') v').drivers = (eachUp 8 (askIfLit u v) v).drivers := asks _ v v' drivers
  have releases (d : DriverNo) : released v' d = released v d := by
    unfold released pulseQueued
    rw [unit_eq, cfg, drivers]
  rw [holdsFollow_iff] at h ⊢
  unfold unit at h ⊢
  simp only [asked, moves, releases]
  exact h

/-- R172: `holdsFollow` from a state whose bound features read LIT alike. -/
theorem holdsFollow_from {u' : State} {x : DriverCtl}
    (before : ∀ d f, (driverCfg v d).binding = some f → isLit u' f = isLit u f) (h : holdsFollow u v x) :
    holdsFollow u' v x :=
  holdsFollow_congr rfl (fun _ => rfl) before (fun _ _ _ => rfl) h

/-- R172: `holdsFollow` to a change of the Rule Engine, from states alike in what it reads. -/
theorem holdsFollow_withRules {rules : RuleEngine} {x : DriverCtl} (control : t.control = s.control)
    (modes : t.modes = s.modes) (drivers : t.drivers = s.drivers) (same : ∀ f, resting t f = resting s f)
    (h : holdsFollow t { t with rules := rules } x) : holdsFollow s { s with rules := rules } x := by
  have image : s.control.image = t.control.image := congrArg Control.image control.symm
  have after (f : FeatureNo) : isLit { s with rules := rules } f = isLit { t with rules := rules } f :=
    isLit_congr (s := { t with rules := rules }) (t := { s with rules := rules }) image modes.symm rfl
  exact holdsFollow_congr (v := { t with rules := rules }) (v' := { s with rules := rules }) drivers.symm
    (fun d => congrArg (·.drivers.get d) image) (fun d f _ => isLit_congr image modes.symm (same f).symm)
    (fun d f _ => after f) h

end

/-! ## One feature set -/

section
variable {s : State} {f : FeatureNo} {r : Resting}

/-- R172: a feature set: the table, and the drivers that follow. -/
theorem setFeature_eq : setFeature f r s =
    (s.withFeatures (s.rules.features.set f r)).withDrivers (setFeature f r s).drivers := changeLit_eq _ s

/-- R172: a feature set has its drivers follow. -/
theorem setFeature_follows :
    holdsFollow s (s.withFeatures (s.rules.features.set f r)) (setFeature f r s).drivers := changeLit_follows _ s

/-- A table put after a feature is set: the drivers that have followed stay. -/
theorem setFeature_withFeatures (table : Tab 32 Resting) :
    (setFeature f r s).withFeatures table = (s.withFeatures table).withDrivers (setFeature f r s).drivers := by
  have set := setFeature_eq (f := f) (r := r) (s := s)
  generalize setFeature f r s = t at set ⊢
  rw [set]
  rfl

/-- The feature set, and every other, read back. -/
theorem resting_setFeature (k : FeatureNo) : resting (setFeature f r s) k = if k = f then r else resting s k := by
  rw [setFeature_eq]
  exact Tab.get_set _ _ _ _

/-- A feature set leaves Station Control. -/
@[simp] theorem setFeature_control : (setFeature f r s).control = s.control := by
  rw [setFeature_eq]
  rfl

/-- R172: with no driver bound to it a feature is set and nothing else is done. -/
theorem setFeature_unbound (h : ∀ d, (driverCfg s d).binding ≠ some f) :
    setFeature f r s = s.withFeatures (s.rules.features.set f r) := by
  refine eachUp_inv (fun t => t = s.withFeatures (s.rules.features.set f r)) _ (fun d t ht => ?_) _ rfl
  subst ht
  refine followLit_stays fun g bound => ?_
  have other : g ≠ f := fun e => h d (e ▸ bound)
  exact (isLit_withFeatures (Tab.get_set_other _ _ other)).symm

end

/-- Settles O29. -/
theorem lightFeatureLightsDarkAndLatent : Obligations.LightFeatureLightsDarkAndLatent := by
  intro f g s t
  have lit : t = if resting s f = .dark ∨ resting s f = .latent then setFeature f .lit s else s := by
    change lightFeature f s = _
    unfold lightFeature
    cases resting s f <;> rfl
  rw [lit]
  split
  · refine ⟨(resting_setFeature f).trans (if_pos rfl), fun k hk => (resting_setFeature k).trans (if_neg hk), ?_⟩
    rw [setFeature_eq]
    exact ⟨rfl, rfl, rfl, rfl, rfl⟩
  · exact ⟨rfl, fun k _ => rfl, rfl, rfl, rfl, rfl, rfl⟩

/-! ## Several features set -/

section
variable {p : Resting → Bool} {r : Resting} {f : FeatureNo} {fs : List FeatureNo} {s : State}

/-- The feature table once the features of `fs` that satisfy `p` have taken `r`. -/
def featuresAfter (p : Resting → Bool) (r : Resting) (fs : List FeatureNo) (s : State) : Tab 32 Resting :=
  .ofFn fun f => if f ∈ fs ∧ p (resting s f) = true then r else resting s f

/-- A feature of the table. -/
@[simp] theorem get_featuresAfter (k : FeatureNo) : (featuresAfter p r fs s).get k =
    if k ∈ fs ∧ p (resting s k) = true then r else resting s k := Tab.get_ofFn _ k

/-- The first feature of the list where it does not satisfy `p`. -/
theorem featuresAfter_cons_stays (h : p (resting s f) = false) :
    featuresAfter p r (f :: fs) s = featuresAfter p r fs s := by
  refine Tab.ext_get fun k => ?_
  rw [get_featuresAfter, get_featuresAfter]
  by_cases e : k = f
  · subst e; simp [h]
  · simp [e]

/-- The first feature of the list where it does. -/
theorem featuresAfter_cons_set {t : State} (h : p (resting s f) = true)
    (set : ∀ k, resting t k = if k = f then r else resting s k) :
    featuresAfter p r (f :: fs) s = featuresAfter p r fs t := by
  refine Tab.ext_get fun k => ?_
  rw [get_featuresAfter, get_featuresAfter, set]
  by_cases e : k = f
  · subst e; simp [h]
  · simp [e]

/-- The first feature of several, then the rest. -/
theorem setFeatures_cons : setFeatures p r (f :: fs) s =
    setFeatures p r fs (if p (resting s f) = true then setFeature f r s else s) := rfl

/-- R172: several features set: the table, and the drivers that follow. -/
theorem setFeatures_eq : setFeatures p r fs s =
    (s.withFeatures (featuresAfter p r fs s)).withDrivers (setFeatures p r fs s).drivers := by
  induction fs generalizing s with
  | nil =>
    have same : featuresAfter p r [] s = s.rules.features := Tab.ext_get fun k => by simp [resting]
    rw [same]
    rfl
  | cons f fs ih =>
    rw [setFeatures_cons]
    cases h : p (resting s f) with
    | false =>
      rw [featuresAfter_cons_stays h]
      exact ih
    | true =>
      rw [if_pos rfl, featuresAfter_cons_set h resting_setFeature]
      refine ih.trans ?_
      rw [setFeature_withFeatures, withDrivers_withDrivers]

/-- The features set, and every other, read back. -/
theorem resting_setFeatures (k : FeatureNo) : resting (setFeatures p r fs s) k =
    if k ∈ fs ∧ p (resting s k) = true then r else resting s k := by
  rw [setFeatures_eq]
  exact get_featuresAfter k

/-- Several features set leave Station Control. -/
@[simp] theorem setFeatures_control : (setFeatures p r fs s).control = s.control := by
  rw [setFeatures_eq]
  rfl

/-- R172: with no driver bound to those that change, several features set leave the drivers. -/
theorem setFeatures_drivers_stay (h : ∀ f ∈ fs, p (resting s f) = true → ∀ d, (driverCfg s d).binding ≠ some f)
    (stable : p r = false ∨ ∀ f ∈ fs, ∀ d, (driverCfg s d).binding ≠ some f) :
    (setFeatures p r fs s).drivers = s.drivers := by
  induction fs generalizing s with
  | nil => rfl
  | cons f fs ih =>
    rw [setFeatures_cons]
    cases hp : p (resting s f) with
    | false =>
      exact ih (fun g hg => h g (List.mem_cons_of_mem f hg))
        (stable.imp_right fun free g hg => free g (List.mem_cons_of_mem f hg))
    | true =>
      rw [if_pos rfl, setFeature_unbound (h f List.mem_cons_self hp)]
      refine ih (fun g hg changes => ?_) (stable.imp_right fun free g hg => free g (List.mem_cons_of_mem f hg))
      rcases stable with stable | free
      · refine h g (List.mem_cons_of_mem f hg) ?_
        rw [resting_withFeatures, Tab.get_set] at changes
        split at changes
        · rw [stable] at changes; cases changes
        · exact changes
      · exact free g (List.mem_cons_of_mem f hg)

/-- R172: with no driver bound to any, several features are set and nothing else is done. -/
theorem setFeatures_unbound (h : ∀ f ∈ fs, ∀ d, (driverCfg s d).binding ≠ some f) :
    setFeatures p r fs s = s.withFeatures (featuresAfter p r fs s) := by
  rw [setFeatures_eq, setFeatures_drivers_stay (fun f hf _ => h f hf) (.inr h)]
  rfl

end

end Sys2Proof.Machine

end

