-- ==== Sys2Proof/Proofs/MemberFeatures.lean ====
section
/-! SUPPORT. The member features of a bank set together (R33 to R36): their hold bindings followed one after another
and at once (R172). -/

namespace Sys2Proof.Machine

section
variable {p : Resting → Bool} {r : Resting} {f : FeatureNo} {fs : List FeatureNo} {s u v : State} {x : DriverCtl}

/-! ## Features that leave LIT -/

/-- R172: the drivers that `b` names released, and every other as it was. -/
def releasedIf (b : DriverNo → Bool) (s : State) : DriverCtl :=
  { s.drivers with units := .ofFn fun d => if b d then released s d else unit s d }

/-- R172: where no bound feature turns LIT, following is releasing. -/
theorem holdsFollow_releases (h : ∀ d, bindingMoves u v d false true = false) :
    holdsFollow u v x ↔ x = releasedIf (fun d => bindingMoves u v d true false) v := by
  have asks : eachUp 8 (askIfLit u v) v = v := by
    refine eachUp_inv (fun t => t = v) _ (fun d t ht => ?_) v rfl
    unfold askIfLit
    rw [h, ht]
    rfl
  rw [holdsFollow_iff, asks]
  constructor
  · rintro ⟨queue, waiting, units⟩
    have same : x.units = (releasedIf (fun d => bindingMoves u v d true false) v).units :=
      by
      refine Tab.ext_get fun d => (units d).trans ?_
      exact (Tab.get_ofFn (fun d => if bindingMoves u v d true false then released v d else unit v d) d).symm
    cases x
    simp only at queue waiting same
    rw [queue, waiting, same]
    rfl
  · rintro rfl
    exact ⟨rfl, rfl, fun d => Tab.get_ofFn _ d⟩

/-- R20: a feature that rests as it did, or rests OFF or HELD, does not turn LIT. -/
theorem isLit_withFeatures_le {table : Tab 32 Resting}
    (h : table.get f = resting s f ∨ table.get f = .off ∨ table.get f = .held) :
    isLit (s.withFeatures table) f = true → isLit s f = true := by
  intro lit
  rcases h with same | unlit
  · rwa [isLit_withFeatures same] at lit
  · rw [isLit_of_off_or_held (s := s.withFeatures table) unlit] at lit
    cases lit

/-- R172: with no bound feature turning LIT none asks. -/
theorem bindingMoves_of_le {d : DriverNo}
    (h : ∀ f, (driverCfg v d).binding = some f → isLit v f = true → isLit u f = true) :
    bindingMoves u v d false true = false := by
  unfold bindingMoves
  cases bound : (driverCfg v d).binding with
  | none => rfl
  | some f =>
    have le := h f bound
    change (isLit u f == false && isLit v f == true) = false
    revert le
    cases isLit u f <;> cases isLit v f <;> simp

/-- R172: where nothing changes no driver does anything. -/
theorem holdsFollow_refl : holdsFollow s s s.drivers := by
  have follows := changeLit_follows (fun t => t) s
  have still : changeLit (fun t => t) s = s := eachUp_fixed fun d => followLit_stays fun _ _ => rfl
  rwa [still] at follows

/-- R172: drivers released at a first change of the feature table and at a second are released at the two at once. -/
theorem holdsFollow_trans {mid last : Tab 32 Resting} {y : DriverCtl}
    (dims : ∀ f, isLit (s.withFeatures mid) f = true → isLit s f = true)
    (dimsMore : ∀ f, isLit (s.withFeatures last) f = true → isLit (s.withFeatures mid) f = true)
    (first : holdsFollow s (s.withFeatures mid) x)
    (second : holdsFollow ((s.withFeatures mid).withDrivers x) ((s.withFeatures last).withDrivers x) y) :
    holdsFollow s (s.withFeatures last) y := by
  rw [holdsFollow_releases fun d => bindingMoves_of_le fun f _ => dims f] at first
  have second := (holdsFollow_releases (u := (s.withFeatures mid).withDrivers x)
    (v := (s.withFeatures last).withDrivers x) fun d => bindingMoves_of_le fun f _ => dimsMore f).mp second
  rw [holdsFollow_releases fun d => bindingMoves_of_le fun f _ lit => dims f (dimsMore f lit), second]
  have queue : x.queue = s.drivers.queue := by rw [first]; rfl
  have waiting : x.waiting = s.drivers.waiting := by rw [first]; rfl
  have own (d : DriverNo) : x.units.get d =
      if bindingMoves s (s.withFeatures mid) d true false then released s d else unit s d := by
    rw [first]
    exact Tab.get_ofFn _ d
  unfold releasedIf
  rw [DriverCtl.mk.injEq]
  refine ⟨Tab.ext_get fun d => ?_, queue, waiting⟩
  rw [Tab.get_ofFn, Tab.get_ofFn]
  have own := own d
  unfold bindingMoves at own ⊢
  change (if (driverCfg s d).binding.any _ then _ else x.units.get d) =
    if (driverCfg s d).binding.any _ then released s d else unit s d
  change x.units.get d = if (driverCfg s d).binding.any _ then _ else _ at own
  cases bound : (driverCfg s d).binding with
  | none => simpa [bound] using own
  | some f =>
    rw [bound] at own
    change x.units.get d =
      if (isLit s f == true && isLit (s.withFeatures mid) f == false) = true then _ else _ at own
    change (if (isLit (s.withFeatures mid) f == true && isLit (s.withFeatures last) f == false) = true then
      released ((s.withFeatures last).withDrivers x) d else x.units.get d) =
        if (isLit s f == true && isLit (s.withFeatures last) f == false) = true then _ else _
    cases stands : isLit (s.withFeatures mid) f with
    | true =>
      have same : x.units.get d = unit s d := by simpa [stands] using own
      have later : released ((s.withFeatures last).withDrivers x) d = released s d := by
        unfold released pulseQueued
        rw [show unit ((s.withFeatures last).withDrivers x) d = unit s d from same, ← queue]
        rfl
      rw [later, same, dims f stands]
    | false =>
      have gone : isLit (s.withFeatures last) f = false :=
        Bool.eq_false_iff.mpr fun lit => Bool.eq_false_iff.mp stands (dimsMore f lit)
      simpa [gone, stands] using own

/-- R172: features that take OFF or HELD one after another have their drivers follow as if at once. -/
theorem setFeatures_unlit_follows (hr : r = .off ∨ r = .held) :
    holdsFollow s (s.withFeatures (featuresAfter p r fs s)) (setFeatures p r fs s).drivers := by
  induction fs generalizing s with
  | nil =>
    have same : featuresAfter p r [] s = s.rules.features := Tab.ext_get fun k => by simp [resting]
    rw [same]
    exact holdsFollow_refl
  | cons f fs ih =>
    rw [setFeatures_cons]
    cases hp : p (resting s f) with
    | false =>
      rw [featuresAfter_cons_stays hp]
      exact ih
    | true =>
      have after := featuresAfter_cons_set (fs := fs) hp (resting_setFeature (r := r))
      have rest := ih (s := setFeature f r s)
      rw [if_pos rfl, after]
      generalize hF : featuresAfter p r fs (setFeature f r s) = last at rest ⊢
      refine holdsFollow_trans (mid := s.rules.features.set f r) (x := (setFeature f r s).drivers)
        (fun g => isLit_withFeatures_le ?_) (fun g lit => ?_) setFeature_follows ?_
      · rw [Tab.get_set]
        split
        · exact .inr hr
        · exact .inl rfl
      · refine isLit_withFeatures_le (s := s.withFeatures (s.rules.features.set f r)) (table := last) ?_ lit
        rw [← hF, get_featuresAfter, resting_setFeature, resting_withFeatures, Tab.get_set]
        by_cases changed : g ∈ fs ∧ p (if g = f then r else resting s g) = true
        · rw [if_pos changed]
          exact .inr hr
        · rw [if_neg changed]
          exact .inl rfl
      · rw [← setFeature_eq, ← setFeature_withFeatures]
        exact rest

/-! ## One bound feature -/

/-- R172: features of which one driver at most is bound to any, changed one after another to a state that none
leaves, have their drivers follow as if at once. -/
theorem setFeatures_follows (stable : p r = false)
    (one : ∀ d e, (driverCfg s d).binding.any (· ∈ fs) = true → (driverCfg s e).binding.any (· ∈ fs) = true → d = e) :
    holdsFollow s (s.withFeatures (featuresAfter p r fs s)) (setFeatures p r fs s).drivers := by
  induction fs generalizing s with
  | nil =>
    have same : featuresAfter p r [] s = s.rules.features := Tab.ext_get fun k => by simp [resting]
    rw [same]
    exact holdsFollow_refl
  | cons f fs ih =>
    have widen (d : DriverNo) (h : (driverCfg s d).binding.any (· ∈ fs) = true) :
        (driverCfg s d).binding.any (· ∈ f :: fs) = true := by
      cases bound : (driverCfg s d).binding with
      | none => simp [bound] at h
      | some g => simp_all
    have rest : ∀ d e, (driverCfg s d).binding.any (· ∈ fs) = true →
        (driverCfg s e).binding.any (· ∈ fs) = true → d = e := fun d e hd he => one d e (widen d hd) (widen e he)
    rw [setFeatures_cons]
    cases hp : p (resting s f) with
    | false =>
      rw [featuresAfter_cons_stays hp]
      exact ih rest
    | true =>
      have after := featuresAfter_cons_set (fs := fs) hp (resting_setFeature (r := r))
      rw [if_pos rfl, after]
      by_cases free : ∀ d, (driverCfg s d).binding ≠ some f
      · have first : setFeature f r s = s.withFeatures (s.rules.features.set f r) := setFeature_unbound free
        have follows := ih (s := setFeature f r s) (by rw [first]; exact rest)
        rw [first, withFeatures_withFeatures] at follows
        rw [first]
        refine holdsFollow_from (fun d g bound => ?_) follows
        have other : g ≠ f := fun e => free d (e ▸ bound)
        exact (isLit_withFeatures (Tab.get_set_other _ _ other)).symm
      · push Not at free
        obtain ⟨d, bound⟩ := free
        have alone (e : DriverNo) (g : FeatureNo) (hg : (driverCfg s e).binding = some g) (mem : g ∈ fs) : g = f := by
          have same : d = e := one d e (by simp [bound]) (by simp [hg, mem])
          subst same
          exact Option.some.inj (hg.symm.trans bound)
        have later : (setFeatures p r fs (setFeature f r s)).drivers = (setFeature f r s).drivers := by
          refine setFeatures_drivers_stay (fun g mem changes e hg => ?_) (.inl stable)
          have cfg : driverCfg (setFeature f r s) e = driverCfg s e := by unfold driverCfg; rw [setFeature_control]
          rw [alone e g (cfg ▸ hg) mem, resting_setFeature, if_pos rfl, stable] at changes
          cases changes
        have first : holdsFollow s (s.withFeatures (s.rules.features.set f r)) (setFeature f r s).drivers :=
          setFeature_follows
        rw [later, ← withFeatures_withFeatures (s.rules.features.set f r)]
        generalize (setFeature f r s).drivers = x at first ⊢
        refine holdsFollow_congr (u := s) (v := s.withFeatures (s.rules.features.set f r)) rfl (fun _ => rfl)
          (fun _ _ _ => rfl) (fun e g hg => isLit_withFeatures ?_) first
        rw [get_featuresAfter, resting_setFeature, resting_withFeatures, Tab.get_set]
        by_cases e' : g = f
        · simp [e']
        · have absent : g ∉ fs := fun mem => e' (alone e g hg mem)
          simp [absent, e']
          rfl

end

end Sys2Proof.Machine

end

