-- ==== Sys2Proof/Proofs/FeatureSetBulletin.lean ====
section
/-! SUPPORT. What a completion leaves before the block that owns its kind acts, and FEATURE SET (R28, R162). -/

namespace Sys2Proof.Machine

/-! ## A completion at the link (R69, R71, R81) -/

/-- `endOnLine` changes control, link alone. -/
@[simp] theorem endOnLine_frame (own : Bool) (s : State) :
      (endOnLine own s).pending = s.pending ∧
      (endOnLine own s).scanner = s.scanner ∧
      (endOnLine own s).analog = s.analog ∧
      (endOnLine own s).rules = s.rules ∧
      (endOnLine own s).modes = s.modes ∧
      (endOnLine own s).pockets = s.pockets ∧
      (endOnLine own s).balls = s.balls ∧
      (endOnLine own s).trough = s.trough ∧
      (endOnLine own s).peers = s.peers ∧
      (endOnLine own s).drivers = s.drivers ∧
      (endOnLine own s).lamps = s.lamps := by
  unfold endOnLine; dsimp only; (repeat' split) <;> simp

/-- `received` changes control, link, peers alone. -/
@[simp] theorem received_frame (o : StationNo) (b : Bulletin) (s : State) :
      (received o b s).pending = s.pending ∧
      (received o b s).scanner = s.scanner ∧
      (received o b s).analog = s.analog ∧
      (received o b s).rules = s.rules ∧
      (received o b s).modes = s.modes ∧
      (received o b s).pockets = s.pockets ∧
      (received o b s).balls = s.balls ∧
      (received o b s).trough = s.trough ∧
      (received o b s).drivers = s.drivers ∧
      (received o b s).lamps = s.lamps := by
  unfold received noteOrigin; (repeat' split) <;> simp

/-- The end of a bulletin at the link leaves the setup. -/
@[simp] theorem endOnLine_setup (own : Bool) (s : State) : (endOnLine own s).control.setup = s.control.setup := by
  unfold endOnLine offerAside; dsimp only; (repeat' split) <;> simp

/-- Taking a bulletin at the link leaves the setup. -/
@[simp] theorem received_setup (o : StationNo) (b : Bulletin) (s : State) :
    (received o b s).control.setup = s.control.setup := by
  unfold received noteOrigin; (repeat' split) <;> simp

/-! ## The fields of a FEATURE SET (R28, R64) -/

/-- R64: a byte that names feature `f`. -/
theorem featureOf_eq_some {x : Byte} {f : FeatureNo} : featureOf x = some f ↔ x.toNat = f.val := by
  unfold featureOf
  split
  · rw [Option.some.injEq, Fin.ext_iff]
  · rename_i h
    simp only [reduceCtorEq, false_iff]
    exact fun e => h (e ▸ f.isLt)

/-- R28: the states that may be set are given by their codes. -/
theorem settable_eq_some {x : Byte} {r : Resting} : settable x = some r ↔ x.toNat = r.code ∧ r ≠ .held := by
  unfold settable
  generalize x.toNat = n
  rcases n with _ | _ | _ | _ | n <;> cases r <;> simp [Resting.code]

/-- R162: a byte that names a player of the game. -/
theorem playerOf_eq_some {count : Nat} {x : Byte} {p : Player} :
    playerOf count x = some p ↔ x.toNat = p.val + 1 ∧ x.toNat ≤ count := by
  have := p.isLt
  unfold playerOf
  split
  · rename_i h
    split
    · rename_i within
      simp only [Option.some.injEq, Fin.ext_iff, within, and_true]
      omega
    · rename_i beyond
      simp [beyond]
  · simp only [reduceCtorEq, false_iff]
    omega

/-- R28, R162: player 0 and the player now up name the current table. -/
theorem featurePlayer_now {s : State} {x : Byte}
    (h : x.toNat = 0 ∨ (x.toNat = s.rules.current.val + 1 ∧ x.toNat ≤ s.control.playerCount)) :
    featurePlayer s x = some none := by
  unfold featurePlayer
  split
  · rfl
  · rename_i named
    rw [playerOf_eq_some.mpr (h.resolve_left named), Option.map_some, if_pos rfl]

/-- R28, R162: another player of the game names its context. -/
theorem featurePlayer_other {s : State} {x : Byte} {p : Player} (other : p ≠ s.rules.current)
    (names : x.toNat = p.val + 1) (within : x.toNat ≤ s.control.playerCount) : featurePlayer s x = some (some p) := by
  unfold featurePlayer
  rw [if_neg (by omega), playerOf_eq_some.mpr ⟨names, within⟩, Option.map_some, if_neg other]

/-- R162: a byte that names no player of the game names no table. -/
theorem featurePlayer_none {s : State} {x : Byte} (h : 4 < x.toNat ∨ s.control.playerCount < x.toNat) :
    featurePlayer s x = none := by
  have nobody : playerOf s.control.playerCount x = none :=
    Option.eq_none_iff_forall_ne_some.mpr fun p named => by
      obtain ⟨names, within⟩ := playerOf_eq_some.mp named
      have := p.isLt
      omega
  unfold featurePlayer
  rw [if_neg (by omega), nobody, Option.map_none]

/-- R28: a FEATURE SET to this station, of a feature and a state that may be set, by the table that it names. -/
theorem takeFeatureSet_addressed {target feature state player : Byte} {f : FeatureNo} {r : Resting} {s : State}
    (here : target.toNat = s.control.strap.val ∨ target.toNat = 255) (names : feature.toNat = f.val)
    (sets : state.toNat = r.code) (settles : r ≠ .held) :
    takeFeatureSet target feature state player s = match featurePlayer s player with
      | some none => setFeature f r s
      | some (some p) => { s with rules := { s.rules with
          contexts := s.rules.contexts.modify p fun k => { k with features := k.features.set f r } } }
      | none => s := by
  have addressed : addressed s target = true := by simpa [addressed, strap] using here
  unfold takeFeatureSet
  rw [if_pos addressed, featureOf_eq_some.mpr names, settable_eq_some.mpr ⟨sets, settles⟩]
  cases featurePlayer s player with
  | none => rfl
  | some up => cases up <;> rfl

/-- R28, R162: a FEATURE SET to another station, or with a field out of its range, is ignored. -/
theorem takeFeatureSet_ignored {target feature state player : Byte} {s : State}
    (h : (target.toNat ≠ s.control.strap.val ∧ target.toNat ≠ 255) ∨ 32 ≤ feature.toNat ∨ 4 ≤ state.toNat ∨
      4 < player.toNat ∨ s.control.playerCount < player.toNat) :
    takeFeatureSet target feature state player s = s := by
  have unnamed {f : FeatureNo} {r : Resting} {q : Option Player} (here : addressed s target = true)
      (names : featureOf feature = some f) (sets : settable state = some r) (up : featurePlayer s player = some q) :
      False := by
    have here : target.toNat = s.control.strap.val ∨ target.toNat = 255 := by simpa [addressed, strap] using here
    have names := featureOf_eq_some.mp names
    have code : state.toNat < 4 := by
      obtain ⟨sets, settles⟩ := settable_eq_some.mp sets
      cases r <;> simp_all [Resting.code]
    have player : ¬ (4 < player.toNat ∨ s.control.playerCount < player.toNat) := fun beyond => by
      rw [featurePlayer_none beyond] at up
      cases up
    have := f.isLt
    omega
  unfold takeFeatureSet
  split
  · rename_i here
    split
    · rename_i names sets up
      exact (unnamed here names sets up).elim
    · rename_i names sets up
      exact (unnamed here names sets up).elim
    · rfl
  · rfl

/-- Settles O54. -/
theorem aFeatureIsSet : Obligations.AFeatureIsSet := by
  intro o target feature state player s heard u
  have setup : u.control.setup = s.control.setup := received_setup _ _ _
  have strapSame : u.control.strap = s.control.strap := strap_of_setup setup
  have countSame : u.control.playerCount = s.control.playerCount :=
    have e := congrArg Control.playerCount setup
    e
  have rules : u.rules = s.rules := by simp [u]
  have ran : exec (.featureSet o target feature state player) s =
      .next (finish (if inGame s then takeFeatureSet target feature state player u else u)) :=
    congrArg (fun v => Host.Outcome.next (finish v)) (complete_heard _ _ heard)
  clear_value u
  refine ⟨fun f r game here names sets settles => ?_, fun ignored => settles_exec ran ?_⟩
  · rw [game, if_pos rfl, takeFeatureSet_addressed (by rwa [strapSame]) names sets settles] at ran
    refine ⟨fun now => ?_, fun p other named within => ?_⟩
    · rw [featurePlayer_now (by rwa [rules, countSame])] at ran
      dsimp only at ran
      obtain ⟨-, -, -, sameRules, -, -, -, -, -, sameDrivers⟩ := finish_frame (setFeature f r u)
      rw [setFeature_rules, rules] at sameRules
      have resting (k : FeatureNo) : resting (finish (setFeature f r u)) k = if k = f then r else resting s k := by
        unfold Machine.resting
        rw [sameRules]
        exact Tab.get_set _ _ _ _
      refine ⟨_, ran, (resting f).trans (if_pos rfl), fun k hk => (resting k).trans (if_neg hk), ?_, ?_⟩
      all_goals rw [sameRules, sameDrivers]; dsimp only; rw [← rules]
      · exact setFeature_follows
      · exact settles_of_eq setFeature_eq
    · rw [featurePlayer_other (by rwa [rules]) named (by rwa [countSame])] at ran
      dsimp only at ran
      have context (k : Player) : context (finish { u with rules := { u.rules with
          contexts := u.rules.contexts.modify p fun k => { k with features := k.features.set f r } } }) k =
            if k = p then { context s p with features := (context s p).features.set f r } else context s k := by
        unfold Machine.context
        rw [(finish_frame _).2.2.2.1, rules]
        exact Tab.get_modify _ _ _ _
      refine ⟨_, ran, ?_, fun k hk => ?_, ?_, fun k hk => (context k).trans (if_neg hk), ?_⟩
      · rw [context, if_pos rfl]
        exact Tab.get_set_self _ f r
      · rw [context, if_pos rfl]
        exact Tab.get_set_other _ r hk
      · rw [context, if_pos rfl]
      · rw [(finish_frame _).2.2.2.1, rules]
        exact settles_finish _
  · split
    · refine takeFeatureSet_ignored ?_
      rw [strapSame, countSame]
      rename_i game
      exact ignored.resolve_left (by rw [game]; decide)
    · rfl

end Sys2Proof.Machine

end

