-- ==== Sys2Proof/Proofs/Outputs.lean ====
section
/-! SUPPORT. The outputs at the end of every step (R39, R179, R189), the queued CENSUS (R84) and its fields (R83). -/

namespace Sys2Proof.Machine

/-! ## Every step ends alike -/

/-- A command ends by bringing the queued CENSUS and the outputs up to the state. -/
theorem exec_finishes (c : Instr) (s : State) : ∃ v, exec c s = .next (finish v) := by
  cases c <;> exact ⟨_, rfl⟩

/-- So does an idle step. -/
theorem step_finishes (s : State) : ∃ v, step s = .next (finish v) := by
  unfold step idle
  split
  · exact exec_finishes _ _
  · split
    · exact exec_finishes _ _
    · exact ⟨_, rfl⟩

/-- The state that a command or a step leaves is one brought up to date. -/
theorem eq_finish_of_next {c : Instr} {s t : State} (h : exec c s = .next t ∨ step s = .next t) :
    ∃ v, t = finish v := by
  rcases h with h | h
  · obtain ⟨v, hv⟩ := exec_finishes c s
    exact ⟨v, Host.Outcome.next.inj (h.symm.trans hv)⟩
  · obtain ⟨v, hv⟩ := step_finishes s
    exact ⟨v, Host.Outcome.next.inj (h.symm.trans hv)⟩

/-! ## The fault line and the lamps (R39, R179, R189) -/

/-- R187, R189: when the fault line is asserted. -/
theorem faultLineLevel_iff (s : State) : faultLineLevel s = true ↔
    s.control.station = .selftestFailed ∨ (s.control.station ≠ .held ∧ (faultByte s &&& maskByte s) ≠ 0) := by
  unfold faultLineLevel
  cases s.control.station <;> simp

/-- R189: after a step the fault line reads as the state gives it. -/
theorem finish_faultLine (v : State) : (finish v).control.faultLine = faultLineLevel (finish v) := by
  obtain ⟨-, control, -⟩ := settles_finish v
  rw [control]

/-- R39, R40: a lamp's pattern until JOINING and in LISTEN-ONLY, and from JOINING on. -/
theorem lampPattern_eq (s : State) (l : LampNo) : lampPattern s l =
    if s.control.station.running = true then bindingPattern s (s.control.image.lamps.get l) else .off := rfl

/-- R39: the pattern that an entry's remaining time gives its lamp. -/
def ModeTime.pattern : ModeTime → Pattern
  | .untimed => .on
  | .running r => if r ≤ 3000 then .fast else .on
  | .expired => .fast

/-- R39: the lamp of a mode with an entry. -/
theorem modePattern_some {s : State} {m : ModeId} {e : ModeEntry} (h : s.modes.get m = some e) :
    modePattern s m = e.time.pattern := by
  unfold modePattern
  rw [h]
  dsimp only
  cases e.time <;> rfl

/-- R39: the lamp of a mode without one. -/
theorem modePattern_none {s : State} {m : ModeId} (h : s.modes.get m = none) : modePattern s m = .off := by
  unfold modePattern
  rw [h]

/-! ## The queued CENSUS (R84) -/

/-- The contents of an entry that is a CENSUS. -/
def TxEntry.census? (e : TxEntry) : Option CensusPayload :=
  match e.bulletin with
  | .census c => some c
  | _ => none

/-- R73: the last CENSUS built is the one held aside, or else the one queued. -/
theorem lastCensus_eq (l : LinkCtl) : lastCensus l = (l.queue.findSome? TxEntry.census?).map l.aside.getD := by
  unfold lastCensus
  split
  · rename_i empty
    have empty : l.queue.findSome? TxEntry.census? = none := empty
    rw [empty]
    rfl
  · rename_i c queued
    have queued : l.queue.findSome? TxEntry.census? = some c := queued
    rw [queued]
    rfl

/-- R59: the begin of the queue's head changes the contents of no entry. -/
theorem lastCensus_beginIfAtRest (l : LinkCtl) : lastCensus (beginIfAtRest l) = lastCensus l := by
  rw [lastCensus_eq, lastCensus_eq]
  unfold beginIfAtRest beginHead
  split
  · cases queue : l.queue with
    | nil => simp [queue]
    | cons e rest => simp [List.findSome?_cons, TxEntry.census?]
  · rfl

/-- An entry is a CENSUS where it has a CENSUS's contents. -/
theorem isCensus_eq (e : TxEntry) : e.isCensus = e.census?.isSome := by
  unfold TxEntry.isCensus TxEntry.census?
  cases e.bulletin <;> rfl

/-- R73: a queue whose CENSUS is replaced holds the new one. -/
theorem findSome?_replaceCensus (c : CensusPayload) (q : List TxEntry) :
    (replaceCensus c q).findSome? TxEntry.census? = (q.findSome? TxEntry.census?).map fun _ => c := by
  induction q with
  | nil => rfl
  | cons e q ih =>
    change List.findSome? _ ((if e.isCensus then _ else e) :: replaceCensus c q) = _
    rw [List.findSome?_cons, List.findSome?_cons, ih]
    cases contents : e.census? with
    | none =>
      rw [isCensus_eq, contents]
      simp [contents]
    | some d =>
      rw [isCensus_eq, contents]
      rfl

/-- R73: where a CENSUS is queued, one offered becomes the last one built. -/
theorem lastCensus_offer {s : State} {c d : CensusPayload} (h : lastCensus s.link = some d) :
    lastCensus (offer (.census c) s).link = some c := by
  have any := any_census_of_lastCensus h
  rw [lastCensus_eq] at h
  obtain ⟨e, queued, -⟩ := Option.map_eq_some_iff.mp h
  rw [offer_link, lastCensus_beginIfAtRest, lastCensus_eq]
  unfold offerTo
  dsimp only
  split
  · rw [queued]
    rfl
  · rw [findSome?_replaceCensus, queued]
    rfl

/-- R84: after a step the last CENSUS built is the one that the state now gives. -/
theorem lastCensus_finish {v : State} {x : CensusPayload} (h : lastCensus (finish v).link = some x) :
    x = censusNow (finish v) := by
  rw [censusNow_finish]
  rw [finish_link] at h
  cases built : lastCensus v.link with
  | none =>
    rw [built] at h
    exact absurd (built.symm.trans h) (by simp)
  | some c =>
    rw [built] at h
    dsimp only at h
    split at h
    · rename_i current
      exact (Option.some.inj (h.symm.trans built)).trans current
    · exact Option.some.inj (h.symm.trans (lastCensus_offer built))

/-! ## The blink clock (R179) -/

/-- R179: a tick while the lamps run. -/
theorem blinkTick_running {s : State} (h : s.control.station.running = true) :
    blinkTick s = { s with lamps := { s.lamps with blink := (s.lamps.blink + 1) % 12 } } := if_pos h

/-- R179: a tick while they do not. -/
theorem blinkTick_stopped {s : State} (h : s.control.station.running = false) : blinkTick s = s :=
  if_neg (by simp [h])

/-! ## The fields of a CENSUS (R83) -/

/-- R83: in LISTEN-ONLY the CENSUS reads no counts, no modes and no signature. -/
theorem censusNow_listenOnly {s : State} (h : s.control.station = .listenOnly) :
    (censusNow s).trough = 7 ∧ (∀ p, (censusNow s).held.get p = 0 ∧ (censusNow s).stuck.get p = 0) ∧
      (∀ m, (censusNow s).modes.get m = false) ∧ (censusNow s).missing = 0 ∧ (censusNow s).signature = 0 := by
  have dead : (s.control.station != .listenOnly) = false := by rw [h]; rfl
  unfold censusNow
  refine ⟨?_, fun p => ?_, fun m => ?_, ?_, ?_⟩
  · dsimp only
    cases s.trough.count <;> simp [dead]
  all_goals simp [dead]

/-- R83: in every other state it reads them, each in its bits. -/
theorem censusNow_live {s : State} (h : s.control.station ≠ .listenOnly) :
    (censusNow s).trough = (match s.trough.count with
      | some n => if isTrough s then BitVec.ofNat 3 n else 7
      | none => 7) ∧
    (∀ p, (censusNow s).held.get p = (if (pocketCfg s p).isSome then twoBits (pocket s p).held else 0) ∧
      (censusNow s).stuck.get p = if (pocketCfg s p).isSome then twoBits (pocket s p).stuck else 0) ∧
    (∀ m, (censusNow s).modes.get m = ownedActive s m) ∧ (censusNow s).missing = BitVec.ofNat 3 s.balls.missing ∧
    (censusNow s).signature = s.control.image.signature := by
  have live : (s.control.station != .listenOnly) = true := bne_iff_ne.mpr h
  unfold censusNow
  refine ⟨?_, fun p => ?_, fun m => ?_, ?_, ?_⟩
  · dsimp only
    cases s.trough.count <;> simp [live]
  all_goals simp [live]

/-- A count within two bits reads back. -/
theorem twoBits_val {n : Nat} (h : n ≤ 3) : (twoBits n).val = n := Nat.mod_eq_of_lt (by omega)

/-- A count within three bits reads back. -/
theorem ofNat_three_toNat {n : Nat} (h : n ≤ 6) : (BitVec.ofNat 3 n).toNat = n := by
  rw [BitVec.toNat_ofNat]
  exact Nat.mod_eq_of_lt (by omega)

/-- Settles O11: every step ends in `finish`. -/
theorem outputsFollowTheState : Obligations.OutputsFollowTheState := by
  refine ⟨fun c s t ran => ?outputs, fun c s t x ran built => ?census,
    fun s => ⟨fun runs => settles_exec rfl (blinkTick_running runs),
      fun stopped => settles_exec rfl (blinkTick_stopped stopped),
      fun n => ⟨rfl, rfl, ?_, ?_⟩⟩,
    fun s => ⟨fun h => if_pos h, fun h => if_neg h⟩, fun s => ?fields⟩
  case outputs =>
    obtain ⟨v, rfl⟩ := eq_finish_of_next ran
    refine ⟨by rw [finish_faultLine, faultLineLevel_iff], fun l => ?_⟩
    obtain ⟨pattern, level⟩ := finish_lamp v l
    refine ⟨level, fun stopped => ?_, fun runs => ?_⟩
    · rw [pattern, lampPattern_eq, if_neg (by simp [stopped])]
    · rw [pattern, lampPattern_eq, if_pos runs]
      cases (finish v).control.image.lamps.get l with
      | feature f =>
        change patternOf _ = _
        cases effective (finish v) f <;> rfl
      | mode m =>
        have shown {e : ModeEntry} (here : (finish v).modes.get m = some e) :
            modePattern (finish v) m = e.time.pattern := modePattern_some here
        exact ⟨fun none => modePattern_none none,
          fun e here untimed => by rw [bindingPattern, shown here, untimed]; rfl,
          fun e r here running => by rw [bindingPattern, shown here, running]; rfl,
          fun e here expired => by rw [bindingPattern, shown here, expired]; rfl⟩
      | pocket p => rfl
      | faults => rfl
      | none => rfl
  case census =>
    obtain ⟨v, rfl⟩ := eq_finish_of_next ran
    exact lastCensus_finish built
  · simp [patternLevel]
  · simp [patternLevel]
  case fields =>
    intro x
    refine ⟨?_, rfl, rfl, fun low high => ?_, censusNow_listenOnly, fun live => ?_⟩
    · change BitVec.ofNat 3 s.control.station.code = _
      cases s.control.station <;> rfl
    · have := twoBits_val (n := s.control.playerCount - 1) (by omega)
      change (twoBits (s.control.playerCount - 1)).val + 1 = _
      omega
    · obtain ⟨trough, counts, modes, missing, signature⟩ := censusNow_live live
      refine ⟨fun n here count within => ?_, fun away => ?_, fun p unfitted => ?_, fun p fitted => ?_, fun m => ?_,
        fun within => ?_, signature⟩
      · rw [trough, count]
        dsimp only
        rw [if_pos here, ofNat_three_toNat within]
      · rw [trough]
        rcases away with away | unknown
        · cases s.trough.count <;> simp [away]
        · rw [unknown]
      · rw [(counts p).1, (counts p).2, unfitted]
        exact ⟨rfl, rfl⟩
      · rw [(counts p).1, (counts p).2, if_pos fitted, if_pos fitted]
        exact ⟨twoBits_val, twoBits_val⟩
      · rw [modes]
        unfold ownedActive
        cases s.modes.get m with
        | none => rfl
        | some e => rfl
      · rw [missing, ofNat_three_toNat within]

end Sys2Proof.Machine

end

