-- ==== Sys2Proof/Proofs/BankResets.lean ====
section
/-! SUPPORT. A bank's reset: its request, its confirm and its failure (R33 to R37), each said once. -/

namespace Sys2Proof.Machine

section
variable {b k : BankNo} {c : BankCfg} {d : DriverNo} {s : State}

/-! ## A bank's own state -/

/-- The state with bank `b` as `x`. -/
def putBank (b : BankNo) (x : BankState) (s : State) : State :=
  { s with rules := { s.rules with banks := s.rules.banks.set b x } }

/-- A change of bank `b` puts what it makes of it. -/
theorem mapBank_eq (f : BankState → BankState) : mapBank b f s = putBank b (f (bank s b)) s := rfl

/-- The bank put, and every other, read back. -/
@[simp] theorem bank_putBank (x : BankState) : bank (putBank b x s) k = if k = b then x else bank s k :=
  Tab.get_set _ _ _ _

/-- Of two puts of one bank the later stands. -/
@[simp] theorem putBank_putBank (x y : BankState) : putBank b y (putBank b x s) = putBank b y s := by
  simp [putBank]

/-- A bank put leaves the drivers. -/
@[simp] theorem unit_putBank (x : BankState) : unit (putBank b x s) d = unit s d := rfl

/-! ## A FAULTED driver stays one (R166, R172) -/

/-- R168: no request makes a driver FAULTED, or ends that. -/
theorem request_faulted {e : DriverNo} {band : Band} {n : Nat} {r : Requester} :
    ((unit (request e band n r s) d).phase = .faulted) = ((unit s d).phase = .faulted) := by
  by_cases same : d = e
  · subst same
    rcases unit_request_self (d := d) (band := band) (n := n) (r := r) (s := s) with stays | ⟨idle, queued⟩
    · rw [stays]
    · rw [queued, idle]
      simp
  · rw [unit_request_other same]

/-- R172: nor does a hold binding. -/
theorem followLit_faulted {u v : State} {e : DriverNo} :
    ((unit (followLit u v e s) d).phase = .faulted) = ((unit s d).phase = .faulted) := by
  have released : ((unit (releaseHold e s) d).phase = .faulted) = ((unit s d).phase = .faulted) := by
    have own : unit (releaseHold e s) d = if d = e then released s e else unit s d :=
      (congrArg (fun c : DriverCtl => c.units.get d) (releaseHold_drivers e s)).trans (Tab.get_set _ _ _ _)
    rw [own]
    split
    · rename_i same
      subst same
      unfold Machine.released
      by_cases holds : (unit s d).phase = .holding
      · rw [if_pos holds, holds]
        split
        · dsimp only
          split <;> simp
        · simp
      · rw [if_neg holds]
    · rfl
  unfold followLit requestHold
  split
  · rfl
  · split
    · rfl
    · split
      · split
        · rfl
        · exact request_faulted
      · exact released

/-- R172: nor does a change of the feature table. -/
@[simp] theorem setFeatures_faulted {p : Resting → Bool} {r : Resting} {fs : List FeatureNo} :
    ((unit (setFeatures p r fs s) d).phase = .faulted) = ((unit s d).phase = .faulted) :=
  foldl_keeps (fun s => (unit s d).phase = .faulted) _ (fun t f => by
    split
    · exact changeLit_keeps (fun s => (unit s d).phase = .faulted) (fun _ _ _ _ => followLit_faulted) _ t
    · rfl) fs s

/-! ## The reset and its end (R33 to R37) -/

/-- R33, R36: the reset is requested; a FAULTED driver faults the bank. -/
theorem askReset_eq (h : c.resetDriver = some d) : askReset b c s =
    if (unit s d).phase = .faulted then faultBank b c s else request d .reset 100 (.bank b) s := by
  unfold askReset
  rw [h]
  dsimp only
  simp only [answer_faulted_iff]

/-- R36: what a bank that becomes FAULTED changes. -/
theorem faultBank_eq : faultBank b c s = { s with
    control := { s.control with flags := { s.control.flags with ejector := true } }
    rules := { s.rules with
      features := featuresAfter (fun _ => true) .off (memberFeatures s c) s
      banks := s.rules.banks.set b { bank s b with phase := .faulted, timer := none } }
    drivers := (faultBank b c s).drivers } := setFeatures_eq

/-- R35, R37: which resting states a confirm turns DARK. -/
def confirms (restart : Bool) (r : Resting) : Bool := r == .held || (restart && r == .off)

/-- R35, R37: what a bank that is confirmed changes. -/
theorem confirmBank_eq : confirmBank b c s = { s with
    rules := { s.rules with
      features := featuresAfter (confirms (bank s b).restart) .dark (memberFeatures s c) s
      banks := s.rules.banks.set b bankReset }
    drivers := (confirmBank b c s).drivers } :=
  setFeatures_eq (p := confirms (bank s b).restart) (fs := memberFeatures s c) (s := putBank b bankReset s)

/-- R172: with one driver at most bound to its member features, the drivers follow a bank's confirm. -/
theorem confirmBank_follows
    (one : ∀ d e, (driverCfg s d).binding.any (· ∈ memberFeatures s c) = true →
      (driverCfg s e).binding.any (· ∈ memberFeatures s c) = true → d = e) :
    holdsFollow s { s with rules := (confirmBank b c s).rules } (confirmBank b c s).drivers := by
  have stable : confirms (bank s b).restart .dark = false := by simp [confirms]
  have follows : holdsFollow (putBank b bankReset s) _ (confirmBank b c s).drivers :=
    setFeatures_follows (s := putBank b bankReset s) stable one
  have rules : { s with rules := (confirmBank b c s).rules } =
      (putBank b bankReset s).withFeatures
        (featuresAfter (confirms (bank s b).restart) .dark (memberFeatures s c) (putBank b bankReset s)) := by
    rw [confirmBank_eq]
    rfl
  rw [rules]
  exact holdsFollow_from (fun _ _ _ => rfl) follows

/-- R33, R34: the member features of a DROP bank turned HELD. -/
def heldMembers (c : BankCfg) (s : State) : State := setFeatures (fun _ => true) .held (memberFeatures s c) s

/-- R33, R34: a DROP bank that completes. -/
theorem dropCompletes_eq (h : c.resetDriver = some d) : dropCompletes b c s =
    if (unit s d).phase = .faulted then
      faultBank b c (putBank b { phase := .resetting, attempt := 1, timer := none, restart := false } (heldMembers c s))
    else request d .reset 100 (.bank b)
      (putBank b { phase := .resetting, attempt := 1, timer := none, restart := false } (heldMembers c s)) := by
  have same : ((unit (putBank b { phase := .resetting, attempt := 1, timer := none, restart := false }
      (heldMembers c s)) d).phase = .faulted) = ((unit s d).phase = .faulted) := by
    rw [unit_putBank]
    exact setFeatures_faulted
  refine (askReset_eq h).trans ?_
  exact if_congr (iff_of_eq same) rfl rfl

end

end Sys2Proof.Machine

end

