-- ==== Sys2Proof/Proofs/PulseStarts.lean ====
section
/-! SUPPORT. Pulses that start (R170, R171), the waiting list asking again (R169), and the starts reported. -/

namespace Sys2Proof.Machine

/-! ## The starts (R171) -/

/-- R171: driver `d` once the pulses of `starts` have started. -/
def startedUnit (starts : List PulseEntry) (s : State) (d : DriverNo) : DriverState :=
  match starts.find? fun e => e.driver == d with
  | some e => { unit s d with
      phase := .pulsing, requesters := e.requesters
      onTime := min 255 ((driverCfg s d).onTime * e.percent / 100) }
  | none => unit s d

/-- R169, R171: the pulses of `starts` started, the waiting list emptied. -/
def fired (starts : List PulseEntry) (s : State) : State :=
  { s with drivers := {
      units := .ofFn (startedUnit starts s)
      queue := s.drivers.queue.filter fun e => !starts.any fun x => x.driver == e.driver
      waiting := [] } }

/-- R171: one pulse after another. -/
theorem foldl_energize (starts : List PulseEntry) (once : (starts.map (·.driver)).Nodup) (s : State) :
    starts.foldl (fun t e => energize e t) s =
      { fired starts s with drivers := { (fired starts s).drivers with waiting := s.drivers.waiting } } := by
  induction starts generalizing s with
  | nil =>
    have units : s.drivers.units = .ofFn (startedUnit [] s) := Tab.ext_get fun d => (Tab.get_ofFn _ d).symm
    have queue : s.drivers.queue = s.drivers.queue.filter fun e =>
        !([] : List PulseEntry).any fun x => x.driver == e.driver := by
      simp
    unfold fired
    rw [← units, ← queue]
    rfl
  | cons e rest ih =>
    rw [List.map_cons, List.nodup_cons] at once
    obtain ⟨fresh, once⟩ := once
    rw [List.foldl_cons, ih once]
    have unit_energize (d : DriverNo) : unit (energize e s) d = if d = e.driver then
        { unit s d with phase := .pulsing, requesters := e.requesters
                        onTime := min 255 ((driverCfg s d).onTime * e.percent / 100) } else unit s d := by
      refine unit_mapUnit.trans ?_
      split
      · rename_i same
        rw [same]
        rfl
      · rfl
    have units : startedUnit rest (energize e s) = startedUnit (e :: rest) s := by
      funext d
      unfold startedUnit
      rw [unit_energize, List.find?_cons]
      by_cases same : d = e.driver
      · subst same
        have absent : rest.find? (fun x => x.driver == e.driver) = none :=
          List.find?_eq_none.mpr fun x hx hd => fresh (List.mem_map.mpr ⟨x, hx, beq_iff_eq.mp hd⟩)
        simp [absent]
      · have ne : (e.driver == d) = false := beq_false_of_ne fun h => same h.symm
        simp only [if_neg same, ne]
        rfl
    have queue : (energize e s).drivers.queue.filter (fun x => !rest.any fun y => y.driver == x.driver) =
        s.drivers.queue.filter fun x => !(e :: rest).any fun y => y.driver == x.driver := by
      change (s.drivers.queue.filter fun x => x.driver != e.driver).filter _ = _
      rw [List.filter_filter]
      refine List.filter_congr fun x _ => ?_
      rw [List.any_cons, Bool.not_or, Bool.and_comm, bne, Bool.beq_comm]
    unfold fired
    rw [units, queue]
    rfl

/-! ## The starts reported (R118, R140) -/

/-- R118, R140: the pockets and the Trough Controller of `s` once the start of a pulse is reported to `told`. -/
def startsTold (told : List Requester) (s : State) : State :=
  { s with
    pockets := { s.pockets with
      pockets := .ofFn fun p => if .pocket p ∈ told ∧ (pocket s p).phase = .ejectWait then
        { pocket s p with phase := .ejecting, window := some 400 } else pocket s p }
    trough := if .trough ∈ told ∧ s.trough.phase = .serveWait then
        { s.trough with phase := .serving, window := some 1000 }
      else s.trough }

/-- A pocket once the starts are reported. -/
theorem pocket_startsTold (told : List Requester) (s : State) (p : PocketNo) : pocket (startsTold told s) p =
    if .pocket p ∈ told ∧ (pocket s p).phase = .ejectWait then
      { pocket s p with phase := .ejecting, window := some 400 } else pocket s p := Tab.get_ofFn _ p

/-- A state whose pockets and Trough Controller are those of the starts reported. -/
theorem eq_startsTold {told : List Requester} {s : State} {k : PocketCtl} {t : TroughCtl}
    (release : k.release = s.pockets.release) (turn : k.turn = s.pockets.turn)
    (pockets : ∀ p, k.pockets.get p = pocket (startsTold told s) p) (trough : t = (startsTold told s).trough) :
    { s with pockets := k, trough := t } = startsTold told s := by
  have same : k.pockets = (startsTold told s).pockets.pockets := Tab.ext_get pockets
  cases k
  simp only at release turn same
  rw [release, turn, same, trough]
  rfl

/-- R118, R140: the start reported to one requester. -/
theorem pulseStarted_eq (r : Requester) (s : State) : pulseStarted r s = startsTold [r] s := by
  have idle (h : ∀ p, r ≠ .pocket p) (h' : r ≠ .trough) : s = startsTold [r] s := by
    refine eq_startsTold (k := s.pockets) (t := s.trough) rfl rfl (fun p => ?_) ?_
    · rw [pocket_startsTold, if_neg fun e => h p (List.mem_singleton.mp e.1).symm]
      rfl
    · exact (if_neg fun e => h' (List.mem_singleton.mp e.1).symm).symm
  cases r with
  | pocket q =>
    unfold pulseStarted
    dsimp only
    split
    · rename_i waits
      refine eq_startsTold (k := (putPocket q _ s).pockets) (t := s.trough) rfl rfl (fun p => ?_) ?_
      · rw [pocket_startsTold]
        refine (Tab.get_set _ _ _ _).trans ?_
        by_cases same : p = q
        · subst same
          rw [if_pos rfl, if_pos ⟨List.mem_singleton_self _, waits⟩]
          rfl
        · rw [if_neg same, if_neg (by simp [same])]
          rfl
      · simp [startsTold]
    · rename_i waits
      refine eq_startsTold (k := s.pockets) (t := s.trough) rfl rfl (fun p => ?_) ?_
      · rw [pocket_startsTold, if_neg]
        · rfl
        · rintro ⟨member, waits'⟩
          simp only [List.mem_singleton, Requester.pocket.injEq] at member
          exact waits (member ▸ waits')
      · simp [startsTold]
  | trough =>
    unfold pulseStarted
    dsimp only
    split
    · rename_i waits
      refine eq_startsTold (k := s.pockets) rfl rfl (fun p => ?_) ?_
      · rw [pocket_startsTold, if_neg (by simp)]
        rfl
      · exact (if_pos ⟨List.mem_singleton_self _, waits⟩).symm
    · rename_i waits
      refine eq_startsTold (k := s.pockets) (t := s.trough) rfl rfl (fun p => ?_) ?_
      · rw [pocket_startsTold, if_neg (by simp)]
        rfl
      · exact (if_neg fun e => waits e.2).symm
  | rule | bank | search | fire | hold => exact idle (by simp) (by simp)

/-- R118, R140: starts reported to some, then to more: who has left its waiting state takes no second report. -/
theorem startsTold_startsTold (told more : List Requester) (s : State) :
    startsTold more (startsTold told s) = startsTold (told ++ more) s := by
  refine eq_startsTold (s := s) (k := (startsTold more (startsTold told s)).pockets)
    (t := (startsTold more (startsTold told s)).trough) rfl rfl (fun p => ?_) ?_
  · refine (pocket_startsTold more (startsTold told s) p).trans ?_
    rw [pocket_startsTold, pocket_startsTold]
    by_cases waits : (pocket s p).phase = .ejectWait <;> by_cases first : Requester.pocket p ∈ told <;>
      simp [waits, first]
  · unfold startsTold
    dsimp only
    by_cases waits : s.trough.phase = .serveWait <;> by_cases first : Requester.trough ∈ told <;> simp [waits, first]

/-- R118, R140: one requester after another. -/
theorem foldl_pulseStarted (told : List Requester) (s : State) :
    told.foldl (fun t r => pulseStarted r t) s = startsTold told s := by
  induction told generalizing s with
  | nil =>
    exact eq_startsTold (k := s.pockets) (t := s.trough) rfl rfl (fun p => by simp [pocket_startsTold]; rfl)
      (by simp [startsTold])
  | cons r rest ih => rw [List.foldl_cons, ih, pulseStarted_eq, startsTold_startsTold, List.singleton_append]

/-- R170, R171: the pulses that start, the waiting list told, the starts reported. -/
theorem startPulses_eq {s : State} (once : (s.drivers.queue.map (·.driver)).Nodup) (some : startable s ≠ []) :
    startPulses s = startsTold ((startable s).flatMap (·.requesters))
      (s.drivers.waiting.foldl (fun t r => askAgain r t) (fired (startable s) s)) := by
  have sub : (startable s).Sublist s.drivers.queue := by
    unfold startable
    split
    · exact (List.take_sublist _ _).trans List.filter_sublist
    · exact List.nil_sublist _
  have told : startPulses s = (startable s).foldl (fun t e => e.requesters.foldl (fun t r => pulseStarted r t) t)
      (tellWaiting ((startable s).foldl (fun t e => energize e t) s)) := by
    unfold startPulses
    split
    · rename_i none
      exact absurd none some
    · rfl
  rw [told, foldl_energize _ ((sub.map _).nodup once), ← List.foldl_flatMap, foldl_pulseStarted]
  rfl

/-- R170: with none that can start nothing changes. -/
theorem startPulses_none {s : State} (h : startable s = []) : startPulses s = s := by
  unfold startPulses
  rw [h]

/-! ## Asking again (R169) -/

/-- R121: a pocket that jams is JAMMED, and EJECTOR is set. -/
theorem jamPocket_jams (p : PocketNo) (s : State) :
    (pocket (jamPocket p s) p).phase = .jammed ∧ (jamPocket p s).control.flags.ejector = true := by
  have pockets : (setFlag .ejector (offerLock lockJammed 0 p (countPocket p PocketState.jammed s))).pockets =
      (mapPocket p PocketState.jammed s).pockets := by simp [countPocket]
  refine ⟨?_, rfl⟩
  have kept (t : State) : (passTurn p t).pockets.pockets = t.pockets.pockets := by
    unfold passTurn
    rw [State.mapPockets_pockets]
    split <;> rfl
  unfold jamPocket pocket
  rw [kept, pockets]
  exact congrArg PocketState.phase (Tab.get_modify_self _ p _)

/-- R117: an eject asked for; a FAULTED driver jams the pocket. -/
theorem askEject_eq (p : PocketNo) (c : PocketCfg) (s : State) : askEject p c s =
    if (unit s c.driver).phase = .faulted then jamPocket p s
    else request c.driver .eject (attemptPercent (pocket s p).attempt) (.pocket p) s := by
  unfold askEject
  simp only [answer_faulted_iff]

/-- R140, R141: a serve asked for at the trough eject driver; a FAULTED one fails it. -/
theorem askServe_eq {d : DriverNo} {s : State} (h : troughDriver s = some d) : askServe s =
    if (unit s d).phase = .faulted then failServe s
    else request d .eject (attemptPercent s.trough.attempt) .trough s := by
  unfold askServe
  rw [h]
  dsimp only
  simp only [answer_faulted_iff]

/-- R172: a hold binding asks while its feature is effectively LIT and its spent mark clear. -/
theorem askAgain_hold {d : DriverNo} {s : State} : askAgain (.hold d) s =
    if (∃ f, (driverCfg s d).binding = some f ∧ effective s f = .lit) ∧ (unit s d).spent = false then
      request d .eject 100 (.hold d) s
    else s := by
  unfold askAgain isLit requestHold
  cases bound : (driverCfg s d).binding with
  | none => simp [bound]
  | some f => by_cases lit : effective s f = .lit <;> cases spent : (unit s d).spent <;> simp [bound, lit, spent]

/-- R36: a bank that becomes FAULTED is so, and EJECTOR is set. -/
theorem faultBank_faults (b : BankNo) (c : BankCfg) (s : State) :
    (bank (faultBank b c s) b).phase = .faulted ∧ (faultBank b c s).control.flags.ejector = true := by
  rw [faultBank_eq]
  exact ⟨congrArg BankState.phase (Tab.get_set_self _ b _), rfl⟩

/-- Settles O56: the starts by `startPulses_eq`, asking again by the requester. -/
theorem pulsesStartInQueueOrder : Obligations.PulsesStartInQueueOrder := by
  refine ⟨fun s within => ⟨fun none => settles_exec rfl (startPulses_none none), fun low => ?low, fun ok => ?starts⟩,
    fun s => ⟨fun p c fitted => ?pocket, ?trough, fun b c d configured reset => ?bank, fun d => ?hold⟩⟩
  case low => exact settles_exec rfl (startPulses_none (if_neg (by simp [low])))
  case starts =>
    obtain ⟨-, once, -⟩ := within
    intro ready starts fired' told some
    have these : startable s = starts := if_pos ok
    have left := startPulses_eq once (these ▸ some)
    rw [these] at left
    have here : told = s.drivers.waiting.foldl (fun t r => askAgain r t) (fired starts s) := rfl
    rw [← here] at left
    clear_value told
    have mem (r : Requester) : r ∈ starts.flatMap (·.requesters) ↔ ∃ e ∈ starts, r ∈ e.requesters := List.mem_flatMap
    have same : (finish (startPulses s)).pockets.pockets =
        (startsTold (starts.flatMap (·.requesters)) told).pockets.pockets ∧
          (finish (startPulses s)).trough = (startsTold (starts.flatMap (·.requesters)) told).trough := by
      rw [left]
      simp
    refine ⟨finish (startPulses s), rfl, fun p => ?_, ?_, ?_⟩
    · unfold pocket
      rw [same.1]
      refine (pocket_startsTold _ told p).trans ?_
      simp only [mem]
      rfl
    · rw [same.2]
      unfold startsTold
      simp only [mem]
    · rw [same.1, same.2]
      exact settles_of_eq left
  case pocket =>
    have asks : askAgain (.pocket p) s = if (pocket s p).phase = .ejectWait then askEject p c s else s := by
      unfold askAgain
      dsimp only
      rw [fitted]
    rw [asks, askEject_eq]
    exact ⟨fun other => if_neg other, fun waits works => by rw [if_pos waits, if_neg works]; rfl,
      fun waits faulted => by rw [if_pos waits, if_pos faulted]; exact jamPocket_jams p s⟩
  case trough =>
    have asks : askAgain .trough s = if s.trough.phase = .serveWait then askServe s else s := rfl
    rw [asks]
    exact ⟨fun other => if_neg other,
      fun d waits eject works => by rw [if_pos waits, askServe_eq eject, if_neg works]; rfl,
      fun d waits eject faulted => by rw [if_pos waits, askServe_eq eject, if_pos faulted]; exact ⟨rfl, rfl, rfl⟩⟩
  case bank =>
    have asks : askAgain (.bank b) s = if (bank s b).phase = .resetting then askReset b c s else s := by
      unfold askAgain
      dsimp only
      rw [configured]
    rw [asks, askReset_eq reset]
    exact ⟨fun other => if_neg other, fun resets works => by rw [if_pos resets, if_neg works],
      fun resets faulted => by rw [if_pos resets, if_pos faulted]; exact faultBank_faults b c s⟩
  case hold =>
    rw [askAgain_hold]
    refine ⟨fun lit clear => if_pos ⟨lit, clear⟩, fun rests => if_neg ?_⟩
    rintro ⟨lit, clear⟩
    rcases rests with dark | spent
    · exact dark lit
    · exact Bool.noConfusion (clear.symm.trans spent)

end Sys2Proof.Machine

end

