-- ==== Sys2Proof/Proofs/BankConfirms.lean ====
section
/-! SUPPORT. A bank in its confirm window: its timer (R36), and a scan at which members open (R32, R35). -/

namespace Sys2Proof.Machine

/-! ## The confirm timer (R36) -/

section
variable {b : BankNo} {c : BankCfg} {s : State}

/-- R36: the confirm timer of a configured bank. -/
theorem bankTimerExpires_eq (h : bankCfg s b = some c) : bankTimerExpires b s =
    if (bank s b).phase = .resetting ∧ (bank s b).timer.isSome = true then
      if membersOpen s c = true then confirmBank b c s
      else if (bank s b).attempt < 2 then
        askReset b c (putBank b { bank s b with attempt := 2, timer := none } s)
      else faultBank b c s
    else s := by
  unfold bankTimerExpires
  rw [h]
  rfl

/-- R36: what stands after a bank, given the state `x` before, has become FAULTED. -/
theorem finish_faultBank (x : BankState) :
    let t := finish (faultBank b c (putBank b x s))
    (bank t b).phase = .faulted ∧ (bank t b).timer = none ∧ t.control.flags.ejector = true ∧
      (∀ f ∈ memberFeatures s c, resting t f = .off) ∧ (∀ f, f ∉ memberFeatures s c → resting t f = resting s f) ∧
      (∀ k, k ≠ b → bank t k = bank s k) ∧ t.rules.marks = s.rules.marks ∧ t.rules.tallies = s.rules.tallies := by
  intro t
  have control : t.control.flags = (faultBank b c (putBank b x s)).control.flags := by rw [finish_control]
  have rules : t.rules = (faultBank b c (putBank b x s)).rules := (finish_frame _).2.2.2.1
  have bank_eq (k : BankNo) : bank t k = if k = b then { x with phase := .faulted, timer := none } else bank s k := by
    unfold bank
    rw [rules, faultBank_eq, bank_putBank, if_pos rfl]
    refine (Tab.get_set _ _ _ _).trans ?_
    split
    · rfl
    · rename_i other
      exact (bank_putBank x).trans (if_neg other)
  have resting_eq (f : FeatureNo) : resting t f = if f ∈ memberFeatures s c then .off else resting s f := by
    unfold resting
    rw [rules, faultBank_eq]
    refine (get_featuresAfter f).trans ?_
    simp only [and_true]
    rfl
  refine ⟨by rw [bank_eq, if_pos rfl], by rw [bank_eq, if_pos rfl], ?_, fun f hf => by rw [resting_eq, if_pos hf],
    fun f hf => by rw [resting_eq, if_neg hf], fun k hk => by rw [bank_eq, if_neg hk], ?_, ?_⟩
  · rw [control, faultBank_eq]
  · rw [rules, faultBank_eq]
    rfl
  · rw [rules, faultBank_eq]
    rfl

/-- R35, R37: what stands after a bank is confirmed. -/
theorem resting_confirmBank (f : FeatureNo) : resting (confirmBank b c s) f =
    if f ∈ memberFeatures s c ∧ (resting s f = .held ∨ (bank s b).restart = true ∧ resting s f = .off) then .dark
    else resting s f := by
  rw [confirmBank_eq]
  refine (get_featuresAfter f).trans ?_
  simp only [confirms, Bool.or_eq_true, Bool.and_eq_true, beq_iff_eq]

end

/-! ## A scan at which members open (R32, R35) -/

section
variable {s u : State} {i : SwitchNo}

/-- R32: switch `i` is a member of a DROP bank that opens, if it changes state at all. -/
def opensOnly (s : State) (i : SwitchNo) : Prop :=
  changes s i = true → (debounced s i).closed = false ∧ (ruleOf s i).cls = .bankMember ∧
    ∃ k : BankNo, (ruleOf s i).index = k.val ∧ (bankCfg s k).any BankCfg.isDrop = true

/-- R5, R147: the opening restarts the quiet timer. -/
def stirsOpening (s : State) (i : SwitchNo) : Bool :=
  changes s i && (ruleOf s i).activity && !(s.scanner.switches.get i).stuck

/-- The state with the marks as `marks`. -/
def State.withMarks (marks : Tab 64 Bool) (s : State) : State := { s with rules := { s.rules with marks := marks } }

/-- R32: a DROP member that opens loses its mark. -/
theorem dropMark_opens {b : BankNo} {c : BankCfg} (cls : (ruleOf s i).cls = .bankMember)
    (index : (ruleOf s i).index = b.val) (cfg : bankCfg s b = some c) (drop : c.isDrop = true) :
    dropMark i false s = setMark i false s := by
  unfold dropMark
  dsimp only
  rw [if_pos cls, fourOf_eq_some.mpr index]
  dsimp only
  rw [cfg]
  dsimp only
  rw [if_pos drop]
  rfl

/-- R5, R32, R147: all that an opening member does at a scan completion. -/
theorem deliverChange_opens (h : opensOnly s i) (setup : u.control.setup = s.control.setup) :
    deliverChange s (scanWith debounced s) i u =
      (u.withMarks (if changes s i then u.rules.marks.set i false else u.rules.marks)).stirredBy
        (inGame s && stirsOpening s i) false := by
  cases event : changes s i with
  | false =>
    have quiet : stirsOpening s i = false := by simp [stirsOpening, event]
    rw [deliverChange_stays (by simp [event]), quiet]
    simp [State.stirredBy, TroughCtl.restartedIf, State.withMarks]
  | true =>
    obtain ⟨opens, cls, b, index, drop⟩ := h event
    cases cfg : bankCfg s b with
    | none => simp [cfg] at drop
    | some c =>
      have cls' : (ruleOf u i).cls = .bankMember := by rw [ruleOf_of_setup setup, cls]
      have mark : ruleTakes i false u = setMark i false u := by
        have silent : ruleTakes i false u = dropMark i false u := rfl
        rw [silent]
        refine dropMark_opens cls' ?_ ?_ ?_ (b := b) (c := c)
        · rw [ruleOf_of_setup setup, index]
        · rw [bankCfg_of_setup setup, cfg]
        · simpa [cfg] using drop
      rw [deliverChange_delivers event (by rw [cls]; decide), opens, deliver_eq mark (by rw [cls']; decide), activityOf,
        ruleOf_of_setup setup, inGame_of_setup setup, cls, if_pos rfl, stirsOpening, event]
      simp only [Bool.not_false, Bool.true_and, Bool.and_comm]
      rfl

/-- The marks once the switches of `l` that change have lost theirs. -/
def marksLeft (s : State) (l : List SwitchNo) (marks : Tab 64 Bool) : Tab 64 Bool :=
  l.foldl (fun m i => if changes s i then m.set i false else m) marks

/-- A mark that is left. -/
theorem get_marksLeft (l : List SwitchNo) (marks : Tab 64 Bool) (k : SwitchNo) :
    (marksLeft s l marks).get k = (marks.get k && !(decide (k ∈ l) && changes s k)) := by
  induction l generalizing marks with
  | nil => simp [marksLeft]
  | cons i l ih =>
    change (marksLeft s l (if changes s i then marks.set i false else marks)).get k = _
    rw [ih]
    by_cases same : k = i
    · subst same
      cases event : changes s k <;> simp
    · have kept : (if changes s i then marks.set i false else marks).get k = marks.get k := by
        split
        · exact Tab.get_set_other _ _ same
        · rfl
      rw [kept]
      simp [same]

/-- R5, R32, R147: the state after the events of a scan completion at which nothing changes but members that open. -/
def afterOpenings (s : State) : State :=
  ((scanWith debounced s).withMarks (marksLeft s (List.finRange 64) s.rules.marks)).stirredBy
    (inGame s && (List.finRange 64).any (stirsOpening s)) false

/-- R5: the events of such a scan. -/
theorem eachUp_deliverChange_opens (h : ∀ i, opensOnly s i) :
    eachUp 64 (deliverChange s (scanWith debounced s)) (scanWith debounced s) = afterOpenings s := by
  have events (l : List SwitchNo) (u : State) (setup : u.control.setup = s.control.setup) :
      l.foldl (fun t i => deliverChange s (scanWith debounced s) i t) u =
        (u.withMarks (marksLeft s l u.rules.marks)).stirredBy (inGame s && l.any (stirsOpening s)) false := by
    induction l generalizing u with
    | nil => simp [State.stirredBy, TroughCtl.restartedIf, State.withMarks, marksLeft]
    | cons i l ih =>
      rw [List.foldl_cons, ih _ ((deliverChange_setup _ _ _ _).trans setup), deliverChange_opens (h i) setup,
        List.any_cons, Bool.and_or_distrib_left]
      exact stirredBy_stirredBy _ _ _ _ (u.withMarks _)
  exact events _ (scanWith debounced s) rfl

/-- R35: the confirm judged at a scan completion, for a bank inside its window. -/
theorem confirmAtScan_inWindow {b : BankNo} {c : BankCfg} {u : State} (cfg : bankCfg u b = some c)
    (phase : (bank u b).phase = .resetting) (timer : (bank u b).timer.isSome = true) :
    confirmAtScan b u = if membersOpen u c = true then confirmBank b c u else u := by
  unfold confirmAtScan
  rw [cfg]
  dsimp only
  simp only [phase, timer, true_and]

/-- R32, R35, R147: such a scan completion inside the window of bank `b` alone. -/
theorem completeScan_opens {b : BankNo} {c : BankCfg} (cfg : bankCfg s b = some c) (hr : s.scanner.running = true)
    (he : s.scanner.scanEnd = true) (hb : s.scanner.baseline = true) (opens : ∀ i, opensOnly s i)
    (others : ∀ k, k ≠ b → (bank s k).timer = none) (phase : (bank s b).phase = .resetting)
    (timer : (bank s b).timer.isSome = true) :
    completeScan s = if membersOpen (afterOpenings s) c = true then confirmBank b c (afterOpenings s)
      else afterOpenings s := by
  rw [completeScan_later hr he hb, eachUp_deliverChange_opens opens,
    ← confirmAtScan_inWindow (u := afterOpenings s) cfg phase timer]
  refine eachUp_only (fun v => ∀ k, k ≠ b → (bank v k).timer = none) confirmAtScan b others (fun k hk => ?_)
    fun k hk v calm => confirmAtScan_stays (calm k hk)
  rw [confirmAtScan_inWindow (u := afterOpenings s) cfg phase timer]
  split
  · rw [confirmBank_eq]
    exact (congrArg BankState.timer (Tab.get_set_other _ _ hk)).trans (others k hk)
  · exact others k hk

end

/-- Settles O32: the timer by `bankTimerExpires_eq`, the scan by `completeScan_opens`. -/
theorem aBankIsConfirmedOrFaulted : Obligations.ABankIsConfirmedOrFaulted := by
  refine ⟨fun b c d s cfg reset => ?timer, fun b c s cfg hr he hb game opens others phase timer => ?scan⟩
  case timer =>
    intro retried
    have expires := bankTimerExpires_eq cfg
    refine ⟨fun phase timer closed => ⟨fun first works => ?again, fun fails => ?fault⟩,
      fun phase timer opened => ?confirm, fun off => ?stopped⟩
    case again =>
      rw [if_pos ⟨phase, timer⟩, if_neg (by simp [closed]), if_pos (by omega), askReset_eq reset, unit_putBank,
        if_neg works] at expires
      exact settles_exec rfl expires
    case fault =>
      have faults : ∃ x, bankTimerExpires b s = faultBank b c (putBank b x s) := by
        rw [expires, if_pos ⟨phase, timer⟩, if_neg (by simp [closed])]
        rcases fails with second | ⟨faulted, first⟩
        · refine ⟨bank s b, ?_⟩
          rw [if_neg (by omega)]
          unfold putBank bank
          rw [Tab.set_get]
        · refine ⟨{ bank s b with attempt := 2, timer := none }, ?_⟩
          rw [if_pos (by omega), askReset_eq reset, unit_putBank, if_pos faulted]
      obtain ⟨x, faults⟩ := faults
      obtain ⟨isFaulted, stopped, ejector, off, kept, others, marks, tallies⟩ :=
        finish_faultBank (b := b) (c := c) (s := s) x
      rw [← faults] at isFaulted stopped ejector off kept others marks tallies
      obtain ⟨-, scanner, -, modes, pockets, balls, -, -, peers, -⟩ := faultBank_frame b c (putBank b x s)
      rw [← faults] at scanner modes pockets balls peers
      obtain ⟨-, fScanner, -, -, fModes, fPockets, fBalls, -, fPeers, -⟩ := finish_frame (bankTimerExpires b s)
      exact ⟨_, rfl, isFaulted, stopped, ejector, off, kept, others, marks, tallies, fPockets.trans pockets,
        fBalls.trans balls, fScanner.trans scanner, fModes.trans modes, fPeers.trans peers⟩
    case confirm =>
      rw [if_pos ⟨phase, timer⟩, if_pos opened] at expires
      obtain ⟨-, -, -, fRules, -, -, -, -, -, fDrivers⟩ := finish_frame (bankTimerExpires b s)
      rw [expires] at fRules fDrivers
      refine ⟨finish (bankTimerExpires b s), rfl, ?_⟩
      rw [expires]
      refine ⟨fun f => ?_, fun one => ?_, ?_⟩
      · rw [← resting_confirmBank]
        unfold resting
        rw [fRules]
      · rw [fRules, fDrivers]
        exact confirmBank_follows one
      · rw [fRules, fDrivers]
        refine settles_of_eq ?_
        rw [confirmBank_eq]
        rfl
    case stopped =>
      rw [if_neg] at expires
      · exact settles_exec rfl expires
      · rintro ⟨phase, timer⟩
        rcases off with off | off
        · exact off phase
        · rw [off] at timer
          cases timer
  case scan =>
    intro opened heard restart
    have opens : ∀ i, opensOnly s i := fun i event => opens i (bne_iff_ne.mp event)
    have opened_eq (i : SwitchNo) : opened i = changes s i := by
      cases event : changes s i with
      | false =>
        have same := bne_eq_false_iff_eq.mp event
        simp [opened, same]
      | true =>
        have differs := bne_iff_ne.mp event
        have closes := (opens i event).1
        rw [closes] at differs
        simpa [opened, closes] using differs.symm
    have after := completeScan_opens cfg hr he hb opens others phase timer
    have scanner : (finish (completeScan s)).scanner = (scanWith debounced s).scanner := by
      rw [(finish_frame _).2.1, completeScan_keeps State.scanner hr he hb (by simp) (by simp)]
    have marks : (finish (completeScan s)).rules.marks = marksLeft s (List.finRange 64) s.rules.marks := by
      rw [(finish_frame _).2.2.2.1, after]
      split
      · rw [confirmBank_eq]
        rfl
      · rfl
    have heard_eq (u : State) : heard u = { u with
        balls := if (List.finRange 64).any (stirsOpening s) then
            { u.balls with quiet := some (s.control.image.searchDelay * 1000), search := .idle, round := 0, todo := []
                           searchTimer := none }
          else u.balls } := by
      have stirs : (fun i => opened i && (ruleOf s i).activity && !(s.scanner.switches.get i).stuck) =
          stirsOpening s := funext fun i => by rw [opened_eq]; rfl
      unfold heard
      rw [stirs]
      cases (List.finRange 64).any (stirsOpening s) <;> rfl
    have openings : afterOpenings s = { s with
        scanner := (scanWith debounced s).scanner
        rules := { s.rules with marks := marksLeft s (List.finRange 64) s.rules.marks }
        balls := if (List.finRange 64).any (stirsOpening s) then
            { s.balls with quiet := some (s.control.image.searchDelay * 1000), search := .idle, round := 0, todo := []
                           searchTimer := none }
          else s.balls } := by
      unfold afterOpenings
      rw [game, Bool.true_and]
      rfl
    have members : membersOpen (afterOpenings s) c = c.members.all fun i => !(debounced s i).closed := by
      have read (i : SwitchNo) : (afterOpenings s).scanner.switches.get i = debounced s i := Tab.get_ofFn _ i
      unfold membersOpen
      simp only [read]
    refine ⟨finish (completeScan s), rfl, fun i => ?_, fun waits => ?_, fun open_ => ?_⟩
    · rw [marks, get_marksLeft, opened_eq]
      simp
    · rw [scanner, marks, heard_eq]
      refine settles_of_eq ((after.trans (if_neg ?_)).trans openings)
      obtain ⟨i, member, closed⟩ := waits
      rw [members, List.all_eq_true]
      intro all
      simpa [closed] using all i member
    · rw [members, if_pos (List.all_eq_true.mpr fun i hi => by rw [open_ i hi]; rfl)] at after
      obtain ⟨-, -, -, fRules, -, -, -, -, -, fDrivers⟩ := finish_frame (completeScan s)
      refine ⟨fun f => ?_, fun one => ?_, ?_⟩
      · have read := resting_confirmBank (b := b) (c := c) (s := afterOpenings s) f
        rw [← after] at read
        unfold resting at read ⊢
        rw [fRules]
        exact read
      · have follows := confirmBank_follows (b := b) (c := c) (s := afterOpenings s) one
        rw [← after, ← fRules, ← fDrivers] at follows
        have control : (afterOpenings s).control = s.control := rfl
        have modes : (afterOpenings s).modes = s.modes := rfl
        have drivers : (afterOpenings s).drivers = s.drivers := rfl
        have same (f : FeatureNo) : resting (afterOpenings s) f = resting s f := rfl
        exact holdsFollow_withRules control modes drivers same follows
      · have confirmed := confirmBank_eq (b := b) (c := c) (s := afterOpenings s)
        rw [← after] at confirmed
        have features := congrArg (·.rules.features) confirmed
        rw [scanner, marks, fDrivers, fRules, heard_eq]
        refine settles_of_eq (confirmed.trans ?_)
        rw [openings] at features ⊢
        rw [features]
        rfl

end Sys2Proof.Machine

end

