-- ==== Sys2Proof/Proofs/HitsAndMarks.lean ====
section
/-! SUPPORT. The table of R21 said of any hit, marks and completions (R32 to R34), and a scan completion with one
event. -/

namespace Sys2Proof.Machine

/-! ## Completions (R33, R34) -/

section
variable {b k : BankNo} {c : BankCfg} {i : SwitchNo} {s t : State}

/-- R33, R36: asking for the reset changes no other bank. -/
theorem bank_askReset_other (h : k ≠ b) : bank (askReset b c s) k = bank s k := by
  unfold askReset
  split
  · rfl
  · split
    · rw [faultBank_eq]
      exact Tab.get_set_other _ _ h
    · exact congrArg (·.banks.get k) (request_frame _ _ _ _ _).2.2.2.1

/-- R33, R36: asking for the reset starts no confirm timer. -/
theorem bank_askReset_timer (h : (bank s b).timer = none) : (bank (askReset b c s) b).timer = none := by
  unfold askReset
  split
  · exact h
  · split
    · rw [faultBank_eq]
      exact congrArg BankState.timer (Tab.get_set_self _ _ _)
    · rw [show bank (request _ _ _ _ s) b = bank s b from congrArg (·.banks.get b) (request_frame _ _ _ _ _).2.2.2.1]
      exact h

/-- The features set leave the banks. -/
theorem heldMembers_bank : bank (heldMembers c s) k = bank s k := by
  unfold heldMembers
  rw [setFeatures_eq]
  rfl

/-- R33, R34: a DROP bank's completion changes no other bank. -/
theorem bank_dropCompletes_other (h : k ≠ b) : bank (dropCompletes b c s) k = bank s k := by
  refine (bank_askReset_other h).trans ?_
  rw [mapBank_eq, bank_putBank, if_neg h]
  exact heldMembers_bank

/-- R33, R34: a DROP bank's completion leaves its confirm timer stopped. -/
theorem bank_dropCompletes_timer : (bank (dropCompletes b c s) b).timer = none :=
  bank_askReset_timer (by rw [mapBank_eq, bank_putBank, if_pos rfl])

/-- R33: the marks once those of `l` are cleared. -/
theorem clearMarks_eq : clearMarks c s =
    { s with rules := { s.rules with marks := c.members.foldl (fun m j => m.set j false) s.rules.marks } } := by
  unfold clearMarks
  generalize c.members = l
  induction l generalizing s with
  | nil => rfl
  | cons j l ih => exact ih

/-- A mark, once those of `l` are cleared. -/
theorem get_foldl_clear (l : List SwitchNo) (marks : Tab 64 Bool) (j : SwitchNo) :
    (l.foldl (fun m j => m.set j false) marks).get j = if j ∈ l then false else marks.get j := by
  induction l generalizing marks with
  | nil => simp
  | cons x l ih =>
    rw [List.foldl_cons, ih, Tab.get_set]
    by_cases same : j = x <;> simp [same]

/-- R33, R34: what the member features turned HELD change of the Rule Engine. -/
theorem heldMembers_rules : (heldMembers c s).rules =
    { s.rules with features := featuresAfter (fun _ => true) .held (memberFeatures s c) s } := by
  unfold heldMembers
  rw [setFeatures_eq]
  rfl

/-- R36: member features that take OFF after they took HELD. -/
theorem featuresAfter_heldMembers : featuresAfter (fun _ => true) .off (memberFeatures (heldMembers c s) c)
    (heldMembers c s) = featuresAfter (fun _ => true) .off (memberFeatures s c) s := by
  have members : memberFeatures (heldMembers c s) c = memberFeatures s c := by
    unfold memberFeatures ruleOf heldMembers
    rw [setFeatures_control]
  refine Tab.ext_get fun f => ?_
  rw [members, get_featuresAfter, get_featuresAfter]
  by_cases member : f ∈ memberFeatures s c
  · rw [if_pos ⟨member, rfl⟩, if_pos ⟨member, rfl⟩]
  · rw [if_neg fun h => member h.1, if_neg fun h => member h.1]
    unfold heldMembers
    rw [resting_setFeatures, if_neg fun h => member h.1]

/-- R36: what a bank put, and then FAULTED, changes of the Rule Engine. -/
theorem faultBank_putBank_rules (x : BankState) : (faultBank b c (putBank b x s)).rules =
    { s.rules with
      features := featuresAfter (fun _ => true) .off (memberFeatures s c) s
      banks := s.rules.banks.set b { x with phase := .faulted, timer := none } } := by
  rw [faultBank_eq, bank_putBank, if_pos rfl]
  unfold putBank
  dsimp only
  rw [Tab.set_set]
  rfl

/-- R33, R34, R36: of the Rule Engine a DROP bank's completion changes its member features and the bank. -/
theorem dropCompletes_rules {d : DriverNo} (reset : c.resetDriver = some d) : (dropCompletes b c s).rules =
    { s.rules with
      features := featuresAfter (fun _ => true) (if (unit s d).phase = .faulted then .off else .held)
        (memberFeatures s c) s
      banks := s.rules.banks.set b { phase := if (unit s d).phase = .faulted then .faulted else .resetting
                                     attempt := 1, timer := none, restart := false } } := by
  rw [dropCompletes_eq reset]
  by_cases faulted : (unit s d).phase = .faulted
  · rw [if_pos faulted, if_pos faulted, if_pos faulted, faultBank_putBank_rules, featuresAfter_heldMembers,
      heldMembers_rules]
  · rw [if_neg faulted, if_neg faulted, if_neg faulted, (request_frame _ _ _ _ _).2.2.2.1]
    unfold putBank
    rw [heldMembers_rules]

/-- R36, R172: with no driver bound to its member features, a bank that becomes FAULTED leaves the drivers. -/
theorem faultBank_unbound (unbound : ∀ f ∈ memberFeatures s c, ∀ k, (driverCfg s k).binding ≠ some f) :
    faultBank b c s = { s with
      control := { s.control with flags := { s.control.flags with ejector := true } }
      rules := (faultBank b c s).rules } := by
  have stays : (faultBank b c s).drivers = s.drivers := setFeatures_drivers_stay
    (s := setFlag .ejector (mapBank b (fun k => { k with phase := .faulted, timer := none }) s))
    (fun f hf _ => unbound f hf) (.inr unbound)
  have faults := faultBank_eq (b := b) (c := c) (s := s)
  rw [stays] at faults
  rw [faults]

/-- R33, R34, R36, R172: with no driver bound to its member features, a DROP bank's completion and its request. -/
theorem dropCompletes_unbound {d : DriverNo} (reset : c.resetDriver = some d)
    (unbound : ∀ f ∈ memberFeatures s c, ∀ k, (driverCfg s k).binding ≠ some f) :
    dropCompletes b c s =
      let left : State := { s with rules := (dropCompletes b c s).rules }
      if (unit s d).phase = .faulted then
        { left with control := { s.control with flags := { s.control.flags with ejector := true } } }
      else request d .reset 100 (.bank b) left := by
  have held : heldMembers c s = s.withFeatures (featuresAfter (fun _ => true) .held (memberFeatures s c) s) :=
    setFeatures_unbound unbound
  have completes := dropCompletes_eq (b := b) (s := s) reset
  rw [held] at completes
  by_cases faulted : (unit s d).phase = .faulted
  · rw [if_pos faulted] at completes
    rw [if_pos faulted, completes]
    exact faultBank_unbound (s := putBank b _ (s.withFeatures _)) unbound
  · rw [if_neg faulted] at completes
    rw [if_neg faulted, completes, (request_frame _ _ _ _ _).2.2.2.1]
    rfl

/-! ## Marks (R32) -/

section
variable {act : Action → Fin 8 → State → State}

/-- R32: a mark is made once. -/
theorem markMember_marked (h : s.rules.marks.get i = true) : markMember act b c i s = s := if_pos h

/-- R32: a mark that completes no bank. -/
theorem markMember_unfinished (h : s.rules.marks.get i = false)
    (count : (bank s b).phase ≠ .counting ∨ markedCount (setMark i true s) c ≠ c.completion) :
    markMember act b c i s = setMark i true s := by
  unfold markMember
  rw [if_neg (by simp [h])]
  exact if_neg (not_and_or.mpr count)

/-- R32: a mark that completes a COUNTING bank. -/
theorem markMember_completes (h : s.rules.marks.get i = false) (counting : (bank s b).phase = .counting)
    (count : markedCount (setMark i true s) c = c.completion) : markMember act b c i s =
      if inPlay s = true then scoredCompletion act b c i (setMark i true s)
      else if inGame s = true ∧ c.isDrop = true then dropCompletes b c (setMark i true s)
      else setMark i true s := by
  unfold markMember
  rw [if_neg (by simp [h])]
  exact if_pos ⟨counting, count⟩

end

/-- R33: a completion that scores: the award, the bank's action, then the physical part or the marks cleared. -/
theorem scoredCompletion_eq {act : Action → Fin 8 → State → State} : scoredCompletion act b c i s =
    let paid := award s.rules.current c.value (ruleOf s i).group (.bank i) s
    let acted := match c.action with
      | none => paid
      | some a => act a (ruleOf s i).group paid
    if c.isDrop = true then dropCompletes b c acted else clearMarks c acted := by
  unfold scoredCompletion
  cases c.action <;> rfl

/-- The member features are a matter of the setup. -/
theorem memberFeatures_of_setup (h : t.control.setup = s.control.setup) : memberFeatures t c = memberFeatures s c := by
  unfold memberFeatures
  simp only [ruleOf_of_setup h]

/-- R33, R34, R36: the bank after a DROP bank's completion. -/
theorem bank_dropCompletes {d : DriverNo} (reset : c.resetDriver = some d) : bank (dropCompletes b c s) b =
    { phase := if (unit s d).phase = .faulted then .faulted else .resetting, attempt := 1, timer := none
      restart := false } := by
  unfold bank
  rw [dropCompletes_rules reset]
  exact Tab.get_set_self _ _ _

/-- The resting states after a DROP bank's completion. -/
theorem resting_dropCompletes {d : DriverNo} (reset : c.resetDriver = some d) (f : FeatureNo) :
    resting (dropCompletes b c s) f = if f ∈ memberFeatures s c then
      (if (unit s d).phase = .faulted then .off else .held) else resting s f := by
  unfold resting
  rw [dropCompletes_rules reset]
  refine (get_featuresAfter f).trans ?_
  simp only [and_true]
  rfl

/-! ## Confirm timers that no event starts (R35) -/

/-- No bank's confirm window runs. -/
def windowsShut (s : State) : Prop := ∀ b, (bank s b).timer = none

/-- What leaves the banks starts no confirm timer. -/
theorem windowsShut_of_banks (h : t.rules.banks = s.rules.banks) (shut : windowsShut s) : windowsShut t := fun b => by
  unfold bank
  rw [h]
  exact shut b

/-- R33, R34: no completion starts one. -/
theorem windowsShut_dropCompletes (shut : windowsShut s) : windowsShut (dropCompletes b c s) := fun k => by
  by_cases same : k = b
  · exact same ▸ bank_dropCompletes_timer
  · rw [bank_dropCompletes_other same]
    exact shut k

/-- R43 to R48: no award starts one. -/
theorem windowsShut_award {p : Player} {v : Nat} {g : Fin 8} {kind : Scoring} (shut : windowsShut s) :
    windowsShut (award p v g kind s) := windowsShut_of_banks (by rw [award_rules]) shut

/-- R21: no change of a feature starts one. -/
theorem windowsShut_setFeature {f : FeatureNo} {r : Resting} (shut : windowsShut s) :
    windowsShut (setFeature f r s) := windowsShut_of_banks (by rw [setFeature_rules]) shut

/-- No bulletin offered starts one. -/
theorem windowsShut_offer {x : Bulletin} (shut : windowsShut s) : windowsShut (offer x s) :=
  windowsShut_of_banks (by simp) shut

/-- R32 to R34: no mark starts one, where the bank's action does not. -/
theorem windowsShut_markMember {act : Action → Fin 8 → State → State}
    (acts : ∀ a g t, windowsShut t → windowsShut (act a g t)) (shut : windowsShut s) :
    windowsShut (markMember act b c i s) := by
  have made : windowsShut (setMark i true s) := shut
  have scored : windowsShut (scoredCompletion act b c i (setMark i true s)) := by
    have paid := windowsShut_award (p := s.rules.current) (v := c.value) (g := (ruleOf s i).group) (kind := .bank i)
      made
    have acted : windowsShut (match c.action with
        | some a => act a (ruleOf s i).group
            (award s.rules.current c.value (ruleOf s i).group (.bank i) (setMark i true s))
        | none => award s.rules.current c.value (ruleOf s i).group (.bank i) (setMark i true s)) := by
      split
      · exact acts _ _ _ paid
      · exact paid
    unfold scoredCompletion
    dsimp only
    split
    · exact windowsShut_dropCompletes acted
    · rw [clearMarks_eq]
      exact acted
  unfold markMember
  dsimp only
  split
  · exact shut
  · split
    · split
      · exact scored
      · split
        · exact windowsShut_dropCompletes made
        · exact made
    · exact made

/-- R24 to R27: no action starts one, but for one that may complete a bank. -/
theorem windowsShut_takeAction_plain (n : Nat) {a : Action} (plain : ∀ b, a ≠ .advanceBank b) (g : Fin 8)
    (shut : windowsShut s) : windowsShut (takeAction n a g s) := by
  cases a with
  | startMode | addJackpot | remoteFeature =>
    unfold takeAction
    exact windowsShut_offer shut
  | lightFeature f =>
    unfold takeAction lightFeature
    split
    · exact windowsShut_setFeature shut
    · exact windowsShut_setFeature shut
    · exact shut
  | collect m =>
    unfold takeAction collectAction
    split
    · exact shut
    · dsimp only
      split
      · exact windowsShut_of_banks (s := s) (by simp [State.mapRules]) shut
      · exact windowsShut_offer shut
  | advanceBank b => exact absurd rfl (plain b)

/-- R24 to R27, R32: nor does that one. -/
theorem windowsShut_takeAction (n : Nat) (a : Action) (g : Fin 8) (s : State) (shut : windowsShut s) :
    windowsShut (takeAction n a g s) := by
  induction n generalizing a g s with
  | zero =>
    cases a with
    | advanceBank => exact shut
    | _ => exact windowsShut_takeAction_plain 0 (by simp) g shut
  | succ n ih =>
    cases a with
    | advanceBank b =>
      unfold takeAction
      split
      · exact shut
      · split
        · exact shut
        · exact windowsShut_markMember ih shut
    | _ => exact windowsShut_takeAction_plain _ (by simp) g shut

/-- R24 to R27: no action starts one. -/
theorem windowsShut_doAction {a : Action} {g : Fin 8} (shut : windowsShut s) : windowsShut (doAction a g s) :=
  windowsShut_takeAction 5 a g s shut

end

/-! ## The player up -/

section
variable {b : BankNo} {c : BankCfg} {i : SwitchNo} {s : State}

/-- A DROP bank's completion leaves the current player. -/
theorem dropCompletes_current : (dropCompletes b c s).rules.current = s.rules.current := by
  have sets (p : Resting → Bool) (r : Resting) (fs : List FeatureNo) (t : State) :
      (setFeatures p r fs t).rules.current = t.rules.current := by
    rw [setFeatures_eq]
    rfl
  unfold dropCompletes beginReset askReset faultBank
  (repeat' split) <;> simp [sets, mapBank_eq, putBank]

/-- A mark leaves the current player where the bank's action does. -/
theorem markMember_current {act : Action → Fin 8 → State → State}
    (acts : ∀ a g t, (act a g t).rules.current = t.rules.current) :
    (markMember act b c i s).rules.current = s.rules.current := by
  have cleared (t : State) : (clearMarks c t).rules.current = t.rules.current := by rw [clearMarks_eq]
  have paid (t : State) : (match c.action with
      | some a => act a (ruleOf t i).group (award t.rules.current c.value (ruleOf t i).group (.bank i) t)
      | none => award t.rules.current c.value (ruleOf t i).group (.bank i) t).rules.current = t.rules.current := by
    split <;> simp [acts, award_rules]
  have scored : (scoredCompletion act b c i (setMark i true s)).rules.current = s.rules.current := by
    unfold scoredCompletion
    dsimp only
    split
    · exact dropCompletes_current.trans (paid _)
    · exact (cleared _).trans (paid _)
  unfold markMember
  dsimp only
  split
  · rfl
  · split
    · split
      · exact scored
      · split
        · exact dropCompletes_current
        · rfl
    · rfl

/-- R24 to R27: an action leaves the current player. -/
theorem takeAction_current (n : Nat) (a : Action) (g : Fin 8) (s : State) :
    (takeAction n a g s).rules.current = s.rules.current := by
  have collects (m : ModeId) (g : Fin 8) (t : State) : (collectAction m g t).rules.current = t.rules.current := by
    unfold collectAction
    dsimp only
    (repeat' split) <;> simp [State.mapRules]
  have lights (f : FeatureNo) (t : State) : (lightFeature f t).rules.current = t.rules.current := by
    unfold lightFeature
    split <;> simp [setFeature_rules]
  induction n generalizing a g s with
  | zero => cases a <;> simp [takeAction, collects, lights]
  | succ n ih =>
    cases a with
    | advanceBank =>
      unfold takeAction
      split
      · rfl
      · split
        · rfl
        · exact markMember_current ih
    | _ => simp [takeAction, collects, lights]

/-- R24 to R27: an action leaves the current player. -/
theorem doAction_current (a : Action) (g : Fin 8) (s : State) : (doAction a g s).rules.current = s.rules.current :=
  takeAction_current 5 a g s

end

/-! ## The table of R21 at any hit -/

section
variable {i : SwitchNo} {b : BankNo} {c : BankCfg} {keeps : Bool} {s u : State} {f : FeatureNo}

/-- R42 to R48: an award leaves every resting state. -/
theorem resting_award {p : Player} {v : Nat} {g : Fin 8} {kind : Scoring} :
    resting (award p v g kind u) f = resting u f := by
  unfold resting
  rw [award_rules]

/-- R18 to R23: a hit on no member of a DROP bank in RESETTING: the DIRECT pulse, the table, and, where a value was
handed, the STANDUP mark. -/
theorem hit_eq (free : memberResetting s (ruleOf s i) = false)
    (light : ∀ f, (ruleOf s i).feature = some f → isLockLight s (ruleOf s i) f = keeps) :
    hit i s =
      let hitten := hitByTable keeps i s (directPulse (ruleOf s i) s)
      if (hitValue s (ruleOf s i)).isSome = true then standupMark i (ruleOf s i) hitten else hitten := by
  have setup : (directPulse (ruleOf s i) s).control.setup = s.control.setup := directPulse_setup _ _
  obtain ⟨-, -, -, rules, modes, -⟩ := directPulse_frame (ruleOf s i) s
  have image : (directPulse (ruleOf s i) s).control.image = s.control.image := image_of_setup setup
  have effective_eq (f : FeatureNo) : effective (directPulse (ruleOf s i) s) f = effective s f :=
    effective_congr image modes (congrArg (·.features.get f) rules)
  have resting_eq (f : FeatureNo) : resting (directPulse (ruleOf s i) s) f = resting s f :=
    congrArg (·.features.get f) rules
  have free' : memberResetting (directPulse (ruleOf s i) s) (ruleOf s i) = false := by
    unfold memberResetting bank bankCfg at free ⊢
    rw [image, rules]
    exact free
  have light' (f : FeatureNo) : isLockLight (directPulse (ruleOf s i) s) (ruleOf s i) f =
      isLockLight s (ruleOf s i) f := by
    unfold isLockLight
    rw [image]
  unfold hit hitByTable
  dsimp only
  generalize directPulse (ruleOf s i) s = w at *
  unfold hitValue actionDue restingAfter isLit
  rw [free, free', rules]
  cases feature : (ruleOf s i).feature with
  | none => cases (ruleOf s i).action <;> rfl
  | some f =>
    have light := (light' f).trans (light f feature)
    simp only [Option.map_some, effective_eq, resting_eq, resting_award, light]
    cases state : effective s f with
    | off | held => rfl
    | dark => cases (ruleOf s i).action <;> simp
    | latent =>
      have rests : resting s f ≠ .lit := fun e => by
        rw [Sys2Proof.Machine.effective_eq, e] at state
        simp at state
      cases (ruleOf s i).action <;> simp [rests]
    | lit =>
      by_cases rests : resting s f = .lit
      · by_cases after : (ruleOf s i).after = .lit
        · cases keeps <;> cases (ruleOf s i).action <;> simp [rests, after]
        · have after' : ¬ Resting.lit = (ruleOf s i).after := fun e => after e.symm
          cases keeps <;> cases (ruleOf s i).action <;> simp [rests, after, after']
      · cases (ruleOf s i).action <;> simp [rests]

/-- R32: only a BANK-MEMBER switch makes a mark at a hit. -/
theorem standupMark_stays {r : Rule} (h : r.cls ≠ .bankMember) : standupMark i r s = s := if_neg h

/-- R18 to R23: a hit on no member of a bank. -/
theorem hit_eq_table (cls : (ruleOf s i).cls ≠ .bankMember)
    (light : ∀ f, (ruleOf s i).feature = some f → isLockLight s (ruleOf s i) f = keeps) :
    hit i s = hitByTable keeps i s (directPulse (ruleOf s i) s) := by
  refine (hit_eq (memberResetting_of_cls_ne s _ cls) light).trans ?_
  dsimp only
  rw [standupMark_stays cls, ite_self]

/-- R19: a hit on a DIRECT switch requests its driver. -/
theorem directPulse_eq {r : Rule} {d : DriverNo} (cls : r.cls = .direct) (driver : r.driver = some d) :
    directPulse r s = request d .direct 100 .rule s := by
  unfold directPulse
  rw [driver]
  exact if_pos cls

/-- R21, R22: a hit is handed a value where its feature is not OFF or HELD. -/
theorem hitValue_isSome (free : memberResetting s (ruleOf s i) = false) : (hitValue s (ruleOf s i)).isSome = true ↔
    ¬ ∃ f, (ruleOf s i).feature = some f ∧ (effective s f = .off ∨ effective s f = .held) := by
  unfold hitValue
  rw [free]
  cases (ruleOf s i).feature with
  | none => simp
  | some f => cases state : effective s f <;> simp [state]

/-- R21: a feature that is OFF or HELD has the table do nothing. -/
theorem hitByTable_disabled (h : ∃ f, (ruleOf s i).feature = some f ∧ (effective s f = .off ∨ effective s f = .held)) :
    hitByTable keeps i s u = u := by
  obtain ⟨f, feature, disabled⟩ := h
  unfold hitByTable
  dsimp only
  rw [feature]
  rcases disabled with e | e <;> simp only [e]

/-- R21: a hit without a feature, its rule with an action. -/
theorem hitByTable_plain {a : Action} (action : (ruleOf s i).action = some a) (feature : (ruleOf s i).feature = none) :
    hitByTable keeps i s u = doAction a (ruleOf s i).group
      (award s.rules.current (ruleOf s i).plain (ruleOf s i).group (.hit i (ruleOf s i).combo) u) := by
  unfold hitByTable
  dsimp only
  rw [feature, action]

/-- R21: a hit on a DARK feature. -/
theorem hitByTable_dark (feature : (ruleOf s i).feature = some f) (state : effective s f = .dark) :
    hitByTable keeps i s u =
      award s.rules.current (ruleOf s i).plain (ruleOf s i).group (.hit i (ruleOf s i).combo) u := by
  unfold hitByTable
  dsimp only
  rw [feature]
  dsimp only
  rw [state]

/-- R21: a hit on a LATENT feature. -/
theorem hitByTable_latent (feature : (ruleOf s i).feature = some f) (state : effective s f = .latent) :
    hitByTable keeps i s u = setFeature f .lit
      (award s.rules.current (ruleOf s i).plain (ruleOf s i).group (.hit i (ruleOf s i).combo) u) := by
  unfold hitByTable
  dsimp only
  rw [feature]
  dsimp only
  rw [state]

/-- R21, R23: a hit on a LIT feature, its rule with an action. -/
theorem hitByTable_lit {a : Action} (action : (ruleOf s i).action = some a) (feature : (ruleOf s i).feature = some f)
    (state : effective s f = .lit) : hitByTable keeps i s u = doAction a (ruleOf s i).group
      (if resting s f = .lit ∧ (ruleOf s i).after ≠ .lit ∧ keeps = false then setFeature f (ruleOf s i).after
          (award s.rules.current (ruleOf s i).lit (ruleOf s i).group (.hit i (ruleOf s i).combo) u)
        else award s.rules.current (ruleOf s i).lit (ruleOf s i).group (.hit i (ruleOf s i).combo) u) := by
  unfold hitByTable
  dsimp only
  rw [feature]
  dsimp only
  rw [state, action]

/-- R35: nothing that the table does starts a confirm timer. -/
theorem windowsShut_hitByTable (shut : windowsShut u) : windowsShut (hitByTable keeps i s u) := by
  unfold hitByTable
  dsimp only
  have acted {w : State} (h : windowsShut w) : windowsShut (match (ruleOf s i).action with
      | some a => doAction a (ruleOf s i).group w
      | none => w) := by
    split
    · exact windowsShut_doAction h
    · exact h
  cases (ruleOf s i).feature with
  | none => exact acted (windowsShut_award shut)
  | some f =>
    dsimp only
    cases effective s f with
    | off | held => exact shut
    | dark => exact windowsShut_award shut
    | latent => exact windowsShut_setFeature (windowsShut_award shut)
    | lit =>
      refine acted ?_
      split
      · exact windowsShut_setFeature (windowsShut_award shut)
      · exact windowsShut_award shut

/-- What the table leaves. -/
theorem hitByTable_keeps {τ : Type} (g : State → τ) (awards : ∀ p v k e u, g (award p v k e u) = g u)
    (sets : ∀ f r u, g (setFeature f r u) = g u) (acts : ∀ a k u, g (doAction a k u) = g u) :
    g (hitByTable keeps i s u) = g u := by
  unfold hitByTable
  dsimp only
  have acted (w : State) : g (match (ruleOf s i).action with
      | some a => doAction a (ruleOf s i).group w
      | none => w) = g w := by
    split
    · exact acts _ _ _
    · rfl
  cases (ruleOf s i).feature with
  | none => exact (acted _).trans (awards _ _ _ _ _)
  | some f =>
    dsimp only
    cases effective s f with
    | off | held => rfl
    | dark => exact awards _ _ _ _ _
    | latent => exact (sets _ _ _).trans (awards _ _ _ _ _)
    | lit =>
      refine (acted _).trans ?_
      split
      · exact (sets _ _ _).trans (awards _ _ _ _ _)
      · exact awards _ _ _ _ _

/-- The table leaves the setup. -/
@[simp] theorem hitByTable_setup : (hitByTable keeps i s u).control.setup = u.control.setup :=
  hitByTable_keeps (·.control.setup) (by simp) (by simp) (by simp)

/-- The table leaves the pockets. -/
theorem hitByTable_pocket {p : PocketNo} : pocket (hitByTable keeps i s u) p = pocket u p :=
  hitByTable_keeps (pocket · p) (by simp [pocket]) (by simp [pocket]) (by simp [pocket])

/-- The table leaves the current player. -/
theorem hitByTable_current : (hitByTable keeps i s u).rules.current = u.rules.current :=
  hitByTable_keeps (·.rules.current) (by simp [award_rules]) (by simp [setFeature_rules]) doAction_current

/-! ## The Rule Engine at an event (R32) -/

/-- R32: the STANDUP mark of a member of bank `b`. -/
theorem standupMark_eq (cls : (ruleOf s i).cls = .bankMember) (index : (ruleOf s i).index = b.val)
    (cfg : bankCfg u b = some c) :
    standupMark i (ruleOf s i) u = if c.isDrop = true then u else markMember doAction b c i u := by
  unfold standupMark
  rw [if_pos cls, fourOf_eq_some.mpr index]
  dsimp only
  rw [cfg]

/-- R32: the DROP mark of a member of bank `b`. -/
theorem dropMark_eq {closes : Bool} (cls : (ruleOf u i).cls = .bankMember) (index : (ruleOf u i).index = b.val)
    (cfg : bankCfg u b = some c) : dropMark i closes u = if c.isDrop = true then
        if closes = true then markMember doAction b c i u else setMark i false u else u := by
  unfold dropMark
  dsimp only
  rw [if_pos cls, fourOf_eq_some.mpr index]
  dsimp only
  rw [cfg]

end

end Sys2Proof.Machine

end

