-- ==== Sys2Proof/Proofs/RuleEvents.lean ====
section
/-! SUPPORT. A scan completion with one event, and what the Rule Engine and a pocket make of it (R5, R18 to R35). -/

namespace Sys2Proof.Machine

section
variable {i : SwitchNo} {p : PocketNo} {c : PocketCfg} {x : Bool} {s u : State}

/-! ## One event at a scan completion (R5) -/

/-- R147: the state with the quiet timer started for `delay` seconds and the search ended, where `q`. -/
def heardIf (delay : Nat) (q : Prop) [Decidable q] (u : State) : State :=
  if q then { u with balls := { u.balls with
    quiet := some (delay * 1000), search := .idle, round := 0, todo := [], searchTimer := none } } else u

/-- R147: an event restarts the quiet timer with the image's delay. -/
theorem stirredBy_heardIf {q : Prop} [Decidable q] (h : x = true ↔ q) (setup : u.control.setup = s.control.setup) :
    u.stirredBy x false = heardIf s.control.image.searchDelay q u := by
  rw [stirredBy_eq, image_of_setup setup]
  exact if_congr h rfl rfl

/-- R5: what a later scan completion leaves of the Switch Scanner. -/
theorem finish_completeScan_scanner (hr : s.scanner.running = true) (he : s.scanner.scanEnd = true)
    (hb : s.scanner.baseline = true) : (finish (completeScan s)).scanner = (scanWith debounced s).scanner := by
  rw [(finish_frame _).2.1, completeScan_keeps State.scanner hr he hb (by simp) (by simp)]

/-- R5: the pocket entered by a close, after the Rule Engine. -/
theorem deliver_takes {y : Bool} (trough : (ruleOf s i).cls ≠ .trough) (game : inGame s = true)
    (takes : pocketTakes i x (ruleTakes i x s) = u) (setup : u.control.setup = s.control.setup) :
    deliver i x y s = u.stirredBy (activityOf s i y) false := by
  have stays : troughTakes i u = u := by
    unfold troughTakes
    rw [ruleOf_of_setup setup]
    exact if_neg fun h => trough h.1
  unfold deliver
  dsimp only
  rw [takes, stays, restartQuiet_eq, inGame_of_setup setup, game]
  unfold activityOf
  rw [ruleOf_of_setup setup]
  split
  · rename_i active
    rw [active]
  · rename_i quiet
    rw [Bool.eq_false_iff.mpr quiet]
    rfl

/-- R5, R35: a later scan completion in the game states at which switch `i` alone changes state, with no bank's confirm
window running. -/
structure OneEvent (s : State) (i : SwitchNo) : Prop where
  running : s.scanner.running = true
  scanEnd : s.scanner.scanEnd = true
  baseline : s.scanner.baseline = true
  game : inGame s = true
  changes : (debounced s i).closed ≠ (s.scanner.switches.get i).closed
  others : ∀ j, j ≠ i → (debounced s j).closed = (s.scanner.switches.get j).closed
  shut : windowsShut s

/-- The scan leaves the switches as debounced. -/
theorem OneEvent.scanner (h : OneEvent s i) :
    { s with scanner := (finish (completeScan s)).scanner } = scanWith debounced s := by
  rw [finish_completeScan_scanner h.running h.scanEnd h.baseline]
  rfl

/-- R5, R147: what a scan completion with one event, of no switch of the trough's, leaves. -/
theorem OneEvent.leaves (h : OneEvent s i) (used : (ruleOf s i).cls ≠ .unused) (trough : (ruleOf s i).cls ≠ .trough)
    (takes : pocketTakes i (debounced s i).closed (ruleTakes i (debounced s i).closed (scanWith debounced s)) = u)
    (setup : u.control.setup = s.control.setup) (shut : windowsShut u) :
    settles (heardIf s.control.image.searchDelay ((ruleOf s i).activity = true ∧
      ((debounced s i).closed = true ∨ (s.scanner.switches.get i).stuck = false)) u) (finish (completeScan s)) := by
  refine settles_of_eq (Eq.trans ?_ (stirredBy_heardIf
    (x := (ruleOf s i).activity && !((s.scanner.switches.get i).stuck && !(debounced s i).closed)) ?_ setup))
  · refine completeScan_single h.running h.scanEnd h.baseline (fun j hj changed => ?_) (bne_iff_ne.mpr h.changes) used
      (deliver_takes (s := scanWith debounced s) trough h.game takes setup) shut
    exact absurd (h.others j hj) (bne_iff_ne.mp changed)
  · rw [Bool.and_eq_true, Bool.not_eq_true', Bool.and_eq_false_iff, Bool.not_eq_false',
      or_comm (a := (debounced s i).closed = true)]

/-- R5, R147: the same at a close. -/
theorem OneEvent.leaves_close (h : OneEvent s i) (closes : (debounced s i).closed = true)
    (used : (ruleOf s i).cls ≠ .unused) (trough : (ruleOf s i).cls ≠ .trough)
    (takes : pocketTakes i true (ruleTakes i true (scanWith debounced s)) = u)
    (setup : u.control.setup = s.control.setup) (shut : windowsShut u) :
    settles (heardIf s.control.image.searchDelay ((ruleOf s i).activity = true) u) (finish (completeScan s)) := by
  have left := h.leaves used trough (by rwa [closes]) setup shut
  unfold heardIf at left ⊢
  simpa only [closes, true_or, and_true] using left

/-! ## The Rule Engine at a close (R18 to R23) -/

/-- R23: only a POCKET-ENTRY switch has a lock light. -/
theorem isLockLight_of_cls_ne {r : Rule} {f : FeatureNo} (h : r.cls ≠ .pocketEntry) : isLockLight s r f = false := by
  simp [isLockLight, h]

/-- R23: the lock light of a pocket's entry switch is the feature that the pocket's record names. -/
theorem isLockLight_of_entry {r : Rule} {f : FeatureNo} (cls : r.cls = .pocketEntry) (index : r.index = p.val)
    (feature : r.feature = some f) : isLockLight s r f = (s.control.image.lockFeatures.get p == r.feature) := by
  unfold isLockLight
  rw [cls, fourOf_eq_some.mpr index, feature]
  rfl

/-- R18 to R23: in PLAY a close of no member of a bank is taken by the table, after the DIRECT pulse. -/
theorem ruleTakes_table {keeps : Bool} (play : inPlay u = true) (cls : (ruleOf u i).cls ≠ .bankMember)
    (light : ∀ f, (ruleOf u i).feature = some f → isLockLight u (ruleOf u i) f = keeps) :
    ruleTakes i true u = hitByTable keeps i u (directPulse (ruleOf u i) u) :=
  (ruleTakes_hit play cls).trans (hit_eq_table cls light)

/-! ## A pocket's own entry switch (R114) -/

/-- R114: the close of a configured pocket's own entry switch reaches that pocket. -/
theorem pocketTakes_entry (cls : (ruleOf u i).cls = .pocketEntry) (index : (ruleOf u i).index = p.val)
    (game : inGame u = true) (cfg : pocketCfg u p = some c) (entry : c.entry = some i) :
    pocketTakes i true u = entryCloses p c u := by
  unfold pocketTakes
  dsimp only
  rw [if_pos ⟨rfl, cls, game⟩, fourOf_eq_some.mpr index]
  dsimp only
  rw [cfg]
  exact if_pos entry

/-- R109, R114: any other close of a POCKET-ENTRY switch reaches none. -/
theorem pocketTakes_foreign (index : (ruleOf u i).index = p.val)
    (foreign : ∀ c, pocketCfg u p = some c → c.entry ≠ some i) : pocketTakes i x u = u := by
  unfold pocketTakes
  dsimp only
  split
  · rw [fourOf_eq_some.mpr index]
    dsimp only
    cases cfg : pocketCfg u p with
    | none => rfl
    | some c => exact if_neg (foreign c cfg)
  · rfl

/-- R18 to R22: one close in PLAY of a PLAYFIELD or a DIRECT switch. -/
theorem OneEvent.hit (h : OneEvent s i) (play : inPlay s = true) (closes : (debounced s i).closed = true)
    (cls : (ruleOf s i).cls = .playfield ∨ (ruleOf s i).cls = .direct) :
    settles (heardIf s.control.image.searchDelay ((ruleOf s i).activity = true)
      (hitByTable false i s (directPulse (ruleOf s i) (scanWith debounced s)))) (finish (completeScan s)) := by
  have ne (k : RuleClass) (other : k ≠ .playfield ∧ k ≠ .direct) : (ruleOf s i).cls ≠ k := fun e =>
    cls.elim (fun c => other.1 (e.symm.trans c)) (fun c => other.2 (e.symm.trans c))
  refine h.leaves_close closes (ne _ (by decide)) (ne _ (by decide)) ?_
    (hitByTable_setup.trans (directPulse_setup _ _)) (windowsShut_hitByTable
      (windowsShut_of_banks (s := s) (by rw [(directPulse_frame _ _).2.2.2.1]; rfl) h.shut))
  rw [ruleTakes_table (u := scanWith debounced s) play (ne _ (by decide))
    fun f _ => isLockLight_of_cls_ne (ne _ (by decide))]
  refine pocketTakes_stays ?_
  rw [ruleOf_of_setup (hitByTable_setup.trans (directPulse_setup _ _))]
  exact ne _ (by decide)

/-- R5, R18: one opening, or one close outside PLAY, of a PLAYFIELD or a DIRECT switch. -/
theorem OneEvent.unscored (h : OneEvent s i) (still : (debounced s i).closed = false ∨ inPlay s = false)
    (cls : (ruleOf s i).cls = .playfield ∨ (ruleOf s i).cls = .direct) :
    settles (heardIf s.control.image.searchDelay ((ruleOf s i).activity = true ∧
      ((debounced s i).closed = true ∨ (s.scanner.switches.get i).stuck = false)) (scanWith debounced s))
      (finish (completeScan s)) := by
  have ne (k : RuleClass) (other : k ≠ .playfield ∧ k ≠ .direct) : (ruleOf s i).cls ≠ k := fun e =>
    cls.elim (fun c => other.1 (e.symm.trans c)) (fun c => other.2 (e.symm.trans c))
  refine h.leaves (u := scanWith debounced s) (ne _ (by decide)) (ne _ (by decide)) ?_ rfl h.shut
  rw [ruleTakes_stays (s := scanWith debounced s) (ne _ (by decide)) still]
  exact pocketTakes_stays (ne _ (by decide))

/-- R23: in PLAY a close of a pocket's entry switch is a hit, outside PLAY none. -/
theorem ruleTakes_entry (cls : (ruleOf s i).cls = .pocketEntry) (index : (ruleOf s i).index = p.val) :
    ruleTakes i true (scanWith debounced s) = if inPlay s = true then
        hitByTable (s.control.image.lockFeatures.get p == (ruleOf s i).feature) i s (scanWith debounced s)
      else scanWith debounced s := by
  have ne (k : RuleClass) (other : k ≠ .pocketEntry) : (ruleOf s i).cls ≠ k := fun e => other (e.symm.trans cls)
  cases play : inPlay s with
  | false =>
    rw [if_neg (by decide)]
    exact ruleTakes_stays (s := scanWith debounced s) (ne _ (by decide)) (.inr play)
  | true =>
    have pulse : directPulse (ruleOf s i) (scanWith debounced s) = scanWith debounced s :=
      directPulse_stays (s := scanWith debounced s) (ne _ (by decide))
    rw [if_pos rfl, ruleTakes_table (u := scanWith debounced s)
      (keeps := s.control.image.lockFeatures.get p == (ruleOf s i).feature) play (ne _ (by decide))
      fun f feature => isLockLight_of_entry cls index feature]
    exact congrArg _ pulse

/-- R23, R114: one close of a pocket's entry switch: the rule, whose outcome is `u`, then the pocket where it is its
own. -/
theorem OneEvent.entry (h : OneEvent s i) (closes : (debounced s i).closed = true)
    (cls : (ruleOf s i).cls = .pocketEntry) (index : (ruleOf s i).index = p.val)
    (rule : ruleTakes i true (scanWith debounced s) = u) :
    (∀ c, pocketCfg s p = some c → c.entry = some i →
      settles (heardIf s.control.image.searchDelay ((ruleOf s i).activity = true) (entryCloses p c u))
        (finish (completeScan s))) ∧
    ((∀ c, pocketCfg s p = some c → c.entry ≠ some i) →
      settles (heardIf s.control.image.searchDelay ((ruleOf s i).activity = true) u) (finish (completeScan s))) := by
  have ne (k : RuleClass) (other : k ≠ .pocketEntry) : (ruleOf s i).cls ≠ k := fun e => other (e.symm.trans cls)
  have setup : u.control.setup = s.control.setup := by
    rw [← rule]
    exact ruleTakes_setup _ _ _
  have shut : windowsShut u := by
    rw [← rule, ruleTakes_entry cls index]
    split
    · exact windowsShut_hitByTable h.shut
    · exact h.shut
  refine ⟨fun c cfg own => ?_, fun foreign => ?_⟩
  · refine h.leaves_close closes (ne _ (by decide)) (ne _ (by decide)) ?_ ((entryCloses_setup _ _ _).trans setup)
      (windowsShut_of_banks (s := u) (by simp) shut)
    rw [rule, pocketTakes_entry (by rw [ruleOf_of_setup setup, cls]) (by rw [ruleOf_of_setup setup, index])
      (by rw [inGame_of_setup setup, h.game]) (by rw [pocketCfg_of_setup setup, cfg]) own]
  · refine h.leaves_close closes (ne _ (by decide)) (ne _ (by decide)) ?_ setup shut
    rw [rule]
    exact pocketTakes_foreign (by rw [ruleOf_of_setup setup, index]) (by rwa [pocketCfg_of_setup setup])

/-- R114, R130: what a close of pocket `p`'s entry switch does, by the pocket's state `x`. -/
theorem entryCloses_eq {y : PocketState} {player : Player} (stands : pocket u p = y) (cur : u.rules.current = player) :
    entryCloses p c u = match y.phase with
      | .empty => if c.opto = none then ballEnters p c false u
        else putPocket p { y with phase := .settling, settle := some 300 } u
      | .stable | .kickoutWait => ballEnters p c false u
      | .settling => u
      | .releaseWait | .ejectWait | .ejecting | .rearm => putPocket p { y with deferred := true } u
      | .jammed =>
        if y.stuck < c.capacity then
          tellLock 3 p player { y with stuck := y.stuck + 1 }
            (recomputeB (putPocket p { y with stuck := y.stuck + 1 } u))
        else u := by
  unfold entryCloses closeInEmpty
  rw [stands]
  cases y with
  | mk held resting stuck through pending attempt deferred jam settle kickout window rearm phase =>
    cases phase with
    | empty =>
      dsimp only
      rw [mapPocket_eq, stands]
      cases c.opto <;> rfl
    | settling | stable | kickoutWait => rfl
    | releaseWait | ejectWait | ejecting | rearm =>
      dsimp only
      rw [mapPocket_eq, stands]
    | jammed =>
      dsimp only
      rw [countPocket, mapPocket_eq, stands, offerLock_eq lockJammed (player := player)
        (by rw [(recomputeB_frame _).2.2.2.1]; exact cur) (pocket_recomputeB_putPocket p _ u)]
      rfl

/-! ## A bank's member (R32, R35) -/

section
variable {b : BankNo} {c : BankCfg}

/-- R32: a mark that completes nothing, made or already there. -/
theorem markMember_resting {act : Action → Fin 8 → State → State} (phase : (bank s b).phase ≠ .counting) :
    markMember act b c i s = setMark i true s := by
  cases marked : s.rules.marks.get i with
  | false => exact markMember_unfinished marked (.inl phase)
  | true =>
    rw [markMember_marked marked]
    unfold setMark State.mapRules
    dsimp only
    rw [← marked, Tab.set_get]

/-- R32, R35: in PLAY the close of a member of a DROP bank. -/
theorem ruleTakes_drop (play : inPlay u = true) (cls : (ruleOf u i).cls = .bankMember)
    (index : (ruleOf u i).index = b.val) (cfg : bankCfg u b = some c) (drop : c.isDrop = true) :
    ruleTakes i true u = if (bank u b).phase = .resetting then setMark i true u
      else markMember doAction b c i (hitByTable false i u u) := by
  have resetting := memberResetting_of_member u (ruleOf u i) b c cls (fourOf_eq_some.mpr index) cfg
  rw [drop, Bool.true_and] at resetting
  have pulse : directPulse (ruleOf u i) u = u := directPulse_stays (by rw [cls]; decide)
  unfold ruleTakes
  rw [if_pos ⟨rfl, play⟩]
  split
  · rename_i phase
    rw [hit_of_memberResetting i u (by rw [resetting, phase]; rfl), dropMark_eq cls index cfg, if_pos drop, if_pos rfl,
      markMember_resting (by rw [phase]; decide)]
  · rename_i phase
    have hits : hit i u = hitByTable false i u u := by
      rw [hit_eq (keeps := false) (by rw [resetting]; exact beq_eq_false_iff_ne.mpr phase)
        fun f _ => isLockLight_of_cls_ne (by rw [cls]; decide), pulse]
      dsimp only
      rw [standupMark_eq cls index (by rw [bankCfg_of_setup hitByTable_setup, cfg]), if_pos drop, ite_self]
    rw [hits, dropMark_eq (by rw [ruleOf_of_setup hitByTable_setup, cls])
      (by rw [ruleOf_of_setup hitByTable_setup, index]) (by rw [bankCfg_of_setup hitByTable_setup, cfg]), if_pos drop,
      if_pos rfl]

/-- R32: in PLAY the close of a member of a STANDUP bank. -/
theorem ruleTakes_standup (play : inPlay u = true) (cls : (ruleOf u i).cls = .bankMember)
    (index : (ruleOf u i).index = b.val) (cfg : bankCfg u b = some c) (standup : c.isDrop = false) :
    let disabled := ∃ f, (ruleOf u i).feature = some f ∧ (effective u f = .off ∨ effective u f = .held)
    (disabled → ruleTakes i true u = u) ∧
      (¬ disabled → ruleTakes i true u = markMember doAction b c i (hitByTable false i u u)) := by
  intro disabled
  have free := memberResetting_of_member u (ruleOf u i) b c cls (fourOf_eq_some.mpr index) cfg
  rw [standup, Bool.false_and] at free
  have pulse : directPulse (ruleOf u i) u = u := directPulse_stays (by rw [cls]; decide)
  have hits := hit_eq (keeps := false) free fun f _ => isLockLight_of_cls_ne (by rw [cls]; decide)
  dsimp only at hits
  rw [pulse, standupMark_eq cls index (by rw [bankCfg_of_setup hitByTable_setup, cfg]),
    if_neg (show ¬ c.isDrop = true by simp [standup])] at hits
  have rule : ruleTakes i true u = hit i u := by
    unfold ruleTakes
    rw [if_pos ⟨rfl, play⟩, dropMark_eq (by rw [ruleOf_of_setup (hit_setup _ _), cls])
      (by rw [ruleOf_of_setup (hit_setup _ _), index]) (by rw [bankCfg_of_setup (hit_setup _ _), cfg]),
      if_neg (by simp [standup])]
  refine ⟨fun off => ?_, fun on => ?_⟩
  · have worthless : ¬ (hitValue u (ruleOf u i)).isSome = true := fun value => (hitValue_isSome free).mp value off
    rw [rule, hits]
    exact (if_neg worthless).trans (hitByTable_disabled off)
  · rw [rule, hits]
    exact if_pos ((hitValue_isSome free).mpr on)

/-- R32: outside PLAY an event of a member is nothing but to the mark of a DROP bank's. -/
theorem ruleTakes_outside (play : inPlay u = false) (cls : (ruleOf u i).cls = .bankMember)
    (index : (ruleOf u i).index = b.val) (cfg : bankCfg u b = some c) : ruleTakes i x u = if c.isDrop = true then
        if x = true then markMember doAction b c i u else setMark i false u
      else u := by
  unfold ruleTakes
  rw [if_neg (by simp [play])]
  exact dropMark_eq cls index cfg

/-- R5, R32: one event of a bank's member, of which the Rule Engine makes `u`. -/
theorem OneEvent.member (h : OneEvent s i) (cls : (ruleOf s i).cls = .bankMember)
    (rule : ruleTakes i (debounced s i).closed (scanWith debounced s) = u) (shut : windowsShut u) :
    settles (heardIf s.control.image.searchDelay ((ruleOf s i).activity = true ∧
      ((debounced s i).closed = true ∨ (s.scanner.switches.get i).stuck = false)) u) (finish (completeScan s)) := by
  have setup : u.control.setup = s.control.setup := by
    rw [← rule]
    exact ruleTakes_setup _ _ _
  refine h.leaves (by rw [cls]; decide) (by rw [cls]; decide) ?_ setup shut
  rw [rule]
  exact pocketTakes_stays (by rw [ruleOf_of_setup setup, cls]; decide)

end

/-! ## Actions (R25 to R27, R32) -/

/-- R26: the COLLECT action, by the mark of its mode and what the queue does with its bulletin. -/
theorem doAction_collect (m : ModeId) (g : Fin 8) (s : State) : doAction (.collect m) g s =
    let b := Bulletin.collect (BitVec.ofNat 8 m.val) (BitVec.ofNat 8 (s.rules.current.val + 1))
    if (s.rules.collects.get m).isSome = true then s
    else if offerTaken b s = true then
      { offer b s with rules := { s.rules with collects := s.rules.collects.set m (some g) } }
    else offer b s := by
  unfold doAction takeAction collectAction
  cases set : s.rules.collects.get m with
  | some => rfl
  | none =>
    refine Eq.trans ?_ (if_neg (by simp)).symm
    refine if_congr (P := offerTaken _ s = true) Iff.rfl ?_ rfl
    unfold State.mapRules
    rw [(offer_frame _ s).2.2.2.1]
    rfl

/-- R27: ADVANCE BANK does nothing where every member is marked. -/
theorem doAction_advanceBank_none {b : BankNo} {c : BankCfg} {g : Fin 8} (cfg : bankCfg s b = some c)
    (full : firstUnmarked s c = none) : doAction (.advanceBank b) g s = s := by
  unfold doAction takeAction
  rw [cfg]
  dsimp only
  rw [full]

/-- R27: ADVANCE BANK marks the first unmarked member. -/
theorem doAction_advanceBank_some {b : BankNo} {c : BankCfg} {g : Fin 8} (cfg : bankCfg s b = some c)
    (first : firstUnmarked s c = some i) : doAction (.advanceBank b) g s = markMember (takeAction 4) b c i s := by
  unfold doAction takeAction
  rw [cfg]
  dsimp only
  rw [first]

end

/-- Settles O33: the scans by `OneEvent.hit`, `OneEvent.entry` and `OneEvent.member`, the completions by
`dropCompletes_rules` and `dropCompletes_unbound`. -/
theorem hitsActionsAndCompletions : Obligations.HitsActionsAndCompletions := by
  refine ⟨?playfield, ?actions, ?advance, ?quiet, ?entry, ?noPocket, ?member, ?outside, ?marks⟩
  case playfield =>
    intro s i a play hr he hb was closes others shut silent cls action r
    have event : OneEvent s i := ⟨hr, he, hb, congrArg StationState.inGame play, by simp [was, closes], others, shut⟩
    have undirected : (ruleOf s i).cls ≠ .direct := by rw [cls]; decide
    have pulse : directPulse (ruleOf s i) (scanWith debounced s) = scanWith debounced s :=
      directPulse_stays (s := scanWith debounced s) undirected
    have table := event.hit (beq_iff_eq.mpr play) closes (.inl cls)
    rw [pulse, heardIf, if_neg (by simp [silent]), ← event.scanner] at table
    refine ⟨finish (completeScan s), rfl, fun feature => ?_, fun f feature =>
      ⟨fun state => ?_, fun state => ?_, fun state => ?_, fun state stays => ?_, fun state lit turns => ?_⟩⟩
    · rwa [hitByTable_plain action feature] at table
    · rwa [hitByTable_disabled ⟨f, feature, state⟩] at table
    · rwa [hitByTable_dark feature state] at table
    · rwa [hitByTable_latent feature state] at table
    · rwa [hitByTable_lit action feature state, if_neg fun ⟨a, b, _⟩ => stays.elim (· a) b] at table
    · rwa [hitByTable_lit action feature state, if_pos ⟨lit, turns, rfl⟩] at table
  case actions =>
    intro m f r st g s
    refine ⟨rfl, rfl, rfl, fun set => ?_, fun free refused => ?_, fun free taken => ?_⟩
    · exact (doAction_collect m g s).trans (if_pos set)
    · exact (doAction_collect m g s).trans ((if_neg (by simp [free])).trans (if_neg (by simp [refused])))
    · exact (doAction_collect m g s).trans ((if_neg (by simp [free])).trans (if_pos taken))
  case advance =>
    intro b c i front back g s cfg made
    refine ⟨fun all => ?_, fun members marked unmarked count => ?_⟩
    · exact doAction_advanceBank_none cfg (List.find?_eq_none.mpr fun j hj => by simp [all j hj])
    · have first : firstUnmarked s c = some i := by
        unfold firstUnmarked
        rw [members, List.find?_append, List.find?_eq_none.mpr fun j hj => by simp [marked j hj]]
        simp [unmarked]
      rw [doAction_advanceBank_some cfg first]
      exact markMember_unfinished unmarked count
  case quiet =>
    intro s i hr he hb game changed others shut r closes heard
    have event : OneEvent s i := ⟨hr, he, hb, game, by simp [changed], others, shut⟩
    refine ⟨fun still cls => ⟨finish (completeScan s), rfl, ?_⟩,
      fun d close play cls driver => ⟨finish (completeScan s), rfl, ?_⟩⟩
    · rw [event.scanner]
      exact event.unscored (still.imp_right beq_eq_false_iff_ne.mpr) cls
    · have table := event.hit (beq_iff_eq.mpr play) close (.inr cls)
      rw [directPulse_eq cls driver] at table
      rw [event.scanner]
      unfold heardIf at table
      simpa only [heard, close, true_or, and_true] using table
  case entry =>
    intro s i p c hr he hb game was closes others shut cls index cfg own r x heard put enters
    have event : OneEvent s i := ⟨hr, he, hb, game, by simp [was, closes], others, shut⟩
    have entered (u : State) (hx : pocket u p = x) (cur : u.rules.current = s.rules.current) :
        entryCloses p c u = enters u := entryCloses_eq hx cur
    have left := (event.entry closes cls index (ruleTakes_entry cls index)).1 c cfg own
    refine ⟨fun out => ⟨finish (completeScan s), rfl, ?_⟩, fun play => ⟨finish (completeScan s), rfl, ?_⟩⟩
    · rw [if_neg (by simp [inPlay, out]), entered (scanWith debounced s) rfl rfl] at left
      rw [event.scanner]
      exact left
    · have inPlay : inPlay s = true := beq_iff_eq.mpr play
      rw [if_pos inPlay, entered (hitByTable _ i s (scanWith debounced s)) hitByTable_pocket hitByTable_current] at left
      rw [event.scanner]
      exact left
  case noPocket =>
    intro s i p hr he hb game was closes others shut cls index foreign r heard
    have event : OneEvent s i := ⟨hr, he, hb, game, by simp [was, closes], others, shut⟩
    have left := (event.entry closes cls index (ruleTakes_entry cls index)).2 foreign
    refine ⟨finish (completeScan s), rfl, fun out => ?_, fun play => ?_⟩
    · rw [if_neg (by simp [inPlay, out])] at left
      rw [event.scanner]
      exact left
    · have inPlay : inPlay s = true := beq_iff_eq.mpr play
      rw [if_pos inPlay] at left
      rw [event.scanner]
      exact left
  case member =>
    intro s i b c hr he hb play was closes others shut cls index cfg r heard disabled
    have event : OneEvent s i := ⟨hr, he, hb, congrArg StationState.inGame play, by simp [was, closes], others, shut⟩
    have inPlay : inPlay s = true := beq_iff_eq.mpr play
    have left {u : State} (rule : ruleTakes i true (scanWith debounced s) = u) (shut : windowsShut u) :
        settles (heard u) (finish (completeScan s)) := by
      have left := event.member cls (by rwa [closes]) shut
      unfold heardIf at left
      simpa only [closes, true_or, and_true] using left
    have marks : windowsShut (markMember doAction b c i (hitByTable false i s (scanWith debounced s))) :=
      windowsShut_markMember (fun _ _ _ => windowsShut_doAction) (windowsShut_hitByTable shut)
    refine ⟨finish (completeScan s), rfl, ?_⟩
    rw [event.scanner]
    refine ⟨fun drop phase => ?_, fun drop phase => ?_, fun standup on => ?_, fun standup off => ?_⟩
    · exact left ((ruleTakes_drop (u := scanWith debounced s) inPlay cls index cfg drop).trans (if_pos phase)) shut
    · exact left ((ruleTakes_drop (u := scanWith debounced s) inPlay cls index cfg drop).trans (if_neg phase)) marks
    · exact left ((ruleTakes_standup (u := scanWith debounced s) inPlay cls index cfg standup).2 on) marks
    · exact left ((ruleTakes_standup (u := scanWith debounced s) inPlay cls index cfg standup).1 off) shut
  case outside =>
    intro s i b c hr he hb game out changed others shut silent cls index cfg closes marked
    have event : OneEvent s i := ⟨hr, he, hb, game, by simp [changed], others, shut⟩
    have notPlay : inPlay s = false := beq_eq_false_iff_ne.mpr out
    have rule := ruleTakes_outside (u := scanWith debounced s) (x := (debounced s i).closed) notPlay cls index cfg
    have left {u : State} (rule : ruleTakes i (debounced s i).closed (scanWith debounced s) = u)
        (shut : windowsShut u) : settles u (finish (completeScan s)) := by
      have left := event.member cls rule shut
      unfold heardIf at left
      rwa [if_neg (by simp [silent])] at left
    have put (v : Bool) : marked v (finish (completeScan s)) = setMark i v (scanWith debounced s) := by
      refine Eq.trans ?_ (congrArg (setMark i v) event.scanner)
      rfl
    refine ⟨finish (completeScan s), rfl, fun standup => ?_, fun drop opens => ?_, fun drop close unmarked => ?_⟩
    · rw [event.scanner]
      exact left (rule.trans (if_neg (by simp [standup]))) shut
    · rw [put]
      exact left (rule.trans ((if_pos drop).trans (if_neg (by simpa [closes] using opens)))) shut
    · rw [put]
      have rule := rule.trans ((if_pos drop).trans (if_pos close))
      refine ⟨fun count => ?_, fun d counting count reset works unbound => ?_⟩
      · exact left (rule.trans (markMember_unfinished (s := scanWith debounced s) unmarked count)) shut
      · have completes := markMember_completes (act := doAction) (s := scanWith debounced s) unmarked counting count
        rw [if_neg (by rw [show inPlay (scanWith debounced s) = false from notPlay]; decide), if_pos ⟨game, drop⟩]
          at completes
        have left := left (rule.trans completes) (windowsShut_dropCompletes shut)
        have rules := left.2.2.2.2.1
        have resting_eq (f : FeatureNo) : resting (finish (completeScan s)) f =
            if f ∈ memberFeatures s c then .held else resting s f := by
          have turned := resting_dropCompletes (b := b) (s := setMark i true (scanWith debounced s)) reset f
          rw [if_neg (show ¬ (unit (setMark i true (scanWith debounced s)) d).phase = .faulted from works)] at turned
          exact (congrArg (·.features.get f) rules).trans turned
        refine ⟨fun f member => (resting_eq f).trans (if_pos member),
          fun f other => (resting_eq f).trans (if_neg other), ?_⟩
        have requests := dropCompletes_unbound (b := b) (s := setMark i true (scanWith debounced s)) reset unbound
        have changed := dropCompletes_rules (b := b) (s := setMark i true (scanWith debounced s)) reset
        have features := congrArg RuleEngine.features rules
        rw [changed] at features requests
        simp only [if_neg (show ¬ (unit (setMark i true (scanWith debounced s)) d).phase = .faulted from works)]
          at features requests
        rw [requests] at left
        rw [features]
        exact left
  case marks =>
    intro b c i s t made g paid acted
    have setup : acted.control.setup = s.control.setup := by
      have paid_setup : paid.control.setup = s.control.setup := award_setup _ _ _ _ made
      simp only [acted]
      split
      · exact paid_setup
      · exact (doAction_setup _ _ _).trans paid_setup
    refine ⟨markMember_marked, fun unmarked => ⟨markMember_unfinished unmarked, fun counting count play => ?_⟩⟩
    have completes : t = if c.isDrop = true then dropCompletes b c acted else clearMarks c acted :=
      (markMember_completes unmarked counting count).trans ((if_pos (beq_iff_eq.mpr play)).trans scoredCompletion_eq)
    clear_value acted t
    have members : memberFeatures acted c = memberFeatures s c := memberFeatures_of_setup setup
    refine ⟨fun standup => ?_, fun d drop reset => ?_⟩
    · rw [if_neg (by simp [standup])] at completes
      subst completes
      rw [clearMarks_eq]
      exact ⟨rfl, get_foldl_clear c.members acted.rules.marks⟩
    · rw [if_pos drop] at completes
      have rules := dropCompletes_rules (b := b) (s := acted) reset
      have own := bank_dropCompletes (b := b) (s := acted) reset
      have turned := resting_dropCompletes (b := b) (s := acted) reset
      rw [members] at turned
      have unbinds (unbound : ∀ f ∈ memberFeatures s c, ∀ k, (driverCfg s k).binding ≠ some f) :
          ∀ f ∈ memberFeatures acted c, ∀ k, (driverCfg acted k).binding ≠ some f := by
        unfold driverCfg at unbound ⊢
        rwa [members, image_of_setup setup]
      have requests (unbound : ∀ f ∈ memberFeatures s c, ∀ k, (driverCfg s k).binding ≠ some f) :=
        dropCompletes_unbound (b := b) (s := acted) reset (unbinds unbound)
      rw [← completes] at rules own turned requests
      have features := congrArg RuleEngine.features rules
      refine ⟨by rw [own], fun k other => ?_, fun works => ⟨?_, ?_, fun f member => ?_⟩, fun f other => ?_,
        fun unbound => ⟨fun works => ?_, fun faulted => ⟨fun f member => ?_, ?_⟩⟩, ?_, ?_, ?_⟩
      · rw [completes, bank_dropCompletes_other other]
      · rw [own]
        exact if_neg works
      · rw [own]
      · rw [turned, if_pos member, if_neg works]
      · rw [turned, if_neg other]
      · refine (requests unbound).trans ((if_neg works).trans ?_)
        rw [features, rules]
        simp only [if_neg works]
      · rw [turned, if_pos member, if_pos faulted]
      · refine (requests unbound).trans ((if_pos faulted).trans ?_)
        rw [features, rules]
        simp only [if_pos faulted]
      · rw [rules]
      · rw [completes]
        exact (dropCompletes_frame _ _ _).2.2.2.2.2.2.2.1
      · rw [rules]

end Sys2Proof.Machine

end

