-- ==== Sys2Proof/Proofs/JoinedPockets.lean ====
section
/-! SUPPORT. The judging of pockets, banks and holds at the end of joining (R186 steps 4 to 6), and the count in play
that it keeps (R110, R134). -/

namespace Sys2Proof.Machine

/-! ## The count in play kept (R110, R134) -/

section
variable {s t u : State} {b : Balls} {p : PocketNo} {c : PocketCfg}

/-- R133, R134: what the count in play reads is alike in `s` and `t`. -/
structure SameView (s t : State) : Prop where
  image : t.control.image = s.control.image
  strap : t.control.strap = s.control.strap
  trough : t.balls.trough = s.balls.trough
  missing : t.balls.missing = s.balls.missing
  peers : t.balls.peers = s.balls.peers
  held : ownHeld t = ownHeld s
  stuck : ownStuck t = ownStuck s

/-- R134: the balls away, the count in play and whether the sum is negative read the view. -/
theorem SameView.counts (h : SameView s t) : inPlayCount t = inPlayCount s ∧ sumNegative t = sumNegative s := by
  obtain ⟨image, strap, trough, missing, peers, held, stuck⟩ := h
  have strap : Machine.strap t = Machine.strap s := strap
  have heldSame : heldAt t = heldAt s := by
    funext j
    unfold heldAt
    rw [strap, held, peers]
  have stuckSame : stuckAt t = stuckAt s := by
    funext j
    unfold stuckAt
    rw [strap, stuck, peers]
  unfold inPlayCount sumNegative ballsAway totalHeld totalStuck
  rw [trough, missing, heldSame, stuckSame, image]
  exact ⟨rfl, rfl⟩

/-- The Ball Accounting Block stands as `b`, with the count that the view gives. -/
def accounted (b : Balls) (s : State) : Prop := s.balls = { b with inPlay := inPlayCount s }

/-- What leaves the counts, the balls and the setup keeps the count. -/
theorem accounted_of (setup : t.control.setup = s.control.setup) (balls : t.balls = s.balls)
    (held : ownHeld t = ownHeld s) (stuck : ownStuck t = ownStuck s) (h : accounted b s) : accounted b t := by
  unfold accounted at h ⊢
  have view : SameView s t := ⟨image_of_setup setup, strap_of_setup setup, by rw [balls], by rw [balls], by rw [balls],
    held, stuck⟩
  rw [view.counts.1, balls, h]

/-- What leaves the pockets as well. -/
theorem accounted_of_pockets (setup : t.control.setup = s.control.setup) (balls : t.balls = s.balls)
    (pockets : t.pockets.pockets = s.pockets.pockets) (h : accounted b s) : accounted b t :=
  accounted_of setup balls (congrArg (·.sum fun p => p.held) pockets) (congrArg (·.sum fun p => p.stuck) pockets) h

/-- R110: a change of a pocket that leaves its held and stuck balls. -/
theorem accounted_mapPocket {f : PocketState → PocketState} (held : (f (pocket s p)).held = (pocket s p).held)
    (stuck : (f (pocket s p)).stuck = (pocket s p).stuck) (h : accounted b s) : accounted b (mapPocket p f s) := by
  have total (g : PocketState → Nat) (same : g (f (pocket s p)) = g (pocket s p)) :
      (mapPocket p f s).pockets.pockets.sum g = s.pockets.pockets.sum g := by
    rw [mapPocket_eq]
    refine (sum_set_congr s.pockets.pockets p g same).trans ?_
    unfold pocket
    rw [Tab.set_get]
  exact accounted_of (s := s) (t := mapPocket p f s) rfl rfl (total _ held) (total _ stuck) h

/-- R110, R134: a recount, with no search in progress. -/
theorem accounted_recomputeB {n : Nat}
    (calm : { b with search := .idle, round := 0, todo := [], searchTimer := none } = b)
    (h : s.balls = { b with inPlay := n }) : accounted b (recomputeB s) := by
  have balls : (recomputeB s).balls = { b with inPlay := inPlayCount s } := by
    rw [recomputeB_eq, ← calm, h, ← calm]
    dsimp only
    split <;> rfl
  have view : SameView s (recomputeB s) := by
    refine ⟨image_of_setup (recomputeB_setup s), strap_of_setup (recomputeB_setup s), ?_, ?_, ?_, ?_, ?_⟩
    · rw [balls, h]
    · rw [balls, h]
    · rw [balls, h]
    · exact congrArg (·.pockets.sum fun p => p.held) (recomputeB_frame s).2.2.2.2.2.1
    · exact congrArg (·.pockets.sum fun p => p.stuck) (recomputeB_frame s).2.2.2.2.2.1
  unfold accounted
  rw [balls, view.counts.1]

/-- R110: any change of a pocket followed by the recount. -/
theorem accounted_countPocket {f : PocketState → PocketState}
    (calm : { b with search := .idle, round := 0, todo := [], searchTimer := none } = b) (h : accounted b s) :
    accounted b (countPocket p f s) := accounted_recomputeB (n := inPlayCount s) calm h

/-- A bulletin offered leaves the count. -/
theorem accounted_offer {x : Bulletin} (h : accounted b s) : accounted b (offer x s) :=
  accounted_of_pockets (by simp) (by simp) (by simp) h

/-- A request leaves the count. -/
theorem accounted_request {d : DriverNo} {band : Band} {n : Nat} {r : Requester} (h : accounted b s) :
    accounted b (request d band n r s) := accounted_of_pockets (by simp) (by simp) (by simp) h

/-! ## A pocket judged (R112, R132) -/

section
variable (calm : { b with search := .idle, round := 0, todo := [], searchTimer := none } = b)
include calm

/-- R121: a jam. -/
theorem accounted_jamPocket (h : accounted b s) : accounted b (jamPocket p s) := by
  have counted : accounted b (countPocket p PocketState.jammed s) := accounted_countPocket calm h
  have told : accounted b (setFlag .ejector (offerLock lockJammed 0 p (countPocket p PocketState.jammed s))) :=
    accounted_of_pockets (s := offerLock lockJammed 0 p (countPocket p PocketState.jammed s)) (by simp) (by simp)
      (by simp) (accounted_offer counted)
  refine accounted_of_pockets (by simp [jamPocket]) (by simp [jamPocket]) ?_ told
  unfold jamPocket passTurn
  rw [State.mapPockets_pockets]
  split <;> rfl

/-- R117: an eject started. -/
theorem accounted_startEject {n : Nat} (h : accounted b s) : accounted b (startEject p c n s) := by
  have waits : accounted b
      (mapPocket p (fun x => { x with phase := .ejectWait, attempt := n, window := none, rearm := none }) s) :=
    accounted_mapPocket rfl rfl h
  unfold startEject askEject
  split
  · exact accounted_jamPocket calm waits
  · exact accounted_request waits

/-- R113: a kick-through. -/
theorem accounted_kickThrough {credit inSequence : Bool} (h : accounted b s) :
    accounted b (kickThrough p c credit inSequence s) := by
  have passes : accounted b (mapPocket p (fun x => { x with through := 1, pending := x.pending + 1 }) s) :=
    accounted_mapPocket rfl rfl h
  have told : accounted b (if credit = true then offerLock lockKickThrough 1 p
      (mapPocket p (fun x => { x with through := 1, pending := x.pending + 1 }) s)
      else mapPocket p (fun x => { x with through := 1, pending := x.pending + 1 }) s) := by
    split
    · exact accounted_offer passes
    · exact passes
  unfold kickThrough
  dsimp only
  cases inSequence with
  | true => exact told
  | false => exact accounted_startEject calm told

/-- R112: a ball that enters. -/
theorem accounted_ballEnters (h : accounted b s) : accounted b (ballEnters p c false s) := by
  unfold ballEnters
  dsimp only
  split
  · exact accounted_kickThrough calm h
  · split
    · exact accounted_offer (accounted_countPocket calm h)
    · split
      · exact accounted_mapPocket rfl rfl h
      · exact accounted_kickThrough calm h

/-- R132: a pocket judged. -/
theorem accounted_judgeAtJoin (h : accounted b s) : accounted b (judgeAtJoin p c s) := by
  unfold judgeAtJoin
  split
  · split
    · exact accounted_ballEnters calm h
    · exact h
  · split
    · exact accounted_offer (accounted_countPocket calm h)
    · exact h
  · exact h

end

/-- The judging of a pocket leaves the setup. -/
@[simp] theorem judgeAtJoin_setup : (judgeAtJoin p c s).control.setup = s.control.setup := by
  unfold judgeAtJoin
  (repeat' split) <;> simp

/-- R132: the judging of a pocket by its opto. -/
theorem judgeAtJoin_eq : judgeAtJoin p c s = match optoLevel s c with
    | none => s
    | some true => if (pocket s p).clear = true then ballEnters p c false s else s
    | some false =>
      if 0 < (pocket s p).held then
        tellLock 5 p s.rules.current { pocket s p with held := 0, phase := .empty }
          (recomputeB (putPocket p { pocket s p with held := 0, phase := .empty } s))
      else s := by
  unfold judgeAtJoin
  cases optoLevel s c with
  | none => rfl
  | some level =>
    cases level with
    | true => rfl
    | false =>
      dsimp only
      split
      · rw [countPocket, mapPocket_eq, offerLock_eq lockLost (player := s.rules.current)
          (by rw [(recomputeB_frame _).2.2.2.1]; rfl) (pocket_recomputeB_putPocket p _ s)]
        rfl
      · rfl

/-- R132: a pocket with no ball. -/
theorem clear_iff {x : PocketState} : x.clear = true ↔
    x.held = 0 ∧ x.resting = 0 ∧ x.stuck = 0 ∧ x.through = 0 ∧ x.pending = 0 := by
  unfold PocketState.clear
  simp only [Bool.and_eq_true, beq_iff_eq, and_assoc]

end

/-! ## A bank judged, and a hold that asks (R34, R172) -/

section
variable {s : State} {k : BankNo} {c : BankCfg} {d : DriverNo}

/-- A bank with a reset driver is a DROP bank. -/
theorem isDrop_of_resetDriver (h : c.resetDriver = some d) : c.isDrop = true := by
  unfold BankCfg.resetDriver at h
  unfold BankCfg.isDrop
  split at h <;> simp_all

/-- R34: a configured bank judged. -/
theorem bankAtJoin_eq (cfg : bankCfg s k = some c) : bankAtJoin k s =
    if c.isDrop = true ∧ (bank s k).phase = .counting ∧ c.completion ≤ markedCount s c then dropCompletes k c s
    else s := by
  unfold bankAtJoin
  rw [cfg]

/-- R33, R34, R172: a DROP bank that completes with a reset driver that works: its member features HELD, the drivers
that follow, the request. -/
theorem dropCompletes_follows (reset : c.resetDriver = some d) (works : (unit s d).phase ≠ .faulted) :
    let fallen : State := { s with rules := { s.rules with
      features := .ofFn fun f => if f ∈ memberFeatures s c then .held else resting s f } }
    ∃ x, holdsFollow s fallen x ∧ dropCompletes k c s = request d .reset 100 (.bank k) { fallen with
      drivers := x
      rules := { fallen.rules with
        banks := s.rules.banks.set k { phase := .resetting, attempt := 1, timer := none, restart := false } } } := by
  intro fallen
  have table : fallen = s.withFeatures (featuresAfter (fun _ => true) .held (memberFeatures s c) s) := by
    unfold fallen State.withFeatures featuresAfter
    simp only [and_true]
  have held : heldMembers c s = fallen.withDrivers (heldMembers c s).drivers := by
    rw [table]
    exact setFeatures_eq
  have follows : holdsFollow s fallen (heldMembers c s).drivers := by
    rw [table]
    exact setFeatures_unlit_follows (.inr rfl)
  generalize (heldMembers c s).drivers = x at held follows
  refine ⟨x, follows, ?_⟩
  rw [dropCompletes_eq reset, if_neg works, held]
  rfl

end

end Sys2Proof.Machine

end

