-- ==== Sys2Proof/Proofs/HandOvers.lean ====
section
/-! SUPPORT. The hand-over at the end of joining (R88, R106, R186 steps 1 to 3): the game, the accounting, the modes. -/

namespace Sys2Proof

/-! ## Numbers in ascending order -/

section
variable {n : Nat}

/-- The numbers before `k`, `k`, and the rest. -/
theorem finRange_eq_append (k : Fin n) : ∃ l₁ l₂, List.finRange n = l₁ ++ k :: l₂ ∧ ∀ j ∈ l₁, j < k := by
  obtain ⟨l₁, l₂, split⟩ := List.append_of_mem (List.mem_finRange k)
  have sorted := List.pairwise_lt_finRange n
  rw [split, List.pairwise_append] at sorted
  exact ⟨l₁, l₂, split, fun j hj => sorted.2.2 j hj k List.mem_cons_self⟩

/-- A pass that brings about `after` at number `k`, where `before` holds until then. -/
theorem eachUp_reaches {σ : Type} {f : Fin n → σ → σ} {s : σ} (before after : σ → Prop) (k : Fin n)
    (until_ : ∀ j, j < k → ∀ t, before t → before (f j t)) (reach : ∀ t, before t → after (f k t))
    (since : ∀ j t, after t → after (f j t)) (h : before s) : after (eachUp n f s) := by
  obtain ⟨l₁, l₂, split, lower⟩ := finRange_eq_append k
  have first (l : List (Fin n)) (low : ∀ j ∈ l, j < k) (t : σ) (h : before t) :
      before (l.foldl (fun t j => f j t) t) := by
    induction l generalizing t with
    | nil => exact h
    | cons j l ih =>
      exact ih (fun i hi => low i (List.mem_cons_of_mem j hi)) _ (until_ j (low j List.mem_cons_self) t h)
  unfold eachUp
  rw [split, List.foldl_append, List.foldl_cons]
  exact foldl_inv after (fun t j => f j t) (fun t j => since j t) l₂ _ (reach _ (first l₁ lower s h))

/-- The first number at which something is found. -/
theorem findSome?_finRange_eq_some {β : Type} {f : Fin n → Option β} {k : Fin n} {x : β} (found : f k = some x)
    (none_ : ∀ j, j < k → f j = none) : (List.finRange n).findSome? f = some x := by
  obtain ⟨l₁, l₂, split, lower⟩ := finRange_eq_append k
  exact List.findSome?_eq_some_iff.mpr ⟨l₁, k, l₂, split, found, fun j hj => none_ j (lower j hj)⟩

/-- Of two properties, one implying the other, the wider holds more often where they differ. -/
theorem countP_finRange_lt {p q : Fin n → Bool} (k : Fin n) (le : ∀ j, p j = true → q j = true) (hp : p k = false)
    (hq : q k = true) : (List.finRange n).countP p < (List.finRange n).countP q := by
  obtain ⟨l₁, l₂, split, -⟩ := finRange_eq_append k
  have low : l₁.countP p ≤ l₁.countP q := List.countP_mono_left fun j _ => le j
  have high : l₂.countP p ≤ l₂.countP q := List.countP_mono_left fun j _ => le j
  rw [split, List.countP_append, List.countP_append, List.countP_cons, List.countP_cons, hp, hq]
  simp only [Bool.false_eq_true, if_false, if_true]
  omega

/-- How many entries of a table satisfy `p`. -/
theorem Tab.count_eq {α : Type} (t : Tab n α) (p : α → Bool) :
    t.count p = (List.finRange n).countP fun i => p (t.get i) := by
  have cells : t.cells = (List.finRange n).map t.get := by
    refine List.ext_getElem (by rw [t.size, List.length_map, List.length_finRange]) fun i h _ => ?_
    rw [List.getElem_map, List.getElem_finRange]
    rfl
  unfold Tab.count
  rw [cells, List.countP_map]
  rfl

end

/-- The largest of a list of numbers and a first one. -/
theorem foldl_max_spec (l : List Nat) (a : Nat) : a ≤ l.foldl max a ∧ (∀ x ∈ l, x ≤ l.foldl max a) ∧
    (l.foldl max a = a ∨ l.foldl max a ∈ l) := by
  induction l generalizing a with
  | nil => exact ⟨Nat.le_refl a, by simp, .inl rfl⟩
  | cons y l ih =>
    obtain ⟨first, bound, attained⟩ := ih (max a y)
    refine ⟨Nat.le_trans (Nat.le_max_left a y) first, fun x hx => ?_, ?_⟩
    · rcases List.mem_cons.mp hx with rfl | hx
      · exact Nat.le_trans (Nat.le_max_right a x) first
      · exact bound x hx
    · rcases attained with top | inside
      · rcases Nat.le_total a y with le | le
        · exact .inr (List.mem_cons.mpr (.inl (by rw [List.foldl_cons, top, Nat.max_eq_right le])))
        · exact .inl (by rw [List.foldl_cons, top, Nat.max_eq_left le])
      · exact .inr (List.mem_cons_of_mem y inside)

end Sys2Proof

namespace Sys2Proof.Machine

section
variable {s t u : State}

/-! ## The game entered (R186 step 1) -/

/-- What the entered game changes. -/
theorem enterGame_eq (s : State) : enterGame s = { s with
    control := { s.control with station := (enterGame s).control.station
                                playerCount := (enterGame s).control.playerCount }
    rules := { s.rules with current := (enterGame s).rules.current } } := by
  unfold enterGame
  cases candidate s <;> rfl

/-- R186: the entered state is a game state. -/
theorem enterGame_inGame (s : State) : inGame (enterGame s) = true := by
  unfold enterGame
  cases h : candidate s with
  | none => rfl
  | some x =>
    obtain ⟨st, r⟩ := x
    obtain ⟨l₁, j, l₂, -, found, -⟩ := List.findSome?_eq_some_iff.mp h
    dsimp only at found
    split at found
    · obtain ⟨q, -, state⟩ := Option.bind_eq_some_iff.mp found
      obtain ⟨st', playing, same⟩ := Option.map_eq_some_iff.mp state
      obtain ⟨rfl, rfl⟩ := Prod.mk.inj same
      change StationState.inGame _ = true
      revert playing
      generalize CensusRecord.state _ = reported
      cases reported <;> simp only [CensusState.playing, Option.some.injEq, reduceCtorEq, false_implies] <;>
        rintro rfl <;> rfl
    · cases found

/-- R88: with no PRESENT station in a game there is no candidate. -/
theorem candidate_none (h : ∀ j r, (peer s j).presence = .present → (peer s j).record = some r →
    r.state.playing = none) : candidate s = none := by
  refine List.findSome?_eq_none_iff.mpr fun j _ => ?_
  dsimp only
  split
  · rename_i present
    cases record : (peer s j).record with
    | none => rfl
    | some r =>
      rw [Option.bind_some, h j r present record]
      rfl
  · rfl

/-- R88: the lowest-numbered PRESENT station in a game is the candidate. -/
theorem candidate_some {j : StationNo} {r : CensusRecord} {st : StationState} (present : (peer s j).presence = .present)
    (record : (peer s j).record = some r) (playing : r.state.playing = some st)
    (lower : ∀ k q, k < j → (peer s k).presence = .present → (peer s k).record = some q → q.state.playing = none) :
    candidate s = some (st, r) := by
  refine findSome?_finRange_eq_some (k := j) ?_ fun k hk => ?_
  · dsimp only
    rw [if_pos present, record, Option.bind_some, playing]
    rfl
  · dsimp only
    split
    · rename_i present
      cases record : (peer s k).record with
      | none => rfl
      | some q =>
        rw [Option.bind_some, lower k q hk present record]
        rfl
    · rfl

/-! ## The accounting handed over (R186 step 2) -/

/-- R88: the accounting view handed over. -/
def handedOver (s : State) : State := { s with balls := { s.balls with
  peers := .ofFn (countsAtJoin s)
  trough := match (troughRecord s).bind (·.trough) with
    | some t => some t
    | none => s.balls.trough
  missing := missingAtJoin s } }

/-- R134, R142, R147: B recounted in `v`, the multiball phase set by it, the quiet timer restarted. -/
theorem restartQuiet_recomputeB (v : State) (game : inGame v = true) (x : Phase) :
    restartQuiet (setPhase x (recomputeB v)) = { v with
      control := (recomputeB v).control
      balls := { v.balls with
        inPlay := inPlayCount v, phase := x, quiet := some (v.control.image.searchDelay * 1000)
        search := .idle, round := 0, todo := [], searchTimer := none } } := by
  have entered : inGame (setPhase x (recomputeB v)) = true := by
    have setup : (setPhase x (recomputeB v)).control.setup = v.control.setup := recomputeB_setup v
    rw [inGame_of_setup setup, game]
  have delay : (setPhase x (recomputeB v)).control.image = v.control.image := image_of_setup (recomputeB_setup v)
  rw [restartQuiet_eq, entered]
  unfold State.stirredBy
  rw [delay]
  unfold setPhase
  rw [recomputeB_eq]
  by_cases none_ : inPlayCount v = 0
  · simp only [if_pos none_]
    rfl
  · simp only [if_neg none_]
    rfl

/-- R88, R134, R142, R147: what the hand-over of the accounting changes. -/
theorem accountAtJoin_eq (game : inGame s = true) : accountAtJoin s = { s with
    control := (recomputeB (handedOver s)).control
    balls := { (handedOver s).balls with
      inPlay := inPlayCount (handedOver s)
      phase := if (s.control.station = .play ∨ s.control.station = .tilt) ∧ 2 ≤ inPlayCount (handedOver s) then .multi
        else .single
      quiet := some (s.control.image.searchDelay * 1000)
      search := .idle, round := 0, todo := [], searchTimer := none } } := by
  have station : (recomputeB (handedOver s)).control.station = s.control.station :=
    station_of_setup (recomputeB_setup (handedOver s))
  have count : (recomputeB (handedOver s)).balls.inPlay = inPlayCount (handedOver s) := by
    rw [recomputeB_eq]
    dsimp only
    split <;> rfl
  have phase : accountAtJoin s = restartQuiet (setPhase (if ((recomputeB (handedOver s)).control.station = .play ∨
      (recomputeB (handedOver s)).control.station = .tilt) ∧ 2 ≤ (recomputeB (handedOver s)).balls.inPlay then .multi
      else .single) (recomputeB (handedOver s))) := rfl
  rw [phase, station, count]
  exact restartQuiet_recomputeB (handedOver s) game _

/-- R88: the largest missing count bounds that of every station in a game. -/
theorem le_largestMissing {j : StationNo} {r : CensusRecord} (record : (peer s j).record = some r)
    (playing : r.state.playing.isSome = true) : r.missing ≤ largestMissing s := by
  refine (foldl_max_spec _ 0).2.1 _ (List.mem_map.mpr ⟨j, List.mem_finRange j, ?_⟩)
  rw [record]
  exact if_pos playing

/-- R88: the largest missing count is that of a station in a game, or 0. -/
theorem largestMissing_attained : largestMissing s = 0 ∨ ∃ j r, (peer s j).record = some r ∧
    r.state.playing.isSome = true ∧ largestMissing s = r.missing := by
  rcases (foldl_max_spec _ 0).2.2 with zero | inside
  · exact .inl zero
  · obtain ⟨j, -, same⟩ := List.mem_map.mp inside
    have same : _ = largestMissing s := same
    cases record : (peer s j).record with
    | none =>
      rw [record] at same
      exact .inl same.symm
    | some r =>
      rw [record] at same
      dsimp only at same
      split at same
      · rename_i playing
        exact .inr ⟨j, r, record, playing, same.symm⟩
      · exact .inl same.symm

end

/-! ## The modes made (R106, R186 step 3) -/

section
variable {s t : State} {m k : ModeId} {j : StationNo} {d : ModeDef} {r : CensusRecord} {e : ModeEntry}

/-- R106: a mode that a record reports, made where it can be. -/
def makeReported (r : CensusRecord) (m : ModeId) (j : StationNo) (u : State) : State :=
  if r.modes.get m = true then makeFromCensus (fun g => g) m j u else u

/-- R106: the modes of one station's record. -/
def makeRecorded (j : StationNo) (t : State) : State :=
  (peer t j).record.elim t fun r => eachUp 32 (fun m u => makeReported r m j u) t

/-- R106: outside PLAY and TILT no mode is made. -/
theorem modesAtJoin_stays (h : ¬ (s.control.station = .play ∨ s.control.station = .tilt)) : modesAtJoin s = s :=
  if_neg h

/-- R106: in PLAY and TILT the records are taken in ascending station number. -/
theorem modesAtJoin_eq (h : s.control.station = .play ∨ s.control.station = .tilt) :
    modesAtJoin s = eachUp 16 makeRecorded s := by
  have each : makeRecorded = fun j t => match (peer t j).record with
      | some r => eachUp 32 (fun m u => if r.modes.get m then makeFromCensus (fun g => g) m j u else u) t
      | none => t := by
    funext j t
    unfold makeRecorded
    cases (peer t j).record <;> rfl
  rw [each]
  exact if_pos h

/-- R105, R106: what is made of a mode changes the mode table alone. -/
theorem makeFromCensus_eq : makeFromCensus (fun g => g) m j t =
    { t with modes := (makeFromCensus (fun g => g) m j t).modes } := by
  unfold makeFromCensus
  split
  · split <;> rfl
  · rfl

/-- R105, R106: a mode with a definition and no entry is made while the table has room. -/
theorem makeFromCensus_makes (defined : modeDef t m = some d) (free : t.modes.get m = none) (room : modeCount t < 12) :
    (makeFromCensus (fun g => g) m j t).modes.get m = some (freshMode d j (timeOf d.duration)) := by
  unfold makeFromCensus
  rw [defined, free]
  dsimp only
  rw [if_pos (show modeCount t < Config.modeMax from room)]
  exact Tab.get_set_self _ _ _

/-- R105, R106: no other mode is made. -/
theorem makeFromCensus_other (other : k ≠ m) : (makeFromCensus (fun g => g) m j t).modes.get k = t.modes.get k := by
  unfold makeFromCensus
  split
  · split
    · exact Tab.get_set_other _ _ other
    · rfl
  · rfl

/-- R105, R106: an entry stays as it is. -/
theorem makeFromCensus_persists (h : t.modes.get k = some e) :
    (makeFromCensus (fun g => g) m j t).modes.get k = some e := by
  by_cases same : k = m
  · subst same
    unfold makeFromCensus
    rw [h]
    cases modeDef t k <;> exact h
  · rw [makeFromCensus_other same, h]

/-- R106: some record reports mode `m`. -/
def reported (s : State) (m : ModeId) : Bool :=
  (List.finRange 16).any fun j => (peer s j).record.any fun r => r.modes.get m

/-- R106: `t` is `s` with modes made that its records report. -/
structure MakesReported (s t : State) : Prop where
  rest : t = { s with modes := t.modes }
  kept : ∀ m e, s.modes.get m = some e → t.modes.get m = some e
  made : ∀ m, (t.modes.get m).isSome = true → ((s.modes.get m).isSome || reported s m) = true

/-- R106: a reported mode made. -/
theorem MakesReported.makeReported (h : MakesReported s t) (record : (peer s j).record = some r) :
    MakesReported s (makeReported r m j t) := by
  unfold Machine.makeReported
  split
  · rename_i reports
    refine ⟨?_, fun k e entry => makeFromCensus_persists (h.kept k e entry), fun k entry => ?_⟩
    · refine makeFromCensus_eq.trans ?_
      rw [h.rest]
    · by_cases same : k = m
      · subst same
        have here : reported s k = true :=
          List.any_eq_true.mpr ⟨j, List.mem_finRange j, by rw [record]; exact reports⟩
        rw [here, Bool.or_true]
      · rw [makeFromCensus_other same] at entry
        exact h.made k entry
  · exact h

/-- R106: a record in `t` is that in `s`. -/
theorem MakesReported.record (h : MakesReported s t) : (peer t j).record = (peer s j).record := by
  rw [h.rest]
  rfl

/-- R106: a station's record taken. -/
theorem MakesReported.makeRecorded (h : MakesReported s t) : MakesReported s (makeRecorded j t) := by
  unfold Machine.makeRecorded
  rw [h.record]
  cases record : (peer s j).record with
  | none => exact h
  | some r => exact eachUp_inv (MakesReported s) _ (fun m u hu => hu.makeReported record) t h

/-- R106: the modes made are reported, and those with an entry keep it. -/
theorem modesAtJoin_makesReported : MakesReported s (modesAtJoin s) := by
  have start : MakesReported s s := ⟨rfl, fun _ _ h => h, fun m h => by rw [h, Bool.true_or]⟩
  by_cases playing : s.control.station = .play ∨ s.control.station = .tilt
  · rw [modesAtJoin_eq playing]
    exact eachUp_inv (MakesReported s) makeRecorded (fun j t ht => ht.makeRecorded) s start
  · rw [modesAtJoin_stays playing]
    exact start

/-- R106: with at most 12 modes owned or reported, there is room for one that is reported and not yet made. -/
theorem MakesReported.room (h : MakesReported s t)
    (few : (List.finRange 32).countP (fun m => (s.modes.get m).isSome || reported s m) ≤ 12)
    (free : t.modes.get m = none) (reports : reported s m = true) : modeCount t < 12 := by
  have fewer : (List.finRange 32).countP (fun m => (t.modes.get m).isSome) <
      (List.finRange 32).countP (fun m => (s.modes.get m).isSome || reported s m) :=
    countP_finRange_lt m h.made (by rw [free]; rfl) (by rw [reports, Bool.or_true])
  unfold modeCount
  rw [Tab.count_eq]
  omega

/-- R106: in PLAY and TILT, with at most 12 modes owned or reported, a reported mode with a definition and no entry is
made, owned by the lowest-numbered station that reports it. -/
theorem modesAtJoin_makes (playing : s.control.station = .play ∨ s.control.station = .tilt)
    (few : (List.finRange 32).countP (fun m => (s.modes.get m).isSome || reported s m) ≤ 12)
    (free : s.modes.get m = none) (defined : modeDef s m = some d) (record : (peer s j).record = some r)
    (reports : r.modes.get m = true)
    (lowest : ∀ k q, k < j → (peer s k).record = some q → q.modes.get m = false) :
    (modesAtJoin s).modes.get m = some (freshMode d j (timeOf d.duration)) := by
  have here : reported s m = true :=
    List.any_eq_true.mpr ⟨j, List.mem_finRange j, by rw [record]; exact reports⟩
  rw [modesAtJoin_eq playing]
  refine eachUp_reaches (fun t => MakesReported s t ∧ t.modes.get m = none)
    (fun t => t.modes.get m = some (freshMode d j (timeOf d.duration))) j (fun k lower t => ?_) (fun t => ?_)
    (fun k t made => ?_) ⟨⟨rfl, fun _ _ h => h, fun m h => by rw [h, Bool.true_or]⟩, free⟩
  · rintro ⟨h, unmade⟩
    refine ⟨h.makeRecorded, ?_⟩
    unfold makeRecorded
    rw [h.record]
    cases other : (peer s k).record with
    | none => exact unmade
    | some q =>
      refine eachUp_inv (fun t => t.modes.get m = none) _ (fun n u hu => ?_) t unmade
      unfold makeReported
      split
      · rename_i reports
        have differs : m ≠ n := fun same => by
          rw [← same, lowest k q lower other] at reports
          cases reports
        rw [makeFromCensus_other differs, hu]
      · exact hu
  · rintro ⟨h, unmade⟩
    unfold makeRecorded
    rw [h.record, record]
    refine eachUp_reaches (fun t => MakesReported s t ∧ t.modes.get m = none)
      (fun t => t.modes.get m = some (freshMode d j (timeOf d.duration))) m (fun n lower u => ?_) (fun u => ?_)
      (fun n u made => ?_) ⟨h, unmade⟩
    · rintro ⟨hu, unmade⟩
      refine ⟨hu.makeReported record, ?_⟩
      unfold makeReported
      split
      · rw [makeFromCensus_other (Fin.ne_of_gt lower), unmade]
      · exact unmade
    · rintro ⟨hu, unmade⟩
      have defined' : modeDef u m = some d := by
        rw [hu.rest]
        exact defined
      unfold makeReported
      rw [if_pos reports]
      exact makeFromCensus_makes defined' unmade (hu.room few unmade here)
    · unfold makeReported
      split
      · exact makeFromCensus_persists made
      · exact made
  · unfold makeRecorded
    cases (peer t k).record with
    | none => exact made
    | some q =>
      refine eachUp_inv (fun t => t.modes.get m = some (freshMode d j (timeOf d.duration))) _ (fun n u hu => ?_) t made
      unfold makeReported
      split
      · exact makeFromCensus_persists hu
      · exact hu

end

end Sys2Proof.Machine

end

