-- ==== Sys2Proof/Proofs/JoinEnds.lean ====
section
/-! SUPPORT. The end of joining, its six steps together (R186). -/

namespace Sys2Proof.Machine

section
variable {s t u v : State} {b : Balls}

/-! ## Steps 4 to 6: pockets, banks, holds -/

/-- R186 steps 4 to 6. -/
def judgedAtJoin (u : State) : State :=
  eachUp 8 (fun d t => askAgain (.hold d) t) (eachUp 4 bankAtJoin (eachPocket judgeAtJoin u))

/-- What these steps leave. -/
theorem judgedAtJoin_keeps {τ : Type} (g : State → τ) (pocket : ∀ p c t, g (judgeAtJoin p c t) = g t)
    (bank : ∀ k c t, g (dropCompletes k c t) = g t) (hold : ∀ d t, g (request d .eject 100 (.hold d) t) = g t)
    (u : State) : g (judgedAtJoin u) = g u := by
  unfold judgedAtJoin eachPocket
  rw [eachUp_keeps g _ fun d t => ?holds, eachUp_keeps g _ fun k t => ?banks, eachUp_keeps g _ fun p t => ?pockets]
  case holds =>
    rw [askAgain_hold]
    split
    · exact hold d t
    · rfl
  case banks =>
    unfold bankAtJoin
    split
    · split
      · exact bank k _ t
      · rfl
    · rfl
  case pockets =>
    split
    · exact pocket p _ t
    · rfl

/-- Of the Rule Engine a DROP bank's completion changes the features and the banks. -/
theorem dropCompletes_other_rules (k : BankNo) (c : BankCfg) (s : State) :
    (dropCompletes k c s).rules.tallies = s.rules.tallies ∧
      (dropCompletes k c s).rules.contexts = s.rules.contexts := by
  have sets (p : Resting → Bool) (r : Resting) (fs : List FeatureNo) (t : State) :
      (setFeatures p r fs t).rules.tallies = t.rules.tallies ∧
        (setFeatures p r fs t).rules.contexts = t.rules.contexts := by
    rw [setFeatures_eq]
    exact ⟨rfl, rfl⟩
  unfold dropCompletes beginReset askReset faultBank
  (repeat' split) <;> simp [sets, mapBank_eq, putBank]

/-- R134: the count in play is kept through these steps. -/
theorem accounted_judgedAtJoin (calm : { b with search := .idle, round := 0, todo := [], searchTimer := none } = b)
    (h : accounted b u) : accounted b (judgedAtJoin u) := by
  unfold judgedAtJoin eachPocket
  refine eachUp_inv (accounted b) _ (fun d t ht => ?_) _ (eachUp_inv (accounted b) _ (fun k t ht => ?_) _
    (eachUp_inv (accounted b) _ (fun p t ht => ?_) _ h))
  · rw [askAgain_hold]
    split
    · exact accounted_request ht
    · exact ht
  · unfold bankAtJoin
    split
    · split
      · exact accounted_of_pockets (by simp) (by simp) (by simp) ht
      · exact ht
    · exact ht
  · split
    · exact accounted_judgeAtJoin calm ht
    · exact ht

/-- R132: with no pocket opto these steps leave the balls. -/
theorem judgedAtJoin_balls (bare : ∀ p c, pocketCfg u p = some c → c.opto = none) :
    (judgedAtJoin u).balls = u.balls := by
  have judged : eachPocket judgeAtJoin u = u := eachUp_fixed fun p => by
    cases cfg : pocketCfg u p with
    | none => rfl
    | some c =>
      dsimp only
      rw [judgeAtJoin_eq]
      unfold optoLevel
      rw [bare p c cfg]
      rfl
  unfold judgedAtJoin
  rw [judged, eachUp_keeps State.balls _ fun d t => ?holds, eachUp_keeps State.balls _ fun k t => ?banks]
  case holds =>
    rw [askAgain_hold]
    split
    · simp
    · rfl
  case banks =>
    unfold bankAtJoin
    split
    · split
      · simp
      · rfl
    · rfl

/-! ## Steps 1 to 3: the game, the accounting, the modes -/

/-- R186 step 1. -/
def entersAtJoin (s : State) : State := enterGame { s with control := { s.control with joining := none } }

/-- R186 steps 1 to 3. -/
def joinsWith (s : State) : State := modesAtJoin (accountAtJoin (entersAtJoin s))

/-- R186: the six steps. -/
theorem endJoining_eq (joining : s.control.station = .joining) (timed : s.control.joining.isSome = true) :
    endJoining s = judgedAtJoin (joinsWith s) := if_pos ⟨joining, timed⟩

/-- The game entered leaves what the hand-over reads. -/
theorem handedOver_entersAtJoin : handedOver (entersAtJoin s) =
    { entersAtJoin s with balls := (handedOver s).balls } := by
  unfold entersAtJoin
  rw [enterGame_eq]
  rfl

/-- R88, R106: what steps 1 to 3 change. -/
theorem joinsWith_eq : joinsWith s = { entersAtJoin s with
    control := (recomputeB (handedOver (entersAtJoin s))).control
    modes := (joinsWith s).modes
    balls := { (handedOver s).balls with
      inPlay := inPlayCount (handedOver (entersAtJoin s))
      phase := if ((entersAtJoin s).control.station = .play ∨ (entersAtJoin s).control.station = .tilt) ∧
          2 ≤ inPlayCount (handedOver (entersAtJoin s)) then .multi else .single
      quiet := some (s.control.image.searchDelay * 1000)
      search := .idle, round := 0, todo := [], searchTimer := none } } := by
  have image : (entersAtJoin s).control.image = s.control.image := by
    unfold entersAtJoin
    rw [enterGame_eq]
  have rest : joinsWith s = { accountAtJoin (entersAtJoin s) with modes := (joinsWith s).modes } :=
    modesAtJoin_makesReported.rest
  refine rest.trans ?_
  generalize (joinsWith s).modes = modes
  rw [accountAtJoin_eq (s := entersAtJoin s) (enterGame_inGame _), image]
  generalize inPlayCount (handedOver (entersAtJoin s)) = count
  generalize (recomputeB (handedOver (entersAtJoin s))).control = control
  rw [handedOver_entersAtJoin]

/-- R134: a recount of what the hand-over left, whatever count stood. -/
theorem recomputeB_restores {modes : Tab 32 (Option ModeEntry)} {n : Nat} (left : b = { v.balls with
      inPlay := inPlayCount v, phase := b.phase, quiet := b.quiet, search := .idle, round := 0, todo := []
      searchTimer := none }) :
    recomputeB { v with modes := modes, balls := { b with inPlay := n } } =
      { v with control := (recomputeB v).control, modes := modes, balls := b } := by
  have view : SameView v { v with modes := modes, balls := { b with inPlay := n } } :=
    ⟨rfl, rfl, by rw [left], by rw [left], by rw [left], rfl, rfl⟩
  have counted : { b with inPlay := inPlayCount v } = b := by rw [left]
  have calm : { b with inPlay := inPlayCount v, search := .idle, round := 0, todo := [], searchTimer := none } = b := by
    rw [left]
  rw [recomputeB_eq, recomputeB_eq v, view.counts.1, view.counts.2]
  by_cases none_ : inPlayCount v = 0
  · rw [if_pos none_, calm]
  · rw [if_neg none_, counted]

/-- R186 step 1: what the entered game changes. -/
theorem entersAtJoin_eq : entersAtJoin s = { s with
    control := { s.control with station := (entersAtJoin s).control.station
                                playerCount := (entersAtJoin s).control.playerCount, joining := none }
    rules := { s.rules with current := (entersAtJoin s).rules.current } } :=
  enterGame_eq { s with control := { s.control with joining := none } }

/-! ## The six steps together -/

/-- The player count is of the setup. -/
theorem playerCount_of_setup (h : t.control.setup = s.control.setup) : t.control.playerCount = s.control.playerCount :=
  have e := congrArg Control.playerCount h
  e

/-- The joining timer is of the setup. -/
theorem joining_of_setup (h : t.control.setup = s.control.setup) : t.control.joining = s.control.joining :=
  have e := congrArg Control.joining h
  e

/-- R88, R186: what the six steps leave in `t`. -/
structure JoinEnds (s t : State) : Prop where
  control : t.control.station = (entersAtJoin s).control.station ∧
    t.control.playerCount = (entersAtJoin s).control.playerCount ∧ t.control.joining = none
  kept : t.scanner = s.scanner ∧ t.analog = s.analog ∧ t.trough = s.trough ∧ t.peers = s.peers
  rules : t.rules.current = (entersAtJoin s).rules.current ∧ t.rules.tallies = s.rules.tallies ∧
    t.rules.contexts = s.rules.contexts
  modes : t.modes = (joinsWith s).modes
  balls : t.balls = { (joinsWith s).balls with inPlay := inPlayCount t }

/-- R88: what steps 1 to 3 leave. -/
theorem joinEnds_joinsWith : JoinEnds s (joinsWith s) := by
  have setup : (joinsWith s).control.setup = (entersAtJoin s).control.setup := by
    rw [joinsWith_eq]
    exact recomputeB_setup (handedOver (entersAtJoin s))
  have station : (joinsWith s).control.station = (entersAtJoin s).control.station := station_of_setup setup
  have players : (joinsWith s).control.playerCount = (entersAtJoin s).control.playerCount :=
    playerCount_of_setup setup
  have joining : (joinsWith s).control.joining = (entersAtJoin s).control.joining := joining_of_setup setup
  have count : inPlayCount (joinsWith s) = inPlayCount (handedOver (entersAtJoin s)) := by
    refine (SameView.counts (s := handedOver (entersAtJoin s)) ?_).1
    have stands := joinsWith_eq (s := s)
    have balls : (handedOver (entersAtJoin s)).balls = (handedOver s).balls := by rw [handedOver_entersAtJoin]
    have pockets : (joinsWith s).pockets = (entersAtJoin s).pockets := by rw [stands]
    refine ⟨image_of_setup setup, strap_of_setup setup, ?_, ?_, ?_, ?_, ?_⟩
    · rw [balls, stands]
    · rw [balls, stands]
    · rw [balls, stands]
    · exact congrArg (fun k : PocketCtl => k.pockets.sum fun p => p.held) pockets
    · exact congrArg (fun k : PocketCtl => k.pockets.sum fun p => p.stuck) pockets
  refine ⟨⟨station, players, ?_⟩, ?_, ?_, rfl, ?_⟩
  · rw [joining, entersAtJoin_eq]
  · rw [joinsWith_eq, entersAtJoin_eq]
    exact ⟨rfl, rfl, rfl, rfl⟩
  · rw [joinsWith_eq, entersAtJoin_eq]
    exact ⟨rfl, rfl, rfl⟩
  · rw [count, joinsWith_eq]

/-- R147, R148: the quiet timer's restart has ended a search. -/
theorem joinsWith_calm : { (joinsWith s).balls with search := .idle, round := 0, todo := [], searchTimer := none } =
    (joinsWith s).balls := by
  rw [joinsWith_eq]

/-- R88, R186: what the six steps leave. -/
theorem joinEnds_judgedAtJoin : JoinEnds s (judgedAtJoin (joinsWith s)) := by
  obtain ⟨⟨station, players, joining⟩, kept, rules, -, balls⟩ := joinEnds_joinsWith (s := s)
  have setup : (judgedAtJoin (joinsWith s)).control.setup = (joinsWith s).control.setup :=
    judgedAtJoin_keeps (·.control.setup) (by simp) (by simp) (by simp) _
  have scanner := judgedAtJoin_keeps State.scanner (by simp) (by simp) (by simp) (joinsWith s)
  have analog := judgedAtJoin_keeps State.analog (by simp) (by simp) (by simp) (joinsWith s)
  have trough := judgedAtJoin_keeps State.trough (by simp) (by simp) (by simp) (joinsWith s)
  have peers := judgedAtJoin_keeps State.peers (by simp) (by simp) (by simp) (joinsWith s)
  have modes := judgedAtJoin_keeps State.modes (by simp) (by simp) (by simp) (joinsWith s)
  have current := judgedAtJoin_keeps (·.rules.current) (by simp) (fun _ _ _ => dropCompletes_current) (by simp)
    (joinsWith s)
  have tallies := judgedAtJoin_keeps (·.rules.tallies) (by simp) (fun k c t => (dropCompletes_other_rules k c t).1)
    (by simp) (joinsWith s)
  have contexts := judgedAtJoin_keeps (·.rules.contexts) (by simp) (fun k c t => (dropCompletes_other_rules k c t).2)
    (by simp) (joinsWith s)
  have calm := joinsWith_calm (s := s)
  have counted : accounted (joinsWith s).balls (joinsWith s) := balls
  have counts : accounted (joinsWith s).balls (judgedAtJoin (joinsWith s)) := accounted_judgedAtJoin calm counted
  have kept' : (judgedAtJoin (joinsWith s)).scanner = s.scanner ∧ (judgedAtJoin (joinsWith s)).analog = s.analog ∧
      (judgedAtJoin (joinsWith s)).trough = s.trough ∧ (judgedAtJoin (joinsWith s)).peers = s.peers := by
    rw [scanner, analog, trough, peers]
    exact kept
  have rules' : (judgedAtJoin (joinsWith s)).rules.current = (entersAtJoin s).rules.current ∧
      (judgedAtJoin (joinsWith s)).rules.tallies = s.rules.tallies ∧
      (judgedAtJoin (joinsWith s)).rules.contexts = s.rules.contexts := by
    rw [current, tallies, contexts]
    exact rules
  exact JoinEnds.mk ⟨(station_of_setup setup).trans station, (playerCount_of_setup setup).trans players,
    (joining_of_setup setup).trans joining⟩ kept' rules' modes counts

/-- R88, R186: the outputs that follow the end of joining leave it. -/
theorem JoinEnds.finish (h : JoinEnds s u) : JoinEnds s (finish u) := by
  obtain ⟨control, kept, rules, modes, balls⟩ := h
  obtain ⟨-, fScanner, fAnalog, fRules, fModes, fPockets, fBalls, fTrough, fPeers, -⟩ := finish_frame u
  have view : SameView u (Machine.finish u) := by
    refine ⟨by rw [finish_control], by rw [finish_control], by rw [fBalls], by rw [fBalls], by rw [fBalls], ?_, ?_⟩
    · exact congrArg (fun k : PocketCtl => k.pockets.sum fun p => p.held) fPockets
    · exact congrArg (fun k : PocketCtl => k.pockets.sum fun p => p.stuck) fPockets
  refine ⟨by rw [finish_control]; exact control, ?_, by rw [fRules]; exact rules, fModes.trans modes, ?_⟩
  · rw [fScanner, fAnalog, fTrough, fPeers]
    exact kept
  · rw [fBalls, view.counts.1]
    exact balls

/-- R134, R186: the state that steps 4 to 6 begin with, read off the state `t` that they leave. -/
theorem JoinEnds.joined (h : JoinEnds s t) : recomputeB { s with
      control := { s.control with station := t.control.station, playerCount := t.control.playerCount, joining := none }
      rules := { s.rules with current := t.rules.current }, modes := t.modes, balls := t.balls } = joinsWith s := by
  obtain ⟨⟨station, players, -⟩, -, ⟨current, -⟩, modes, balls⟩ := h
  rw [station, players, current, modes, balls]
  generalize inPlayCount t = n
  have stands := joinsWith_eq (s := s)
  have enters := entersAtJoin_eq (s := s)
  have hands := handedOver_entersAtJoin (s := s)
  have left : (joinsWith s).balls = { (handedOver (entersAtJoin s)).balls with
      inPlay := inPlayCount (handedOver (entersAtJoin s)), phase := (joinsWith s).balls.phase
      quiet := (joinsWith s).balls.quiet, search := .idle, round := 0, todo := [], searchTimer := none } := by
    rw [stands, hands]
  have restores := recomputeB_restores (modes := (joinsWith s).modes) (n := n) left
  have same : joinsWith s = { entersAtJoin s with
      control := (recomputeB (handedOver (entersAtJoin s))).control, modes := (joinsWith s).modes
      balls := (joinsWith s).balls } := by
    have balls := congrArg State.balls stands
    refine stands.trans ?_
    rw [balls]
  generalize hJ : (joinsWith s).balls = final at *
  generalize (joinsWith s).modes = table at *
  rw [same]
  generalize (recomputeB (handedOver (entersAtJoin s))).control = control at *
  rw [hands] at restores
  refine Eq.trans (congrArg recomputeB ?_) restores
  have placed := congrArg (fun u : State => { u with modes := table, balls := { final with inPlay := n } }) enters
  dsimp only at placed ⊢
  exact placed.symm

end

section
variable {s : State}

/-- R88, R186: with no PRESENT station in a game the station enters IDLE. -/
theorem entersAtJoin_alone (alone : ∀ j r, (peer s j).presence = .present → (peer s j).record = some r →
    r.state.playing = none) :
    entersAtJoin s = { s with control := { s.control with station := .idle, joining := none } } := by
  unfold entersAtJoin enterGame
  rw [candidate_none (s := { s with control := { s.control with joining := none } }) alone]
  rfl

/-- R88, R186: the candidate gives the game state, the player count and the current player. -/
theorem entersAtJoin_candidate {j : StationNo} {r : CensusRecord} {st : StationState}
    (present : (peer s j).presence = .present) (record : (peer s j).record = some r)
    (playing : r.state.playing = some st)
    (lower : ∀ k q, k < j → (peer s k).presence = .present → (peer s k).record = some q → q.state.playing = none) :
    entersAtJoin s = { s with
      control := { s.control with station := st, playerCount := r.players, joining := none }
      rules := { s.rules with current := r.player } } := by
  unfold entersAtJoin enterGame
  rw [candidate_some (s := { s with control := { s.control with joining := none } }) present record playing lower]
  rfl

/-- R88, R106: what the modes are made from. -/
theorem accountAtJoin_entersAtJoin : (accountAtJoin (entersAtJoin s)).modes = s.modes ∧
    (accountAtJoin (entersAtJoin s)).peers = s.peers ∧
    (accountAtJoin (entersAtJoin s)).control.image = s.control.image ∧
    (accountAtJoin (entersAtJoin s)).control.station = (entersAtJoin s).control.station := by
  have account := accountAtJoin_eq (s := entersAtJoin s) (enterGame_inGame _)
  have setup : (accountAtJoin (entersAtJoin s)).control.setup = (entersAtJoin s).control.setup := by
    rw [account]
    exact recomputeB_setup (handedOver (entersAtJoin s))
  have image : (entersAtJoin s).control.image = s.control.image := by rw [entersAtJoin_eq]
  refine ⟨?_, ?_, (image_of_setup setup).trans image, station_of_setup setup⟩
  · rw [account, entersAtJoin_eq]
  · rw [account, entersAtJoin_eq]

/-- R106: outside PLAY and TILT the modes stay. -/
theorem joinsWith_modes_stay
    (h : ¬ ((entersAtJoin s).control.station = .play ∨ (entersAtJoin s).control.station = .tilt)) :
    (joinsWith s).modes = s.modes := by
  obtain ⟨modes, -, -, station⟩ := accountAtJoin_entersAtJoin (s := s)
  unfold joinsWith
  rw [modesAtJoin_stays (by rwa [station]), modes]

/-- R106: a mode with an entry keeps it. -/
theorem joinsWith_modes_kept {m : ModeId} {e : ModeEntry} (h : s.modes.get m = some e) :
    (joinsWith s).modes.get m = some e :=
  modesAtJoin_makesReported.kept m e (by rw [accountAtJoin_entersAtJoin.1, h])

/-- R106: in PLAY and TILT a reported mode is made. -/
theorem joinsWith_modes_make {m : ModeId} {j : StationNo} {d : ModeDef} {r : CensusRecord}
    (playing : (entersAtJoin s).control.station = .play ∨ (entersAtJoin s).control.station = .tilt)
    (few : (List.finRange 32).countP (fun m => (s.modes.get m).isSome || reported s m) ≤ 12)
    (free : s.modes.get m = none) (defined : modeDef s m = some d) (record : (peer s j).record = some r)
    (reports : r.modes.get m = true)
    (lowest : ∀ k q, k < j → (peer s k).record = some q → q.modes.get m = false) :
    (joinsWith s).modes.get m = some (freshMode d j (timeOf d.duration)) := by
  obtain ⟨modes, peers, image, station⟩ := accountAtJoin_entersAtJoin (s := s)
  have peer_eq (k : StationNo) : peer (accountAtJoin (entersAtJoin s)) k = peer s k := by
    unfold peer
    rw [peers]
  have reported_eq : reported (accountAtJoin (entersAtJoin s)) = reported s := by
    funext n
    unfold reported
    simp only [peer_eq]
  refine modesAtJoin_makes (by rwa [station]) (by rwa [modes, reported_eq]) (by rw [modes, free]) ?_
    (by rw [peer_eq, record]) reports fun k q lower found => lowest k q lower (by rw [← peer_eq, found])
  unfold modeDef
  rw [image]
  exact defined

/-- R88: T handed over. -/
theorem handedOver_trough : (handedOver s).balls.trough = ((troughRecord s).bind (·.trough)).or s.balls.trough := by
  unfold handedOver
  cases (troughRecord s).bind (·.trough) <;> rfl

/-- R88: the record of the trough station. -/
theorem troughRecord_eq_some {k : StationNo} {r : CensusRecord} (station : s.control.image.troughStation = some k)
    (record : (peer s k).record = some r) : troughRecord s = some r := by
  unfold troughRecord
  rw [station]
  exact record

/-- R88: no record of a trough station. -/
theorem troughRecord_eq_none (h : ∀ k, s.control.image.troughStation = some k → (peer s k).record = none) :
    troughRecord s = none := by
  unfold troughRecord
  cases station : s.control.image.troughStation with
  | none => rfl
  | some k => exact h k station

end

/-- Settles O23: the game and the hand-over by `JoinEnds`, the pockets by `judgeAtJoin_eq`, the banks by
`dropCompletes_follows`. -/
theorem theEndOfJoining : Obligations.TheEndOfJoining := by
  refine ⟨fun s joining timed => ?game, fun s joining timed => ?handOver, fun s joining timed => ?judged,
    fun p c s => ?pocket, fun k c s cfg => ?bank⟩
  case game =>
    have ends := (joinEnds_judgedAtJoin (s := s)).finish
    rw [← endJoining_eq joining timed] at ends
    have credits : (finish (endJoining s)).balls.credits = s.balls.credits := by
      rw [ends.balls, joinsWith_eq]
      rfl
    have count : (finish (endJoining s)).balls.inPlay = inPlayCount (finish (endJoining s)) := by rw [ends.balls]
    obtain ⟨⟨station, players, timer⟩, ⟨scanner, analog, trough, peers⟩, ⟨current, tallies, contexts⟩, modes, -⟩ := ends
    refine ⟨finish (endJoining s), rfl, timer, tallies, contexts, peers, credits, count, scanner, analog, trough,
      fun alone => ?_, fun j r st present record playing lower => ?_⟩
    · have enters := entersAtJoin_alone alone
      have idle : (joinsWith s).modes = s.modes := joinsWith_modes_stay (by rw [enters]; simp)
      rw [station, current, players, modes, idle, enters]
      exact ⟨rfl, rfl, rfl, rfl⟩
    · rw [station, current, players, entersAtJoin_candidate present record playing lower]
      exact ⟨rfl, rfl, rfl⟩
  case handOver =>
    have ends := (joinEnds_judgedAtJoin (s := s)).finish
    rw [← endJoining_eq joining timed] at ends
    obtain ⟨⟨station, -⟩, -, -, modes, balls⟩ := ends
    have handed : (joinsWith s).balls.peers = .ofFn (countsAtJoin s) ∧ (joinsWith s).balls.missing = missingAtJoin s ∧
        (joinsWith s).balls.trough = (handedOver s).balls.trough ∧
        (joinsWith s).balls.quiet = some (s.control.image.searchDelay * 1000) := by
      rw [joinsWith_eq]
      exact ⟨rfl, rfl, rfl, rfl⟩
    obtain ⟨peers, missing, trough, quiet⟩ := handed
    have inPlay (bare : ∀ p c, pocketCfg s p = some c → c.opto = none) :
        (finish (endJoining s)).balls.inPlay = (joinsWith s).balls.inPlay := by
      have image : (joinsWith s).control.image = s.control.image := by
        rw [joinsWith_eq]
        refine (image_of_setup (recomputeB_setup (handedOver (entersAtJoin s)))).trans ?_
        rw [handedOver_entersAtJoin, entersAtJoin_eq]
      rw [(finish_frame _).2.2.2.2.2.2.1, endJoining_eq joining timed, judgedAtJoin_balls]
      unfold pocketCfg
      rwa [image]
    refine ⟨finish (endJoining s), rfl, ?_⟩
    generalize finish (endJoining s) = t at *
    have missing_eq : t.balls.missing = min s.control.image.installed
        (match troughRecord s with
          | some r => r.missing
          | none => largestMissing s) := by
      rw [balls]
      exact missing
    have trough_eq : t.balls.trough = ((troughRecord s).bind (·.trough)).or s.balls.trough := by
      rw [balls, ← handedOver_trough]
      exact trough
    have peers_eq (j : StationNo) : t.balls.peers.get j = countsAtJoin s j := by
      rw [balls]
      exact (congrArg (·.get j) peers).trans (Tab.get_ofFn _ j)
    refine ⟨by rw [balls]; exact quiet, fun j r record speaks => ?_, fun j silent => ?_,
      fun k r station record => ?_, fun none_ => ⟨?_, fun j r record playing => ?_, ?_⟩, fun bare => ?_, fun idle => ?_,
      fun playing few m => ⟨fun e entry => ?_, fun j d r free defined record reports lowest => ?_⟩⟩
    · rw [peers_eq]
      unfold countsAtJoin
      rw [record]
      exact if_neg speaks
    · rw [peers_eq]
      unfold countsAtJoin
      cases record : (peer s j).record with
      | none => rfl
      | some r => exact if_pos (silent r record)
    · rw [missing_eq, trough_eq, troughRecord_eq_some station record]
      refine ⟨rfl, fun n known => ?_, fun unknown => ?_⟩
      · rw [Option.bind_some, known]
        rfl
      · rw [Option.bind_some, unknown]
        rfl
    · rw [trough_eq, troughRecord_eq_none none_]
      rfl
    · rw [missing_eq, troughRecord_eq_none none_]
      have bound := le_largestMissing record playing
      dsimp only
      omega
    · rw [missing_eq, troughRecord_eq_none none_]
      rcases largestMissing_attained (s := s) with zero | ⟨j, r, record, playing, same⟩
      · left
        dsimp only
        omega
      · exact .inr ⟨j, r, record, playing, congrArg (min _) same⟩
    · rw [inPlay bare, station, balls]
      rw [joinsWith_eq]
    · rw [modes]
      exact joinsWith_modes_stay (by rw [← station]; rcases idle with e | e <;> simp [e])
    · rw [modes]
      exact joinsWith_modes_kept entry
    · rw [modes]
      rw [station] at playing
      exact joinsWith_modes_make playing few free defined record reports lowest
  case judged =>
    have ends := (joinEnds_judgedAtJoin (s := s)).finish
    rw [← endJoining_eq joining timed] at ends
    refine ⟨finish (endJoining s), rfl, ?_⟩
    intro joined holdAsks
    have asks : holdAsks = fun d t => askAgain (.hold d) t := by
      funext d t
      rw [askAgain_hold]
      unfold holdAsks
      cases bound : (driverCfg t d).binding with
      | none => simp
      | some f => simp
    have start : joined = joinsWith s := ends.joined
    rw [start, asks]
    exact settles_of_eq (endJoining_eq joining timed)
  case pocket =>
    intro x bare
    have judged := judgeAtJoin_eq (p := p) (c := c) (s := s)
    refine ⟨fun none_ => ?_, fun present => ⟨fun empty => ?_, fun some_ => ?_⟩,
      fun absent => ⟨fun none_ => ?_, fun some_ => ?_⟩⟩
    · have level : optoLevel s c = none := by
        unfold optoLevel
        rw [none_]
        rfl
      rw [judged, level]
    · rw [judged, present]
      exact if_pos (clear_iff.mpr empty)
    · rw [judged, present]
      exact if_neg fun clear => some_ (clear_iff.mp clear)
    · rw [judged, absent]
      exact if_neg (Nat.not_lt.mpr (Nat.le_of_eq none_))
    · rw [judged, absent]
      exact if_pos some_
  case bank =>
    have judged := bankAtJoin_eq cfg
    refine ⟨fun rests => judged.trans (if_neg ?_), fun d reset counting full works => ?_⟩
    · rintro ⟨drop, counting, full⟩
      rcases rests with standup | other | few
      · rw [standup] at drop
        cases drop
      · exact other counting
      · omega
    · rw [if_pos ⟨isDrop_of_resetDriver reset, counting, full⟩] at judged
      rw [judged]
      exact dropCompletes_follows reset works

end Sys2Proof.Machine

end

