-- ==== Sys2Proof/Proofs/Ceilings.lean ====
section
/-! SUPPORT. What every piece of a command's work keeps of the tallies and the ceilings (R41, R47, R50, R93, R139, R145,
R190), said as one relation, `Grows`, between the state before and the state after. For each operation of the model
`operation_grows` says that work which has grown so far and then does the operation has still grown. -/

namespace Sys2Proof.Machine

/-! ## The relation -/

/-- Every ceiling of O6 that `s` meets, `t` meets. -/
structure Keeps (s t : State) : Prop where
  rules : s.rules.within → t.rules.within
  modes : modesWithin s.modes → modesWithin t.modes
  control : s.control.within → t.control.within
  balls : s.balls.within → t.balls.within
  trough : s.trough.within → t.trough.within

/-- R41: the ceilings are kept, and no tally falls. -/
structure Grows (s t : State) : Prop extends Keeps s t where
  tallies : ∀ p, s.rules.tallies.get p ≤ t.rules.tallies.get p

/-- The parts of a state that the ceilings bound. -/
def State.gauges (s : State) : Tab 4 Nat × Nat × Tab 32 (Option ModeEntry) × Tab 8 Nat × Tab 4 Nat × Nat × Nat :=
  (s.rules.tallies, s.rules.combo, s.modes, s.control.counters, s.balls.credits, s.trough.pending, s.trough.unreported)

variable {s₀ s t : State}

theorem Keeps.trans (h : Keeps s₀ s) (g : Keeps s t) : Keeps s₀ t where
  rules := g.rules ∘ h.rules
  modes := g.modes ∘ h.modes
  control := g.control ∘ h.control
  balls := g.balls ∘ h.balls
  trough := g.trough ∘ h.trough

theorem Grows.refl (s : State) : Grows s s := ⟨⟨id, id, id, id, id⟩, fun _ => Nat.le_refl _⟩

theorem Grows.trans (h : Grows s₀ s) (g : Grows s t) : Grows s₀ t :=
  ⟨h.toKeeps.trans g.toKeeps, fun p => (h.tallies p).trans (g.tallies p)⟩

/-- Work that touches nothing that is bounded. -/
theorem Grows.same (h : Grows s₀ s) (e : t.gauges = s.gauges) : Grows s₀ t := by
  simp only [State.gauges, Prod.mk.injEq] at e
  obtain ⟨tallies, combo, modes, counters, credits, pending, unreported⟩ := e
  refine h.trans ⟨⟨?_, ?_, ?_, ?_, ?_⟩, ?_⟩
  · unfold RuleEngine.within; rw [tallies, combo]; exact id
  · rw [modes]; exact id
  · unfold Control.within; rw [counters]; exact id
  · unfold Balls.within; rw [credits]; exact id
  · unfold TroughCtl.within; rw [pending, unreported]; exact id
  · rw [tallies]; exact fun _ => Nat.le_refl _

/-- Either branch of a test. -/
theorem Grows.ite {q : Prop} [Decidable q] (h : Grows s₀ s) (g : Grows s₀ t) : Grows s₀ (if q then s else t) := by
  split
  · exact h
  · exact g

/-- Work done for each number in turn. -/
theorem Grows.eachUp {n : Nat} {f : Fin n → State → State} (h : Grows s₀ s)
    (each : ∀ i s, Grows s₀ s → Grows s₀ (f i s)) : Grows s₀ (eachUp n f s) := eachUp_inv (Grows s₀) f each s h

/-- Work done for each thing of a list in turn. -/
theorem Grows.foldl {α : Type} {f : State → α → State} {l : List α} (h : Grows s₀ s)
    (each : ∀ s a, Grows s₀ s → Grows s₀ (f s a)) : Grows s₀ (l.foldl f s) := foldl_inv (Grows s₀) f each l s h

/-! ## One block changed -/

section
variable (h : Grows s₀ s)
include h

theorem Grows.mapControl {f : Control → Control} (keeps : s.control.within → (f s.control).within) :
    Grows s₀ (s.mapControl f) := h.trans ⟨⟨id, id, keeps, id, id⟩, fun _ => Nat.le_refl _⟩

theorem Grows.mapBalls {f : Balls → Balls} (keeps : s.balls.within → (f s.balls).within) :
    Grows s₀ (s.mapBalls f) := h.trans ⟨⟨id, id, id, keeps, id⟩, fun _ => Nat.le_refl _⟩

theorem Grows.mapTrough {f : TroughCtl → TroughCtl} (keeps : s.trough.within → (f s.trough).within) :
    Grows s₀ (s.mapTrough f) := h.trans ⟨⟨id, id, id, id, keeps⟩, fun _ => Nat.le_refl _⟩

theorem Grows.mapModes {f : Tab 32 (Option ModeEntry) → Tab 32 (Option ModeEntry)}
    (keeps : modesWithin s.modes → modesWithin (f s.modes)) : Grows s₀ (s.mapModes f) :=
  h.trans ⟨⟨id, keeps, id, id, id⟩, fun _ => Nat.le_refl _⟩

theorem Grows.mapCombo {f : RuleEngine → RuleEngine} (tallies : (f s.rules).tallies = s.rules.tallies)
    (combo : s.rules.combo ≤ 5 → (f s.rules).combo ≤ 5) : Grows s₀ (s.mapRules f) := by
  refine h.trans ⟨⟨fun within => ⟨?_, combo within.2⟩, id, id, id, id⟩, fun p => ?_⟩
  · rw [State.mapRules_rules, tallies]
    exact within.1
  · rw [State.mapRules_rules, tallies]

/-! ## The station state, flags, counters, offers and requests (R77, R168, R188, R190) -/

theorem setStation_grows {x : StationState} : Grows s₀ (setStation x s) := h.same (by rfl)

theorem setFlag_grows {f : Flag} : Grows s₀ (setFlag f s) := h.same (by rfl)

theorem clearFlags_grows : Grows s₀ (clearFlags s) := h.same (by rfl)

/-- R190: a counter saturates. -/
theorem raiseCounter_grows {c : Counter} : Grows s₀ (raiseCounter c s) := by
  refine h.mapControl fun within k => ?_
  change (s.control.counters.modify c.place fun n => min 255 (n + 1)).get k ≤ 255
  rw [Tab.get_modify]
  split
  · exact Nat.min_le_left _ _
  · exact within k

theorem clearCounters_grows : Grows s₀ (clearCounters s) :=
  h.mapControl fun _ k => by simp

theorem offer_grows {b : Bulletin} : Grows s₀ (offer b s) :=
  have queued := h.same (t := s.mapLink _) (by rfl)
  have counted := Grows.ite (raiseCounter_grows queued) queued
  .ite (setFlag_grows counted) counted

theorem offerAside_grows : Grows s₀ (offerAside s) := by
  unfold offerAside
  split
  · exact offer_grows (h.same (by rfl))
  · exact h

theorem request_grows {d : DriverNo} {band : Band} {n : Nat} {r : Requester} : Grows s₀ (request d band n r s) := by
  unfold request
  split
  · exact h
  · exact h
  · exact raiseCounter_grows h
  · split
    · exact h.same (by rfl)
    · exact h
  · exact h.same (by rfl)
  · exact h.same (by rfl)

theorem enterRecycle_grows {d : DriverNo} : Grows s₀ (enterRecycle d s) := .ite (h.same (by rfl)) (h.same (by rfl))

/-! ## Features and hold bindings (R172) -/

theorem requestHold_grows {d : DriverNo} : Grows s₀ (requestHold d s) := .ite h (request_grows h)

theorem releaseHold_grows {d : DriverNo} : Grows s₀ (releaseHold d s) :=
  .ite (enterRecycle_grows (h.same (by rfl))) (h.same (by rfl))

theorem followLit_grows {x y : State} {d : DriverNo} : Grows s₀ (followLit x y d s) := by
  unfold followLit
  split
  · exact h
  · exact .ite h (.ite (requestHold_grows h) (releaseHold_grows h))

omit h in
theorem changeLit_grows {g : State → State} (h : Grows s₀ (g s)) : Grows s₀ (changeLit g s) :=
  h.eachUp fun _ _ h => followLit_grows h

theorem setFeature_grows {f : FeatureNo} {r : Resting} : Grows s₀ (setFeature f r s) :=
  changeLit_grows (h.same (by rfl))

theorem setFeatures_grows {p : Resting → Bool} {r : Resting} {fs : List FeatureNo} :
    Grows s₀ (setFeatures p r fs s) :=
  h.foldl fun _ _ h => .ite (setFeature_grows h) h

/-! ## Accounting and the search (R134, R147, R148) -/

theorem endSearch_grows : Grows s₀ (endSearch s) := h.same (by rfl)

theorem recomputeB_grows : Grows s₀ (recomputeB s) :=
  have counted := h.same (t := s.mapBalls _) (by rfl)
  have flagged := Grows.ite (setFlag_grows counted) counted
  .ite (endSearch_grows flagged) flagged

theorem restartQuiet_grows : Grows s₀ (restartQuiet s) := .ite (h.same (by rfl)) h

theorem searchOn_grows {todo : List DriverNo} : Grows s₀ (searchOn todo s) := by
  induction todo generalizing s with
  | nil => exact h.same (by rfl)
  | cons d rest ih =>
    unfold searchOn
    split
    · exact ih h
    · exact (request_grows h).same (by rfl)

theorem searchRound_grows : Grows s₀ (searchRound s) := searchOn_grows (h.same (by rfl))

/-! ## The mode table (R93 to R106) -/

omit h in
/-- R93: how many entries a table has once one is written. -/
theorem count_set_isSome (t : Tab 32 (Option ModeEntry)) (m : ModeId) (e : Option ModeEntry) :
    (t.set m e).count Option.isSome =
      t.count Option.isSome - (if (t.get m).isSome then 1 else 0) + (if e.isSome then 1 else 0) := by
  have length : m.val < t.cells.length := by rw [t.size]; exact m.isLt
  exact List.countP_set length

/-- R93, R96: an entry is written where one stands or where there is room. -/
theorem putMode_grows {m : ModeId} {e : ModeEntry} (room : (s.modes.get m).isSome = true ∨ modeCount s < 12) :
    Grows s₀ (putMode m (some e) s) := by
  refine h.mapModes fun within => ?_
  unfold modesWithin modeCount at *
  rw [count_set_isSome]
  rw [Option.isSome_some, if_pos rfl]
  split
  · rename_i stands
    have : 0 < s.modes.count Option.isSome := List.countP_pos_iff.mpr ⟨_, List.getElem_mem _, stands⟩
    omega
  · rename_i free
    have := room.resolve_left free
    omega

theorem putMode_none_grows {m : ModeId} : Grows s₀ (putMode m none s) := by
  refine h.mapModes fun within => ?_
  unfold modesWithin at *
  rw [count_set_isSome]
  simp only [Option.isSome_none, Bool.false_eq_true, if_false]
  omega

theorem makeMode_grows {m : ModeId} {d : ModeDef} {o : StationNo} {x : ModeTime} (room : modeCount s < 12) :
    Grows s₀ (makeMode m d o x s) := changeLit_grows (putMode_grows h (.inr room))

theorem endMode_grows {m : ModeId} : Grows s₀ (endMode m s) := changeLit_grows (putMode_none_grows h)

theorem endModes_grows {p : ModeId → ModeEntry → Bool} : Grows s₀ (endModes p s) :=
  h.eachUp fun m t h => by
    split
    · exact .ite (endMode_grows h) h
    · exact h

/-- An entry that stands is changed in place. -/
theorem putMode_over_grows {m : ModeId} {e x : ModeEntry} (stands : s.modes.get m = some x) :
    Grows s₀ (putMode m (some e) s) := putMode_grows h (.inl (by rw [stands]; rfl))

theorem startMode_grows {m : ModeId} {o : StationNo} {n : Nat} : Grows s₀ (startMode m o n s) := by
  unfold startMode
  split
  · exact h
  · split
    · dsimp only
      split
      · rename_i stands
        exact putMode_over_grows h stands
      · split
        · rename_i room
          exact makeMode_grows h room
        · exact raiseCounter_grows h
    · exact h

/-- R105, R106: at either moment at which the hold bindings follow. -/
theorem makeFromCensus_grows {wrap : (State → State) → State → State} {m : ModeId} {o : StationNo}
    (follows : ∀ g, Grows s₀ (g s) → Grows s₀ (wrap g s)) : Grows s₀ (makeFromCensus wrap m o s) := by
  unfold makeFromCensus
  split
  · split
    · rename_i room
      exact follows _ (putMode_grows h (.inr room))
    · exact h
  · exact h

theorem offerModeEnd_grows {m : ModeId} : Grows s₀ (offerModeEnd m s) := by
  unfold offerModeEnd
  dsimp only
  split
  · rename_i stands
    exact putMode_over_grows (offer_grows h) stands
  · exact offer_grows h

/-! ## The end of a command (R39, R84) -/

theorem finish_grows : Grows s₀ (finish s) := by
  unfold finish refreshCensus
  split
  · exact (Grows.ite h (offer_grows h)).same (by rfl)
  · exact h.same (by rfl)

end

end Sys2Proof.Machine

end

