-- ==== Sys2Proof/Proofs/CeilingsOfTheBlocks.lean ====
section
/-! SUPPORT. The ceilings (R41, R47, R50, R93, R139, R145, R190) through the work of pockets, trough, rules and
drivers. -/

namespace Sys2Proof.Machine

section
variable {s₀ s : State} (h : Grows s₀ s)
include h

/-! ## Lock pockets (R110 to R129) -/

theorem countPocket_grows {p : PocketNo} {f : PocketState → PocketState} : Grows s₀ (countPocket p f s) :=
  recomputeB_grows (h.same (by rfl))

theorem offerLock_grows {e : BitVec 4} {x : Byte} {p : PocketNo} : Grows s₀ (offerLock e x p s) := offer_grows h

theorem jamPocket_grows {p : PocketNo} : Grows s₀ (jamPocket p s) :=
  (setFlag_grows (offerLock_grows (countPocket_grows h))).same (by rfl)

theorem jamAtFault_grows {p : PocketNo} : Grows s₀ (jamAtFault p s) := .ite h (jamPocket_grows (h.same (by rfl)))

theorem askEject_grows {p : PocketNo} {c : PocketCfg} : Grows s₀ (askEject p c s) :=
  .ite (jamPocket_grows h) (request_grows h)

theorem startEject_grows {p : PocketNo} {c : PocketCfg} {n : Nat} : Grows s₀ (startEject p c n s) :=
  askEject_grows (h.same (by rfl))

theorem failEject_grows {p : PocketNo} {c : PocketCfg} : Grows s₀ (failEject p c s) :=
  .ite (startEject_grows (raiseCounter_grows h)) (jamPocket_grows h)

theorem kickThrough_grows {p : PocketNo} {c : PocketCfg} {credit inSequence : Bool} :
    Grows s₀ (kickThrough p c credit inSequence s) :=
  have told := Grows.ite (offerLock_grows (h.same (by rfl))) (h.same (by rfl))
  .ite told (startEject_grows told)

theorem ballEnters_grows {p : PocketNo} {c : PocketCfg} {x : Bool} : Grows s₀ (ballEnters p c x s) :=
  .ite (kickThrough_grows h) (.ite (offerLock_grows (countPocket_grows h))
    (.ite (h.same (by rfl)) (kickThrough_grows h)))

theorem closeInEmpty_grows {p : PocketNo} {c : PocketCfg} : Grows s₀ (closeInEmpty p c s) :=
  .ite (h.same (by rfl)) (ballEnters_grows h)

theorem entryCloses_grows {p : PocketNo} {c : PocketCfg} : Grows s₀ (entryCloses p c s) := by
  unfold entryCloses
  split
  · exact closeInEmpty_grows h
  · exact h
  · exact ballEnters_grows h
  · exact ballEnters_grows h
  · exact h.same (by rfl)
  · exact h.same (by rfl)
  · exact h.same (by rfl)
  · exact h.same (by rfl)
  · exact .ite (offerLock_grows (countPocket_grows h)) h

theorem seenEntering_grows {p : PocketNo} {c : PocketCfg} : Grows s₀ (seenEntering p c s) :=
  ballEnters_grows (h.same (by rfl))

theorem afterConfirm_grows {p : PocketNo} : Grows s₀ (afterConfirm p s) := .ite (h.same (by rfl)) (h.same (by rfl))

theorem confirmEject_grows {p : PocketNo} {c : PocketCfg} : Grows s₀ (confirmEject p c s) :=
  have out := countPocket_grows h
  have told := (Grows.ite (offerLock_grows out) out).same (by rfl)
  .ite (.ite (closeInEmpty_grows (afterConfirm_grows told)) (afterConfirm_grows (ballEnters_grows told)))
    (afterConfirm_grows told)

theorem lostInRelease_grows {p : PocketNo} {c : PocketCfg} : Grows s₀ (lostInRelease p c s) :=
  have out := countPocket_grows h
  have told := (Grows.ite (offerLock_grows out) out).same (by rfl)
  have entered := Grows.ite (closeInEmpty_grows (told.same (by rfl))) (ballEnters_grows (told.same (by rfl)))
  .ite (.ite entered (told.same (by rfl))) told

theorem leftUnseen_grows {p : PocketNo} {c : PocketCfg} : Grows s₀ (leftUnseen p c s) := by
  unfold leftUnseen
  split
  · exact offerLock_grows (countPocket_grows h)
  · exact h.same (by rfl)
  · exact lostInRelease_grows h
  · exact h

theorem freePocket_grows {p : PocketNo} : Grows s₀ (freePocket p s) := offerLock_grows (countPocket_grows h)

theorem resense_grows {p : PocketNo} : Grows s₀ (resense p s) := .ite (countPocket_grows h) h

theorem pocketRound_grows {p : PocketNo} {c : PocketCfg} {x y z : Bool} : Grows s₀ (pocketRound p c x y z s) := by
  refine .ite (.ite (resense_grows h) h) (.ite h ?_)
  split
  · exact seenEntering_grows h
  · exact seenEntering_grows h
  · exact confirmEject_grows h
  · exact freePocket_grows h
  · exact leftUnseen_grows h
  · exact h

theorem restartPocket_grows {p : PocketNo} {c : PocketCfg} : Grows s₀ (restartPocket p c s) :=
  .ite (startEject_grows (offerLock_grows (countPocket_grows h))) h

theorem judgeAtJoin_grows {p : PocketNo} {c : PocketCfg} : Grows s₀ (judgeAtJoin p c s) := by
  unfold judgeAtJoin
  split
  · exact .ite (ballEnters_grows h) h
  · exact .ite (offerLock_grows (countPocket_grows h)) h
  · exact h

theorem joinRelease_grows {p : PocketNo} : Grows s₀ (joinRelease p s) :=
  .ite (.ite (h.same (by rfl)) (h.same (by rfl))) h

theorem beginRelease_grows {rank : Nat} : Grows s₀ (beginRelease rank s) :=
  (h.eachUp fun _ _ h => joinRelease_grows h).same (by rfl)

theorem takeTurn_grows : Grows s₀ (takeTurn s) := by
  unfold takeTurn
  split
  · exact h.same (by rfl)
  · dsimp only
    split
    · exact h.same (by rfl)
    · exact startEject_grows (.ite (ballEnters_grows (h.same (by rfl))) (h.same (by rfl)))

theorem eachPocket_grows {f : PocketNo → PocketCfg → State → State}
    (each : ∀ p c s, Grows s₀ s → Grows s₀ (f p c s)) : Grows s₀ (eachPocket f s) :=
  h.eachUp fun p t h => by
    split
    · exact each _ _ _ h
    · exact h

/-! ## Serves and the trough (R136 to R141) -/

theorem failServe_grows : Grows s₀ (failServe s) :=
  setFlag_grows (h.mapTrough fun within => ⟨Nat.zero_le _, within.2⟩)

theorem askServe_grows : Grows s₀ (askServe s) := by
  unfold askServe
  split
  · exact failServe_grows h
  · exact .ite (failServe_grows h) (request_grows h)

theorem startServe_grows {n : Nat} : Grows s₀ (startServe n s) := askServe_grows (h.same (by rfl))

theorem serveNext_grows : Grows s₀ (serveNext s) :=
  .ite (.ite (h.same (by rfl)) (.ite (startServe_grows h) (h.same (by rfl)))) h

/-- R139: at most 6 serves are owed. -/
theorem oweServes_grows {n : Nat} : Grows s₀ (oweServes n s) :=
  .ite (serveNext_grows (h.mapTrough fun within => ⟨Nat.min_le_left _ _, within.2⟩)) h

theorem clearServes_grows : Grows s₀ (clearServes s) :=
  serveNext_grows (h.mapTrough fun within => ⟨by dsimp only; split <;> omega, within.2⟩)

theorem confirmServe_grows : Grows s₀ (confirmServe s) :=
  h.mapTrough fun within => ⟨(Nat.sub_le _ _).trans within.1, Nat.min_le_left _ _⟩

theorem laneTurnsPresent_grows : Grows s₀ (laneTurnsPresent s) := .ite (serveNext_grows (confirmServe_grows h)) h

theorem failServeAttempt_grows : Grows s₀ (failServeAttempt s) :=
  .ite (startServe_grows (raiseCounter_grows h)) (failServe_grows h)

theorem reportTrough_grows {old : Option Nat} {new : Nat} : Grows s₀ (reportTrough old new s) := by
  unfold reportTrough
  dsimp only
  split
  · exact offer_grows h
  · refine .ite (offer_grows ?_) ?_
    all_goals exact (offer_grows h).mapTrough fun within => ⟨within.1, (Nat.sub_le _ _).trans within.2⟩

theorem takeTroughCount_grows : Grows s₀ (takeTroughCount s) := by
  refine serveNext_grows (.ite ?_ (reportTrough_grows ?_))
  all_goals exact (Grows.ite (confirmServe_grows (h.same (by rfl))) (h.same (by rfl))).mapTrough id

theorem repeatTrough_grows : Grows s₀ (repeatTrough s) := by
  unfold repeatTrough
  split
  · exact h
  · exact .ite h (offer_grows h)

/-! ## Judgements (R142 to R146) -/

theorem setPhase_grows {x : Phase} : Grows s₀ (setPhase x s) := h.same (by rfl)

theorem startMultiModes_grows : Grows s₀ (startMultiModes s) := by
  unfold startMultiModes
  split
  · exact h
  · exact h.eachUp fun m t h => by
      split
      · exact .ite (startMode_grows h) h
      · exact h

theorem judgePhase_grows : Grows s₀ (judgePhase s) :=
  .ite (startMultiModes_grows (setPhase_grows h)) (.ite (endModes_grows (setPhase_grows h)) h)

theorem endCombo_grows : Grows s₀ (endCombo s) := h.mapCombo rfl fun _ => Nat.zero_le _

theorem ballOver_grows : Grows s₀ (ballOver s) :=
  setStation_grows (endSearch_grows (clearServes_grows (endCombo_grows (endModes_grows (setPhase_grows h)))))

theorem replaceBall_grows {x : Bool} : Grows s₀ (replaceBall x s) := .ite (oweServes_grows h) h

theorem judgeZero_grows {x : ZeroCause} {n : Nat} {y : Bool} : Grows s₀ (judgeZero x n y s) := by
  refine .ite h ?_
  split
  · exact ballOver_grows h
  · exact .ite (ballOver_grows h) (.ite (replaceBall_grows h) h)
  · exact h

/-- R145: a credit saturates. -/
theorem raiseCredit_grows {p : Player} : Grows s₀ (raiseCredit p s) := by
  refine h.mapBalls fun within q => ?_
  rw [Tab.get_modify]
  split
  · exact Nat.min_le_left _ _
  · exact within q

theorem startMultiball_grows : Grows s₀ (startMultiball s) := by
  have spent : Grows s₀ (s.mapBalls fun b => { b with credits := b.credits.set s.rules.current 0 }) :=
    h.mapBalls fun within q => by
      rw [Tab.get_set]
      split
      · exact Nat.zero_le _
      · exact within q
  exact .ite spent (oweServes_grows (.ite (beginRelease_grows spent) spent))

theorem keepLockCounts_grows {j : StationNo} {x : LockPayload} : Grows s₀ (keepLockCounts j x s) :=
  recomputeB_grows (h.same (by rfl))

theorem takeLock_grows {j : StationNo} {x : LockPayload} : Grows s₀ (takeLock j x s) := by
  unfold takeLock
  dsimp only
  have kept := Grows.ite (q := j = strap s) h (keepLockCounts_grows h (j := j) (x := x))
  have credited : Grows s₀ (match creditedPlayer x (if j = strap s then s else keepLockCounts j x s) with
      | some p => raiseCredit p (if j = strap s then s else keepLockCounts j x s)
      | none => if j = strap s then s else keepLockCounts j x s) := by
    split
    · exact raiseCredit_grows kept
    · exact kept
  have judged := judgePhase_grows credited
  exact restartQuiet_grows (judgeZero_grows (.ite (startMultiball_grows judged) judged))

theorem takeTroughView_grows {x : Bool} {n : Nat} : Grows s₀ (takeTroughView x n s) :=
  recomputeB_grows (h.same (by rfl))

theorem takeTrough_grows {x y : Byte} : Grows s₀ (takeTrough x y s) :=
  restartQuiet_grows (judgeZero_grows (judgePhase_grows (takeTroughView_grows h)))

theorem takeMissing_grows {x : Byte} : Grows s₀ (takeMissing x s) :=
  judgeZero_grows (judgePhase_grows (recomputeB_grows (h.same (by rfl))))

theorem takeCensusCounts_grows {j : StationNo} {r : CensusRecord} : Grows s₀ (takeCensusCounts j r s) := by
  unfold takeCensusCounts
  dsimp only
  refine judgeZero_grows (judgePhase_grows ?_)
  split
  · exact takeTroughView_grows (h.same (by rfl))
  · exact recomputeB_grows (h.same (by rfl))

theorem reconcile_grows {j : StationNo} {modes : Tab 32 Bool} : Grows s₀ (reconcile j modes s) :=
  h.eachUp fun m t h => by
    refine .ite (.ite (makeFromCensus_grows h fun _ => changeLit_grows) h) ?_
    split
    · exact .ite (endMode_grows h) h
    · exact h

/-! ## The award, banks and hits (R18 to R48) -/

/-- R47: one tally rises, within its ceiling. -/
theorem raiseTally_grows {p : Player} {n : Nat} (room : s.rules.within → s.rules.tallies.get p + n ≤ 99999999) :
    Grows s₀ (s.mapRules fun r => { r with tallies := r.tallies.set p (s.rules.tallies.get p + n) }) := by
  have reads (q : Player) : (s.rules.tallies.set p (s.rules.tallies.get p + n)).get q =
      if q = p then s.rules.tallies.get p + n else s.rules.tallies.get q := Tab.get_set _ _ _ _
  refine h.trans ⟨⟨fun within => ⟨fun q => (reads q).trans_le ?_, within.2⟩, id, id, id, id⟩,
    fun q => le_of_le_of_eq ?_ (reads q).symm⟩
  · split
    · exact room within
    · exact within.1 q
  · split
    · rename_i same
      rw [same]
      exact Nat.le_add_right _ _
    · exact Nat.le_refl _

/-- R47: an award adds what there is room for. -/
theorem award_grows {p : Player} {v : Nat} {g : Fin 8} {k : Scoring} : Grows s₀ (award p v g k s) :=
  have raised := raiseTally_grows h (n := amountAdded (s.rules.tallies.get p) (rawAward s v g k)) fun within => by
    rw [tally_after _ (within.1 p)]
    exact Nat.min_le_left _ _
  .ite (offer_grows raised) raised

theorem faultBank_grows {b : BankNo} {c : BankCfg} : Grows s₀ (faultBank b c s) := setFeatures_grows (h.same (by rfl))

theorem askReset_grows {b : BankNo} {c : BankCfg} : Grows s₀ (askReset b c s) := by
  unfold askReset
  split
  · exact h
  · exact .ite (faultBank_grows h) (request_grows h)

theorem beginReset_grows {b : BankNo} {c : BankCfg} {x : Bool} : Grows s₀ (beginReset b c x s) :=
  askReset_grows (h.same (by rfl))

theorem dropCompletes_grows {b : BankNo} {c : BankCfg} : Grows s₀ (dropCompletes b c s) :=
  beginReset_grows (setFeatures_grows h)

theorem confirmBank_grows {b : BankNo} {c : BankCfg} : Grows s₀ (confirmBank b c s) := by
  unfold confirmBank
  exact setFeatures_grows (h.same (by rfl))

theorem clearMarks_grows {c : BankCfg} : Grows s₀ (clearMarks c s) := h.foldl fun _ _ h => h.same (by rfl)

theorem collectAction_grows {m : ModeId} {g : Fin 8} : Grows s₀ (collectAction m g s) := by
  unfold collectAction
  split
  · exact h
  · exact .ite ((offer_grows h).same (by rfl)) (offer_grows h)

theorem lightFeature_grows {f : FeatureNo} : Grows s₀ (lightFeature f s) := by
  unfold lightFeature
  split
  · exact setFeature_grows h
  · exact setFeature_grows h
  · exact h

section
variable {act : Action → Fin 8 → State → State} (acts : ∀ a g s, Grows s₀ s → Grows s₀ (act a g s))
include acts

theorem scoredCompletion_grows {b : BankNo} {c : BankCfg} {i : SwitchNo} :
    Grows s₀ (scoredCompletion act b c i s) := by
  have taken : Grows s₀ (match c.action with
      | some a => act a (ruleOf s i).group (award s.rules.current c.value (ruleOf s i).group (.bank i) s)
      | none => award s.rules.current c.value (ruleOf s i).group (.bank i) s) := by
    split
    · exact acts _ _ _ (award_grows h)
    · exact award_grows h
  exact .ite (dropCompletes_grows taken) (clearMarks_grows taken)

theorem markMember_grows {b : BankNo} {c : BankCfg} {i : SwitchNo} : Grows s₀ (markMember act b c i s) :=
  have marked : Grows s₀ (setMark i true s) := h.same (by rfl)
  .ite h (.ite (.ite (scoredCompletion_grows marked acts) (.ite (dropCompletes_grows marked) marked)) marked)

end

theorem takeAction_grows {n : Nat} {a : Action} {g : Fin 8} : Grows s₀ (takeAction n a g s) := by
  induction n generalizing a g s with
  | zero =>
    cases a with
    | lightFeature f => exact lightFeature_grows h
    | collect m => exact collectAction_grows h
    | advanceBank b => exact h
    | _ => exact offer_grows h
  | succ n ih =>
    cases a with
    | lightFeature f => exact lightFeature_grows h
    | collect m => exact collectAction_grows h
    | advanceBank b =>
      unfold takeAction
      split
      · exact h
      · split
        · exact h
        · exact markMember_grows h fun _ _ _ h => ih h
    | _ => exact offer_grows h

theorem doAction_grows {a : Action} {g : Fin 8} : Grows s₀ (doAction a g s) := takeAction_grows h

/-- R32: a member's mark, by its bank's kind. -/
theorem standupMark_grows {i : SwitchNo} {r : Rule} : Grows s₀ (standupMark i r s) := by
  refine .ite ?_ h
  split
  · exact h
  · split
    · exact .ite h (markMember_grows h fun _ _ _ h => doAction_grows h)
    · exact h

theorem directPulse_grows {r : Rule} : Grows s₀ (directPulse r s) := by
  unfold directPulse
  split
  · exact .ite (request_grows h) h
  · exact h

theorem hit_grows {i : SwitchNo} : Grows s₀ (hit i s) := by
  have pulsed := directPulse_grows h (r := ruleOf s i)
  unfold hit
  dsimp only
  split
  · exact pulsed
  · refine standupMark_grows ?_
    split
    · refine .ite (doAction_grows ?_) ?_
      all_goals
        split
        · exact .ite (award_grows pulsed) (setFeature_grows (award_grows pulsed))
        · exact award_grows pulsed
    · split
      · exact .ite (award_grows pulsed) (setFeature_grows (award_grows pulsed))
      · exact award_grows pulsed

theorem dropMark_grows {i : SwitchNo} {x : Bool} : Grows s₀ (dropMark i x s) := by
  refine .ite ?_ h
  split
  · exact h
  · split
    · exact .ite (.ite (markMember_grows h fun _ _ _ h => doAction_grows h) (h.same (by rfl))) h
    · exact h

theorem ruleTakes_grows {i : SwitchNo} {x : Bool} : Grows s₀ (ruleTakes i x s) :=
  dropMark_grows (.ite (hit_grows h) h)

theorem confirmAtScan_grows {b : BankNo} : Grows s₀ (confirmAtScan b s) := by
  unfold confirmAtScan
  split
  · exact .ite (confirmBank_grows h) h
  · exact h

/-! ## Reports to requesters (R169 to R176) -/

theorem askAgain_grows {r : Requester} : Grows s₀ (askAgain r s) := by
  cases r with
  | pocket p =>
    unfold askAgain
    dsimp only
    split
    · exact .ite (askEject_grows h) h
    · exact h
  | trough => exact .ite (askServe_grows h) h
  | bank b =>
    unfold askAgain
    dsimp only
    split
    · exact .ite (askReset_grows h) h
    · exact h
  | hold d =>
    unfold askAgain
    dsimp only
    split
    · exact .ite (requestHold_grows h) h
    · exact h
  | rule => exact h
  | search => exact h
  | fire => exact h

theorem tellWaiting_grows : Grows s₀ (tellWaiting s) := (h.same (by rfl)).foldl fun _ _ h => askAgain_grows h

theorem pulseStarted_grows {r : Requester} : Grows s₀ (pulseStarted r s) := by
  cases r with
  | pocket p => exact .ite (h.same (by rfl)) h
  | trough => exact .ite (h.same (by rfl)) h
  | _ => exact h

theorem pulseEnded_grows {r : Requester} : Grows s₀ (pulseEnded r s) := by
  cases r with
  | pocket p =>
    unfold pulseEnded
    dsimp only
    split
    · exact .ite (confirmEject_grows h) h
    · exact h
  | bank b => exact .ite (h.same (by rfl)) h
  | _ => exact h

theorem driverFaulted_grows {r : Requester} : Grows s₀ (driverFaulted r s) := by
  cases r with
  | pocket p => exact jamAtFault_grows h
  | trough => exact .ite (failServe_grows h) h
  | bank b =>
    unfold driverFaulted
    dsimp only
    split
    · exact .ite (faultBank_grows h) h
    · exact h
  | _ => exact h

theorem startPulses_grows : Grows s₀ (startPulses s) := by
  unfold startPulses
  split
  · exact h
  · have energized := h.foldl (l := startable s) fun _ e h => h.same (t := energize e _) (by rfl)
    exact (tellWaiting_grows energized).foldl fun _ _ h => h.foldl fun _ _ h => pulseStarted_grows h

theorem endPulse_grows {d : DriverNo} {n : Nat} : Grows s₀ (endPulse d n s) :=
  have told := Grows.foldl (h.same (t := mapUnit d _ s) (by rfl)) fun _ _ h => pulseEnded_grows h
  .ite (told.same (by rfl)) (enterRecycle_grows (told.same (by rfl)))

theorem faultDriver_grows {d : DriverNo} {why : Detail} : Grows s₀ (faultDriver d why s) := by
  have cut : Grows s₀ (mapUnit d (fun u =>
    { u with phase := .faulted, detail := why, requesters := [], onTime := 0, recycle := none, maxHold := none }) s) :=
    h.same (by rfl)
  have told := cut.foldl (l := (unit s d).requesters) fun _ r h => driverFaulted_grows h (r := r)
  unfold faultDriver
  dsimp only
  split
  · exact told
  · exact tellWaiting_grows ((told.same (by rfl)).foldl fun _ _ h => driverFaulted_grows h)

theorem clearDriver_grows {d : DriverNo} : Grows s₀ (clearDriver d s) :=
  .ite (askAgain_grows (h.same (by rfl))) (h.same (by rfl))

end

end Sys2Proof.Machine

end

