-- ==== Sys2Proof/Proofs/CeilingsOfTheCommands.lean ====
section
/-! SUPPORT. The ceilings and the tallies (R41, R47, R50, R93, R139, R145, R190) through every command and step. -/

namespace Sys2Proof.Machine

section
variable {s₀ s : State} (h : Grows s₀ s)
include h

/-! ## Station Control (R180 to R187) -/

/-- R187: the reset line keeps the tallies and CHECK ERRORS, and leaves every other counter at 0. -/
theorem lineReset_grows : Grows s₀ (lineReset s) := by
  have empty : modesWithin (.fill 32 none) := by
    unfold modesWithin
    decide
  refine h.trans ⟨⟨fun within => ⟨within.1, Nat.zero_le _⟩, fun _ => empty, fun within k => ?_, fun _ p => ?_,
    fun _ => ⟨Nat.zero_le _, Nat.zero_le _⟩⟩, fun _ => Nat.le_refl _⟩
  · change ((Tab.fill 8 0).set Counter.checkErrors.place (counter s .checkErrors)).get k ≤ 255
    rw [Tab.get_set]
    split
    · exact within _
    · simp
  · exact (Tab.get_fill 0 p).trans_le (Nat.zero_le _)

theorem beginLoading_grows : Grows s₀ (beginLoading s) := h.same (by rfl)

theorem endSelftest_grows {pass : Bool} : Grows s₀ (endSelftest pass s) :=
  .ite (.ite (.ite (h.same (by rfl)) (beginLoading_grows h)) (h.same (by rfl))) h

theorem assertLine_grows : Grows s₀ (assertLine s) := by
  unfold assertLine
  split
  · exact h.same (by rfl)
  · exact h.same (by rfl)
  · exact h.same (by rfl)
  · exact lineReset_grows (h.same (by rfl))

theorem releaseLine_grows : Grows s₀ (releaseLine s) := .ite (beginLoading_grows (h.same (by rfl))) (h.same (by rfl))

theorem failLoad_grows : Grows s₀ (failLoad s) := h.same (by rfl)

theorem succeedLoad_grows {bytes : List Byte} : Grows s₀ (succeedLoad bytes s) := h.same (by rfl)

theorem takeBurst_grows {burst : Tab 16 Byte} : Grows s₀ (takeBurst burst s) :=
  .ite (.ite (failLoad_grows (h.same (by rfl))) (.ite (h.same (by rfl))
    (.ite (succeedLoad_grows (h.same (by rfl))) (failLoad_grows (h.same (by rfl)))))) h

theorem pollAgain_grows {x : Bool} : Grows s₀ (pollAgain x s) :=
  .ite (.ite (failLoad_grows (h.same (by rfl))) (h.same (by rfl))) h

/-! ## The end of joining (R186) -/

theorem enterGame_grows : Grows s₀ (enterGame s) := by
  unfold enterGame
  split
  · exact h.same (by rfl)
  · exact setStation_grows h

theorem accountAtJoin_grows : Grows s₀ (accountAtJoin s) := 
  restartQuiet_grows (setPhase_grows (recomputeB_grows (h.same (by rfl))))

theorem modesAtJoin_grows : Grows s₀ (modesAtJoin s) := by
  refine .ite (h.eachUp fun j t h => ?_) h
  split
  · exact h.eachUp fun m u h => .ite (makeFromCensus_grows h fun _ => id) h
  · exact h

theorem bankAtJoin_grows {b : BankNo} : Grows s₀ (bankAtJoin b s) := by
  unfold bankAtJoin
  split
  · exact .ite (dropCompletes_grows h) h
  · exact h

theorem endJoining_grows : Grows s₀ (endJoining s) :=
  have joined := modesAtJoin_grows (accountAtJoin_grows (enterGame_grows (h.same (by rfl))))
  have judged := (eachPocket_grows joined fun _ _ _ h => judgeAtJoin_grows h).eachUp fun _ _ h => bankAtJoin_grows h
  .ite (judged.eachUp fun _ _ h => askAgain_grows h) h

/-! ## Switches and analog channels (R1 to R15) -/

theorem strobeLine_grows {x : Byte} : Grows s₀ (strobeLine x s) := .ite (h.same (by rfl)) h

theorem pocketTakes_grows {i : SwitchNo} {x : Bool} : Grows s₀ (pocketTakes i x s) := by
  refine .ite ?_ h
  split
  · exact h
  · split
    · exact .ite (entryCloses_grows h) h
    · exact h

theorem troughTakes_grows {i : SwitchNo} : Grows s₀ (troughTakes i s) := .ite (h.same (by rfl)) h

theorem deliver_grows {i : SwitchNo} {x y : Bool} : Grows s₀ (deliver i x y s) :=
  have taken := troughTakes_grows (pocketTakes_grows (ruleTakes_grows h))
  .ite (restartQuiet_grows taken) taken

theorem deliverChange_grows {before after : State} {i : SwitchNo} : Grows s₀ (deliverChange before after i s) :=
  .ite h (deliver_grows h)

theorem baselineMarks_grows {b : BankNo} : Grows s₀ (baselineMarks b s) := by
  unfold baselineMarks
  split
  · exact .ite (h.foldl fun _ _ h => (h.same (by rfl))) h
  · exact h

theorem completeScan_grows : Grows s₀ (completeScan s) := by
  have later : Grows s₀ (laterScan s) :=
    ((h.same (by rfl)).eachUp fun _ _ h => deliverChange_grows h).eachUp fun _ _ h => confirmAtScan_grows h
  have marked : Grows s₀ (eachUp 4 baselineMarks (scanWith baselined s)) :=
    (h.same (by rfl)).eachUp fun _ _ h => baselineMarks_grows h
  exact .ite (.ite later (.ite (marked.mapTrough id) marked)) h

theorem markStuck_grows {i : SwitchNo} : Grows s₀ (markStuck i s) :=
  .ite (raiseCounter_grows (setFlag_grows (h.same (by rfl)))) h

theorem convert_grows {n : Nat} : Grows s₀ (convert n s) := .ite (h.same (by rfl)) h

theorem handPocket_grows {before : State} {c : ChannelNo} {p : PocketNo} : Grows s₀ (handPocket before c p s) := by
  unfold handPocket
  split
  · exact .ite (pocketRound_grows h) h
  · exact h

theorem handChannel_grows {before : State} {c : ChannelNo} : Grows s₀ (handChannel before c s) :=
  .ite (h.eachUp fun _ _ h => handPocket_grows h)
    (.ite (.ite (laneTurnsPresent_grows h) h) (.ite h (setFlag_grows h)))

theorem completeRound_grows : Grows s₀ (completeRound s) :=
  .ite ((h.same (by rfl)).eachUp fun _ _ h => handChannel_grows h) h

/-! ## Timers -/

theorem bankTimerExpires_grows {b : BankNo} : Grows s₀ (bankTimerExpires b s) := by
  unfold bankTimerExpires
  split
  · exact h
  · exact .ite (.ite (confirmBank_grows h) (.ite (askReset_grows (h.same (by rfl))) (faultBank_grows h))) h

theorem atPocket_grows {p : PocketNo} {timer : PocketState → Timer} {f : PocketCfg → State → State}
    (works : ∀ c, Grows s₀ (f c s)) : Grows s₀ (atPocket p timer f s) := by
  unfold atPocket
  split
  · exact .ite (works _) h
  · exact h

theorem settleExpires_grows {p : PocketNo} : Grows s₀ (settleExpires p s) := atPocket_grows h fun _ => h.same (by rfl)

theorem kickoutExpires_grows {p : PocketNo} : Grows s₀ (kickoutExpires p s) :=
  atPocket_grows h fun _ => .ite (startEject_grows (h.same (by rfl))) (h.same (by rfl))

theorem windowExpires_grows {p : PocketNo} : Grows s₀ (windowExpires p s) :=
  atPocket_grows h fun _ => .ite (failEject_grows h) h

theorem rearmExpires_grows {p : PocketNo} : Grows s₀ (rearmExpires p s) :=
  atPocket_grows h fun _ => .ite (startEject_grows h) h

theorem turnExpires_grows : Grows s₀ (turnExpires s) := by
  unfold turnExpires
  split
  · exact takeTurn_grows h
  · exact h
  · exact h

theorem troughSettles_grows : Grows s₀ (troughSettles s) := .ite (takeTroughCount_grows h) h

theorem serveWindowExpires_grows : Grows s₀ (serveWindowExpires s) := .ite (failServeAttempt_grows h) h

theorem comboExpires_grows : Grows s₀ (comboExpires s) := .ite (endCombo_grows h) h

theorem silenceExpires_grows {j : StationNo} : Grows s₀ (silenceExpires j s) := .ite (h.same (by rfl)) h

theorem reofferModeEnds_grows : Grows s₀ (reofferModeEnds s) := h.eachUp fun _ _ h => .ite (offerModeEnd_grows h) h

theorem censusDue_grows : Grows s₀ (censusDue s) :=
  have offered := offer_grows (h.same (by rfl))
  have owed := reofferModeEnds_grows offered
  .ite (.ite (.ite (repeatTrough_grows owed) owed) offered) h

theorem modeExpires_grows {m : ModeId} : Grows s₀ (modeExpires m s) := by
  unfold modeExpires
  split
  · rename_i stands
    split
    · exact .ite (offerModeEnd_grows (putMode_over_grows h stands)) (putMode_over_grows h stands)
    · exact h
    · exact h
  · exact h

theorem graceExpires_grows {m : ModeId} : Grows s₀ (graceExpires m s) := by
  unfold graceExpires
  split
  · exact .ite (raiseCounter_grows (endMode_grows h)) h
  · exact h

theorem hurryTicks_grows {m : ModeId} : Grows s₀ (hurryTicks m s) := by
  unfold hurryTicks
  split
  · rename_i stands _
    exact .ite (putMode_over_grows h stands) h
  · exact h

theorem modeNearsEnd_grows {m : ModeId} : Grows s₀ (modeNearsEnd m s) := by
  unfold modeNearsEnd
  split
  · rename_i stands
    split
    · exact putMode_over_grows h stands
    · exact h
    · exact h
  · exact h

theorem quietExpires_grows : Grows s₀ (quietExpires s) := .ite (.ite (h.same (by rfl)) (h.same (by rfl))) h

theorem offsetExpires_grows : Grows s₀ (offsetExpires s) := .ite (searchRound_grows h) h

theorem slotExpires_grows : Grows s₀ (slotExpires s) := .ite (searchOn_grows h) h

theorem searchDone_grows : Grows s₀ (searchDone s) := .ite (offer_grows (h.same (by rfl))) (h.same (by rfl))

theorem pauseExpires_grows : Grows s₀ (pauseExpires s) := .ite (.ite (searchRound_grows h) (searchDone_grows h)) h

theorem pulseEnds_grows {d : DriverNo} {n : Nat} : Grows s₀ (pulseEnds d n s) := .ite (endPulse_grows h) h

theorem maxHoldExpires_grows {d : DriverNo} : Grows s₀ (maxHoldExpires d s) :=
  .ite (enterRecycle_grows (h.same (by rfl))) h

theorem recycleExpires_grows {d : DriverNo} : Grows s₀ (recycleExpires d s) := .ite (h.same (by rfl)) h

theorem openFound_grows {d : DriverNo} : Grows s₀ (openFound d s) := .ite (faultDriver_grows h) h

theorem shortFound_grows {d : DriverNo} : Grows s₀ (shortFound d s) := .ite (faultDriver_grows h) h

theorem blinkTick_grows : Grows s₀ (blinkTick s) := .ite (h.same (by rfl)) h

/-- R98: a passing ms takes no entry out of the mode table and puts none in. -/
theorem passMs_grows : Grows s₀ (passMs s) := by
  have passed : Grows s₀ (s.mapModes fun t => t.map fun e => e.map ModeEntry.pass) := h.mapModes fun within => by
    unfold modesWithin Tab.count Tab.map at *
    rw [List.countP_map]
    simpa only [Function.comp_def, Option.isSome_map] using within
  exact passed.same (by rfl)

/-! ## The line (R58 to R71) -/

theorem restGapSeen_grows : Grows s₀ (restGapSeen s) := by
  unfold restGapSeen
  split
  · exact h
  · exact .ite (h.same (by rfl)) h
  · exact .ite (h.same (by rfl)) h

theorem sample_grows {x : Bool} : Grows s₀ (sample x s) := by
  refine .ite ?_ h
  dsimp only
  split
  · exact h
  · exact h.same (by rfl)
  · exact .ite h (h.same (by rfl))

theorem loseArbitration_grows : Grows s₀ (loseArbitration s) := .ite (h.same (by rfl)) h

theorem toldDropped_grows {b : Bulletin} : Grows s₀ (toldDropped b s) := by
  unfold toldDropped
  split
  · split
    · exact h.same (by rfl)
    · exact h
  · split
    · split
      · rename_i stands
        exact putMode_over_grows h stands
      · exact h
    · exact h
  · exact offerAside_grows h
  · exact h

theorem takeClash_grows : Grows s₀ (takeClash s) := by
  have counted := raiseCounter_grows h (c := .clashes)
  refine .ite ?_ h
  dsimp only
  split
  · exact counted.same (by rfl)
  · exact .ite (counted.same (by rfl)) (toldDropped_grows (setFlag_grows (counted.same (by rfl))))

theorem endHold_grows : Grows s₀ (endHold s) := h.same (by rfl)

theorem takeError_grows : Grows s₀ (takeError s) := .ite (raiseCounter_grows (setFlag_grows (h.same (by rfl)))) h

/-! ## Completions (R66 to R71, R81) -/

theorem received_grows {o : StationNo} {b : Bulletin} : Grows s₀ (received o b s) := by
  have ended : Grows s₀ (endOnLine (isOwn o b s) s) := by
    unfold endOnLine
    refine .ite ?_ (.ite (h.same (by rfl)) (h.same (by rfl)))
    split
    · exact offerAside_grows (h.same (by rfl))
    · exact h.same (by rfl)
  exact .ite ended (.ite (raiseCounter_grows (setFlag_grows ended)) (ended.same (by rfl)))

theorem complete_grows {o : StationNo} {b : Bulletin} {act gather : Bool → State → State}
    (acts : ∀ own s, Grows s₀ s → Grows s₀ (act own s)) (gathers : ∀ own s, Grows s₀ s → Grows s₀ (gather own s)) :
    Grows s₀ (complete o b act gather s) :=
  have taken := received_grows h (o := o) (b := b)
  .ite (.ite (acts _ _ taken) (gathers _ _ taken)) h

omit h in
theorem nothing_grows (own : Bool) (s : State) (h : Grows s₀ s) : Grows s₀ (nothing own s) := h

theorem completeRowless_grows : Grows s₀ (completeRowless s) := by
  unfold completeRowless
  split
  · split
    · exact .ite h (complete_grows h nothing_grows nothing_grows)
    · exact h
  · exact h
  · exact h

/-! ## The course of a game (R152 to R162) -/

theorem darkenFaulted_grows {b : BankNo} : Grows s₀ (darkenFaulted b s) := by
  unfold darkenFaulted
  split
  · exact .ite (setFeatures_grows h) h
  · exact h

theorem raiseBank_grows {b : BankNo} : Grows s₀ (raiseBank b s) := by
  unfold raiseBank
  split
  · exact .ite (beginReset_grows h) h
  · exact h

theorem swapPlayers_grows {p : Player} : Grows s₀ (swapPlayers p s) :=
  (changeLit_grows (h.same (by rfl))).eachUp fun _ _ h => darkenFaulted_grows h

theorem takePlayerUp_grows {x : Byte} : Grows s₀ (takePlayerUp x s) := by
  refine .ite ?_ h
  split
  · exact (swapPlayers_grows h).eachUp fun _ _ h => raiseBank_grows h
  · exact h

theorem takeServe_grows {x : Byte} : Grows s₀ (takeServe x s) := by
  refine .ite h ?_
  split
  · exact oweServes_grows (setStation_grows h)
  · exact oweServes_grows h
  · exact h

theorem takeTilt_grows : Grows s₀ (takeTilt s) := .ite (judgeZero_grows (clearServes_grows (setStation_grows h))) h

theorem takeGameEnd_grows : Grows s₀ (takeGameEnd s) :=
  setStation_grows (endSearch_grows (clearServes_grows (setPhase_grows (endCombo_grows (endModes_grows h)))))

theorem takeFeatureSet_grows {x f r p : Byte} : Grows s₀ (takeFeatureSet x f r p s) := by
  refine .ite ?_ h
  split
  · exact setFeature_grows h
  · exact h.same (by rfl)
  · exact h

/-- R50: the combo count saturates. -/
theorem takeCombo_grows : Grows s₀ (takeCombo s) := h.mapCombo rfl fun _ => Nat.min_le_left _ _

theorem takeAward_grows {x : AwardPayload} : Grows s₀ (takeAward x s) :=
  restartQuiet_grows (.ite (takeCombo_grows h) h)

/-! ## The peer view, modes and collects (R52 to R56, R85 to R88, R96 to R102) -/

theorem gatherRecord_grows {j : StationNo} {f : CensusRecord → CensusRecord} : Grows s₀ (gatherRecord j f s) :=
  .ite (h.same (by rfl)) h

theorem compareSignature_grows {r : CensusRecord} : Grows s₀ (compareSignature r s) := .ite (setFlag_grows h) h

theorem takeCensus_grows {j : StationNo} {x : CensusPayload} {own : Bool} : Grows s₀ (takeCensus j x own s) :=
  have compared := compareSignature_grows (h.same (by rfl)) (r := recordOf x)
  .ite h (.ite (compareSignature_grows h)
    (.ite (reconcile_grows compared) (reconcile_grows (takeCensusCounts_grows compared))))

theorem gatherCensus_grows {j : StationNo} {x : CensusPayload} {own : Bool} : Grows s₀ (gatherCensus j x own s) :=
  .ite h (.ite (compareSignature_grows h) (compareSignature_grows (h.same (by rfl))))

theorem takeModeStart_grows {j : StationNo} {x y : Byte} : Grows s₀ (takeModeStart j x y s) := by
  unfold takeModeStart
  split
  · exact startMode_grows h
  · exact h

theorem takeModeEnd_grows {x : Byte} : Grows s₀ (takeModeEnd x s) := by
  unfold takeModeEnd
  split
  · exact .ite (endMode_grows h) h
  · exact h

theorem takeJackpotAdd_grows {x : Byte} : Grows s₀ (takeJackpotAdd x s) := by
  unfold takeJackpotAdd
  split
  · exact h
  · split
    · rename_i stands _
      exact .ite (putMode_over_grows h stands) h
    · exact h

theorem setCollect_grows {m : ModeId} {x : Option (Fin 8)} :
    Grows s₀ (s.mapRules fun r => { r with collects := r.collects.set m x }) := h.same (by rfl)

theorem settleCollect_grows {m : ModeId} {x : Byte} : Grows s₀ (settleCollect m x s) := by
  unfold settleCollect
  dsimp only
  split
  · exact setCollect_grows (award_grows h)
  · exact setCollect_grows h

theorem collectEffect_grows {m : ModeId} : Grows s₀ (collectEffect m s) := by
  unfold collectEffect
  split
  · rename_i stands _
    split
    · exact putMode_over_grows h stands
    · exact endMode_grows h
    · exact h
    · exact h
  · exact h

theorem takeCollect_grows {x y : Byte} {own : Bool} : Grows s₀ (takeCollect x y own s) := by
  unfold takeCollect
  split
  · exact h
  · exact collectEffect_grows (.ite (settleCollect_grows h) h)

/-! ## Service (R177, R187 to R192) -/

theorem takeQuery_grows {x y z : Byte} : Grows s₀ (takeQuery x y z s) := .ite (offer_grows h) h

theorem takeFire_grows {x y : Byte} : Grows s₀ (takeFire x y s) := by
  refine .ite ?_ h
  split
  · exact request_grows h
  · exact h

theorem restartBank_grows {b : BankNo} : Grows s₀ (restartBank b s) := by
  unfold restartBank
  split
  · exact .ite (beginReset_grows h) h
  · exact h

theorem switchAgain_grows : Grows s₀ (switchAgain s) := .ite (setFlag_grows h) h

theorem accountingAgain_grows : Grows s₀ (accountingAgain s) := .ite (setFlag_grows h) h

theorem clearFaultsNow_grows : Grows s₀ (clearFaultsNow s) := by
  have driven := (clearFlags_grows h).eachUp (n := 8) fun d _ h => clearDriver_grows h (d := d)
  have restarted := (eachPocket_grows driven fun p c _ h => restartPocket_grows h (p := p) (c := c)).eachUp (n := 4)
    fun b _ h => restartBank_grows h (b := b)
  exact accountingAgain_grows (switchAgain_grows restarted)

theorem takeRestart_grows {x : Byte} : Grows s₀ (takeRestart x s) := .ite (beginLoading_grows (lineReset_grows h)) h

end

end Sys2Proof.Machine

end

