-- ==== Sys2Proof/Proofs/TalliesAndCeilings.lean ====
section
/-! SUPPORT. POWER_ON and GAME START, which leave every tally at 0 (R41), and O6 and O9. -/

namespace Sys2Proof.Machine

/-! ## The commands that leave every tally at 0 -/

/-- R41: POWER_ON and GAME START. -/
def zeroesTallies : Instr → Bool
  | .powerOn _ | .gameStart _ _ => true
  | _ => false

/-- R41: every tally is 0. -/
def noTally (s : State) : Prop := ∀ p, s.rules.tallies.get p = 0

section
variable {s t : State}

theorem noTally_of_tallies (same : t.rules.tallies = s.rules.tallies) (h : noTally s) : noTally t := fun p => by
  rw [same]
  exact h p

/-- R180: the part after power-on is within every ceiling. -/
theorem powerUp_keeps (strap : StationNo) (s : State) : Keeps s (powerUp strap s) := by
  obtain ⟨-, -, rules, control, modes, balls, trough⟩ := inv_reset
  exact ⟨fun _ => rules, fun _ => modes, fun _ => control, fun _ => balls, fun _ => trough⟩

theorem powerUp_noTally (strap : StationNo) (s : State) : noTally (powerUp strap s) := fun p => Tab.get_fill 0 p

theorem freshContexts_grows {s₀ : State} (h : Grows s₀ s) : Grows s₀ (freshContexts s) :=
  changeLit_grows (h.same (by rfl))

theorem raiseMarkedBank_grows {s₀ : State} (h : Grows s₀ s) {b : BankNo} : Grows s₀ (raiseMarkedBank b s) := by
  unfold raiseMarkedBank
  split
  · exact .ite (beginReset_grows h) h
  · exact h

theorem raiseMarkedBank_tallies (b : BankNo) (s : State) : (raiseMarkedBank b s).rules.tallies = s.rules.tallies := by
  unfold raiseMarkedBank
  split
  · split
    · unfold beginReset askReset
      split
      · rfl
      · split
        · rw [faultBank_eq]
          rfl
        · rw [(request_frame _ _ _ _ _).2.2.2.1]
          rfl
    · rfl
  · rfl

/-- R155: steps 1 to 3 of a new game, which put the tallies at 0. -/
def zeroedGame (count : Nat) (s : State) : State :=
  (s.mapControl fun c => { c with playerCount := count, retained := false }).mapRules fun r =>
    { r with tallies := .fill 4 0, current := 0 }

/-- R155: steps 4 to 7 of a new game. -/
theorem newGame_eq (count : Nat) (s : State) : newGame count s = setStation .ready (eachUp 4 raiseMarkedBank
    ((freshContexts (zeroedGame count s)).mapBalls fun b => { b with credits := .fill 4 0, phase := .single })) := rfl

theorem newGame_keeps (count : Nat) (s : State) : Keeps s (newGame count s) := by
  have zeroed : Keeps s (zeroedGame count s) :=
    ⟨fun within => ⟨fun p => (Tab.get_fill 0 p).trans_le (Nat.zero_le _), within.2⟩, id, id, id, id⟩
  have credited := (freshContexts_grows (.refl (zeroedGame count s))).mapBalls
    (f := fun b => { b with credits := .fill 4 0, phase := .single })
    fun _ p => (Tab.get_fill 0 p).trans_le (Nat.zero_le _)
  have raised := setStation_grows (x := .ready) (credited.eachUp (n := 4) fun b _ h => raiseMarkedBank_grows h (b := b))
  rw [newGame_eq]
  exact zeroed.trans raised.toKeeps

theorem freshContexts_tallies (s : State) : (freshContexts s).rules.tallies = s.rules.tallies := by
  unfold freshContexts
  rw [(changeLit_frame _ _).2.2.2.1]
  rfl

theorem newGame_noTally (count : Nat) (s : State) : noTally (newGame count s) := fun p => by
  have raised (v : State) : (eachUp 4 raiseMarkedBank v).rules.tallies = v.rules.tallies :=
    eachUp_keeps (fun t : State => t.rules.tallies) raiseMarkedBank raiseMarkedBank_tallies v
  rw [newGame_eq, setStation_rules, raised, State.mapBalls_rules, freshContexts_tallies]
  exact Tab.get_fill 0 p

/-! ## Every command and step -/

/-- A command whose work grows, grows: it ends in `finish`. -/
theorem Grows.of_exec {v : State} (h : Grows s v) (ran : taken (finish v) = .next t) : Grows s t :=
  Host.Outcome.next.inj ran ▸ finish_grows h

/-- R41: every command but POWER_ON and GAME START. -/
theorem exec_grows {c : Instr} (counts : zeroesTallies c = false) (ran : exec c s = .next t) : Grows s t := by
  have same := Grows.refl s
  cases c with
  | powerOn strap => cases counts
  | gameStart o n => cases counts
  | selftestComplete pass => exact (endSelftest_grows same).of_exec ran
  | resetLineAssert => exact (assertLine_grows same).of_exec ran
  | resetLineRelease => exact (releaseLine_grows same).of_exec ran
  | loadBurstRead burst => exact (takeBurst_grows same).of_exec ran
  | loadPollExpiry x => exact (pollAgain_grows same).of_exec ran
  | strobe x => exact (strobeLine_grows same).of_exec ran
  | scanCompletion => exact (completeScan_grows same).of_exec ran
  | stuckTimerExpiry i => exact (markStuck_grows same).of_exec ran
  | bankConfirmTimerExpiry b => exact (bankTimerExpires_grows same).of_exec ran
  | settleWindowExpiry p => exact (settleExpires_grows same).of_exec ran
  | kickoutTimerExpiry p => exact (kickoutExpires_grows same).of_exec ran
  | conversion n => exact (convert_grows same).of_exec ran
  | roundCompletion => exact (completeRound_grows same).of_exec ran
  | confirmWindowExpiry p => exact (windowExpires_grows same).of_exec ran
  | rearmTimerExpiry p => exact (rearmExpires_grows same).of_exec ran
  | turnTimerExpiry => exact (turnExpires_grows same).of_exec ran
  | troughSettleTimerExpiry => exact (troughSettles_grows same).of_exec ran
  | serveWindowExpiry => exact (serveWindowExpires_grows same).of_exec ran
  | restGap => exact (restGapSeen_grows same).of_exec ran
  | lostArbitration => exact (loseArbitration_grows same).of_exec ran
  | clash => exact (takeClash_grows same).of_exec ran
  | clashHoldEnd => exact (endHold_grows same).of_exec ran
  | receiveError => exact (takeError_grows same).of_exec ran
  | samplingPoint x => exact (completeRowless_grows (sample_grows same)).of_exec ran
  | tilt o => exact (complete_grows same (fun _ _ h => takeTilt_grows h) nothing_grows).of_exec ran
  | gameEnd o => exact (complete_grows same (fun _ _ h => takeGameEnd_grows h) nothing_grows).of_exec ran
  | playerUp o p => exact (complete_grows same (fun _ _ h => takePlayerUp_grows h) nothing_grows).of_exec ran
  | serve o n => exact (complete_grows same (fun _ _ h => takeServe_grows h) nothing_grows).of_exec ran
  | lock o x =>
    exact (complete_grows same (fun _ _ h => takeLock_grows h) fun _ _ h => gatherRecord_grows h).of_exec ran
  | trough o n r =>
    exact (complete_grows same (fun _ _ h => takeTrough_grows h) fun _ _ h => .ite (gatherRecord_grows h) h).of_exec ran
  | missing o n =>
    exact (complete_grows same (fun _ _ h => takeMissing_grows h)
      fun _ _ h => .ite (gatherRecord_grows h) h).of_exec ran
  | modeStart o m d => exact (complete_grows same (fun _ _ h => takeModeStart_grows h) nothing_grows).of_exec ran
  | modeEnd o m => exact (complete_grows same (fun _ _ h => takeModeEnd_grows h) nothing_grows).of_exec ran
  | collect o m p => exact (complete_grows same (fun _ _ h => takeCollect_grows h) nothing_grows).of_exec ran
  | jackpotAdd o m => exact (complete_grows same (fun _ _ h => takeJackpotAdd_grows h) nothing_grows).of_exec ran
  | featureSet o a f r p =>
    exact (complete_grows same (fun _ _ h => takeFeatureSet_grows h) nothing_grows).of_exec ran
  | award o p => exact (complete_grows same (fun _ _ h => takeAward_grows h) nothing_grows).of_exec ran
  | census o p =>
    exact (complete_grows same (fun _ _ h => takeCensus_grows h) fun _ _ h => gatherCensus_grows h).of_exec ran
  | status o i d => exact (complete_grows same nothing_grows nothing_grows).of_exec ran
  | query o a i x =>
    exact (complete_grows same (fun _ _ h => takeQuery_grows h) fun _ _ h => takeQuery_grows h).of_exec ran
  | fire o a d => exact (complete_grows same (fun _ _ h => takeFire_grows h) nothing_grows).of_exec ran
  | clearFaults o a =>
    exact (complete_grows same (fun _ _ h => .ite (clearFaultsNow_grows h) h) nothing_grows).of_exec ran
  | clearCounts o a =>
    exact (complete_grows same (fun _ _ h => .ite (clearCounters_grows h) h) nothing_grows).of_exec ran
  | clearBoth o a =>
    exact (complete_grows same (fun _ _ h => .ite (clearCounters_grows (clearFaultsNow_grows h)) h)
      nothing_grows).of_exec ran
  | restart o a =>
    exact (complete_grows same (fun _ _ h => takeRestart_grows h) fun _ _ h => takeRestart_grows h).of_exec ran
  | comboWindowExpiry => exact (comboExpires_grows same).of_exec ran
  | silenceTimerExpiry j => exact (silenceExpires_grows same).of_exec ran
  | censusTimerExpiry => exact (censusDue_grows same).of_exec ran
  | joiningTimerExpiry => exact (endJoining_grows same).of_exec ran
  | modeTimerExpiry m => exact (modeExpires_grows same).of_exec ran
  | graceTimerExpiry m => exact (graceExpires_grows same).of_exec ran
  | hurryTickExpiry m => exact (hurryTicks_grows same).of_exec ran
  | quietTimerExpiry => exact (quietExpires_grows same).of_exec ran
  | offsetTimerExpiry => exact (offsetExpires_grows same).of_exec ran
  | searchSlotExpiry => exact (slotExpires_grows same).of_exec ran
  | pauseTimerExpiry => exact (pauseExpires_grows same).of_exec ran
  | pulseStart => exact (startPulses_grows same).of_exec ran
  | pulseEnd d n => exact (pulseEnds_grows same).of_exec ran
  | maxHoldExpiry d => exact (maxHoldExpires_grows same).of_exec ran
  | recycleTimerExpiry d => exact (recycleExpires_grows same).of_exec ran
  | openDetected d => exact (openFound_grows same).of_exec ran
  | shortDetected d => exact (shortFound_grows same).of_exec ran
  | blinkClockTick => exact (blinkTick_grows same).of_exec ran
  | modeRemaining3s m => exact (modeNearsEnd_grows same).of_exec ran

/-- R41: a GAME START begins a new game, or does no more than its reception. -/
theorem gameStart_cases {o : StationNo} {n : Byte} (ran : exec (.gameStart o n) s = .next t) :
    Grows s t ∨ Keeps s t ∧ noTally t := by
  cases ran
  by_cases heard : hears o (.gameStart n) s
  · have taken := received_grows (.refl s) (o := o) (b := .gameStart n)
    rw [complete_heard _ _ heard]
    split
    · unfold takeGameStart
      split
      · refine .inr ⟨(taken.toKeeps.trans (newGame_keeps _ _)).trans (finish_grows (.refl _)).toKeeps, ?_⟩
        exact noTally_of_tallies (congrArg RuleEngine.tallies (finish_frame _).2.2.2.1) (newGame_noTally _ _)
      · exact .inl (finish_grows taken)
    · exact .inl (finish_grows taken)
  · rw [complete_unheard _ _ heard]
    exact .inl (finish_grows (.refl s))

/-- R41: a command grows, or keeps the ceilings and leaves every tally at 0 where it may. -/
theorem exec_cases {c : Instr} (ran : exec c s = .next t) :
    Grows s t ∨ zeroesTallies c = true ∧ Keeps s t ∧ noTally t := by
  cases zeroes : zeroesTallies c with
  | false => exact .inl (exec_grows zeroes ran)
  | true =>
    cases c with
    | powerOn strap =>
      cases ran
      refine .inr ⟨rfl, (powerUp_keeps strap s).trans (finish_grows (.refl _)).toKeeps, ?_⟩
      exact noTally_of_tallies (congrArg RuleEngine.tallies (finish_frame _).2.2.2.1) (powerUp_noTally strap s)
    | gameStart o n => exact (gameStart_cases ran).imp_right fun zeroed => ⟨rfl, zeroed⟩
    | _ => cases zeroes

theorem exec_keeps {c : Instr} (ran : exec c s = .next t) : Keeps s t :=
  (exec_cases ran).elim Grows.toKeeps fun zeroed => zeroed.2.1

/-- A step, with or without a command waiting, keeps the ceilings. -/
theorem step_keeps (ran : step s = .next t) : Keeps s t := by
  unfold step idle at ran
  split at ran
  · have ⟨rules, modes, control, balls, trough⟩ := exec_keeps ran
    exact ⟨rules, modes, control, balls, trough⟩
  · split at ran
    · exact exec_keeps ran
    · cases ran
      exact (finish_grows (passMs_grows (.refl s))).toKeeps

/-- Settles O6: every step keeps the ceilings, by `step_keeps`. -/
theorem talliesModesAndCountersStayWithin : Obligations.TalliesModesAndCountersStayWithin :=
  ⟨fun _ _ within ran => (step_keeps ran).rules within, fun _ _ within ran => (step_keeps ran).modes within,
    fun _ _ ran => ⟨(step_keeps ran).control, (step_keeps ran).balls, (step_keeps ran).trough⟩⟩

/-- Settles O9: every command grows but POWER_ON and a GAME START that begins a game, by `exec_cases`. -/
theorem talliesFallOnlyToZero : Obligations.TalliesFallOnlyToZero := by
  intro c s t ran
  refine (exec_cases ran).imp Grows.tallies ?_
  rintro ⟨zeroes, -, none⟩
  cases c with
  | powerOn strap => exact ⟨trivial, none⟩
  | gameStart o n => exact ⟨trivial, none⟩
  | _ => cases zeroes

end

end Sys2Proof.Machine

end

