-- ==== Sys2Proof/Proofs/Combos.lean ====
section
/-! SUPPORT. The combo count and its window (R50, R51), and O34. -/

namespace Sys2Proof.Machine

variable {s u : State}

/-- R147: in the game states the quiet timer restarts and a search ends. -/
theorem restartQuiet_inGame (game : inGame u = true) : restartQuiet u = { u with balls := { u.balls with
    quiet := some (u.control.image.searchDelay * 1000)
    search := .idle, round := 0, todo := [], searchTimer := none } } := by
  rw [restartQuiet_eq, game]
  rfl

/-- R50, R147: what an AWARD makes of the combo and the quiet timer. -/
theorem takeAward_eq {a : AwardPayload} (game : inGame u = true) : takeAward a u = { u with
    rules := if a.combo = true ∧ u.control.station = .play then
        { u.rules with combo := min 5 (u.rules.combo + 1), comboTimer := some u.control.image.comboWindow }
      else u.rules
    balls := { u.balls with
      quiet := some (u.control.image.searchDelay * 1000)
      search := .idle, round := 0, todo := [], searchTimer := none } } := by
  have play : inPlay u = true ↔ u.control.station = .play := beq_iff_eq
  unfold takeAward
  by_cases raises : a.combo = true ∧ u.control.station = .play
  · rw [if_pos raises, if_pos ⟨raises.1, play.mpr raises.2⟩]
    exact restartQuiet_inGame game
  · rw [if_neg raises, if_neg fun both => raises ⟨both.1, play.mp both.2⟩]
    exact restartQuiet_inGame game

/-- Settles O34: the expiry by its test, the AWARD by `takeAward_eq`. -/
theorem theComboCountRisesAndRunsOut : Obligations.TheComboCountRisesAndRunsOut := by
  intro s
  refine ⟨fun runs => settles_exec rfl (if_pos runs), fun stopped => settles_exec rfl (if_neg (by simp [stopped])),
    fun o a heard => ?_⟩
  intro u
  have setup : u.control.setup = s.control.setup := received_setup _ _ _
  have ran : exec (.award o a) s = .next (finish (if inGame s then takeAward a u else u)) :=
    congrArg (fun v => Host.Outcome.next (finish v)) (complete_heard _ _ heard)
  refine ⟨fun game => settles_exec ran ?_, fun out => settles_exec ran (if_neg (by simp [out]))⟩
  rw [if_pos game, takeAward_eq ((inGame_of_setup setup).trans game), station_of_setup setup, image_of_setup setup]

end Sys2Proof.Machine

end

