-- ==== Sys2Proof/Proofs/Awards.lean ====
section
/-! SUPPORT. The multiplier (R44), the award and its AWARD (R43 to R48), and O30. -/

namespace Sys2Proof.Machine

/-! ## The multiplier (R44) -/

/-- R44: mode `m` has a MULTIPLY entry, ACTIVE or ENDING, whose mask covers group `g`. -/
def covers (s : State) (g : Fin 8) (m : ModeId) : Prop :=
  ∃ e d, s.modes.get m = some e ∧ modeDef s m = some d ∧ e.kind = .multiply ∧ d.mask.getLsbD g.val = true

section
variable {s : State} {g : Fin 8} {m : ModeId}

/-- R44: a mode that covers the group gives the factor of its definition. -/
theorem modeFactor_of_covers (h : covers s g m) : modeFactor s g m = (modeDef s m).elim 1 (·.factor) := by
  obtain ⟨e, d, entry, defined, kind, mask⟩ := h
  simp [modeFactor, entry, defined, kind, mask]

/-- R44: any other mode gives 1. -/
theorem modeFactor_of_not_covers (h : ¬ covers s g m) : modeFactor s g m = 1 := by
  unfold modeFactor
  split
  · rename_i e d entry defined
    exact if_neg fun both => h ⟨e, d, entry, defined, both.1, both.2⟩
  · rfl

theorem multiplier_eq_prod (s : State) (g : Fin 8) : multiplier s g = min 10 (∏ m, modeFactor s g m) := by
  rw [Fin.prod_univ_def]
  rfl

/-- R44: the product over a list of some modes, each once. -/
theorem prod_map_modeFactor {ms : List ModeId} (once : ms.Nodup) :
    (ms.map (modeFactor s g)).prod = ∏ m ∈ ms.toFinset, modeFactor s g m := (List.prod_toFinset _ once).symm

/-- R44: the multiplier is the product of the factors of the modes that cover the group. -/
theorem multiplier_of_covers {ms : List ModeId} (once : ms.Nodup) (all : ∀ k, covers s g k ↔ k ∈ ms) :
    multiplier s g = min 10 (ms.map fun m => (modeDef s m).elim 1 (·.factor)).prod := by
  have factors : ms.map (fun m => (modeDef s m).elim 1 (·.factor)) = ms.map (modeFactor s g) :=
    List.map_congr_left fun m mem => (modeFactor_of_covers ((all m).mpr mem)).symm
  have others : ∀ m ∈ Finset.univ, m ∉ ms.toFinset → modeFactor s g m = 1 := fun m _ absent =>
    modeFactor_of_not_covers fun covered => absent (List.mem_toFinset.mpr ((all m).mp covered))
  rw [multiplier_eq_prod, factors, prod_map_modeFactor once,
    Finset.prod_subset (Finset.subset_univ ms.toFinset) others]

/-- R44: where none covers the group the multiplier is 1. -/
theorem multiplier_of_none (none : ∀ m, ¬ covers s g m) : multiplier s g = 1 := by
  rw [multiplier_of_covers List.nodup_nil fun k => ⟨fun h => absurd h (none k), fun h => nomatch h⟩]
  rfl

theorem multiplier_le : multiplier s g ≤ 10 := Nat.min_le_left _ _

section
variable (factors : ∀ m d, modeDef s m = some d → 2 ≤ d.factor ∧ d.factor ≤ 5)
include factors

theorem two_le_modeFactor (h : covers s g m) : 2 ≤ modeFactor s g m := by
  rw [modeFactor_of_covers h]
  obtain ⟨-, d, -, defined, -⟩ := h
  rw [defined]
  exact (factors m d defined).1

theorem one_le_modeFactor (m : ModeId) : 1 ≤ modeFactor s g m := by
  by_cases h : covers s g m
  · exact (Nat.le_succ 1).trans (two_le_modeFactor factors h)
  · exact (modeFactor_of_not_covers h).ge

/-- R44: within 1..10. -/
theorem one_le_multiplier : 1 ≤ multiplier s g := by
  rw [multiplier_eq_prod]
  exact le_min (by decide) (Finset.one_le_prod' fun m _ => one_le_modeFactor factors m)

/-- R44: four factors of 2 or more reach the cap. -/
theorem multiplier_of_four {a b c d : ModeId} (once : [a, b, c, d].Nodup) (ha : covers s g a) (hb : covers s g b)
    (hc : covers s g c) (hd : covers s g d) : multiplier s g = 10 := by
  have four : 2 * (2 * (2 * (2 * 1))) ≤ ([a, b, c, d].map (modeFactor s g)).prod :=
    have two {m : ModeId} (h : covers s g m) := two_le_modeFactor factors h
    Nat.mul_le_mul (two ha) (Nat.mul_le_mul (two hb) (Nat.mul_le_mul (two hc)
      (Nat.mul_le_mul (two hd) (Nat.le_refl 1))))
  have part : ([a, b, c, d].map (modeFactor s g)).prod ≤ ∏ m, modeFactor s g m := by
    rw [prod_map_modeFactor once]
    exact Finset.prod_le_prod_of_subset_of_one_le' (Finset.subset_univ _) fun m _ _ => one_le_modeFactor factors m
  rw [multiplier_eq_prod]
  exact Nat.min_eq_left (by omega)

end

/-! ## The award (R43, R45 to R47) -/

variable {p : Player} {v : Nat} {kind : Scoring}

/-- R45, R46: the raw award is V × M with the combo bonus, which a combo-flagged hit alone earns. -/
theorem rawAward_eq : rawAward s v g kind = v * multiplier s g + (match kind with
    | .hit _ true => v * multiplier s g * s.rules.combo / 4
    | _ => 0) := by
  rcases kind with ⟨i, _ | _⟩ | i | _
  case hit.true => rfl
  all_goals exact (Nat.add_zero _).symm

/-- R47, R48: an award that adds nothing and is not combo-flagged does nothing. -/
theorem award_stays (nothing : amountAdded (s.rules.tallies.get p) (rawAward s v g kind) = 0)
    (plain : ∀ i, kind ≠ .hit i true) : award p v g kind s = s := by
  have silent : awardOffered kind 0 = false := by
    rcases kind with ⟨i, _ | _⟩ | i | _
    · rfl
    · exact absurd rfl (plain i)
    · rfl
    · rfl
  unfold award
  dsimp only
  rw [nothing, silent, Nat.add_zero, if_neg Bool.false_ne_true]
  unfold State.mapRules
  dsimp only
  rw [Tab.set_get]

/-! ## The AWARD (R48) -/

/-- R59: the begin of the head changes no bulletin. -/
theorem mem_beginIfAtRest {l : LinkCtl} {e : TxEntry} (h : e ∈ l.queue) :
    ∃ x ∈ (beginIfAtRest l).queue, x.bulletin = e.bulletin := by
  unfold beginIfAtRest beginHead
  split
  · cases queue : l.queue with
    | nil =>
      rw [queue] at h
      cases h
    | cons head rest =>
      rw [queue] at h
      rcases List.mem_cons.mp h with rfl | later
      · exact ⟨_, List.mem_cons_self, rfl⟩
      · exact ⟨e, List.mem_cons_of_mem _ later, rfl⟩
  · exact ⟨e, h, rfl⟩

/-- R68, R72: an AWARD offered with room in the queue stands in it. -/
theorem offer_award_stands (a : AwardPayload) (room : s.link.queue.length < 16) :
    ∃ e ∈ (offer (.award a) s).link.queue, e.bulletin = .award a := by
  have entered : (offerTo (.award a) s.link).queue = place (freshEntry (.award a)) s.link.queue :=
    congrArg Offer.queue (if_pos room)
  rw [offer_link]
  refine mem_beginIfAtRest (e := freshEntry (.award a)) ?_
  rw [entered]
  exact (place_perm _ _).mem_iff.mpr List.mem_cons_self

/-- R48: an award that is offered, with room in the queue, stands in it as its AWARD. -/
theorem award_stands (offered : awardOffered kind (amountAdded (s.rules.tallies.get p) (rawAward s v g kind)) = true)
    (room : s.link.queue.length < 16) :
    ∃ e ∈ (award p v g kind s).link.queue, e.bulletin =
      .award (awardFor p kind (amountAdded (s.rules.tallies.get p) (rawAward s v g kind))
        (s.rules.tallies.get p + amountAdded (s.rules.tallies.get p) (rawAward s v g kind))) := by
  unfold award
  dsimp only
  rw [if_pos offered]
  exact offer_award_stands _ room

end

/-- Settles O30: the multiplier by its product over the modes, the award by `award_rules`, its AWARD by
`award_stands`. -/
theorem anAwardFillsTheTallyAndIsReported : Obligations.AnAwardFillsTheTallyAndIsReported := by
  refine ⟨fun s g => ?multiplier, fun p v g kind s within => ?tally, fun p v g kind s within => ?report⟩
  case multiplier =>
    exact ⟨multiplier_of_none, fun ms once all => multiplier_of_covers once all, fun factors =>
      ⟨one_le_multiplier factors, multiplier_le, fun a b c d => multiplier_of_four factors⟩⟩
  case tally =>
    intro m c t
    have rules := award_rules p v g kind s
    dsimp only at rules
    rw [tally_after _ within, rawAward_eq] at rules
    exact rules
  case report =>
    intro raw added combo
    refine ⟨fun nothing plain => award_stays nothing fun i flagged => ?_, fun reported room => ?_⟩
    · subst flagged
      exact Bool.false_ne_true plain.symm
    · refine award_stands ?_ room
      unfold awardOffered
      rw [Bool.or_eq_true, decide_eq_true_iff]
      exact reported

end Sys2Proof.Machine

end

