-- ==== Sys2Proof/Proofs/Collects.lean ====
section
/-! SUPPORT. JACKPOT ADD (R52, R107) and COLLECT (R54 to R56), and O38. -/

namespace Sys2Proof.Machine

section
variable {s t : State} {m k : ModeId} {e : ModeEntry} {d : ModeDef} {mode player : Byte} {own : Bool}

/-! ## Modes named and defined -/

/-- R64: a byte that names mode `m`. -/
theorem modeOf_eq_some {x : Byte} : modeOf x = some m ↔ x.toNat = m.val := by
  unfold modeOf
  split
  · rw [Option.some.injEq, Fin.ext_iff]
  · rename_i h
    simp only [reduceCtorEq, false_iff]
    exact fun names => h (names ▸ m.isLt)

/-- R66: a byte above 31 names no mode. -/
theorem modeOf_eq_none {x : Byte} (h : 32 ≤ x.toNat) : modeOf x = none := dif_neg (Nat.not_lt.mpr h)

theorem modeDef_of_setup (h : t.control.setup = s.control.setup) (m : ModeId) : modeDef t m = modeDef s m := by
  unfold modeDef
  rw [image_of_setup h]

/-- R44: the multiplier reads the mode table and its definitions. -/
theorem multiplier_congr (setup : t.control.setup = s.control.setup) (modes : t.modes = s.modes) (g : Fin 8) :
    multiplier t g = multiplier s g := by
  have factor : modeFactor t g = modeFactor s g := funext fun m => by
    unfold modeFactor
    rw [modes, modeDef_of_setup setup]
  unfold multiplier
  rw [factor]

/-! ## JACKPOT ADD (R52) -/

/-- R52: the value of a JACKPOT entry rises. -/
theorem takeJackpotAdd_raises (names : mode.toNat = m.val) (entry : s.modes.get m = some e)
    (defined : modeDef s m = some d) (jackpot : e.kind = .jackpot) : takeJackpotAdd mode s =
      { s with modes := s.modes.set m (some { e with value := e.value.map (jackpotAfterAdd d) }) } := by
  unfold takeJackpotAdd
  rw [modeOf_eq_some.mpr names]
  dsimp only
  rw [entry, defined]
  exact if_pos jackpot

/-- R52: any other mode is left. -/
theorem takeJackpotAdd_stays (other : 32 ≤ mode.toNat ∨
    ∀ m e, mode.toNat = m.val → s.modes.get m = some e → e.kind ≠ .jackpot) : takeJackpotAdd mode s = s := by
  unfold takeJackpotAdd
  split
  · rfl
  · rename_i m named
    have names := modeOf_eq_some.mp named
    split
    · rename_i e d entry defined
      exact if_neg (other.resolve_left (by omega) m e names entry)
    · rfl

/-! ## The effect of a COLLECT on the entry (R55) -/

/-- R55: what becomes of an entry that is collected. -/
def entryAfterCollect (d : ModeDef) (e : ModeEntry) : Option ModeEntry :=
  match e.kind with
  | .jackpot => some { e with value := some d.base }
  | .hurry => none
  | .plain | .multiply => some e

theorem collectEffect_stays (h : s.modes.get m = none ∨ modeDef s m = none) : collectEffect m s = s := by
  unfold collectEffect
  split
  · rename_i entry defined
    rcases h with h | h
    · exact absurd (h.symm.trans entry) (by simp)
    · exact absurd (h.symm.trans defined) (by simp)
  · rfl

/-- R95: an end changes the mode table and what the drivers make of it. -/
theorem endMode_eq : endMode m s = { s with modes := s.modes.set m none, drivers := (endMode m s).drivers } :=
  changeLit_eq (putMode m none) s

theorem collectEffect_defined (entry : s.modes.get m = some e) (defined : modeDef s m = some d) :
    collectEffect m s = { s with
      modes := s.modes.set m (entryAfterCollect d e), drivers := (collectEffect m s).drivers } := by
  have same : e.kind ≠ .jackpot → e.kind ≠ .hurry →
      s = { s with modes := s.modes.set m (some e), drivers := s.drivers } := fun _ _ => by
    rw [← entry, Tab.set_get]
  unfold collectEffect entryAfterCollect
  rw [entry, defined]
  dsimp only
  cases kind : e.kind with
  | jackpot => rfl
  | hurry => exact endMode_eq
  | plain => exact same (by simp [kind]) (by simp [kind])
  | multiply => exact same (by simp [kind]) (by simp [kind])

/-- R55: a COLLECT changes the mode table and what the drivers make of it. -/
theorem collectEffect_eq : collectEffect m s = { s with
    modes := (collectEffect m s).modes, drivers := (collectEffect m s).drivers } := by
  cases entry : s.modes.get m with
  | none => rw [collectEffect_stays (.inl entry)]
  | some e =>
    cases defined : modeDef s m with
    | none => rw [collectEffect_stays (.inr defined)]
    | some d =>
      rw [collectEffect_defined entry defined]

theorem collectEffect_other (other : k ≠ m) : (collectEffect m s).modes.get k = s.modes.get k := by
  cases entry : s.modes.get m with
  | none => rw [collectEffect_stays (.inl entry)]
  | some e =>
    cases defined : modeDef s m with
    | none => rw [collectEffect_stays (.inr defined)]
    | some d =>
      rw [collectEffect_defined entry defined]
      exact Tab.get_set_other _ _ other

/-! ## The settlement (R54, R56) -/

/-- R54: the tallies once a collector has settled. -/
def settledTallies (m : ModeId) (player : Byte) (s : State) : Tab 4 Nat :=
  match settlement m player s with
  | some (p, v, g) => s.rules.tallies.set p (s.rules.tallies.get p +
      min (v * multiplier s g) (99999999 - s.rules.tallies.get p))
  | none => s.rules.tallies

/-- R54, R56: a settlement raises the tallies and clears the mark. -/
theorem settleCollect_rules : (settleCollect m player s).rules =
    { s.rules with tallies := settledTallies m player s, collects := s.rules.collects.set m none } := by
  unfold settleCollect settledTallies
  cases settlement m player s with
  | none => rfl
  | some x =>
    dsimp only
    rw [State.mapRules_rules, award_rules]
    rfl

/-- A settlement changes flags, counters, the Rule Engine and the link alone. -/
theorem settleCollect_frame (m : ModeId) (player : Byte) (s : State) :
    (settleCollect m player s).control.setup = s.control.setup ∧ (settleCollect m player s).modes = s.modes ∧
      (settleCollect m player s).pockets = s.pockets ∧ (settleCollect m player s).balls = s.balls := by
  unfold settleCollect
  dsimp only
  split <;> simp

/-- R54, R56: the collector settles, a peer does not. -/
def settledIf (own : Bool) (m : ModeId) (player : Byte) (s : State) : State :=
  if own then settleCollect m player s else s

theorem takeCollect_named (names : mode.toNat = m.val) :
    takeCollect mode player own s = collectEffect m (settledIf own m player s) := by
  unfold takeCollect
  rw [modeOf_eq_some.mpr names]
  rfl

theorem settledIf_frame (own : Bool) (m : ModeId) (player : Byte) (s : State) :
    (settledIf own m player s).control.setup = s.control.setup ∧ (settledIf own m player s).modes = s.modes ∧
      (settledIf own m player s).pockets = s.pockets ∧ (settledIf own m player s).balls = s.balls := by
  cases own with
  | true => exact settleCollect_frame m player s
  | false => exact ⟨rfl, rfl, rfl, rfl⟩

theorem settledIf_rules : (settledIf own m player s).rules = { s.rules with
    tallies := if own then settledTallies m player s else s.rules.tallies
    collects := if own then s.rules.collects.set m none else s.rules.collects } := by
  cases own with
  | true => exact settleCollect_rules
  | false => rfl

/-- R54: the settlement reads the mode table, the Rule Engine and the setup. -/
theorem settledTallies_congr (setup : t.control.setup = s.control.setup) (modes : t.modes = s.modes)
    (rules : t.rules = s.rules) : settledTallies m player t = settledTallies m player s := by
  have settles : settlement m player t = settlement m player s := by
    unfold settlement
    rw [modes, rules, playerCount_of_setup setup, inPlay_of_setup setup]
  unfold settledTallies
  rw [settles, rules]
  split
  · rw [multiplier_congr setup modes]
  · rfl

/-- R54: a collector in PLAY, for a player of the game and with a mark set, scores the value of a JACKPOT or HURRY
entry; no one else scores. -/
theorem settledTallies_eq : (if own then settledTallies m player s else s.rules.tallies) =
    match own, s.modes.get m, s.rules.collects.get m, playerOf s.control.playerCount player with
    | true, some e, some g, some p =>
      match e.value with
      | some v =>
        if (e.kind = .jackpot ∨ e.kind = .hurry) ∧ s.control.station = .play then
          s.rules.tallies.set p (s.rules.tallies.get p + min (v * multiplier s g) (99999999 - s.rules.tallies.get p))
        else s.rules.tallies
      | none => s.rules.tallies
    | _, _, _, _ => s.rules.tallies := by
  have play : inPlay s = true ↔ s.control.station = .play := beq_iff_eq
  cases own with
  | false => rfl
  | true =>
    unfold settledTallies settlement
    cases s.modes.get m with
    | none => rfl
    | some e =>
      cases s.rules.collects.get m with
      | none => rfl
      | some g =>
        cases playerOf s.control.playerCount player with
        | none => rfl
        | some p =>
          by_cases scores : (e.kind = .jackpot ∨ e.kind = .hurry) ∧ inPlay s = true
          · dsimp only
            rw [if_pos scores]
            cases e.value with
            | none => rfl
            | some v => exact (if_pos ⟨scores.1, play.mp scores.2⟩).symm
          · dsimp only
            rw [if_neg scores]
            cases e.value with
            | none => rfl
            | some v => exact (if_neg fun both => scores ⟨both.1, play.mpr both.2⟩).symm

end

/-- Settles O38: JACKPOT ADD by `takeJackpotAdd_raises`, COLLECT by its settlement and then `collectEffect_eq`. -/
theorem jackpotsAddAndCollectsSettleOnce : Obligations.JackpotsAddAndCollectsSettleOnce := by
  refine ⟨fun o mode s heard => ?add, fun o mode player m s heard names game => ?collect,
    fun o mode player s heard idle => ?outside⟩
  case add =>
    intro u
    have setup : u.control.setup = s.control.setup := received_setup _ _ _
    have modes : u.modes = s.modes := (received_frame _ _ _).2.2.2.2.1
    have ran : exec (.jackpotAdd o mode) s = .next (finish (if inGame s then takeJackpotAdd mode u else u)) :=
      congrArg (fun v => Host.Outcome.next (finish v)) (complete_heard _ _ heard)
    clear_value u
    refine ⟨fun m e d names game entry defined jackpot => settles_exec ran ?_, fun left => settles_exec ran ?_⟩
    · rw [if_pos game, takeJackpotAdd_raises names (by rwa [modes]) (by rwa [modeDef_of_setup setup]) jackpot, modes]
      rfl
    · split
      · rename_i game
        refine takeJackpotAdd_stays ?_
        rw [modes]
        exact left.resolve_left (by simp [game])
      · rfl
  case collect =>
    intro u own
    have setup : u.control.setup = s.control.setup := received_setup _ _ _
    obtain ⟨-, -, -, rules, modes, pockets, balls, -⟩ := received_frame o (.collect mode player) s
    change u.rules = s.rules at rules
    change u.modes = s.modes at modes
    change u.pockets = s.pockets at pockets
    change u.balls = s.balls at balls
    have ran : exec (.collect o mode player) s =
        .next (finish (if inGame s then takeCollect mode player own u else u)) :=
      congrArg (fun v => Host.Outcome.next (finish v)) (complete_heard _ _ heard)
    clear_value u own
    rw [if_pos game, takeCollect_named names] at ran
    obtain ⟨vSetup, vModes, vPockets, vBalls⟩ := settledIf_frame own m player u
    have vRules := settledIf_rules (own := own) (m := m) (player := player) (s := u)
    rw [rules, settledTallies_congr setup modes rules] at vRules
    rw [modes] at vModes
    have peer : own = false → settledIf own m player u = u := fun foreign => by rw [foreign]; rfl
    generalize settledIf own m player u = v at *
    have effect := collectEffect_eq (m := m) (s := v)
    obtain ⟨-, -, -, tRules, tModes, tPockets, tBalls, -, -, tDrivers⟩ := finish_frame (collectEffect m v)
    have wRules := (tRules.trans (congrArg State.rules effect)).trans vRules
    refine ⟨_, ran, fun e d entry defined => ?entry, fun absent => ?absent, fun k other => ?other, ?collects,
      ?tallies, fun foreign => ?foreign, ?features, ?combo, ?balls, ?pockets, ?station⟩
    case entry =>
      rw [tModes, collectEffect_defined (vModes ▸ entry) (by rwa [modeDef_of_setup vSetup, modeDef_of_setup setup])]
      exact Tab.get_set_self _ _ _
    case absent => rw [tModes, collectEffect_stays (.inl (vModes ▸ absent)), vModes]
    case other => rw [tModes, collectEffect_other other, vModes]
    case collects => rw [wRules]
    case tallies =>
      rw [wRules]
      exact settledTallies_eq
    case foreign =>
      refine settles_of_eq ?_
      rw [tModes, tDrivers, ← peer foreign]
      exact effect
    case features => rw [wRules]
    case combo => rw [wRules]
    case balls => exact (tBalls.trans (congrArg State.balls effect)).trans (vBalls.trans balls)
    case pockets => exact (tPockets.trans (congrArg State.pockets effect)).trans (vPockets.trans pockets)
    case station =>
      rw [finish_control]
      dsimp only
      rw [effect]
      exact (station_of_setup vSetup).trans (station_of_setup setup)
  case outside =>
    have ran : exec (.collect o mode player) s = .next (finish (if inGame s then
        takeCollect mode player (isOwn o (.collect mode player) s) (received o (.collect mode player) s)
        else received o (.collect mode player) s)) :=
      congrArg (fun v => Host.Outcome.next (finish v)) (complete_heard _ _ heard)
    refine settles_exec ran ?_
    split
    · rename_i game
      unfold takeCollect
      rw [modeOf_eq_none (idle.resolve_left (by simp [game]))]
    · rfl

end Sys2Proof.Machine

end

