-- ==== Sys2Proof/Proofs/TransmitQueue.lean ====
section
/-! SUPPORT. The transmit queue's ceilings and its order of class (R68, R72 to R76), and what an offer makes of the
queue. -/

namespace Sys2Proof.Machine

/-! ## What the ceilings and the order read of an entry -/

/-- The class of an entry, whether it is a CENSUS, and the mode id of a COLLECT. -/
def TxEntry.key (e : TxEntry) : Nat × Bool × Option Byte :=
  (e.bulletin.cls, e.isCensus, match e.bulletin with
    | .collect m _ => some m
    | _ => none)

/-- The queue as the ceilings and the order see it. -/
def keys (q : List TxEntry) : List (Nat × Bool × Option Byte) := q.map TxEntry.key

/-- R68: the ceilings of a queue. -/
def keysWithin (k : List (Nat × Bool × Option Byte)) : Prop :=
  k.length ≤ 16 ∧ k.countP (fun x => x.2.1) ≤ 1 ∧ ∀ m : Byte, k.countP (fun x => x.2.2 == some m) ≤ 1

/-- R68: the order of a queue. -/
def keysOrdered (k : List (Nat × Bool × Option Byte)) : Prop := k.Pairwise fun a b => a.1 ≤ b.1

theorem isCollectOf_eq (m : Byte) (e : TxEntry) : e.isCollectOf m = (e.key.2.2 == some m) := by
  unfold TxEntry.isCollectOf TxEntry.key
  cases e.bulletin <;> rfl

theorem within_iff (l : LinkCtl) : l.within ↔ keysWithin (keys l.queue) := by
  unfold LinkCtl.within keysWithin keys
  have collects (m : Byte) : l.queue.countP (TxEntry.isCollectOf m) = l.queue.countP fun e => e.key.2.2 == some m :=
    congrArg (fun p => l.queue.countP p) (funext (isCollectOf_eq m))
  simp only [List.length_map, List.countP_map, Function.comp_def, collects]
  rfl

theorem ordered_iff (l : LinkCtl) : l.ordered ↔ keysOrdered (keys l.queue) := by
  unfold LinkCtl.ordered keysOrdered keys
  rw [List.pairwise_map]
  rfl

/-- Fewer entries, in the order they had, are within the ceilings. -/
theorem keysWithin_of_sublist {k k' : List (Nat × Bool × Option Byte)} (h : k'.Sublist k) (within : keysWithin k) :
    keysWithin k' :=
  ⟨h.length_le.trans within.1, h.countP_le.trans within.2.1, fun m => h.countP_le.trans (within.2.2 m)⟩

/-- R68: an entry placed in a queue with room, the first CENSUS and the first COLLECT for its mode id. -/
theorem keysWithin_place {e : TxEntry} {q : List TxEntry} (within : keysWithin (keys q)) (room : q.length < 16)
    (census : e.isCensus = true → q.any TxEntry.isCensus = false)
    (collect : ∀ m, e.isCollectOf m = true → q.any (TxEntry.isCollectOf m) = false) :
    keysWithin (keys (place e q)) := by
  have perm : (keys (place e q)).Perm (e.key :: keys q) := (place_perm e q).map _
  have counted (p : Nat × Bool × Option Byte → Bool) (before : (keys q).countP p ≤ 1)
      (first : p e.key = true → q.any (fun x => p x.key) = false) : (keys (place e q)).countP p ≤ 1 := by
    rw [perm.countP_eq, List.countP_cons]
    split
    · rename_i new
      have zero : (keys q).countP p = 0 := by
        rw [keys, List.countP_map, List.countP_eq_zero]
        exact List.any_eq_false.mp (first new)
      omega
    · omega
  refine ⟨?_, counted _ within.2.1 census, fun m => counted _ (within.2.2 m) ?_⟩
  · rw [perm.length_eq]
    simpa [keys] using room
  · simpa only [← isCollectOf_eq] using collect m

/-- R68: placing an entry keeps the order. -/
theorem keysOrdered_place {e : TxEntry} {q : List TxEntry} (ordered : keysOrdered (keys q)) :
    keysOrdered (keys (place e q)) := by
  induction q with
  | nil => exact List.pairwise_singleton _ _
  | cons x xs ih =>
    obtain ⟨first, rest⟩ := List.pairwise_cons.mp ordered
    unfold place
    split
    · rename_i ahead
      refine List.pairwise_cons.mpr ⟨fun k hk => ?_, ih rest⟩
      obtain ⟨y, hy, rfl⟩ := List.mem_map.mp hk
      rcases List.mem_cons.mp ((place_perm e xs).mem_iff.mp hy) with rfl | hy
      · exact ahead
      · exact first _ (List.mem_map.mpr ⟨y, hy, rfl⟩)
    · rename_i behind
      refine List.pairwise_cons.mpr ⟨fun k hk => ?_, ordered⟩
      have here : e.key.1 ≤ x.key.1 := Nat.le_of_not_le behind
      rcases List.mem_cons.mp hk with rfl | hk
      · exact here
      · exact here.trans (first k hk)

/-! ## Entries that give way (R73 to R76) -/

/-- What gives way leaves the others in their order. -/
theorem takeYoungest_sublist {p : TxEntry → Bool} {q rest : List TxEntry} {e : TxEntry}
    (h : takeYoungest p q = some (e, rest)) : rest.Sublist q := by
  induction q generalizing rest with
  | nil => cases h
  | cons x xs ih =>
    unfold takeYoungest at h
    split at h
    · rename_i found
      cases h
      exact (ih found).cons_cons x
    · split at h
      · cases h
        exact List.sublist_cons_self _ _
      · cases h

/-- A change of one entry that keeps its key keeps every key. -/
theorem changeYoungest_keys {p : TxEntry → Bool} {f : TxEntry → TxEntry} {q r : List TxEntry}
    (same : ∀ e, (f e).key = e.key) (h : changeYoungest p f q = some r) : keys r = keys q := by
  induction q generalizing r with
  | nil => cases h
  | cons x xs ih =>
    unfold changeYoungest at h
    split at h
    · rename_i found
      cases h
      exact congrArg (x.key :: ·) (ih found)
    · split at h
      · cases h
        exact congrArg (· :: keys xs) (same x)
      · cases h

/-- R74: a merged AWARD is an AWARD. -/
theorem mergeInto_keys {a : AwardPayload} {q r : List TxEntry} (h : mergeInto a q = some r) : keys r = keys q := by
  refine changeYoungest_keys (fun e => ?_) h
  unfold TxEntry.key TxEntry.isCensus
  cases bulletin : e.bulletin <;> simp [bulletin, Bulletin.cls]

/-- R73: a replaced CENSUS is a CENSUS. -/
theorem replaceCensus_keys (c : CensusPayload) (q : List TxEntry) : keys (replaceCensus c q) = keys q := by
  unfold keys replaceCensus
  rw [List.map_map]
  refine List.map_congr_left fun e _ => ?_
  rw [Function.comp_apply]
  split
  · rename_i census
    unfold TxEntry.isCensus at census
    unfold TxEntry.key TxEntry.isCensus
    cases bulletin : e.bulletin <;> simp_all [Bulletin.cls]
  · rfl

/-- R75: an eviction leaves room, and the entries that stay in their order. -/
theorem evict_keys {q rest : List TxEntry} {drop : Bool} (h : evict q = some (rest, drop)) :
    rest.length < q.length ∧ (keys rest).Sublist (keys q) := by
  unfold evict at h
  split at h
  · rename_i found
    cases h
    exact ⟨by simp [takeYoungest_length found], (takeYoungest_sublist found).map _⟩
  · split at h
    · cases h
    · rename_i found
      have shorter := takeYoungest_length found
      have fewer : (keys _).Sublist (keys q) := (takeYoungest_sublist found).map _
      split at h
      · split at h
        · rename_i merged
          cases h
          exact ⟨by rw [mergeInto_length merged]; omega, by rwa [mergeInto_keys merged]⟩
        · cases h
          exact ⟨by omega, fewer⟩
      · cases h
        exact ⟨by omega, fewer⟩

/-! ## What an offer makes of the queue (R72 to R76) -/

theorem census_of_isCensus {b : Bulletin} (h : (freshEntry b).isCensus = true) : ∃ c, b = .census c := by
  cases b with
  | census c => exact ⟨c, rfl⟩
  | _ => cases h

theorem collect_of_isCollectOf {b : Bulletin} {m : Byte} (h : (freshEntry b).isCollectOf m = true) :
    ∃ p, b = .collect m p := by
  cases b with
  | collect n p => exact ⟨p, by rw [← beq_iff_eq.mp h]⟩
  | _ => cases h

/-- The queue that an offer of `b` to `q` leaves: its entries as the ceilings and the order see them, or `b` entered
where there is room and neither a CENSUS nor a COLLECT for its mode id stands already, among entries of `q`. -/
def offered (b : Bulletin) (q r : List TxEntry) : Prop :=
  keys r = keys q ∨
    ∃ rest, r = place (freshEntry b) rest ∧ (keys rest).Sublist (keys q) ∧ (rest.length < q.length ∨ rest.length < 16) ∧
      ((freshEntry b).isCensus = true → q.any TxEntry.isCensus = false) ∧
      ∀ m, (freshEntry b).isCollectOf m = true → q.any (TxEntry.isCollectOf m) = false

/-- R74 to R76: at a full queue. -/
theorem offerFull_offered {b : Bulletin} {l : LinkCtl}
    (census : (freshEntry b).isCensus = true → l.queue.any TxEntry.isCensus = false)
    (collect : ∀ m, (freshEntry b).isCollectOf m = true → l.queue.any (TxEntry.isCollectOf m) = false) :
    offered b l.queue (offerFull b l).queue := by
  have enters {rest : List TxEntry} (shorter : rest.length < l.queue.length) (fewer : (keys rest).Sublist (keys l.queue)) :
      offered b l.queue (place (freshEntry b) rest) := .inr ⟨rest, rfl, fewer, .inl shorter, census, collect⟩
  have youngest {p : TxEntry → Bool} {e : TxEntry} {rest : List TxEntry} (found : takeYoungest p l.queue = some (e, rest)) :
      offered b l.queue (place (freshEntry b) rest) :=
    enters (by simp [takeYoungest_length found]) ((takeYoungest_sublist found).map _)
  unfold offerFull
  dsimp only
  split
  · split
    · rename_i merged
      exact .inl (mergeInto_keys merged)
    · split
      · rename_i found
        exact youngest found
      · exact .inl rfl
  · split
    · rename_i found
      exact youngest found
    · exact .inl rfl
  · split
    · exact .inl rfl
    · split
      · rename_i found
        exact enters (evict_keys found).1 (evict_keys found).2
      · exact .inl rfl

/-- R72, R73: at every queue. -/
theorem offerTo_offered (b : Bulletin) (l : LinkCtl) : offered b l.queue (offerTo b l).queue := by
  have entering (census : (freshEntry b).isCensus = true → l.queue.any TxEntry.isCensus = false)
      (collect : ∀ m, (freshEntry b).isCollectOf m = true → l.queue.any (TxEntry.isCollectOf m) = false) :
      offered b l.queue (if l.queue.length < Config.txMax then
        ({ queue := place (freshEntry b) l.queue, aside := l.aside, taken := true, drop := false
           refused := false } : Offer)
        else offerFull b l).queue := by
    split
    · rename_i room
      exact .inr ⟨_, rfl, List.Sublist.refl _, .inr room, census, collect⟩
    · exact offerFull_offered census collect
  unfold offerTo
  dsimp only
  split
  · split
    · exact .inl rfl
    · rename_i m p absent
      refine entering (fun census => by cases census) fun k same => ?_
      have : m = k := beq_iff_eq.mp same
      exact this ▸ Bool.eq_false_iff.mpr absent
  · split
    · exact .inl rfl
    · split
      · exact .inl (replaceCensus_keys _ _)
      · rename_i absent
        exact entering (fun _ => Bool.eq_false_iff.mpr absent) fun _ collect => by cases collect
  · rename_i collect census
    refine entering (fun is => ?_) fun m is => ?_
    · obtain ⟨c, rfl⟩ := census_of_isCensus is
      exact (census c rfl).elim
    · obtain ⟨p, rfl⟩ := collect_of_isCollectOf is
      exact (collect m p rfl).elim

/-- R59: the begin of the head changes no bulletin. -/
theorem beginHead_keys (l : LinkCtl) : keys (beginHead l).queue = keys l.queue := by
  unfold beginHead
  cases queue : l.queue with
  | nil => simp [queue]
  | cons e rest => rfl

theorem beginIfAtRest_keys (l : LinkCtl) : keys (beginIfAtRest l).queue = keys l.queue := by
  unfold beginIfAtRest
  split
  · exact beginHead_keys l
  · rfl

/-- R68, R72 to R76: an offer keeps the ceilings. -/
theorem offer_within {b : Bulletin} {s : State} (within : s.link.within) : (offer b s).link.within := by
  rw [within_iff] at within ⊢
  rw [offer_link, beginIfAtRest_keys]
  rcases offerTo_offered b s.link with same | ⟨rest, entered, fewer, room, census, collect⟩
  · exact same ▸ within
  · have shorter : rest.length < 16 := by
      have := within.1
      simp only [keys, List.length_map] at this
      omega
    have absent (p : Nat × Bool × Option Byte → Bool) (none : s.link.queue.any (fun e => p e.key) = false) :
        rest.any (fun e => p e.key) = false := by
      rw [List.any_eq_false] at none ⊢
      intro e he
      obtain ⟨x, hx, same⟩ := List.mem_map.mp (fewer.subset (List.mem_map.mpr ⟨e, he, rfl⟩))
      exact same ▸ none x hx
    dsimp only
    rw [entered]
    refine keysWithin_place (keysWithin_of_sublist fewer within) shorter (fun is => absent (·.2.1) (census is)) ?_
    intro m is
    have := collect m is
    simp only [funext (isCollectOf_eq m)] at this ⊢
    exact absent (fun x => x.2.2 == some m) this

/-- R68, R73: an offer keeps the order. -/
theorem offer_ordered {b : Bulletin} {s : State} (ordered : s.link.ordered) : (offer b s).link.ordered := by
  rw [ordered_iff] at ordered ⊢
  rw [offer_link, beginIfAtRest_keys]
  rcases offerTo_offered b s.link with same | ⟨rest, entered, fewer, -⟩
  · exact same ▸ ordered
  · dsimp only
    rw [entered]
    exact keysOrdered_place (List.Pairwise.sublist fewer ordered)

end Sys2Proof.Machine

end

