-- ==== Sys2Proof/Proofs/PulseQueue.lean ====
section
/-! SUPPORT. The pulse queue's ceilings and its order of band (R167, R168, R170), through requests, starts and the
changes of a driver. -/

namespace Sys2Proof.Machine

/-! ## The queue -/

/-- R167: placing an entry adds that entry and no other. -/
theorem placePulse_perm (e : PulseEntry) (q : List PulseEntry) : (placePulse e q).Perm (e :: q) := by
  induction q with
  | nil => exact List.Perm.refl _
  | cons x xs ih =>
    unfold placePulse
    split
    · exact (ih.cons x).trans (List.Perm.swap e x xs)
    · exact List.Perm.refl _

/-- R167: the order of a pulse queue. -/
def bandsOrdered (q : List PulseEntry) : Prop := q.Pairwise fun a b => a.band.rank ≤ b.band.rank

/-- R167: placing an entry keeps the order. -/
theorem bandsOrdered_place {e : PulseEntry} {q : List PulseEntry} (ordered : bandsOrdered q) :
    bandsOrdered (placePulse e q) := by
  induction q with
  | nil => exact List.pairwise_singleton _ _
  | cons x xs ih =>
    obtain ⟨first, rest⟩ := List.pairwise_cons.mp ordered
    unfold placePulse
    split
    · rename_i ahead
      refine List.pairwise_cons.mpr ⟨fun y hy => ?_, ih rest⟩
      rcases mem_placePulse.mp hy with rfl | hy
      · exact ahead
      · exact first y hy
    · rename_i behind
      refine List.pairwise_cons.mpr ⟨fun y hy => ?_, ordered⟩
      have here : e.band.rank ≤ x.band.rank := Nat.le_of_not_le behind
      rcases List.mem_cons.mp hy with rfl | hy
      · exact here
      · exact here.trans (first y hy)

/-- An entry of the queue is the only one for its driver. -/
theorem eq_of_same_driver {q : List PulseEntry} (once : (q.map (·.driver)).Nodup) {x y : PulseEntry} (hx : x ∈ q)
    (hy : y ∈ q) (same : x.driver = y.driver) : x = y := List.inj_on_of_nodup_map once hx hy same

section
variable {band : Band} {n : Nat} {r : Requester} {e : PulseEntry} {q : List PulseEntry}

/-- R168 step 3: a merge keeps the drivers that have an entry. -/
theorem mergeQueue_drivers (once : (q.map (·.driver)).Nodup) (member : e ∈ q) :
    ((mergeQueue band n r e q).map (·.driver)).Perm (q.map (·.driver)) := by
  unfold mergeQueue
  split
  · have others : ((q.filter fun x => x.driver != e.driver).map (·.driver)) = (q.map (·.driver)).erase e.driver := by
      rw [once.erase_eq_filter, List.filter_map]
      rfl
    calc ((placePulse (mergePulse band n r e) (q.filter fun x => x.driver != e.driver)).map (·.driver)).Perm
          (e.driver :: (q.filter fun x => x.driver != e.driver).map (·.driver)) := (placePulse_perm _ _).map _
      _ = e.driver :: (q.map (·.driver)).erase e.driver := by rw [others]
      (List.Perm _ (q.map (·.driver))) := (List.perm_cons_erase (List.mem_map_of_mem member)).symm
  · rw [List.map_map]
    refine List.Perm.of_eq (List.map_congr_left fun x _ => ?_)
    rw [Function.comp_apply]
    split <;> rfl

/-- R168 step 3: a merge keeps the order: the entry moves where its band turns ahead, and otherwise keeps its band. -/
theorem mergeQueue_ordered (once : (q.map (·.driver)).Nodup) (member : e ∈ q) (ordered : bandsOrdered q) :
    bandsOrdered (mergeQueue band n r e q) := by
  unfold mergeQueue
  split
  · exact bandsOrdered_place (ordered.sublist List.filter_sublist)
  · rename_i behind
    have kept : ∀ x ∈ q, (if x.driver = e.driver then mergePulse band n r x else x).band = x.band := by
      intro x hx
      split
      · rename_i same
        rw [eq_of_same_driver once hx member same]
        exact if_neg behind
      · rfl
    refine List.pairwise_map.mpr (ordered.imp_of_mem fun {x y} hx hy le => ?_)
    rwa [kept x hx, kept y hy]

end

/-! ## The drivers that are PULSING (R170) -/

/-- A change of one driver that starts no pulse raises no count of PULSING drivers. -/
theorem pulsing_modify_le (t : Tab 8 DriverState) (d : DriverNo) (f : DriverState → DriverState)
    (starts : (f (t.get d)).phase = .pulsing → (t.get d).phase = .pulsing) :
    (t.modify d f).count (fun u => u.phase == .pulsing) ≤ t.count fun u => u.phase == .pulsing := by
  have length : d.val < t.cells.length := by rw [t.size]; exact d.isLt
  have counted := List.countP_set (p := fun u : DriverState => u.phase == .pulsing) (a := f (t.get d)) length
  have written : (t.modify d f).count (fun u => u.phase == .pulsing) =
      (t.cells.set d.val (f (t.get d))).countP fun u => u.phase == .pulsing := rfl
  rw [written, counted, Tab.cells_getElem]
  unfold Tab.count
  by_cases pulses : (t.get d).phase = .pulsing
  · have : 0 < t.cells.countP fun u => u.phase == .pulsing :=
      List.countP_pos_iff.mpr ⟨t.get d, List.getElem_mem length, beq_iff_eq.mpr pulses⟩
    simp only [pulses, beq_self_eq_true, if_true]
    split <;> omega
  · have : ((f (t.get d)).phase == DriverPhase.pulsing) = false := beq_false_of_ne fun h => pulses (starts h)
    simp only [this, Bool.false_eq_true, if_false]
    omega

/-- A change of one driver raises the count of PULSING drivers by one at most. -/
theorem pulsing_modify_succ (t : Tab 8 DriverState) (d : DriverNo) (f : DriverState → DriverState) :
    (t.modify d f).count (fun u => u.phase == .pulsing) ≤ t.count (fun u => u.phase == .pulsing) + 1 := by
  have length : d.val < t.cells.length := by rw [t.size]; exact d.isLt
  have counted := List.countP_set (p := fun u : DriverState => u.phase == .pulsing) (a := f (t.get d)) length
  have written : (t.modify d f).count (fun u => u.phase == .pulsing) =
      (t.cells.set d.val (f (t.get d))).countP fun u => u.phase == .pulsing := rfl
  rw [written, counted]
  unfold Tab.count
  split <;> split <;> omega

/-! ## Requests (R168) -/

/-- R168: an entry of its own is queued where none for the driver stands, with room. -/
theorem room_of_answer_queued {d : DriverNo} {band : Band} {s : State} (h : answer d band s = .queued) :
    pulseQueued s d = false ∧ s.drivers.queue.length < 8 := by
  unfold answer at h
  dsimp only at h
  split at h
  · cases h
  · split at h
    · cases h
    · split at h
      · cases h
      · rename_i absent
        split at h
        · cases band <;> cases h
        · rename_i room
          exact ⟨Bool.eq_false_iff.mpr absent, Nat.lt_of_not_le room⟩

section
variable {d : DriverNo} {band : Band} {n : Nat} {r : Requester} {s : State}

/-- R167, R168, R170: a request keeps the ceilings. -/
theorem request_within (within : s.drivers.within) : (request d band n r s).drivers.within := by
  obtain ⟨length, once, pulsing⟩ := within
  unfold request
  cases answered : answer d band s with
  | faulted | skipped | dropped | refused => exact ⟨length, once, pulsing⟩
  | merged =>
    dsimp only
    split
    · rename_i e found
      have drivers := mergeQueue_drivers (band := band) (n := n) (r := r) once (List.mem_of_find?_eq_some found)
      refine ⟨?_, drivers.nodup_iff.mpr once, pulsing⟩
      have same := drivers.length_eq
      rw [List.length_map, List.length_map] at same
      exact same.trans_le length
    · exact ⟨length, once, pulsing⟩
  | queued =>
    obtain ⟨absent, room⟩ := room_of_answer_queued answered
    have perm (e : PulseEntry) := placePulse_perm e s.drivers.queue
    refine ⟨?_, ?_, (pulsing_modify_le _ d _ fun starts => ?_).trans pulsing⟩
    · exact (perm _).length_eq.trans_le room
    · refine ((perm _).map (·.driver)).nodup_iff.mpr (List.nodup_cons.mpr ⟨fun member => ?_, once⟩)
      obtain ⟨x, hx, same⟩ := List.mem_map.mp member
      exact List.any_eq_false.mp absent x hx (beq_iff_eq.mpr same)
    · split at starts
      · cases starts
      · exact starts

/-- R167: a request keeps the order. -/
theorem request_ordered (within : s.drivers.within) (ordered : s.drivers.ordered) :
    (request d band n r s).drivers.ordered := by
  obtain ⟨-, once, -⟩ := within
  unfold request
  cases answer d band s with
  | faulted | skipped | dropped | refused => exact ordered
  | merged =>
    dsimp only
    split
    · rename_i e found
      exact mergeQueue_ordered once (List.mem_of_find?_eq_some found) ordered
    · exact ordered
  | queued => exact bandsOrdered_place ordered

end

/-! ## Entries that leave the queue -/

/-- R170, R174: entries that leave keep the ceilings and the order. -/
theorem within_of_sublist {c : DriverCtl} {q : List PulseEntry} (h : q.Sublist c.queue) (within : c.within) :
    ({ c with queue := q } : DriverCtl).within :=
  ⟨h.length_le.trans within.1, within.2.1.sublist (h.map _), within.2.2⟩

/-- R170, R171: as many pulses start as there are slots. -/
theorem foldl_energize_pulsing (starts : List PulseEntry) (s : State) :
    slotsTaken (starts.foldl (fun t e => energize e t) s) ≤ slotsTaken s + starts.length := by
  induction starts generalizing s with
  | nil => exact Nat.le_refl _
  | cons e rest ih =>
    have one : slotsTaken (energize e s) ≤ slotsTaken s + 1 := pulsing_modify_succ s.drivers.units e.driver _
    have := ih (energize e s)
    rw [List.foldl_cons, List.length_cons]
    omega

/-- R171: the entries whose pulses start leave the queue. -/
theorem foldl_energize_queue (starts : List PulseEntry) (s : State) :
    (starts.foldl (fun t e => energize e t) s).drivers.queue.Sublist s.drivers.queue := by
  induction starts generalizing s with
  | nil => exact List.Sublist.refl _
  | cons e rest ih => exact (ih (energize e s)).trans List.filter_sublist

/-- R170: the pulses that can start keep the ceilings. -/
theorem starts_within {s : State} (within : s.drivers.within) :
    ((startable s).foldl (fun t e => energize e t) s).drivers.within := by
  obtain ⟨length, once, pulsing⟩ := within
  have left := foldl_energize_queue (startable s) s
  refine ⟨left.length_le.trans length, once.sublist (left.map _), (foldl_energize_pulsing _ s).trans ?_⟩
  have slots : (startable s).length ≤ 2 - slotsTaken s := by
    unfold startable
    split
    · exact List.length_take_le _ _
    · exact Nat.zero_le _
  have : slotsTaken s ≤ 2 := pulsing
  omega

end Sys2Proof.Machine

end

