-- ==== Sys2Proof/Proofs/Orderly.lean ====
section
/-! SUPPORT. What every piece of a command's work keeps of both queues' ceilings and order, of the missing count and of
the debounce counts (R3, R68, R72 to R76, R135, R167, R168, R170), said as one relation, `Orderly`, between the state
before and the state after. For each operation of the model `operation_orderly` says that work which has been orderly
so far and then does the operation still is. -/

namespace Sys2Proof.Machine

/-! ## The relation -/

/-- Every ceiling of O5 and every order and bound of O7 that `s` meets, `t` meets. -/
structure Orderly (s t : State) : Prop where
  link : s.link.within → t.link.within
  classes : s.link.ordered → t.link.ordered
  drivers : s.drivers.within → t.drivers.within
  bands : s.drivers.within → s.drivers.ordered → t.drivers.ordered
  missing : missingWithin s → missingWithin t
  counts : countsWithin s → countsWithin t

/-- The parts of a state that the ceilings, the orders and the bounds read. -/
def State.ranks (s : State) :
    List TxEntry × List PulseEntry × Tab 8 DriverState × Nat × Image × StationState × Tab 64 SwitchState :=
  (s.link.queue, s.drivers.queue, s.drivers.units, s.balls.missing, s.control.image, s.control.station,
    s.scanner.switches)

variable {s₀ s t : State}

theorem Orderly.refl (s : State) : Orderly s s := ⟨id, id, id, fun _ => id, id, id⟩

theorem Orderly.trans (h : Orderly s₀ s) (g : Orderly s t) : Orderly s₀ t where
  link := g.link ∘ h.link
  classes := g.classes ∘ h.classes
  drivers := g.drivers ∘ h.drivers
  bands within ordered := g.bands (h.drivers within) (h.bands within ordered)
  missing := g.missing ∘ h.missing
  counts := g.counts ∘ h.counts

/-- Work that touches nothing that is bounded or ordered. -/
theorem Orderly.same (h : Orderly s₀ s) (e : t.ranks = s.ranks) : Orderly s₀ t := by
  simp only [State.ranks, Prod.mk.injEq] at e
  obtain ⟨queue, pulses, units, missing, image, station, switches⟩ := e
  refine h.trans ⟨?_, ?_, ?_, fun _ => ?_, ?_, ?_⟩
  · unfold LinkCtl.within; rw [queue]; exact id
  · unfold LinkCtl.ordered; rw [queue]; exact id
  · unfold DriverCtl.within; rw [pulses, units]; exact id
  · unfold DriverCtl.ordered; rw [pulses]; exact id
  · unfold missingWithin; rw [missing, image, station]; exact id
  · unfold countsWithin ruleOf; rw [switches, image]; exact id

/-- Either branch of a test. -/
theorem Orderly.ite {q : Prop} [Decidable q] (h : Orderly s₀ s) (g : Orderly s₀ t) :
    Orderly s₀ (if q then s else t) := by
  split
  · exact h
  · exact g

/-- Work done for each number in turn. -/
theorem Orderly.eachUp {n : Nat} {f : Fin n → State → State} (h : Orderly s₀ s)
    (each : ∀ i s, Orderly s₀ s → Orderly s₀ (f i s)) : Orderly s₀ (eachUp n f s) := eachUp_inv (Orderly s₀) f each s h

/-- Work done for each thing of a list in turn. -/
theorem Orderly.foldl {α : Type} {f : State → α → State} {l : List α} (h : Orderly s₀ s)
    (each : ∀ s a, Orderly s₀ s → Orderly s₀ (f s a)) : Orderly s₀ (l.foldl f s) := foldl_inv (Orderly s₀) f each l s h

/-! ## One block changed -/

section
variable (h : Orderly s₀ s)
include h

/-- The Trough Controller holds nothing that is bounded or ordered here. -/
theorem Orderly.mapTrough {f : TroughCtl → TroughCtl} : Orderly s₀ (s.mapTrough f) := h.same (by rfl)

/-- Nor does the Rule Engine. -/
theorem Orderly.mapRules {f : RuleEngine → RuleEngine} : Orderly s₀ (s.mapRules f) := h.same (by rfl)

/-- R69: entries that leave the transmit queue, or stay as the ceilings and the order see them. -/
theorem Orderly.mapLink {f : LinkCtl → LinkCtl} (fewer : (keys (f s.link).queue).Sublist (keys s.link.queue)) :
    Orderly s₀ (s.mapLink f) := by
  refine h.trans ⟨fun within => ?_, fun ordered => ?_, id, fun _ => id, id, id⟩
  · rw [within_iff] at within ⊢
    exact keysWithin_of_sublist fewer within
  · rw [ordered_iff] at ordered ⊢
    exact List.Pairwise.sublist fewer ordered

/-- R171 to R176: a change of a driver that starts no pulse. -/
theorem mapUnit_orderly {d : DriverNo} {f : DriverState → DriverState}
    (starts : (f (unit s d)).phase = .pulsing → (unit s d).phase = .pulsing) : Orderly s₀ (mapUnit d f s) :=
  h.trans ⟨id, id, fun ⟨length, once, pulsing⟩ => ⟨length, once, (pulsing_modify_le _ d f starts).trans pulsing⟩,
    fun _ => id, id, id⟩

/-- R174: the entries for a driver leave the pulse queue. -/
theorem filterPulses_orderly {p : PulseEntry → Bool} :
    Orderly s₀ (s.mapDrivers fun c => { c with queue := c.queue.filter p }) :=
  h.trans ⟨id, id, within_of_sublist List.filter_sublist, fun _ ordered => List.Pairwise.sublist List.filter_sublist ordered,
    id, id⟩

/-- R135: the missing count falls, or is bounded while an image is loaded. -/
theorem mapMissing_orderly {f : Balls → Balls} (bounded : (f s.balls).missing ≤ s.balls.missing ∨
    s.control.station.running = true ∧ (f s.balls).missing ≤ s.control.image.installed) : Orderly s₀ (s.mapBalls f) := by
  refine h.trans ⟨id, id, id, fun _ => id, fun ⟨le, stopped⟩ => ?_, id⟩
  rcases bounded with falls | ⟨runs, le'⟩
  · exact ⟨falls.trans le, fun halted => Nat.le_zero.mp (falls.trans_eq (stopped halted))⟩
  · exact ⟨le', fun halted => Bool.noConfusion (runs.symm.trans halted)⟩

theorem Orderly.mapBalls {f : Balls → Balls} (same : ∀ b, (f b).missing = b.missing) : Orderly s₀ (s.mapBalls f) :=
  mapMissing_orderly h (.inl (same s.balls).le)

/-- The station state becomes one with an image, or one without from one without. -/
theorem mapStation_orderly {f : Control → Control} (image : (f s.control).image = s.control.image)
    (loaded : (f s.control).station.running = true ∨ s.control.station.running = false) :
    Orderly s₀ (s.mapControl f) := by
  refine h.trans ⟨id, id, id, fun _ => id, fun ⟨le, stopped⟩ => ⟨?_, fun halted => ?_⟩, fun counts i => ?_⟩
  · rw [State.mapControl_control, image]
    exact le
  · exact stopped (loaded.resolve_left fun runs => Bool.noConfusion (runs.symm.trans halted))
  · unfold ruleOf
    rw [State.mapControl_control, image]
    exact counts i

/-- R3: the switches' counts stay within their bound. -/
theorem mapScanner_orderly {f : Scanner → Scanner}
    (counts : countsWithin s → ∀ i, ((f s.scanner).switches.get i).count ≤ 15) : Orderly s₀ (s.mapScanner f) :=
  h.trans ⟨id, id, id, fun _ => id, id, fun within i => ⟨counts within i, (within i).2⟩⟩

/-! ## The station state, flags, counters, offers and requests (R77, R168, R188, R190) -/

theorem setStation_orderly {x : StationState} (runs : x.running = true) : Orderly s₀ (setStation x s) :=
  mapStation_orderly h rfl (.inl runs)

theorem setFlag_orderly {f : Flag} : Orderly s₀ (setFlag f s) := h.same (by rfl)

theorem raiseCounter_orderly {c : Counter} : Orderly s₀ (raiseCounter c s) := h.same (by rfl)

theorem offer_orderly {b : Bulletin} : Orderly s₀ (offer b s) := by
  refine h.trans ⟨offer_within, offer_ordered, ?_, fun _ => ?_, ?_, ?_⟩
  · rw [(offer_frame b s).2.2.2.2.2.2.2.2.2.1]; exact id
  · rw [(offer_frame b s).2.2.2.2.2.2.2.2.2.1]; exact id
  · unfold missingWithin
    rw [offer_control, (offer_frame b s).2.2.2.2.2.2.1]
    exact id
  · unfold countsWithin ruleOf
    rw [offer_control, (offer_frame b s).2.1]
    exact id

theorem offerAside_orderly : Orderly s₀ (offerAside s) := by
  unfold offerAside
  split
  · exact offer_orderly (h.same (by rfl))
  · exact h

theorem request_orderly {d : DriverNo} {band : Band} {n : Nat} {r : Requester} :
    Orderly s₀ (request d band n r s) := by
  have setup := request_setup d band n r s
  refine h.trans ⟨?_, ?_, request_within, request_ordered, ?_, ?_⟩
  · rw [(request_frame d band n r s).2.2.2.2.2.2.2.2.1]; exact id
  · rw [(request_frame d band n r s).2.2.2.2.2.2.2.2.1]; exact id
  · unfold missingWithin
    rw [image_of_setup setup, station_of_setup setup, (request_frame d band n r s).2.2.2.2.2.2.1]
    exact id
  · unfold countsWithin
    simp only [ruleOf_of_setup setup, (request_frame d band n r s).2.1]
    exact id

theorem leaveRecycle_orderly {d : DriverNo} : Orderly s₀ (leaveRecycle d s) :=
  mapUnit_orderly h fun starts => by
    dsimp only at starts
    split at starts <;> cases starts

theorem enterRecycle_orderly {d : DriverNo} : Orderly s₀ (enterRecycle d s) :=
  have entered := mapUnit_orderly h (d := d)
    (f := fun u => { u with phase := .recycle, recycle := some (driverCfg s d).recycle, maxHold := none })
    fun starts => by cases starts
  .ite (leaveRecycle_orderly entered) entered

/-! ## Features and hold bindings (R172) -/

theorem requestHold_orderly {d : DriverNo} : Orderly s₀ (requestHold d s) := .ite h (request_orderly h)

theorem releaseHold_orderly {d : DriverNo} : Orderly s₀ (releaseHold d s) :=
  have cleared := mapUnit_orderly h (d := d) (f := fun u => { u with spent := false }) id
  .ite (enterRecycle_orderly cleared) cleared

theorem followLit_orderly {x y : State} {d : DriverNo} : Orderly s₀ (followLit x y d s) := by
  unfold followLit
  split
  · exact h
  · exact .ite h (.ite (requestHold_orderly h) (releaseHold_orderly h))

omit h in
theorem changeLit_orderly {g : State → State} (h : Orderly s₀ (g s)) : Orderly s₀ (changeLit g s) :=
  h.eachUp fun _ _ h => followLit_orderly h

theorem setFeature_orderly {f : FeatureNo} {r : Resting} : Orderly s₀ (setFeature f r s) :=
  changeLit_orderly (h.same (by rfl))

theorem setFeatures_orderly {p : Resting → Bool} {r : Resting} {fs : List FeatureNo} :
    Orderly s₀ (setFeatures p r fs s) :=
  h.foldl fun _ _ h => .ite (setFeature_orderly h) h

/-! ## Accounting and the search (R134, R147, R148) -/

theorem endSearch_orderly : Orderly s₀ (endSearch s) := h.same (by rfl)

theorem recomputeB_orderly : Orderly s₀ (recomputeB s) :=
  have counted := h.same (t := s.mapBalls _) (by rfl)
  have flagged := Orderly.ite (setFlag_orderly counted) counted
  .ite (endSearch_orderly flagged) flagged

theorem restartQuiet_orderly : Orderly s₀ (restartQuiet s) := .ite (h.same (by rfl)) h

theorem searchOn_orderly {todo : List DriverNo} : Orderly s₀ (searchOn todo s) := by
  induction todo generalizing s with
  | nil => exact h.same (by rfl)
  | cons d rest ih =>
    unfold searchOn
    split
    · exact ih h
    · exact (request_orderly h).same (by rfl)

theorem searchRound_orderly : Orderly s₀ (searchRound s) := searchOn_orderly (h.same (by rfl))

/-! ## The mode table (R93 to R106) -/

theorem makeMode_orderly {m : ModeId} {d : ModeDef} {o : StationNo} {x : ModeTime} : Orderly s₀ (makeMode m d o x s) :=
  changeLit_orderly (h.same (by rfl))

theorem endMode_orderly {m : ModeId} : Orderly s₀ (endMode m s) := changeLit_orderly (h.same (by rfl))

theorem endModes_orderly {p : ModeId → ModeEntry → Bool} : Orderly s₀ (endModes p s) :=
  h.eachUp fun m t h => by
    split
    · exact .ite (endMode_orderly h) h
    · exact h

theorem startMode_orderly {m : ModeId} {o : StationNo} {n : Nat} : Orderly s₀ (startMode m o n s) := by
  unfold startMode
  split
  · exact h
  · refine .ite ?_ h
    dsimp only
    split
    · exact h.same (by rfl)
    · exact .ite (makeMode_orderly h) (raiseCounter_orderly h)

/-- R105, R106: at either moment at which the hold bindings follow. -/
theorem makeFromCensus_orderly {wrap : (State → State) → State → State} {m : ModeId} {o : StationNo}
    (follows : ∀ g, Orderly s₀ (g s) → Orderly s₀ (wrap g s)) : Orderly s₀ (makeFromCensus wrap m o s) := by
  unfold makeFromCensus
  split
  · exact .ite (follows _ (h.same (by rfl))) h
  · exact h

theorem offerModeEnd_orderly {m : ModeId} : Orderly s₀ (offerModeEnd m s) := by
  unfold offerModeEnd
  dsimp only
  split
  · exact (offer_orderly h).same (by rfl)
  · exact offer_orderly h

/-! ## The end of a command (R39, R84) -/

theorem finish_orderly : Orderly s₀ (finish s) := by
  unfold finish refreshCensus
  split
  · exact (Orderly.ite h (offer_orderly h)).same (by rfl)
  · exact h.same (by rfl)

end

end Sys2Proof.Machine

end

