-- ==== Sys2Proof/Proofs/OrderlyBlocks.lean ====
section
/-! SUPPORT. `Orderly` through the work of pockets, trough, rules and drivers (R68, R135, R167, R170). -/

namespace Sys2Proof.Machine

section
variable {s₀ s : State} (h : Orderly s₀ s)
include h

/-! ## Lock pockets (R110 to R129) -/

theorem countPocket_orderly {p : PocketNo} {f : PocketState → PocketState} : Orderly s₀ (countPocket p f s) :=
  recomputeB_orderly (h.same (by rfl))

theorem offerLock_orderly {e : BitVec 4} {x : Byte} {p : PocketNo} : Orderly s₀ (offerLock e x p s) := offer_orderly h

theorem jamPocket_orderly {p : PocketNo} : Orderly s₀ (jamPocket p s) :=
  (setFlag_orderly (offerLock_orderly (countPocket_orderly h))).same (by rfl)

theorem jamAtFault_orderly {p : PocketNo} : Orderly s₀ (jamAtFault p s) := .ite h (jamPocket_orderly (h.same (by rfl)))

theorem askEject_orderly {p : PocketNo} {c : PocketCfg} : Orderly s₀ (askEject p c s) :=
  .ite (jamPocket_orderly h) (request_orderly h)

theorem startEject_orderly {p : PocketNo} {c : PocketCfg} {n : Nat} : Orderly s₀ (startEject p c n s) :=
  askEject_orderly (h.same (by rfl))

theorem failEject_orderly {p : PocketNo} {c : PocketCfg} : Orderly s₀ (failEject p c s) :=
  .ite (startEject_orderly (raiseCounter_orderly h)) (jamPocket_orderly h)

theorem kickThrough_orderly {p : PocketNo} {c : PocketCfg} {credit inSequence : Bool} :
    Orderly s₀ (kickThrough p c credit inSequence s) :=
  have told := Orderly.ite (offerLock_orderly (h.same (by rfl))) (h.same (by rfl))
  .ite told (startEject_orderly told)

theorem ballEnters_orderly {p : PocketNo} {c : PocketCfg} {x : Bool} : Orderly s₀ (ballEnters p c x s) :=
  .ite (kickThrough_orderly h) (.ite (offerLock_orderly (countPocket_orderly h))
    (.ite (h.same (by rfl)) (kickThrough_orderly h)))

theorem closeInEmpty_orderly {p : PocketNo} {c : PocketCfg} : Orderly s₀ (closeInEmpty p c s) :=
  .ite (h.same (by rfl)) (ballEnters_orderly h)

theorem entryCloses_orderly {p : PocketNo} {c : PocketCfg} : Orderly s₀ (entryCloses p c s) := by
  unfold entryCloses
  split
  · exact closeInEmpty_orderly h
  · exact h
  · exact ballEnters_orderly h
  · exact ballEnters_orderly h
  · exact h.same (by rfl)
  · exact h.same (by rfl)
  · exact h.same (by rfl)
  · exact h.same (by rfl)
  · exact .ite (offerLock_orderly (countPocket_orderly h)) h

theorem seenEntering_orderly {p : PocketNo} {c : PocketCfg} : Orderly s₀ (seenEntering p c s) :=
  ballEnters_orderly (h.same (by rfl))

theorem afterConfirm_orderly {p : PocketNo} : Orderly s₀ (afterConfirm p s) := .ite (h.same (by rfl)) (h.same (by rfl))

theorem confirmEject_orderly {p : PocketNo} {c : PocketCfg} : Orderly s₀ (confirmEject p c s) :=
  have out := countPocket_orderly h
  have told := (Orderly.ite (offerLock_orderly out) out).same (by rfl)
  .ite (.ite (closeInEmpty_orderly (afterConfirm_orderly told)) (afterConfirm_orderly (ballEnters_orderly told)))
    (afterConfirm_orderly told)

theorem lostInRelease_orderly {p : PocketNo} {c : PocketCfg} : Orderly s₀ (lostInRelease p c s) :=
  have out := countPocket_orderly h
  have told := (Orderly.ite (offerLock_orderly out) out).same (by rfl)
  have entered := Orderly.ite (closeInEmpty_orderly (told.same (by rfl))) (ballEnters_orderly (told.same (by rfl)))
  .ite (.ite entered (told.same (by rfl))) told

theorem leftUnseen_orderly {p : PocketNo} {c : PocketCfg} : Orderly s₀ (leftUnseen p c s) := by
  unfold leftUnseen
  split
  · exact offerLock_orderly (countPocket_orderly h)
  · exact h.same (by rfl)
  · exact lostInRelease_orderly h
  · exact h

theorem freePocket_orderly {p : PocketNo} : Orderly s₀ (freePocket p s) := offerLock_orderly (countPocket_orderly h)

theorem resense_orderly {p : PocketNo} : Orderly s₀ (resense p s) := .ite (countPocket_orderly h) h

theorem pocketRound_orderly {p : PocketNo} {c : PocketCfg} {x y z : Bool} : Orderly s₀ (pocketRound p c x y z s) := by
  refine .ite (.ite (resense_orderly h) h) (.ite h ?_)
  split
  · exact seenEntering_orderly h
  · exact seenEntering_orderly h
  · exact confirmEject_orderly h
  · exact freePocket_orderly h
  · exact leftUnseen_orderly h
  · exact h

theorem restartPocket_orderly {p : PocketNo} {c : PocketCfg} : Orderly s₀ (restartPocket p c s) :=
  .ite (startEject_orderly (offerLock_orderly (countPocket_orderly h))) h

theorem judgeAtJoin_orderly {p : PocketNo} {c : PocketCfg} : Orderly s₀ (judgeAtJoin p c s) := by
  unfold judgeAtJoin
  split
  · exact .ite (ballEnters_orderly h) h
  · exact .ite (offerLock_orderly (countPocket_orderly h)) h
  · exact h

theorem joinRelease_orderly {p : PocketNo} : Orderly s₀ (joinRelease p s) :=
  .ite (.ite (h.same (by rfl)) (h.same (by rfl))) h

theorem beginRelease_orderly {rank : Nat} : Orderly s₀ (beginRelease rank s) :=
  (h.eachUp fun _ _ h => joinRelease_orderly h).same (by rfl)

theorem takeTurn_orderly : Orderly s₀ (takeTurn s) := by
  unfold takeTurn
  split
  · exact h.same (by rfl)
  · dsimp only
    split
    · exact h.same (by rfl)
    · exact startEject_orderly (.ite (ballEnters_orderly (h.same (by rfl))) (h.same (by rfl)))

theorem eachPocket_orderly {f : PocketNo → PocketCfg → State → State}
    (each : ∀ p c s, Orderly s₀ s → Orderly s₀ (f p c s)) : Orderly s₀ (eachPocket f s) :=
  h.eachUp fun p t h => by
    split
    · exact each _ _ _ h
    · exact h

/-! ## Serves and the trough (R136 to R141) -/

theorem failServe_orderly : Orderly s₀ (failServe s) :=
  setFlag_orderly (h.same (by rfl))

theorem askServe_orderly : Orderly s₀ (askServe s) := by
  unfold askServe
  split
  · exact failServe_orderly h
  · exact .ite (failServe_orderly h) (request_orderly h)

theorem startServe_orderly {n : Nat} : Orderly s₀ (startServe n s) := askServe_orderly (h.same (by rfl))

theorem serveNext_orderly : Orderly s₀ (serveNext s) :=
  .ite (.ite (h.same (by rfl)) (.ite (startServe_orderly h) (h.same (by rfl)))) h

/-- R139: at most 6 serves are owed. -/
theorem oweServes_orderly {n : Nat} : Orderly s₀ (oweServes n s) :=
  .ite (serveNext_orderly (h.same (by rfl))) h

theorem clearServes_orderly : Orderly s₀ (clearServes s) :=
  serveNext_orderly (h.same (by rfl))

theorem confirmServe_orderly : Orderly s₀ (confirmServe s) :=
  h.same (by rfl)

theorem laneTurnsPresent_orderly : Orderly s₀ (laneTurnsPresent s) := .ite (serveNext_orderly (confirmServe_orderly h)) h

theorem failServeAttempt_orderly : Orderly s₀ (failServeAttempt s) :=
  .ite (startServe_orderly (raiseCounter_orderly h)) (failServe_orderly h)

theorem reportTrough_orderly {old : Option Nat} {new : Nat} : Orderly s₀ (reportTrough old new s) := by
  unfold reportTrough
  dsimp only
  split
  · exact offer_orderly h
  · refine .ite (offer_orderly ?_) ?_
    all_goals exact (offer_orderly h).mapTrough

theorem takeTroughCount_orderly : Orderly s₀ (takeTroughCount s) := by
  refine serveNext_orderly (.ite ?_ (reportTrough_orderly ?_))
  all_goals exact (Orderly.ite (confirmServe_orderly h.mapTrough) h.mapTrough).mapTrough

theorem repeatTrough_orderly : Orderly s₀ (repeatTrough s) := by
  unfold repeatTrough
  split
  · exact h
  · exact .ite h (offer_orderly h)

/-! ## Judgements (R142 to R146) -/

theorem setPhase_orderly {x : Phase} : Orderly s₀ (setPhase x s) := h.same (by rfl)

theorem startMultiModes_orderly : Orderly s₀ (startMultiModes s) := by
  unfold startMultiModes
  split
  · exact h
  · exact h.eachUp fun m t h => by
      split
      · exact .ite (startMode_orderly h) h
      · exact h

theorem judgePhase_orderly : Orderly s₀ (judgePhase s) :=
  .ite (startMultiModes_orderly (setPhase_orderly h)) (.ite (endModes_orderly (setPhase_orderly h)) h)

theorem endCombo_orderly : Orderly s₀ (endCombo s) := h.same (by rfl)

theorem ballOver_orderly : Orderly s₀ (ballOver s) :=
  setStation_orderly
    (endSearch_orderly (clearServes_orderly (endCombo_orderly (endModes_orderly (setPhase_orderly h))))) rfl

theorem replaceBall_orderly {x : Bool} : Orderly s₀ (replaceBall x s) := .ite (oweServes_orderly h) h

theorem judgeZero_orderly {x : ZeroCause} {n : Nat} {y : Bool} : Orderly s₀ (judgeZero x n y s) := by
  refine .ite h ?_
  split
  · exact ballOver_orderly h
  · exact .ite (ballOver_orderly h) (.ite (replaceBall_orderly h) h)
  · exact h

theorem raiseCredit_orderly {p : Player} : Orderly s₀ (raiseCredit p s) := h.same (by rfl)

theorem startMultiball_orderly : Orderly s₀ (startMultiball s) := by
  have spent : Orderly s₀ (s.mapBalls fun b => { b with credits := b.credits.set s.rules.current 0 }) :=
    h.same (by rfl)
  exact .ite spent (oweServes_orderly (.ite (beginRelease_orderly spent) spent))

theorem keepLockCounts_orderly {j : StationNo} {x : LockPayload} : Orderly s₀ (keepLockCounts j x s) :=
  recomputeB_orderly (h.same (by rfl))

theorem takeLock_orderly {j : StationNo} {x : LockPayload} : Orderly s₀ (takeLock j x s) := by
  unfold takeLock
  dsimp only
  have kept := Orderly.ite (q := j = strap s) h (keepLockCounts_orderly h (j := j) (x := x))
  have credited : Orderly s₀ (match creditedPlayer x (if j = strap s then s else keepLockCounts j x s) with
      | some p => raiseCredit p (if j = strap s then s else keepLockCounts j x s)
      | none => if j = strap s then s else keepLockCounts j x s) := by
    split
    · exact raiseCredit_orderly kept
    · exact kept
  have judged := judgePhase_orderly credited
  exact restartQuiet_orderly (judgeZero_orderly (.ite (startMultiball_orderly judged) judged))

theorem takeTroughView_orderly {x : Bool} {n : Nat} : Orderly s₀ (takeTroughView x n s) :=
  recomputeB_orderly (mapMissing_orderly h (.inl (by
    dsimp only
    split
    · exact Nat.sub_le _ _
    · exact Nat.le_refl _)))

theorem takeTrough_orderly {x y : Byte} : Orderly s₀ (takeTrough x y s) :=
  restartQuiet_orderly (judgeZero_orderly (judgePhase_orderly (takeTroughView_orderly h)))

/-- R135: the missing count is bounded by the installed balls. -/
theorem takeMissing_orderly {x : Byte} (runs : s.control.station.running = true) : Orderly s₀ (takeMissing x s) :=
  judgeZero_orderly (judgePhase_orderly (recomputeB_orderly
    (mapMissing_orderly h (.inr ⟨runs, Nat.min_le_left _ _⟩))))

theorem takeCensusCounts_orderly {j : StationNo} {r : CensusRecord} : Orderly s₀ (takeCensusCounts j r s) := by
  unfold takeCensusCounts
  dsimp only
  refine judgeZero_orderly (judgePhase_orderly ?_)
  split
  · exact takeTroughView_orderly (h.same (by rfl))
  · exact recomputeB_orderly (h.same (by rfl))

theorem reconcile_orderly {j : StationNo} {modes : Tab 32 Bool} : Orderly s₀ (reconcile j modes s) :=
  h.eachUp fun m t h => by
    refine .ite (.ite (makeFromCensus_orderly h fun _ => changeLit_orderly) h) ?_
    split
    · exact .ite (endMode_orderly h) h
    · exact h

/-! ## The award, banks and hits (R18 to R48) -/

theorem award_orderly {p : Player} {v : Nat} {g : Fin 8} {k : Scoring} : Orderly s₀ (award p v g k s) :=
  have raised := h.same (t := s.mapRules _) (by rfl)
  .ite (offer_orderly raised) raised

theorem faultBank_orderly {b : BankNo} {c : BankCfg} : Orderly s₀ (faultBank b c s) := setFeatures_orderly (h.same (by rfl))

theorem askReset_orderly {b : BankNo} {c : BankCfg} : Orderly s₀ (askReset b c s) := by
  unfold askReset
  split
  · exact h
  · exact .ite (faultBank_orderly h) (request_orderly h)

theorem beginReset_orderly {b : BankNo} {c : BankCfg} {x : Bool} : Orderly s₀ (beginReset b c x s) :=
  askReset_orderly (h.same (by rfl))

theorem dropCompletes_orderly {b : BankNo} {c : BankCfg} : Orderly s₀ (dropCompletes b c s) :=
  beginReset_orderly (setFeatures_orderly h)

theorem confirmBank_orderly {b : BankNo} {c : BankCfg} : Orderly s₀ (confirmBank b c s) := by
  unfold confirmBank
  exact setFeatures_orderly (h.same (by rfl))

theorem clearMarks_orderly {c : BankCfg} : Orderly s₀ (clearMarks c s) := h.foldl fun _ _ h => h.same (by rfl)

theorem collectAction_orderly {m : ModeId} {g : Fin 8} : Orderly s₀ (collectAction m g s) := by
  unfold collectAction
  split
  · exact h
  · exact .ite ((offer_orderly h).same (by rfl)) (offer_orderly h)

theorem lightFeature_orderly {f : FeatureNo} : Orderly s₀ (lightFeature f s) := by
  unfold lightFeature
  split
  · exact setFeature_orderly h
  · exact setFeature_orderly h
  · exact h

section
variable {act : Action → Fin 8 → State → State} (acts : ∀ a g s, Orderly s₀ s → Orderly s₀ (act a g s))
include acts

theorem scoredCompletion_orderly {b : BankNo} {c : BankCfg} {i : SwitchNo} :
    Orderly s₀ (scoredCompletion act b c i s) := by
  have taken : Orderly s₀ (match c.action with
      | some a => act a (ruleOf s i).group (award s.rules.current c.value (ruleOf s i).group (.bank i) s)
      | none => award s.rules.current c.value (ruleOf s i).group (.bank i) s) := by
    split
    · exact acts _ _ _ (award_orderly h)
    · exact award_orderly h
  exact .ite (dropCompletes_orderly taken) (clearMarks_orderly taken)

theorem markMember_orderly {b : BankNo} {c : BankCfg} {i : SwitchNo} : Orderly s₀ (markMember act b c i s) :=
  have marked : Orderly s₀ (setMark i true s) := h.same (by rfl)
  .ite h (.ite (.ite (scoredCompletion_orderly marked acts) (.ite (dropCompletes_orderly marked) marked)) marked)

end

theorem takeAction_orderly {n : Nat} {a : Action} {g : Fin 8} : Orderly s₀ (takeAction n a g s) := by
  induction n generalizing a g s with
  | zero =>
    cases a with
    | lightFeature f => exact lightFeature_orderly h
    | collect m => exact collectAction_orderly h
    | advanceBank b => exact h
    | _ => exact offer_orderly h
  | succ n ih =>
    cases a with
    | lightFeature f => exact lightFeature_orderly h
    | collect m => exact collectAction_orderly h
    | advanceBank b =>
      unfold takeAction
      split
      · exact h
      · split
        · exact h
        · exact markMember_orderly h fun _ _ _ h => ih h
    | _ => exact offer_orderly h

theorem doAction_orderly {a : Action} {g : Fin 8} : Orderly s₀ (doAction a g s) := takeAction_orderly h

/-- R32: a member's mark, by its bank's kind. -/
theorem standupMark_orderly {i : SwitchNo} {r : Rule} : Orderly s₀ (standupMark i r s) := by
  refine .ite ?_ h
  split
  · exact h
  · split
    · exact .ite h (markMember_orderly h fun _ _ _ h => doAction_orderly h)
    · exact h

theorem directPulse_orderly {r : Rule} : Orderly s₀ (directPulse r s) := by
  unfold directPulse
  split
  · exact .ite (request_orderly h) h
  · exact h

theorem hit_orderly {i : SwitchNo} : Orderly s₀ (hit i s) := by
  have pulsed := directPulse_orderly h (r := ruleOf s i)
  unfold hit
  dsimp only
  split
  · exact pulsed
  · refine standupMark_orderly ?_
    split
    · refine .ite (doAction_orderly ?_) ?_
      all_goals
        split
        · exact .ite (award_orderly pulsed) (setFeature_orderly (award_orderly pulsed))
        · exact award_orderly pulsed
    · split
      · exact .ite (award_orderly pulsed) (setFeature_orderly (award_orderly pulsed))
      · exact award_orderly pulsed

theorem dropMark_orderly {i : SwitchNo} {x : Bool} : Orderly s₀ (dropMark i x s) := by
  refine .ite ?_ h
  split
  · exact h
  · split
    · exact .ite (.ite (markMember_orderly h fun _ _ _ h => doAction_orderly h) (h.same (by rfl))) h
    · exact h

theorem ruleTakes_orderly {i : SwitchNo} {x : Bool} : Orderly s₀ (ruleTakes i x s) :=
  dropMark_orderly (.ite (hit_orderly h) h)

theorem confirmAtScan_orderly {b : BankNo} : Orderly s₀ (confirmAtScan b s) := by
  unfold confirmAtScan
  split
  · exact .ite (confirmBank_orderly h) h
  · exact h

/-! ## Reports to requesters (R169 to R176) -/

theorem askAgain_orderly {r : Requester} : Orderly s₀ (askAgain r s) := by
  cases r with
  | pocket p =>
    unfold askAgain
    dsimp only
    split
    · exact .ite (askEject_orderly h) h
    · exact h
  | trough => exact .ite (askServe_orderly h) h
  | bank b =>
    unfold askAgain
    dsimp only
    split
    · exact .ite (askReset_orderly h) h
    · exact h
  | hold d =>
    unfold askAgain
    dsimp only
    split
    · exact .ite (requestHold_orderly h) h
    · exact h
  | rule => exact h
  | search => exact h
  | fire => exact h

theorem tellWaiting_orderly : Orderly s₀ (tellWaiting s) := (h.same (by rfl)).foldl fun _ _ h => askAgain_orderly h

theorem pulseStarted_orderly {r : Requester} : Orderly s₀ (pulseStarted r s) := by
  cases r with
  | pocket p => exact .ite (h.same (by rfl)) h
  | trough => exact .ite (h.same (by rfl)) h
  | _ => exact h

theorem pulseEnded_orderly {r : Requester} : Orderly s₀ (pulseEnded r s) := by
  cases r with
  | pocket p =>
    unfold pulseEnded
    dsimp only
    split
    · exact .ite (confirmEject_orderly h) h
    · exact h
  | bank b => exact .ite (h.same (by rfl)) h
  | _ => exact h

theorem driverFaulted_orderly {r : Requester} : Orderly s₀ (driverFaulted r s) := by
  cases r with
  | pocket p => exact jamAtFault_orderly h
  | trough => exact .ite (failServe_orderly h) h
  | bank b =>
    unfold driverFaulted
    dsimp only
    split
    · exact .ite (faultBank_orderly h) h
    · exact h
  | _ => exact h

/-- R170: the pulses that can start. -/
theorem energizeAll_orderly : Orderly s₀ ((startable s).foldl (fun t e => energize e t) s) := by
  have setup : ∀ l : List PulseEntry, l.foldl (fun t e => energize e t) s =
      { s with drivers := (l.foldl (fun t e => energize e t) s).drivers } := by
    intro l
    induction l using List.reverseRecOn with
    | nil => rfl
    | append_singleton l e ih =>
      rw [List.foldl_append, List.foldl_cons, List.foldl_nil, ih]
      rfl
  refine h.trans ⟨?_, ?_, starts_within, fun _ => List.Pairwise.sublist (foldl_energize_queue _ s), ?_, ?_⟩
  all_goals rw [setup]; exact id

theorem startPulses_orderly : Orderly s₀ (startPulses s) := by
  unfold startPulses
  split
  · exact h
  · exact (tellWaiting_orderly (energizeAll_orderly h)).foldl fun _ _ h => h.foldl fun _ _ h => pulseStarted_orderly h

theorem endPulse_orderly {d : DriverNo} {n : Nat} : Orderly s₀ (endPulse d n s) := by
  have verified : Orderly s₀ (mapUnit d (fun u =>
      { u with detail := if mistimed n (unit s d).onTime (driverCfg s d).tolerance then u.detail.mistime
                         else u.detail }) s) := mapUnit_orderly h id
  have told := verified.foldl (l := (unit s d).requesters) fun _ r h => pulseEnded_orderly h (r := r)
  have released := mapUnit_orderly told (d := d) (f := fun u => { u with requesters := [], onTime := 0 }) id
  exact .ite (mapUnit_orderly released fun starts => by cases starts) (enterRecycle_orderly released)

theorem faultDriver_orderly {d : DriverNo} {why : Detail} : Orderly s₀ (faultDriver d why s) := by
  have cut : Orderly s₀ (mapUnit d (fun u =>
      { u with phase := .faulted, detail := why, requesters := [], onTime := 0, recycle := none, maxHold := none }) s) :=
    mapUnit_orderly h fun starts => by cases starts
  have told := cut.foldl (l := (unit s d).requesters) fun _ r h => driverFaulted_orderly h (r := r)
  unfold faultDriver
  dsimp only
  split
  · exact told
  · exact tellWaiting_orderly ((filterPulses_orderly told).foldl fun _ _ h => driverFaulted_orderly h)

theorem clearDriver_orderly {d : DriverNo} : Orderly s₀ (clearDriver d s) := by
  have cleared : Orderly s₀ (mapUnit d (fun u =>
      { u with detail := .none, phase := if (unit s d).phase = .faulted then .idle else u.phase }) s) :=
    mapUnit_orderly h fun starts => by
      dsimp only at starts
      split at starts
      · cases starts
      · exact starts
  exact .ite (askAgain_orderly cleared) cleared

end

end Sys2Proof.Machine

end

