-- ==== Sys2Proof/Proofs/OrderlyCommands.lean ====
section
/-! SUPPORT. `Orderly` through every command and step, and O5 and O7. -/

namespace Sys2Proof.Machine

variable {s₀ s t : State}

/-! ## Station Control (R180 to R187) -/

/-- R132, R178, R187: a state with empty queues, no image and no debounce counted meets every bound. -/
theorem fresh_orderly (queue : t.link.queue = []) (drivers : t.drivers = driversReset) (missing : t.balls.missing = 0)
    (image : t.control.image = unloadedImage) (scanner : t.scanner = scannerReset) : Orderly s₀ t := by
  have pulses : driversReset.within := ⟨Nat.zero_le _, List.nodup_nil, by decide⟩
  refine ⟨fun _ => ?_, fun _ => ?_, fun _ => drivers ▸ pulses, fun _ _ => ?_, fun _ => ⟨?_, fun _ => missing⟩,
    fun _ i => ?_⟩
  · rw [within_iff, queue]
    exact ⟨Nat.zero_le _, Nat.zero_le _, fun _ => Nat.zero_le _⟩
  · rw [ordered_iff, queue]
    exact List.Pairwise.nil
  · unfold DriverCtl.ordered
    rw [drivers]
    exact List.Pairwise.nil
  · rw [missing]
    exact Nat.zero_le _
  · unfold ruleOf
    rw [scanner, image]
    simp [scannerReset, unloadedImage]

theorem powerUp_orderly {n : StationNo} : Orderly s₀ (powerUp n s) := fresh_orderly rfl rfl rfl rfl rfl

theorem lineReset_orderly : Orderly s₀ (lineReset s) := fresh_orderly rfl rfl rfl rfl rfl

section
variable (h : Orderly s₀ s)
include h

/-- R181: LOADING begins with no image. -/
theorem beginLoading_orderly (stopped : s.control.station.running = false) : Orderly s₀ (beginLoading s) :=
  (mapStation_orderly h (f := fun c => { c with
    station := .loading, load := { loadReset with timer := some 10 } }) rfl (.inr stopped)).same (by rfl)

theorem endSelftest_orderly {pass : Bool} : Orderly s₀ (endSelftest pass s) := by
  unfold endSelftest
  split
  · rename_i testing
    have stopped : s.control.station.running = false := by rw [testing]; rfl
    exact .ite (.ite (mapStation_orderly h rfl (.inr stopped)) (beginLoading_orderly h stopped))
      (mapStation_orderly h rfl (.inr stopped))
  · exact h

theorem assertLine_orderly : Orderly s₀ (assertLine s) := by
  unfold assertLine
  split
  · exact h.same (by rfl)
  · exact h.same (by rfl)
  · exact h.same (by rfl)
  · exact lineReset_orderly

theorem releaseLine_orderly : Orderly s₀ (releaseLine s) := by
  have released : Orderly s₀ (setResetLine false s) := h.same (by rfl)
  unfold releaseLine
  dsimp only
  split
  · rename_i held
    exact beginLoading_orderly released (by rw [held]; rfl)
  · exact released

/-- R182: the load fails with no image. -/
theorem failLoad_orderly (stopped : s.control.station.running = false) : Orderly s₀ (failLoad s) :=
  (setFlag_orderly (mapStation_orderly h rfl (.inr stopped))).same (t := failLoad s) (by rfl)

omit h in
/-- R3, R183: the close and open counts of a loaded rule. -/
theorem ruleFor_counts (img : List Byte) (i : SwitchNo) :
    (ruleFor img i).closeCount ≤ 15 ∧ (ruleFor img i).openCount ≤ 15 := by
  unfold ruleFor
  split
  · exact ⟨(by decide : 2 ≤ 15), (by decide : 2 ≤ 15)⟩
  · rename_i bytes _
    have byte : imgByte bytes 1 < 256 := BitVec.isLt _
    simp only [readRule]
    omega

/-- R183, R185: the load succeeds, with no ball missing. -/
theorem succeedLoad_orderly {bytes : List Byte} (stopped : s.control.station.running = false) :
    Orderly s₀ (succeedLoad bytes s) := by
  refine h.trans ⟨id, id, id, fun _ => id, fun ⟨_, empty⟩ => ⟨?_, fun _ => empty stopped⟩, fun counts i => ?_⟩
  · exact (empty stopped).trans_le (Nat.zero_le _)
  · have rules : ruleOf (succeedLoad bytes s) i = ruleFor bytes i := Tab.get_ofFn _ i
    rw [rules]
    exact ⟨(counts i).1, ruleFor_counts bytes i⟩

theorem takeBurst_orderly {burst : Tab 16 Byte} : Orderly s₀ (takeBurst burst s) := by
  unfold takeBurst
  split
  · rename_i loading
    have stopped : s.control.station.running = false := by rw [loading]; rfl
    have read : Orderly s₀ (s.mapControl fun c =>
      { c with load := { loadReset with bytes := withBurst s.control.load.bytes burst } }) := h.same (by rfl)
    exact .ite (failLoad_orderly read stopped) (.ite (read.same (by rfl))
      (.ite (succeedLoad_orderly read stopped) (failLoad_orderly read stopped)))
  · exact h

theorem pollAgain_orderly {x : Bool} : Orderly s₀ (pollAgain x s) := by
  unfold pollAgain
  split
  · rename_i loading
    have stopped : s.control.station.running = false := by rw [loading.1]; rfl
    refine .ite (failLoad_orderly ?_ stopped) ?_
    all_goals exact h.same (by rfl)
  · exact h

/-! ## The end of joining (R186) -/

omit h in
/-- R88: a candidate is in a game. -/
theorem candidate_runs {st : StationState} {r : CensusRecord} (h : candidate s = some (st, r)) : st.running = true := by
  obtain ⟨j, -, found⟩ := List.exists_of_findSome?_eq_some h
  dsimp only at found
  split at found
  · obtain ⟨r, -, reported⟩ := Option.bind_eq_some_iff.mp found
    obtain ⟨x, playing, same⟩ := Option.map_eq_some_iff.mp reported
    cases same
    cases state : r.state <;> rw [state] at playing <;> cases playing <;> rfl
  · cases found

omit h in
theorem enterGame_runs : (enterGame s).control.station.running = true := by
  unfold enterGame
  split
  · rename_i found
    exact candidate_runs found
  · rfl

theorem enterGame_orderly : Orderly s₀ (enterGame s) := by
  unfold enterGame
  split
  · rename_i st r found
    have entered : Orderly s₀ (s.mapControl fun c => { c with station := st, playerCount := r.players }) :=
      mapStation_orderly h rfl (.inl (candidate_runs found))
    exact entered.same (by rfl)
  · exact setStation_orderly h rfl

/-- R88: the missing count handed over is bounded by the installed balls. -/
theorem accountAtJoin_orderly (runs : s.control.station.running = true) : Orderly s₀ (accountAtJoin s) :=
  restartQuiet_orderly (setPhase_orderly (recomputeB_orderly
    (mapMissing_orderly h (.inr ⟨runs, Nat.min_le_left _ _⟩))))

theorem modesAtJoin_orderly : Orderly s₀ (modesAtJoin s) := by
  refine .ite (h.eachUp fun j t h => ?_) h
  split
  · exact h.eachUp fun m u h => .ite (makeFromCensus_orderly h fun _ => id) h
  · exact h

theorem bankAtJoin_orderly {b : BankNo} : Orderly s₀ (bankAtJoin b s) := by
  unfold bankAtJoin
  split
  · exact .ite (dropCompletes_orderly h) h
  · exact h

theorem endJoining_orderly : Orderly s₀ (endJoining s) :=
  have joined := modesAtJoin_orderly (accountAtJoin_orderly (enterGame_orderly (h.same (by rfl))) enterGame_runs)
  have judged := (eachPocket_orderly joined fun _ _ _ h => judgeAtJoin_orderly h).eachUp fun _ _ h => bankAtJoin_orderly h
  .ite (judged.eachUp fun _ _ h => askAgain_orderly h) h

/-! ## Switches and analog channels (R1 to R15) -/

theorem strobeLine_orderly {x : Byte} : Orderly s₀ (strobeLine x s) := .ite (h.same (by rfl)) h

theorem pocketTakes_orderly {i : SwitchNo} {x : Bool} : Orderly s₀ (pocketTakes i x s) := by
  refine .ite ?_ h
  split
  · exact h
  · split
    · exact .ite (entryCloses_orderly h) h
    · exact h

theorem troughTakes_orderly {i : SwitchNo} : Orderly s₀ (troughTakes i s) := .ite (h.same (by rfl)) h

theorem deliver_orderly {i : SwitchNo} {x y : Bool} : Orderly s₀ (deliver i x y s) :=
  have taken := troughTakes_orderly (pocketTakes_orderly (ruleTakes_orderly h))
  .ite (restartQuiet_orderly taken) taken

theorem deliverChange_orderly {before after : State} {i : SwitchNo} : Orderly s₀ (deliverChange before after i s) :=
  .ite h (deliver_orderly h)

theorem baselineMarks_orderly {b : BankNo} : Orderly s₀ (baselineMarks b s) := by
  unfold baselineMarks
  split
  · exact .ite (h.foldl fun _ _ h => (h.same (by rfl))) h
  · exact h

/-- R2, R4: the debounce counts after a scan completion. -/
theorem scanWith_orderly {f : State → SwitchNo → SwitchState} (counts : countsWithin s → ∀ i, (f s i).count ≤ 15) :
    Orderly s₀ (scanWith f s) :=
  mapScanner_orderly h fun within i => (congrArg SwitchState.count (Tab.get_ofFn _ i)).trans_le (counts within i)

omit h in
/-- R2: a count below the close or open count. -/
theorem debounced_count (within : countsWithin s) (i : SwitchNo) : (debounced s i).count ≤ 15 := by
  obtain ⟨-, close, opens⟩ := within i
  have bound : (if (switch s i).closed = true then (ruleOf s i).openCount else (ruleOf s i).closeCount) ≤ 15 := by
    split <;> assumption
  unfold debounced
  dsimp only
  generalize (if (switch s i).closed = true then (ruleOf s i).openCount else (ruleOf s i).closeCount) = n at bound ⊢
  split
  · exact Nat.zero_le _
  · split
    · exact Nat.le_of_lt (Nat.lt_of_lt_of_le ‹_› bound)
    · split <;> exact Nat.zero_le _

theorem completeScan_orderly : Orderly s₀ (completeScan s) := by
  have later : Orderly s₀ (laterScan s) :=
    ((scanWith_orderly h debounced_count).eachUp fun _ _ h => deliverChange_orderly h).eachUp
      fun _ _ h => confirmAtScan_orderly h
  have marked : Orderly s₀ (eachUp 4 baselineMarks (scanWith baselined s)) :=
    (scanWith_orderly h fun _ _ => Nat.zero_le _).eachUp fun _ _ h => baselineMarks_orderly h
  exact .ite (.ite later (.ite marked.mapTrough marked)) h

/-- R6: a switch marked stuck keeps its count. -/
theorem markStuck_orderly {i : SwitchNo} : Orderly s₀ (markStuck i s) := by
  have marked : Orderly s₀ (s.mapScanner fun x =>
      { x with switches := x.switches.modify i fun y => { y with stuck := true, timer := none } }) :=
    mapScanner_orderly h fun within k => by
      rw [Tab.get_modify]
      split
      · exact (within i).1
      · exact (within k).1
  exact .ite (raiseCounter_orderly (setFlag_orderly marked)) h

theorem convert_orderly {n : Nat} : Orderly s₀ (convert n s) := .ite (h.same (by rfl)) h

theorem handPocket_orderly {before : State} {c : ChannelNo} {p : PocketNo} : Orderly s₀ (handPocket before c p s) := by
  unfold handPocket
  split
  · exact .ite (pocketRound_orderly h) h
  · exact h

theorem handChannel_orderly {before : State} {c : ChannelNo} : Orderly s₀ (handChannel before c s) :=
  .ite (h.eachUp fun _ _ h => handPocket_orderly h)
    (.ite (.ite (laneTurnsPresent_orderly h) h) (.ite h (setFlag_orderly h)))

theorem completeRound_orderly : Orderly s₀ (completeRound s) :=
  .ite ((h.same (by rfl)).eachUp fun _ _ h => handChannel_orderly h) h

/-! ## Timers -/

theorem bankTimerExpires_orderly {b : BankNo} : Orderly s₀ (bankTimerExpires b s) := by
  unfold bankTimerExpires
  split
  · exact h
  · exact .ite (.ite (confirmBank_orderly h) (.ite (askReset_orderly (h.same (by rfl))) (faultBank_orderly h))) h

theorem atPocket_orderly {p : PocketNo} {timer : PocketState → Timer} {f : PocketCfg → State → State}
    (works : ∀ c, Orderly s₀ (f c s)) : Orderly s₀ (atPocket p timer f s) := by
  unfold atPocket
  split
  · exact .ite (works _) h
  · exact h

theorem settleExpires_orderly {p : PocketNo} : Orderly s₀ (settleExpires p s) := atPocket_orderly h fun _ => h.same (by rfl)

theorem kickoutExpires_orderly {p : PocketNo} : Orderly s₀ (kickoutExpires p s) :=
  atPocket_orderly h fun _ => .ite (startEject_orderly (h.same (by rfl))) (h.same (by rfl))

theorem windowExpires_orderly {p : PocketNo} : Orderly s₀ (windowExpires p s) :=
  atPocket_orderly h fun _ => .ite (failEject_orderly h) h

theorem rearmExpires_orderly {p : PocketNo} : Orderly s₀ (rearmExpires p s) :=
  atPocket_orderly h fun _ => .ite (startEject_orderly h) h

theorem turnExpires_orderly : Orderly s₀ (turnExpires s) := by
  unfold turnExpires
  split
  · exact takeTurn_orderly h
  · exact h
  · exact h

theorem troughSettles_orderly : Orderly s₀ (troughSettles s) := .ite (takeTroughCount_orderly h) h

theorem serveWindowExpires_orderly : Orderly s₀ (serveWindowExpires s) := .ite (failServeAttempt_orderly h) h

theorem comboExpires_orderly : Orderly s₀ (comboExpires s) := .ite (endCombo_orderly h) h

theorem silenceExpires_orderly {j : StationNo} : Orderly s₀ (silenceExpires j s) := .ite (h.same (by rfl)) h

theorem reofferModeEnds_orderly : Orderly s₀ (reofferModeEnds s) := h.eachUp fun _ _ h => .ite (offerModeEnd_orderly h) h

theorem censusDue_orderly : Orderly s₀ (censusDue s) :=
  have offered := offer_orderly (h.same (by rfl))
  have owed := reofferModeEnds_orderly offered
  .ite (.ite (.ite (repeatTrough_orderly owed) owed) offered) h

theorem modeExpires_orderly {m : ModeId} : Orderly s₀ (modeExpires m s) := by
  unfold modeExpires
  split
  · split
    · exact .ite (offerModeEnd_orderly (h.same (by rfl))) (h.same (by rfl))
    · exact h
    · exact h
  · exact h

theorem graceExpires_orderly {m : ModeId} : Orderly s₀ (graceExpires m s) := by
  unfold graceExpires
  split
  · exact .ite (raiseCounter_orderly (endMode_orderly h)) h
  · exact h

theorem hurryTicks_orderly {m : ModeId} : Orderly s₀ (hurryTicks m s) := by
  unfold hurryTicks
  split
  · exact .ite (h.same (by rfl)) h
  · exact h

theorem modeNearsEnd_orderly {m : ModeId} : Orderly s₀ (modeNearsEnd m s) := by
  unfold modeNearsEnd
  split
  · split
    · exact h.same (by rfl)
    · exact h
    · exact h
  · exact h

theorem quietExpires_orderly : Orderly s₀ (quietExpires s) := .ite (.ite (h.same (by rfl)) (h.same (by rfl))) h

theorem offsetExpires_orderly : Orderly s₀ (offsetExpires s) := .ite (searchRound_orderly h) h

theorem slotExpires_orderly : Orderly s₀ (slotExpires s) := .ite (searchOn_orderly h) h

theorem searchDone_orderly : Orderly s₀ (searchDone s) := .ite (offer_orderly (h.same (by rfl))) (h.same (by rfl))

theorem pauseExpires_orderly : Orderly s₀ (pauseExpires s) := .ite (.ite (searchRound_orderly h) (searchDone_orderly h)) h

theorem pulseEnds_orderly {d : DriverNo} {n : Nat} : Orderly s₀ (pulseEnds d n s) := .ite (endPulse_orderly h) h

theorem maxHoldExpires_orderly {d : DriverNo} : Orderly s₀ (maxHoldExpires d s) :=
  .ite (enterRecycle_orderly (mapUnit_orderly h id)) h

theorem recycleExpires_orderly {d : DriverNo} : Orderly s₀ (recycleExpires d s) := .ite (leaveRecycle_orderly h) h

theorem openFound_orderly {d : DriverNo} : Orderly s₀ (openFound d s) := .ite (faultDriver_orderly h) h

theorem shortFound_orderly {d : DriverNo} : Orderly s₀ (shortFound d s) := .ite (faultDriver_orderly h) h

theorem blinkTick_orderly : Orderly s₀ (blinkTick s) := .ite (h.same (by rfl)) h

/-- R3, R170: a passing ms starts no pulse and counts no debounce. -/
theorem passMs_orderly : Orderly s₀ (passMs s) := by
  have drivers (c : DriverCtl) (f : DriverState → DriverState) (phase : ∀ u, (f u).phase = u.phase) :
      (c.units.map f).count (fun u => u.phase == .pulsing) = c.units.count fun u => u.phase == .pulsing := by
    unfold Tab.count Tab.map
    rw [List.countP_map]
    simp only [Function.comp_def, phase]
  refine h.trans ⟨id, id, fun ⟨length, once, pulsing⟩ => ⟨length, once, ?_⟩, fun _ => id, id, fun within i => ?_⟩
  · exact (drivers s.drivers (fun u => { u with recycle := Timer.less u.recycle, maxHold := Timer.less u.maxHold })
      fun _ => rfl).trans_le pulsing
  · exact ⟨(congrArg SwitchState.count (Tab.get_map _ _ i)).trans_le (within i).1, (within i).2⟩

/-! ## The line (R58 to R71) -/

omit h in
theorem asideInPlace_keys (l : LinkCtl) : keys (asideInPlace l).queue = keys l.queue := by
  unfold asideInPlace
  split
  · exact replaceCensus_keys _ _
  · rfl

omit h in
/-- R69: a transmission that ends keeps every entry. -/
theorem yieldLine_keys (l : LinkCtl) : keys (yieldLine l).queue = keys l.queue := by
  refine (asideInPlace_keys _).trans ?_
  unfold keys offLine
  rw [List.map_map]
  rfl

omit h in
/-- R70: so does one that is to be tried again. -/
theorem retryOnLine_keys (l : LinkCtl) : keys (retryOnLine l).queue = keys l.queue := by
  refine (asideInPlace_keys _).trans ?_
  unfold keys
  rw [List.map_map]
  refine List.map_congr_left fun e _ => ?_
  rw [Function.comp_apply]
  split <;> rfl

theorem mapKeys_orderly {f : LinkCtl → LinkCtl} (same : keys (f s.link).queue = keys s.link.queue) :
    Orderly s₀ (s.mapLink f) := h.mapLink (by rw [same])


theorem restGapSeen_orderly : Orderly s₀ (restGapSeen s) := by
  have begun : Orderly s₀ (s.mapLink fun l => beginHead { l with receive := .atRest }) :=
    mapKeys_orderly h (beginHead_keys _)
  unfold restGapSeen
  split
  · exact h
  · exact .ite begun h
  · exact .ite begun h

theorem sample_orderly {x : Bool} : Orderly s₀ (sample x s) := by
  refine .ite ?_ h
  dsimp only
  split
  · exact h
  · exact h.same (by rfl)
  · exact .ite h (h.same (by rfl))

theorem loseArbitration_orderly : Orderly s₀ (loseArbitration s) :=
  .ite (mapKeys_orderly h (yieldLine_keys s.link)) h

theorem toldDropped_orderly {b : Bulletin} : Orderly s₀ (toldDropped b s) := by
  unfold toldDropped
  split
  · split
    · exact h.same (by rfl)
    · exact h
  · split
    · split
      · exact h.same (by rfl)
      · exact h
    · exact h
  · exact offerAside_orderly h
  · exact h

/-- R69: the entry on the line leaves the queue. -/
theorem dropOnLine_orderly : Orderly s₀ (s.mapLink dropOnLine) :=
  h.mapLink (List.filter_sublist.map _)

theorem takeClash_orderly : Orderly s₀ (takeClash s) := by
  have counted := raiseCounter_orderly h (c := .clashes)
  refine .ite ?_ h
  dsimp only
  split
  · exact counted.same (by rfl)
  · refine .ite (mapKeys_orderly counted (retryOnLine_keys _)) (toldDropped_orderly (setFlag_orderly ?_))
    exact (dropOnLine_orderly counted).same (by rfl)

theorem endHold_orderly : Orderly s₀ (endHold s) := h.same (by rfl)

theorem takeError_orderly : Orderly s₀ (takeError s) :=
  .ite (raiseCounter_orderly (setFlag_orderly (h.same (by rfl)))) h

/-! ## Completions (R66 to R71, R81) -/

theorem received_orderly {o : StationNo} {b : Bulletin} : Orderly s₀ (received o b s) := by
  have ended : Orderly s₀ (endOnLine (isOwn o b s) s) := by
    have waits : Orderly s₀ (s.mapLink fun l => { l with receive := .waiting }) := h.same (by rfl)
    unfold endOnLine
    refine .ite ?_ (.ite (mapKeys_orderly waits (yieldLine_keys _)) waits)
    split
    · exact offerAside_orderly (dropOnLine_orderly waits)
    · exact dropOnLine_orderly waits
  exact .ite ended (.ite (raiseCounter_orderly (setFlag_orderly ended)) (ended.same (by rfl)))

/-- R66, R67: the blocks act in the game states. -/
theorem complete_orderly {o : StationNo} {b : Bulletin} {act gather : Bool → State → State}
    (acts : ∀ own s, inGame s = true → Orderly s₀ s → Orderly s₀ (act own s))
    (gathers : ∀ own s, Orderly s₀ s → Orderly s₀ (gather own s)) : Orderly s₀ (complete o b act gather s) := by
  have taken := received_orderly h (o := o) (b := b)
  unfold complete
  dsimp only
  split
  · split
    · rename_i game
      exact acts _ _ game taken
    · exact gathers _ _ taken
  · exact h

omit h in
theorem nothing_orderly (own : Bool) (s : State) (h : Orderly s₀ s) : Orderly s₀ (nothing own s) := h

theorem completeRowless_orderly : Orderly s₀ (completeRowless s) := by
  unfold completeRowless
  split
  · split
    · exact .ite h (complete_orderly h (fun own s _ => nothing_orderly own s) nothing_orderly)
    · exact h
  · exact h
  · exact h

/-! ## The course of a game (R152 to R162) -/

theorem darkenFaulted_orderly {b : BankNo} : Orderly s₀ (darkenFaulted b s) := by
  unfold darkenFaulted
  split
  · exact .ite (setFeatures_orderly h) h
  · exact h

theorem raiseBank_orderly {b : BankNo} : Orderly s₀ (raiseBank b s) := by
  unfold raiseBank
  split
  · exact .ite (beginReset_orderly h) h
  · exact h

theorem swapPlayers_orderly {p : Player} : Orderly s₀ (swapPlayers p s) :=
  (changeLit_orderly (h.same (by rfl))).eachUp fun _ _ h => darkenFaulted_orderly h

theorem takePlayerUp_orderly {x : Byte} : Orderly s₀ (takePlayerUp x s) := by
  refine .ite ?_ h
  split
  · exact (swapPlayers_orderly h).eachUp fun _ _ h => raiseBank_orderly h
  · exact h

theorem raiseMarkedBank_orderly {b : BankNo} : Orderly s₀ (raiseMarkedBank b s) := by
  unfold raiseMarkedBank
  split
  · exact .ite (beginReset_orderly h) h
  · exact h

theorem takeGameStart_orderly {x : Byte} : Orderly s₀ (takeGameStart x s) := by
  refine .ite ?_ h
  have fresh : Orderly s₀ (freshContexts (zeroedGame x.toNat s)) := changeLit_orderly (h.same (by rfl))
  rw [newGame_eq]
  refine setStation_orderly (Orderly.eachUp ?_ fun _ _ h => raiseMarkedBank_orderly h) rfl
  exact fresh.mapBalls fun _ => rfl

theorem takeServe_orderly {x : Byte} : Orderly s₀ (takeServe x s) := by
  refine .ite h ?_
  split
  · exact oweServes_orderly (setStation_orderly h rfl)
  · exact oweServes_orderly h
  · exact h

theorem takeTilt_orderly : Orderly s₀ (takeTilt s) := .ite (judgeZero_orderly (clearServes_orderly (setStation_orderly h rfl))) h

theorem takeGameEnd_orderly : Orderly s₀ (takeGameEnd s) :=
  setStation_orderly
    (endSearch_orderly (clearServes_orderly (setPhase_orderly (endCombo_orderly (endModes_orderly h))))) rfl

theorem takeFeatureSet_orderly {x f r p : Byte} : Orderly s₀ (takeFeatureSet x f r p s) := by
  refine .ite ?_ h
  split
  · exact setFeature_orderly h
  · exact h.same (by rfl)
  · exact h

theorem takeCombo_orderly : Orderly s₀ (takeCombo s) := h.same (by rfl)

theorem takeAward_orderly {x : AwardPayload} : Orderly s₀ (takeAward x s) :=
  restartQuiet_orderly (.ite (takeCombo_orderly h) h)

/-! ## The peer view, modes and collects (R52 to R56, R85 to R88, R96 to R102) -/

theorem gatherRecord_orderly {j : StationNo} {f : CensusRecord → CensusRecord} : Orderly s₀ (gatherRecord j f s) :=
  .ite (h.same (by rfl)) h

theorem compareSignature_orderly {r : CensusRecord} : Orderly s₀ (compareSignature r s) := .ite (setFlag_orderly h) h

theorem takeCensus_orderly {j : StationNo} {x : CensusPayload} {own : Bool} : Orderly s₀ (takeCensus j x own s) :=
  have compared := compareSignature_orderly (h.same (by rfl)) (r := recordOf x)
  .ite h (.ite (compareSignature_orderly h)
    (.ite (reconcile_orderly compared) (reconcile_orderly (takeCensusCounts_orderly compared))))

theorem gatherCensus_orderly {j : StationNo} {x : CensusPayload} {own : Bool} : Orderly s₀ (gatherCensus j x own s) :=
  .ite h (.ite (compareSignature_orderly h) (compareSignature_orderly (h.same (by rfl))))

theorem takeModeStart_orderly {j : StationNo} {x y : Byte} : Orderly s₀ (takeModeStart j x y s) := by
  unfold takeModeStart
  split
  · exact startMode_orderly h
  · exact h

theorem takeModeEnd_orderly {x : Byte} : Orderly s₀ (takeModeEnd x s) := by
  unfold takeModeEnd
  split
  · exact .ite (endMode_orderly h) h
  · exact h

theorem takeJackpotAdd_orderly {x : Byte} : Orderly s₀ (takeJackpotAdd x s) := by
  unfold takeJackpotAdd
  split
  · exact h
  · split
    · exact .ite (h.same (by rfl)) h
    · exact h

theorem settleCollect_orderly {m : ModeId} {x : Byte} : Orderly s₀ (settleCollect m x s) := by
  unfold settleCollect
  dsimp only
  split
  · exact (award_orderly h).mapRules
  · exact h.mapRules

theorem collectEffect_orderly {m : ModeId} : Orderly s₀ (collectEffect m s) := by
  unfold collectEffect
  split
  · split
    · exact h.same (by rfl)
    · exact endMode_orderly h
    · exact h
    · exact h
  · exact h

theorem takeCollect_orderly {x y : Byte} {own : Bool} : Orderly s₀ (takeCollect x y own s) := by
  unfold takeCollect
  split
  · exact h
  · exact collectEffect_orderly (.ite (settleCollect_orderly h) h)

/-! ## Service (R177, R187 to R192) -/

theorem takeQuery_orderly {x y z : Byte} : Orderly s₀ (takeQuery x y z s) := .ite (offer_orderly h) h

theorem takeFire_orderly {x y : Byte} : Orderly s₀ (takeFire x y s) := by
  refine .ite ?_ h
  split
  · exact request_orderly h
  · exact h

theorem restartBank_orderly {b : BankNo} : Orderly s₀ (restartBank b s) := by
  unfold restartBank
  split
  · exact .ite (beginReset_orderly h) h
  · exact h

theorem switchAgain_orderly : Orderly s₀ (switchAgain s) := .ite (setFlag_orderly h) h

theorem accountingAgain_orderly : Orderly s₀ (accountingAgain s) := .ite (setFlag_orderly h) h

theorem clearFaultsNow_orderly : Orderly s₀ (clearFaultsNow s) := by
  have driven := (h.same (t := clearFlags s) (by rfl)).eachUp (n := 8) fun d _ h => clearDriver_orderly h (d := d)
  have restarted := (eachPocket_orderly driven fun p c _ h => restartPocket_orderly h (p := p) (c := c)).eachUp (n := 4)
    fun b _ h => restartBank_orderly h (b := b)
  exact accountingAgain_orderly (switchAgain_orderly restarted)

theorem clearCounters_orderly : Orderly s₀ (clearCounters s) := h.same (by rfl)

theorem takeRestart_orderly {x : Byte} : Orderly s₀ (takeRestart x s) :=
  .ite (beginLoading_orderly lineReset_orderly rfl) h

end

/-! ## Every command and step -/

theorem running_of_inGame (game : inGame s = true) : s.control.station.running = true := by
  revert game
  unfold inGame
  cases s.control.station <;> decide

/-- A command whose work is orderly, is: it ends in `finish`. -/
theorem Orderly.of_exec {v : State} (h : Orderly s v) (ran : taken (finish v) = .next t) : Orderly s t :=
  Host.Outcome.next.inj ran ▸ finish_orderly h

/-- Every command. -/
theorem exec_orderly {c : Instr} (ran : exec c s = .next t) : Orderly s t := by
  have same := Orderly.refl s
  cases c with
  | powerOn strap => exact (powerUp_orderly (s₀ := s)).of_exec ran
  | gameStart o n => exact (complete_orderly same (fun _ _ _ h => takeGameStart_orderly h) nothing_orderly).of_exec ran
  | selftestComplete pass => exact (endSelftest_orderly same).of_exec ran
  | resetLineAssert => exact (assertLine_orderly same).of_exec ran
  | resetLineRelease => exact (releaseLine_orderly same).of_exec ran
  | loadBurstRead burst => exact (takeBurst_orderly same).of_exec ran
  | loadPollExpiry x => exact (pollAgain_orderly same).of_exec ran
  | strobe x => exact (strobeLine_orderly same).of_exec ran
  | scanCompletion => exact (completeScan_orderly same).of_exec ran
  | stuckTimerExpiry i => exact (markStuck_orderly same).of_exec ran
  | bankConfirmTimerExpiry b => exact (bankTimerExpires_orderly same).of_exec ran
  | settleWindowExpiry p => exact (settleExpires_orderly same).of_exec ran
  | kickoutTimerExpiry p => exact (kickoutExpires_orderly same).of_exec ran
  | conversion n => exact (convert_orderly same).of_exec ran
  | roundCompletion => exact (completeRound_orderly same).of_exec ran
  | confirmWindowExpiry p => exact (windowExpires_orderly same).of_exec ran
  | rearmTimerExpiry p => exact (rearmExpires_orderly same).of_exec ran
  | turnTimerExpiry => exact (turnExpires_orderly same).of_exec ran
  | troughSettleTimerExpiry => exact (troughSettles_orderly same).of_exec ran
  | serveWindowExpiry => exact (serveWindowExpires_orderly same).of_exec ran
  | restGap => exact (restGapSeen_orderly same).of_exec ran
  | lostArbitration => exact (loseArbitration_orderly same).of_exec ran
  | clash => exact (takeClash_orderly same).of_exec ran
  | clashHoldEnd => exact (endHold_orderly same).of_exec ran
  | receiveError => exact (takeError_orderly same).of_exec ran
  | samplingPoint x => exact (completeRowless_orderly (sample_orderly same)).of_exec ran
  | tilt o => exact (complete_orderly same (fun _ _ _ h => takeTilt_orderly h) nothing_orderly).of_exec ran
  | gameEnd o => exact (complete_orderly same (fun _ _ _ h => takeGameEnd_orderly h) nothing_orderly).of_exec ran
  | playerUp o p => exact (complete_orderly same (fun _ _ _ h => takePlayerUp_orderly h) nothing_orderly).of_exec ran
  | serve o n => exact (complete_orderly same (fun _ _ _ h => takeServe_orderly h) nothing_orderly).of_exec ran
  | lock o x =>
    exact (complete_orderly same (fun _ _ _ h => takeLock_orderly h) fun _ _ h => gatherRecord_orderly h).of_exec ran
  | trough o n r =>
    exact (complete_orderly same (fun _ _ _ h => takeTrough_orderly h) fun _ _ h => .ite (gatherRecord_orderly h) h).of_exec ran
  | missing o n =>
    exact (complete_orderly same (fun _ _ game h => takeMissing_orderly h (running_of_inGame game))
      fun _ _ h => .ite (gatherRecord_orderly h) h).of_exec ran
  | modeStart o m d => exact (complete_orderly same (fun _ _ _ h => takeModeStart_orderly h) nothing_orderly).of_exec ran
  | modeEnd o m => exact (complete_orderly same (fun _ _ _ h => takeModeEnd_orderly h) nothing_orderly).of_exec ran
  | collect o m p => exact (complete_orderly same (fun _ _ _ h => takeCollect_orderly h) nothing_orderly).of_exec ran
  | jackpotAdd o m => exact (complete_orderly same (fun _ _ _ h => takeJackpotAdd_orderly h) nothing_orderly).of_exec ran
  | featureSet o a f r p =>
    exact (complete_orderly same (fun _ _ _ h => takeFeatureSet_orderly h) nothing_orderly).of_exec ran
  | award o p => exact (complete_orderly same (fun _ _ _ h => takeAward_orderly h) nothing_orderly).of_exec ran
  | census o p =>
    exact (complete_orderly same (fun _ _ _ h => takeCensus_orderly h) fun _ _ h => gatherCensus_orderly h).of_exec ran
  | status o i d => exact (complete_orderly same (fun own s _ => nothing_orderly own s) nothing_orderly).of_exec ran
  | query o a i x =>
    exact (complete_orderly same (fun _ _ _ h => takeQuery_orderly h) fun _ _ h => takeQuery_orderly h).of_exec ran
  | fire o a d => exact (complete_orderly same (fun _ _ _ h => takeFire_orderly h) nothing_orderly).of_exec ran
  | clearFaults o a =>
    exact (complete_orderly same (fun _ _ _ h => .ite (clearFaultsNow_orderly h) h) nothing_orderly).of_exec ran
  | clearCounts o a =>
    exact (complete_orderly same (fun _ _ _ h => .ite (clearCounters_orderly h) h) nothing_orderly).of_exec ran
  | clearBoth o a =>
    exact (complete_orderly same (fun _ _ _ h => .ite (clearCounters_orderly (clearFaultsNow_orderly h)) h)
      nothing_orderly).of_exec ran
  | restart o a =>
    exact (complete_orderly same (fun _ _ _ h => takeRestart_orderly h) fun _ _ h => takeRestart_orderly h).of_exec ran
  | comboWindowExpiry => exact (comboExpires_orderly same).of_exec ran
  | silenceTimerExpiry j => exact (silenceExpires_orderly same).of_exec ran
  | censusTimerExpiry => exact (censusDue_orderly same).of_exec ran
  | joiningTimerExpiry => exact (endJoining_orderly same).of_exec ran
  | modeTimerExpiry m => exact (modeExpires_orderly same).of_exec ran
  | graceTimerExpiry m => exact (graceExpires_orderly same).of_exec ran
  | hurryTickExpiry m => exact (hurryTicks_orderly same).of_exec ran
  | quietTimerExpiry => exact (quietExpires_orderly same).of_exec ran
  | offsetTimerExpiry => exact (offsetExpires_orderly same).of_exec ran
  | searchSlotExpiry => exact (slotExpires_orderly same).of_exec ran
  | pauseTimerExpiry => exact (pauseExpires_orderly same).of_exec ran
  | pulseStart => exact (startPulses_orderly same).of_exec ran
  | pulseEnd d n => exact (pulseEnds_orderly same).of_exec ran
  | maxHoldExpiry d => exact (maxHoldExpires_orderly same).of_exec ran
  | recycleTimerExpiry d => exact (recycleExpires_orderly same).of_exec ran
  | openDetected d => exact (openFound_orderly same).of_exec ran
  | shortDetected d => exact (shortFound_orderly same).of_exec ran
  | blinkClockTick => exact (blinkTick_orderly same).of_exec ran
  | modeRemaining3s m => exact (modeNearsEnd_orderly same).of_exec ran

/-- A step, with or without a command waiting, keeps the ceilings, the orders and the bounds. -/
theorem step_orderly (ran : step s = .next t) : Orderly s t := by
  unfold step idle at ran
  split at ran
  · exact ((Orderly.refl s).same (t := { s with pending := _ }) (by rfl)).trans (exec_orderly ran)
  · split at ran
    · exact exec_orderly ran
    · cases ran
      exact finish_orderly (passMs_orderly (.refl s))

/-- Settles O5: every step keeps the ceilings of both queues, by `step_orderly`. -/
theorem theQueuesStayWithin : Obligations.TheQueuesStayWithin :=
  ⟨fun _ _ within ran => (step_orderly ran).link within, fun _ _ within ran => (step_orderly ran).drivers within⟩

/-- Settles O7: every step keeps the orders and the bounds, by `step_orderly`. -/
theorem ordersAndBoundsAreKept : Obligations.OrdersAndBoundsAreKept :=
  ⟨fun _ _ ordered ran => (step_orderly ran).classes ordered,
    fun _ _ within ordered ran => (step_orderly ran).bands within ordered,
    fun _ _ within ran => (step_orderly ran).missing within, fun _ _ within ran => (step_orderly ran).counts within⟩

end Sys2Proof.Machine

end

