-- ==== Sys2Proof/Proofs/WireBytes.lean ====
section
/-! SUPPORT. Bits, bytes and payloads on the line, each read back (R60, R63, R64). -/

namespace Sys2Proof

/-! ## Bits -/

@[simp] theorem bitsOf_length (w n : Nat) : (bitsOf w n).length = w := by simp [bitsOf]

theorem bitsOf_succ (w n : Nat) : bitsOf (w + 1) n = n.testBit w :: bitsOf w n := by
  unfold bitsOf
  rw [List.range_succ_eq_map, List.map_cons, List.map_map]
  refine congrArg₂ _ rfl (List.map_congr_left fun i _ => ?_)
  rw [Function.comp_apply]
  congr 1
  omega

theorem natOf_concat (bits : List Bool) (b : Bool) : natOf (bits ++ [b]) = 2 * natOf bits + b.toNat := by
  simp [natOf]

theorem natOf_cons (b : Bool) (bits : List Bool) : natOf (b :: bits) = 2 ^ bits.length * b.toNat + natOf bits := by
  induction bits using List.reverseRecOn with
  | nil => simp [natOf]
  | append_singleton bits x ih =>
    rw [← List.cons_append, natOf_concat, natOf_concat, ih, List.length_append, List.length_singleton]
    ring

theorem natOf_lt (bits : List Bool) : natOf bits < 2 ^ bits.length := by
  induction bits with
  | nil => simp [natOf]
  | cons b bits ih =>
    rw [natOf_cons, List.length_cons, Nat.pow_succ]
    cases b <;> simp <;> omega

/-- A number's low bits spell what is left of it. -/
theorem natOf_bitsOf (w n : Nat) : natOf (bitsOf w n) = n % 2 ^ w := by
  induction w with
  | zero => simp [bitsOf, natOf, Nat.mod_one]
  | succ w ih =>
    rw [bitsOf_succ, natOf_cons, ih, bitsOf_length, Nat.mod_pow_succ, Nat.toNat_testBit, Nat.add_comm]

/-- Bits that spell the same number are the same bits. -/
theorem natOf_inj {x y : List Bool} (length : x.length = y.length) (h : natOf x = natOf y) : x = y := by
  induction x generalizing y with
  | nil => exact (List.length_eq_zero_iff.mp length.symm).symm
  | cons a x ih =>
    cases y with
    | nil => cases length
    | cons b y =>
      replace length : x.length = y.length := Nat.succ.inj length
      rw [natOf_cons, natOf_cons, length] at h
      have hx := natOf_lt x
      have hy := natOf_lt y
      rw [length] at hx
      have same : a = b := by
        cases a <;> cases b <;> simp at h ⊢ <;> omega
      subst same
      rw [ih length (Nat.add_left_cancel h)]

/-- The bits of a spelled number, the last bit lowest. -/
theorem testBit_natOf (bits : List Bool) (i : Nat) : (natOf bits).testBit i = bits.reverse.getD i false := by
  induction bits using List.reverseRecOn generalizing i with
  | nil => simp [natOf]
  | append_singleton bits b ih =>
    rw [natOf_concat, List.reverse_append, List.reverse_singleton, List.singleton_append]
    cases i with
    | zero => cases b <;> simp [Nat.testBit_zero, Nat.add_mod]
    | succ i =>
      rw [Nat.testBit_succ, List.getD_cons_succ, ← ih]
      congr 1
      cases b with
      | false => simp
      | true => simp; omega

/-- The bits of a byte made of eight, the last bit lowest. -/
theorem byteOf_getLsbD (b7 b6 b5 b4 b3 b2 b1 b0 : Bool) {i : Nat} (h : i < 8) :
    (byteOf b7 b6 b5 b4 b3 b2 b1 b0).getLsbD i = [b0, b1, b2, b3, b4, b5, b6, b7].getD i false := by
  have spelled : byteOf b7 b6 b5 b4 b3 b2 b1 b0 = BitVec.ofNat 8 (natOf [b7, b6, b5, b4, b3, b2, b1, b0]) := by
    unfold byteOf natOf
    congr 1
    simp only [List.foldl_cons, List.foldl_nil]
    ring
  rw [spelled, BitVec.getLsbD_ofNat, testBit_natOf]
  simp [h]

/-! ## Bytes -/

@[simp] theorem bytesBits_length (bytes : List Byte) : (bytesBits bytes).length = 8 * bytes.length := by
  induction bytes with
  | nil => rfl
  | cons b bytes ih =>
    rw [bytesBits, List.flatMap_cons, List.length_append, bitsOf_length, List.length_cons, Nat.mul_succ, Nat.add_comm, ← ih]
    rfl

/-- R60: bytes sent read back. -/
theorem bytesFrom_bytesBits (bytes : List Byte) (rest : List Bool) :
    bytesFrom bytes.length (bytesBits bytes ++ rest) = bytes := by
  induction bytes with
  | nil => rfl
  | cons b bytes ih =>
    have split : bytesBits (b :: bytes) ++ rest = bitsOf 8 b.toNat ++ (bytesBits bytes ++ rest) := by
      rw [bytesBits, List.flatMap_cons, List.append_assoc]
      rfl
    rw [List.length_cons, bytesFrom, split, List.take_left' (bitsOf_length 8 _), List.drop_left' (bitsOf_length 8 _), ih,
      natOf_bitsOf]
    rw [Nat.mod_eq_of_lt b.isLt, BitVec.ofNat_toNat, BitVec.setWidth_eq]

/-! ## Payloads (R64) -/

theorem numberFrom_fourBytes {n : Nat} (h : n < 4294967296) : numberFrom (fourBytes n) = n := by
  simp only [numberFrom, fourBytes, List.foldl_cons, List.foldl_nil, BitVec.toNat_ofNat]
  omega

theorem lowPlayer_of_mod {n : Nat} {p : Player} (h : n % 4 = p.val) : lowPlayer n = p := Fin.ext h

theorem countsFrom_countsByte (t : Tab 4 (Fin 4)) : countsFrom (countsByte t) = t := by
  refine Tab.ext_get fun i => Fin.ext ?_
  have h0 := (t.get 0).isLt
  have h1 := (t.get 1).isLt
  have h2 := (t.get 2).isLt
  have h3 := (t.get 3).isLt
  simp only [countsFrom, countsByte, Tab.get_ofFn, BitVec.toNat_ofNat]
  match i with
  | 0 | 1 | 2 | 3 => simp; omega

theorem modesByte_getLsbD (t : Tab 32 Bool) (k : Fin 4) {i : Nat} (h : i < 8) :
    (modesByte t k).getLsbD i = t.cells.getD (8 * k.val + i) false := by
  unfold modesByte
  rw [byteOf_getLsbD _ _ _ _ _ _ _ _ h]
  match i, h with
  | 0, _ | 1, _ | 2, _ | 3, _ | 4, _ | 5, _ | 6, _ | 7, _ => rfl

/-- Bit `m % 8` of byte `m / 8` of a mode bitmap. -/
theorem modesBytes_getLsbD (t : Tab 32 Bool) (m : ModeId) :
    ((modesBytes t).getD (m.val / 8) 0).getLsbD (m.val % 8) = t.get m := by
  have byte : (modesBytes t).getD (m.val / 8) 0 = modesByte t ⟨m.val / 8, by omega⟩ := by
    simp [modesBytes, List.getD_eq_getElem?_getD, show m.val / 8 < 4 by omega]
  rw [byte, modesByte_getLsbD t _ (Nat.mod_lt _ (by decide))]
  have place : 8 * (m.val / 8) + m.val % 8 = m.val := Nat.div_add_mod _ _
  dsimp only
  rw [place, List.getD_eq_getElem _ _ (by rw [t.size]; exact m.isLt)]
  rfl

theorem modesFrom_modesBytes (t : Tab 32 Bool) : modesFrom (modesBytes t) = t :=
  Tab.ext_get fun m => (Tab.get_ofFn _ m).trans (modesBytes_getLsbD t m)

end Sys2Proof

end

