-- ==== Sys2Proof/Proofs/BulletinCells.lean ====
section
/-! SUPPORT. The cells of a bulletin by their fields, and O12 (R60 to R64). -/

namespace Sys2Proof

/-! ## A payload reads back as its bulletin (R63, R64) -/

theorem readBulletin_lock (p : LockPayload) : readBulletin 0 2 p.bytes = some (.lock p) := by
  have event := p.event.isLt
  have pocket := p.pocket.isLt
  have byte : (BitVec.ofNat 8 (16 * p.event.toNat + p.pocket.val)).toNat = 16 * p.event.toNat + p.pocket.val := by
    rw [BitVec.toNat_ofNat]
    omega
  have eventBack : BitVec.ofNat 4 ((16 * p.event.toNat + p.pocket.val) / 16) = p.event :=
    BitVec.eq_of_toNat_eq (by rw [BitVec.toNat_ofNat]; omega)
  have pocketBack : lowPlayer (16 * p.event.toNat + p.pocket.val) = p.pocket := lowPlayer_of_mod (by omega)
  have read : readBulletin 0 2 p.bytes =
      let b := BitVec.ofNat 8 (16 * p.event.toNat + p.pocket.val)
      some (.lock { p with event := BitVec.ofNat 4 (b.toNat / 16), pocket := lowPlayer b.toNat }) := rfl
  rw [read]
  dsimp only
  rw [byte, eventBack, pocketBack]

/-- The flags and the player of an AWARD's first byte. -/
theorem awardByte_fields (x y z : Bool) (p : Player) :
    let b := BitVec.ofNat 8 (64 * x.toNat + 32 * y.toNat + 16 * z.toNat + p.val)
    b.getLsbD 6 = x ∧ b.getLsbD 5 = y ∧ b.getLsbD 4 = z ∧ lowPlayer b.toNat = p := by
  revert x y z p
  decide

theorem readBulletin_award (p : AwardPayload) : readBulletin 2 24 p.bytes = some (.award p) := by
  obtain ⟨coalesced, settled, combo, player⟩ := awardByte_fields p.coalesced p.settled p.combo p.player
  have amount : BitVec.ofNat 32 (numberFrom (fourBytes p.amount.toNat)) = p.amount := by
    rw [numberFrom_fourBytes p.amount.isLt, BitVec.ofNat_toNat, BitVec.setWidth_eq]
  have tally : BitVec.ofNat 32 (numberFrom (fourBytes p.tally.toNat)) = p.tally := by
    rw [numberFrom_fourBytes p.tally.isLt, BitVec.ofNat_toNat, BitVec.setWidth_eq]
  have read : readBulletin 2 24 p.bytes =
      let b := BitVec.ofNat 8 (64 * p.coalesced.toNat + 32 * p.settled.toNat + 16 * p.combo.toNat + p.player.val)
      some (.award { p with
        coalesced := b.getLsbD 6, settled := b.getLsbD 5, combo := b.getLsbD 4, player := lowPlayer b.toNat
        amount := BitVec.ofNat 32 (numberFrom (fourBytes p.amount.toNat))
        tally := BitVec.ofNat 32 (numberFrom (fourBytes p.tally.toNat)) }) := rfl
  rw [read]
  dsimp only
  rw [coalesced, settled, combo, player, amount, tally]

theorem readBulletin_census (p : CensusPayload) : readBulletin 3 32 p.bytes = some (.census p) := by
  have state := p.state.isLt
  have trough := p.trough.isLt
  have missing := p.missing.isLt
  have player := p.player.isLt
  have players := p.players.isLt
  have first : (BitVec.ofNat 8 (32 * p.state.toNat + 4 * p.trough.toNat + p.player.val)).toNat =
      32 * p.state.toNat + 4 * p.trough.toNat + p.player.val := by
    rw [BitVec.toNat_ofNat]
    omega
  have ninth : (BitVec.ofNat 8 (64 * p.players.val + 8 * p.missing.toNat)).toNat =
      64 * p.players.val + 8 * p.missing.toNat := by
    rw [BitVec.toNat_ofNat]
    omega
  have stateBack : BitVec.ofNat 3 ((32 * p.state.toNat + 4 * p.trough.toNat + p.player.val) / 32) = p.state :=
    BitVec.eq_of_toNat_eq (by rw [BitVec.toNat_ofNat]; omega)
  have troughBack : BitVec.ofNat 3 ((32 * p.state.toNat + 4 * p.trough.toNat + p.player.val) / 4) = p.trough :=
    BitVec.eq_of_toNat_eq (by rw [BitVec.toNat_ofNat]; omega)
  have missingBack : BitVec.ofNat 3 ((64 * p.players.val + 8 * p.missing.toNat) / 8) = p.missing :=
    BitVec.eq_of_toNat_eq (by rw [BitVec.toNat_ofNat]; omega)
  have playerBack : lowPlayer (32 * p.state.toNat + 4 * p.trough.toNat + p.player.val) = p.player :=
    lowPlayer_of_mod (by omega)
  have playersBack : lowPlayer ((64 * p.players.val + 8 * p.missing.toNat) / 64) = p.players :=
    lowPlayer_of_mod (by omega)
  have read : readBulletin 3 32 p.bytes =
      let first := BitVec.ofNat 8 (32 * p.state.toNat + 4 * p.trough.toNat + p.player.val)
      let ninth := BitVec.ofNat 8 (64 * p.players.val + 8 * p.missing.toNat)
      some (.census { p with
        state := BitVec.ofNat 3 (first.toNat / 32), trough := BitVec.ofNat 3 (first.toNat / 4)
        player := lowPlayer first.toNat, held := countsFrom (countsByte p.held)
        stuck := countsFrom (countsByte p.stuck), modes := modesFrom (modesBytes p.modes)
        players := lowPlayer (ninth.toNat / 64), missing := BitVec.ofNat 3 (ninth.toNat / 8) }) := rfl
  rw [read]
  dsimp only
  rw [first, ninth, stateBack, troughBack, missingBack, playerBack, playersBack, countsFrom_countsByte,
    countsFrom_countsByte, modesFrom_modesBytes]

/-- R63: a class, a kind code and the payload spell the bulletin back. -/
theorem readBulletin_payload {b : Bulletin} (h : b.payload.length ≤ 10) :
    readBulletin b.cls b.kindCode b.payload = some b := by
  cases b with
  | lock p => exact readBulletin_lock p
  | award p => exact readBulletin_award p
  | census p => exact readBulletin_census p
  | status item data => exact if_pos (Nat.le_of_succ_le_succ h)
  | _ => rfl

/-! ## The fields of the cells (R60) -/

variable (o : StationNo) (b : Bulletin)

theorem bulletinCells_eq : bulletinCells o b =
    bitsOf 2 b.cls ++ (bitsOf 6 b.kindCode ++ (bitsOf 4 o.val ++ (bitsOf 4 b.payload.length ++
      (bytesBits b.payload ++ bitsOf 16 (checkBits (bulletinBits o b)).toNat)))) := by
  unfold bulletinCells
  generalize checkBits (bulletinBits o b) = check
  simp only [bulletinBits, List.append_assoc]

theorem bulletinBits_length : (bulletinBits o b).length = 16 + 8 * b.payload.length := by
  simp [bulletinBits]
  omega

theorem bulletinCells_length : (bulletinCells o b).length = 32 + 8 * b.payload.length := by
  unfold bulletinCells
  rw [List.length_append, bulletinBits_length, bitsOf_length]
  omega

theorem take_class : (bulletinCells o b).take 2 = bitsOf 2 b.cls := by
  rw [bulletinCells_eq, List.take_left' (bitsOf_length _ _)]

theorem drop_class : (bulletinCells o b).drop 2 = bitsOf 6 b.kindCode ++ (bitsOf 4 o.val ++
    (bitsOf 4 b.payload.length ++ (bytesBits b.payload ++ bitsOf 16 (checkBits (bulletinBits o b)).toNat))) := by
  rw [bulletinCells_eq, List.drop_left' (bitsOf_length _ _)]

theorem take_kind : ((bulletinCells o b).drop 2).take 6 = bitsOf 6 b.kindCode := by
  rw [drop_class, List.take_left' (bitsOf_length _ _)]

theorem drop_kind : (bulletinCells o b).drop 8 = bitsOf 4 o.val ++
    (bitsOf 4 b.payload.length ++ (bytesBits b.payload ++ bitsOf 16 (checkBits (bulletinBits o b)).toNat)) := by
  rw [← List.drop_drop (i := 6) (j := 2), drop_class, List.drop_left' (bitsOf_length _ _)]

theorem take_origin : ((bulletinCells o b).drop 8).take 4 = bitsOf 4 o.val := by
  rw [drop_kind, List.take_left' (bitsOf_length _ _)]

theorem drop_origin : (bulletinCells o b).drop 12 =
    bitsOf 4 b.payload.length ++ (bytesBits b.payload ++ bitsOf 16 (checkBits (bulletinBits o b)).toNat) := by
  rw [← List.drop_drop (i := 4) (j := 8), drop_kind, List.drop_left' (bitsOf_length _ _)]

theorem take_length : ((bulletinCells o b).drop 12).take 4 = bitsOf 4 b.payload.length := by
  rw [drop_origin, List.take_left' (bitsOf_length _ _)]

theorem drop_length : (bulletinCells o b).drop 16 =
    bytesBits b.payload ++ bitsOf 16 (checkBits (bulletinBits o b)).toNat := by
  rw [← List.drop_drop (i := 4) (j := 12), drop_origin, List.drop_left' (bitsOf_length _ _)]

theorem drop_payload : (bulletinCells o b).drop (16 + 8 * b.payload.length) =
    bitsOf 16 (checkBits (bulletinBits o b)).toNat :=
  List.drop_left' (bulletinBits_length o b)

theorem lengthField_cells (h : b.payload.length ≤ 10) : lengthField (bulletinCells o b) = some b.payload.length := by
  unfold lengthField
  rw [take_length, natOf_bitsOf, bulletinCells_length, if_pos (by omega), Nat.mod_eq_of_lt (by omega)]

theorem cls_lt : b.cls < 2 ^ 2 := by
  unfold Bulletin.cls
  split <;> decide

theorem kindCode_lt : b.kindCode < 2 ^ 6 := by
  unfold Bulletin.kindCode
  split <;> decide

/-- R60 to R63: the cells spell the bulletin. -/
theorem spelled_cells (h : b.payload.length ≤ 10) :
    spelled (bulletinCells o b) (checkBits (bulletinBits o b)) = some (o, b) := by
  unfold spelled
  rw [lengthField_cells o b h]
  dsimp only
  have check : natOf ((bulletinCells o b).drop (16 + 8 * b.payload.length)) = (checkBits (bulletinBits o b)).toNat := by
    rw [drop_payload, natOf_bitsOf, Nat.mod_eq_of_lt (BitVec.isLt _)]
  have whole : ¬ (10 < b.payload.length ∨ (bulletinCells o b).length ≠ 32 + 8 * b.payload.length) := by
    rw [bulletinCells_length]
    omega
  rw [if_neg whole, if_neg (not_not.mpr check), take_class, take_kind, drop_length, bytesFrom_bytesBits, natOf_bitsOf,
    natOf_bitsOf, Nat.mod_eq_of_lt (cls_lt b), Nat.mod_eq_of_lt (kindCode_lt b), readBulletin_payload h, Option.map_some]
  have origin : natOf (((bulletinCells o b).drop 8).take 4) % 16 = o.val := by
    rw [take_origin, natOf_bitsOf]
    omega
  simp only [origin]

/-- Settles O12: every field reads back. -/
theorem bulletinCellsReadBack : Obligations.BulletinCellsReadBack :=
  fun o b h => ⟨bulletinCells_length o b, spelled_cells o b h⟩

end Sys2Proof

end

