-- ==== Sys2Proof/Proofs/CheckErrors.lean ====
section
/-! SUPPORT. One bit read wrong and the check (R61, R65): O14. -/

namespace Sys2Proof

/-! ## The check register (R61) -/

/-- R61: the lowest bit of the register tells whether the bit taken differed from the highest one. -/
theorem checkBit_lowest (r : BitVec 16) (b : Bool) : (checkBit r b).getLsbD 0 = (b != r.msb) := by
  unfold checkBit
  split
  · rename_i same
    simp [same]
  · rename_i differs
    simp [differs]

/-- R61: no two registers are alike once the same bit is taken. -/
theorem checkBit_inj {r s : BitVec 16} {b : Bool} (h : checkBit r b = checkBit s b) : r = s := by
  have top : r.msb = s.msb := by
    have lowest := congrArg (BitVec.getLsbD · 0) h
    rw [checkBit_lowest, checkBit_lowest] at lowest
    cases b <;> simpa using lowest
  have shifted : r <<< 1 = s <<< 1 := by
    unfold checkBit at h
    rw [top] at h
    split at h
    · exact h
    · exact (BitVec.xor_left_inj _).mp h
  refine BitVec.eq_of_getLsbD_eq fun i inside => ?_
  by_cases last : i = 15
  · subst last
    exact top
  · have moved := congrArg (BitVec.getLsbD · (i + 1)) shifted
    simpa [BitVec.getLsbD_eq_getElem inside, show i + 1 < 16 by omega] using moved

/-- R61: the two bits give different registers. -/
theorem checkBit_not (r : BitVec 16) (b : Bool) : checkBit r (!b) ≠ checkBit r b := fun h => by
  have lowest := congrArg (BitVec.getLsbD · 0) h
  rw [checkBit_lowest, checkBit_lowest] at lowest
  cases b <;> cases top : r.msb <;> simp [top] at lowest

/-- R61: registers that differ still do once more bits are taken. -/
theorem foldl_checkBit_inj {r s : BitVec 16} {bits : List Bool} (h : bits.foldl checkBit r = bits.foldl checkBit s) :
    r = s := by
  induction bits generalizing r s with
  | nil => exact h
  | cons b bits ih => exact checkBit_inj (ih h)

/-- R61: one bit read wrong changes the check. -/
theorem checkBits_modify {bits : List Bool} {i : Nat} (h : i < bits.length) :
    checkBits (bits.modify i not) ≠ checkBits bits := by
  have whole : bits = bits.take i ++ bits[i] :: bits.drop (i + 1) := by
    rw [List.cons_getElem_drop_succ, List.take_append_drop]
  intro same
  rw [List.modify_eq_take_cons_drop h] at same
  conv_rhs at same => rw [whole]
  unfold checkBits at same
  rw [List.foldl_append, List.foldl_append, List.foldl_cons, List.foldl_cons] at same
  exact checkBit_not _ _ (foldl_checkBit_inj same)

/-! ## Cells with one bit changed -/

theorem modify_not_ne {bits : List Bool} {i : Nat} (h : i < bits.length) : bits.modify i not ≠ bits := fun same => by
  have bit := congrArg (·[i]?) same
  simp [h] at bit

theorem getElem?_modify_not (bits : List Bool) (i k : Nat) :
    (bits.modify i not)[k]? = if i = k then bits[k]?.map not else bits[k]? := by
  rw [List.getElem?_modify]
  split
  · rfl
  · exact Option.map_id'

theorem take_modify_of_le {bits : List Bool} {i n : Nat} (h : n ≤ i) : (bits.modify i not).take n = bits.take n := by
  refine List.ext_getElem? fun k => ?_
  rw [List.getElem?_take, List.getElem?_take, getElem?_modify_not]
  split
  · rw [if_neg (by omega)]
  · rfl

theorem take_modify_of_lt {bits : List Bool} {i n : Nat} (h : i < n) :
    (bits.modify i not).take n = (bits.take n).modify i not := by
  refine List.ext_getElem? fun k => ?_
  rw [List.getElem?_take, getElem?_modify_not, getElem?_modify_not, List.getElem?_take]
  split
  · rfl
  · rw [if_neg (by omega)]

theorem drop_modify_of_lt {bits : List Bool} {i n : Nat} (h : i < n) : (bits.modify i not).drop n = bits.drop n := by
  refine List.ext_getElem? fun k => ?_
  rw [List.getElem?_drop, List.getElem?_drop, getElem?_modify_not, if_neg (by omega)]

theorem drop_modify_of_le {bits : List Bool} {i n : Nat} (h : n ≤ i) :
    (bits.modify i not).drop n = (bits.drop n).modify (i - n) not := by
  refine List.ext_getElem? fun k => ?_
  rw [List.getElem?_drop, getElem?_modify_not, getElem?_modify_not, List.getElem?_drop]
  exact if_congr (by omega) rfl rfl

/-- R60: a bit changed outside it leaves the length field. -/
theorem lengthField_modify {bits : List Bool} {i : Nat} (outside : ¬ (12 ≤ i ∧ i < 16)) :
    lengthField (bits.modify i not) = lengthField bits := by
  have field : ((bits.modify i not).drop 12).take 4 = (bits.drop 12).take 4 := by
    by_cases before : i < 12
    · rw [drop_modify_of_lt before]
    · rw [drop_modify_of_le (by omega), take_modify_of_le (by omega)]
  unfold lengthField
  rw [field, List.length_modify]

/-- Settles O14: the wrong bit changes the check formed, or the check read. -/
theorem oneWrongBitSpellsNothing : Obligations.OneWrongBitSpellsNothing := by
  intro o b i short inside outside cells
  have length : (bulletinBits o b).length = 16 + 8 * b.payload.length := bulletinBits_length o b
  have whole : (bulletinCells o b).take (16 + 8 * b.payload.length) = bulletinBits o b := List.take_left' length
  have wrong : natOf (cells.drop (16 + 8 * b.payload.length)) ≠
      (checkBits (cells.take (16 + 8 * b.payload.length))).toNat := by
    have right : natOf ((bulletinCells o b).drop (16 + 8 * b.payload.length)) = (checkBits (bulletinBits o b)).toNat := by
      rw [drop_payload, natOf_bitsOf, Nat.mod_eq_of_lt (BitVec.isLt _)]
    by_cases checked : i < 16 + 8 * b.payload.length
    · rw [drop_modify_of_lt checked, take_modify_of_lt checked, whole, right]
      exact fun same => checkBits_modify (length ▸ checked) (BitVec.eq_of_toNat_eq same.symm)
    · rw [drop_modify_of_le (by omega), take_modify_of_le (by omega), whole, ← right]
      refine fun same => modify_not_ne ?_ (natOf_inj (List.length_modify _ _ _) same)
      rw [List.length_drop, bulletinCells_length]
      omega
  unfold spelled
  rw [lengthField_modify outside, lengthField_cells o b short]
  dsimp only
  rw [if_pos wrong, ite_self]

end Sys2Proof

end

