-- ==== Sys2Proof/Proofs/SampledCells.lean ====
section
/-! SUPPORT. A receiver that samples a bulletin cell by cell, and O13 (R58, R60, R61, R65, R84). -/

namespace Sys2Proof

/-! ## Cells read so far (R60) -/

section
variable (o : StationNo) {b : Bulletin} {k : Nat}

/-- R60: the length is in once sixteen cells are read. -/
theorem lengthField_take (short : b.payload.length ≤ 10) (inside : k ≤ 32 + 8 * b.payload.length) :
    lengthField ((bulletinCells o b).take k) = if 16 ≤ k then some b.payload.length else none := by
  have length : ((bulletinCells o b).take k).length = k := by
    rw [List.length_take, bulletinCells_length, Nat.min_eq_left inside]
  unfold lengthField
  rw [length]
  split
  · rw [List.drop_take, List.take_take, Nat.min_eq_left (by omega), take_length, natOf_bitsOf,
      Nat.mod_eq_of_lt (by omega)]
  · rfl

/-- R60: the last check cell is in once all are read. -/
theorem cellsComplete_take (short : b.payload.length ≤ 10) (inside : k ≤ 32 + 8 * b.payload.length) :
    cellsComplete ((bulletinCells o b).take k) = decide (k = 32 + 8 * b.payload.length) := by
  have length : ((bulletinCells o b).take k).length = k := by
    rw [List.length_take, bulletinCells_length, Nat.min_eq_left inside]
  unfold cellsComplete cellsDue
  rw [lengthField_take o short inside, length]
  split
  · rename_i none
    split at none
    · cases none
    · exact (decide_eq_false (by omega)).symm
  · rename_i n some
    split at some
    · cases some
      exact decide_eq_decide.mpr (show 32 + 8 * b.payload.length ≤ k ↔ _ by omega)
    · cases some

/-- R61: the next cell goes into the check up to the end of the payload. -/
theorem checked_take (short : b.payload.length ≤ 10) (inside : k ≤ 32 + 8 * b.payload.length) :
    checked ((bulletinCells o b).take k) = decide (k < 16 + 8 * b.payload.length) := by
  have length : ((bulletinCells o b).take k).length = k := by
    rw [List.length_take, bulletinCells_length, Nat.min_eq_left inside]
  unfold checked
  rw [lengthField_take o short inside, length]
  split
  · rename_i none
    split at none
    · cases none
    · exact (decide_eq_true (by omega)).symm
  · rename_i n some
    split at some
    · cases some
      rfl
    · cases some

/-- R60, R65: cells that are not all read spell nothing. -/
theorem spelled_of_incomplete {bits : List Bool} {check : BitVec 16} (h : cellsComplete bits = false) :
    spelled bits check = none := by
  unfold spelled
  unfold cellsComplete cellsDue at h
  split
  · rfl
  · rename_i n field
    rw [field] at h
    have less : ¬ 32 + 8 * n ≤ bits.length := of_decide_eq_false h
    exact if_pos (.inr (by omega))

end

end Sys2Proof

namespace Sys2Proof.Machine

/-! ## The state without its outputs -/

/-- The state without the fault line and the lamps' patterns and levels, which every step shows anew. -/
def State.unshown (s : State) : State :=
  { s with
    control := { s.control with faultLine := false }
    lamps := { s.lamps with patterns := .fill 16 .off, outputs := .fill 16 false } }

/-- What settles at a state settles at each that differs from it in its outputs alone. -/
theorem settles_of_unshown {u v t : State} (same : v.unshown = u.unshown) (h : settles v t) : settles u t := by
  obtain ⟨pending, control, scanner, analog, rules, modes, pockets, balls, trough, peers, drivers, blink, link⟩ := h
  simp only [State.unshown, State.mk.injEq] at same
  obtain ⟨pending', control', scanner', analog', rules', modes', pockets', balls', trough', link', peers', drivers',
    lamps'⟩ := same
  have setup : { v.control with faultLine := faultLineLevel t } = { u.control with faultLine := faultLineLevel t } :=
    congrArg (fun c : Control => { c with faultLine := faultLineLevel t }) control'
  refine ⟨pending.trans pending', control.trans setup, scanner.trans scanner', analog.trans analog',
    rules.trans rules', modes.trans modes', pockets.trans pockets', balls.trans balls', trough.trans trough',
    peers.trans peers', drivers.trans drivers', blink.trans (Lamps.mk.inj lamps').2.2, ?_⟩
  rw [← link', ← offer_link_congr _ link']
  exact link

section
variable {u v : State} (h : v.unshown = u.unshown)
include h

theorem link_of_unshown : v.link = u.link :=
  have same := congrArg State.link h
  same

theorem onLink_of_unshown : onLink v = onLink u :=
  have same := congrArg onLink h
  same

/-- R83: no field of a CENSUS reads the outputs. -/
theorem censusNow_of_unshown : censusNow v = censusNow u :=
  have same := congrArg censusNow h
  same

end

/-- R84: a step whose queued CENSUS is current changes the outputs alone. -/
theorem finish_unshown {v : State} (current : ∀ x, lastCensus v.link = some x → x = censusNow v) :
    (finish v).unshown = v.unshown := by
  have stays : refreshCensus v = v := by
    unfold refreshCensus
    split
    · rename_i queued
      exact if_pos (current _ queued)
    · rfl
  unfold finish
  rw [stays]
  rfl

theorem sample_unshown (dominant : Bool) (s : State) : (sample dominant s).unshown = sample dominant s.unshown := by
  unfold sample
  rw [apply_ite State.unshown]
  refine if_congr Iff.rfl ?_ rfl
  dsimp only [State.unshown]
  cases s.link.receive with
  | waiting => rfl
  | atRest => rfl
  | receiving bits check => exact apply_ite State.unshown _ _ _

/-! ## Cells sampled one after another -/

theorem samples_concat (cells : List Bool) (bit : Bool) {s t v : State} (h : samples cells s = some t)
    (ran : exec (.samplingPoint (!bit)) t = .next v) : samples (cells ++ [bit]) s = some v := by
  induction cells generalizing s with
  | nil =>
    cases h
    rw [List.nil_append, samples, ran]
    rfl
  | cons c cells ih =>
    rw [List.cons_append, samples]
    rw [samples] at h
    cases first : exec (.samplingPoint (!c)) s with
    | next u =>
      rw [first] at h
      exact ih h
    | fault r => cases r
    | refused r =>
      rw [first] at h
      cases h

/-- The receiver of `s` once it has read `k` cells of the bulletin, the check formed over those of them that it runs
over. -/
def reading (o : StationNo) (b : Bulletin) (k : Nat) (s : State) : State :=
  let check := checkBits ((bulletinCells o b).take (min k (16 + 8 * b.payload.length)))
  { s with link := { s.link with receive := .receiving ((bulletinCells o b).take k) check } }

section
variable {o : StationNo} {b : Bulletin} {k : Nat} {s : State} (short : b.payload.length ≤ 10)
  (works : onLink s = true) (receives : s.link.sender = false)
include short works receives

/-- R58, R61: the next cell joins those read. -/
theorem sample_reading (inside : k < (bulletinCells o b).length) :
    sample (!(bulletinCells o b)[k]) (reading o b k s) = reading o b (k + 1) s := by
  have whole := bulletinCells_length o b
  have within : k ≤ 32 + 8 * b.payload.length := by omega
  have incomplete : cellsComplete ((bulletinCells o b).take k) = false := by
    rw [cellsComplete_take o short within]
    exact decide_eq_false (by omega)
  have joined : takeBit ((bulletinCells o b).take k)
      (checkBits ((bulletinCells o b).take (min k (16 + 8 * b.payload.length)))) (bulletinCells o b)[k] =
      .receiving ((bulletinCells o b).take (k + 1))
        (checkBits ((bulletinCells o b).take (min (k + 1) (16 + 8 * b.payload.length)))) := by
    unfold takeBit
    rw [incomplete, checked_take o short within, List.take_concat_get' _ _ inside]
    by_cases payload : k < 16 + 8 * b.payload.length
    · have formed : checkBit (checkBits ((bulletinCells o b).take k)) (bulletinCells o b)[k] =
          checkBits ((bulletinCells o b).take (k + 1)) := by
        rw [← List.take_concat_get' _ _ inside, checkBits, checkBits, List.foldl_append]
        rfl
      rw [Nat.min_eq_left (by omega), Nat.min_eq_left (by omega), ← formed]
      simp [payload]
    · rw [Nat.min_eq_right (by omega), Nat.min_eq_right (by omega)]
      simp [payload]
  have working : onLink (reading o b k s) = true := works
  unfold sample
  rw [if_pos working]
  dsimp only [reading]
  rw [incomplete, Bool.not_not, if_neg Bool.false_ne_true, joined]
  simp [State.mapLink, readBack, receives]

omit short in
/-- R58: a dominant cell at rest is the start cell. -/
theorem sample_start (rest : s.link.receive = .atRest) : sample true s = reading o b 0 s := by
  unfold sample reading
  rw [if_pos works, rest]
  simp [State.mapLink, readBack, receives, checkBits]

end

section
variable {o : StationNo} {b : Bulletin} {k : Nat} {s : State} (short : b.payload.length ≤ 10)
  (works : onLink s = true) (rest : s.link.receive = .atRest) (receives : s.link.sender = false)
  (current : ∀ x, lastCensus s.link = some x → x = censusNow s)
include short works rest receives current

omit short works rest receives in
/-- R84: the CENSUS of a receiver is current throughout. -/
theorem finish_reading {v : State} (same : v.unshown = (reading o b k s).unshown) :
    (finish v).unshown = (reading o b k s).unshown := by
  refine (finish_unshown fun x queued => ?_).trans same
  have link : v.link = (reading o b k s).link := link_of_unshown same
  have now : censusNow v = censusNow s := (censusNow_of_unshown same).trans (by rfl)
  rw [now]
  refine current x (Eq.trans ?_ queued)
  rw [link, lastCensus_eq, lastCensus_eq]
  rfl

/-- R58, R61: the start cell and the first `k` cells, while they spell nothing that completes by itself. -/
theorem samples_reading (inside : k ≤ (bulletinCells o b).length)
    (row : k = (bulletinCells o b).length → hasRow b = true) :
    ∃ v, samples (false :: (bulletinCells o b).take k) s = some (finish v) ∧ v.unshown = (reading o b k s).unshown := by
  have whole := bulletinCells_length o b
  have rowless {v : State} {n : Nat} (within : n ≤ (bulletinCells o b).length)
      (row : n = (bulletinCells o b).length → hasRow b = true) (link : v.link = (reading o b n s).link) :
      completeRowless v = v := by
    refine completeRowless_none fun bits check o' b' receive spells => ?_
    rw [link] at receive
    cases receive
    by_cases last : n = (bulletinCells o b).length
    · rw [last, List.take_length, whole, Nat.min_eq_right (by omega)] at spells
      have right : (bulletinCells o b).take (16 + 8 * b.payload.length) = bulletinBits o b :=
        List.take_left' (bulletinBits_length o b)
      rw [right, spelled_cells o b short] at spells
      cases spells
      exact row last
    · have incomplete : cellsComplete ((bulletinCells o b).take n) = false := by
        rw [cellsComplete_take o short (by omega)]
        exact decide_eq_false (by omega)
      rw [spelled_of_incomplete incomplete] at spells
      cases spells
  induction k with
  | zero =>
    refine ⟨sample true s, ?_, congrArg State.unshown (sample_start works receives rest)⟩
    have ran : exec (.samplingPoint (!false)) s = .next (finish (sample true s)) :=
      congrArg (fun v => Host.Outcome.next (finish v))
        (rowless inside row (congrArg State.link (sample_start works receives rest)))
    exact samples_concat [] false rfl ran
  | succ k ih =>
    obtain ⟨v, sampled, same⟩ := ih (Nat.le_of_succ_le inside) fun e => by omega
    have shown := finish_reading current same
    have next : (sample (!(bulletinCells o b)[k]) (finish v)).unshown = (reading o b (k + 1) s).unshown := by
      rw [sample_unshown, shown, ← sample_unshown, sample_reading short works receives]
    have ran : exec (.samplingPoint (!(bulletinCells o b)[k])) (finish v) =
        .next (finish (sample (!(bulletinCells o b)[k]) (finish v))) :=
      congrArg (fun v => Host.Outcome.next (finish v)) (rowless inside row (link_of_unshown next))
    refine ⟨_, ?_, next⟩
    rw [← List.take_concat_get' _ _ inside, ← List.cons_append]
    exact samples_concat _ _ sampled ran

end

/-- R69, R71, R81: what a station that is not sending makes of a completion. -/
theorem received_of_receiver {o : StationNo} {b : Bulletin} {s : State} (receives : s.link.sender = false) :
    received o b s = noteOrigin o false { s with link := { s.link with receive := .waiting } } := by
  have foreign : isOwn o b s = false := by
    unfold isOwn
    rw [receives]
    rfl
  unfold received endOnLine
  rw [foreign]
  simp only [Bool.false_eq_true, if_false]
  rw [if_neg (by simp [receives])]
  rfl

theorem noteOrigin_unshown (o : StationNo) (s : State) :
    (noteOrigin o false s).unshown = (noteOrigin o false s.unshown).unshown := by
  unfold noteOrigin
  simp only [Bool.false_eq_true, if_false]
  rw [apply_ite State.unshown, apply_ite State.unshown]
  exact if_congr Iff.rfl rfl rfl

/-- Settles O13: the cells are read one by one (`samples_reading`); the last of a CLEAR without a row completes it. -/
theorem sampledCellsAreTheBulletin : Obligations.SampledCellsAreTheBulletin := by
  intro o b s short works rest receives current
  have whole := bulletinCells_length o b
  have right : (bulletinCells o b).take (16 + 8 * b.payload.length) = bulletinBits o b :=
    List.take_left' (bulletinBits_length o b)
  have all : reading o b (bulletinCells o b).length s = { s with link := { s.link with
      receive := .receiving (bulletinCells o b) (checkBits (bulletinBits o b)) } } := by
    unfold reading
    rw [List.take_length, whole, Nat.min_eq_right (by omega), right]
  have spells := spelled_cells o b short
  refine ⟨fun row => ?_, fun rowless => ?_⟩
  · obtain ⟨v, sampled, same⟩ := samples_reading short works rest receives current (o := o) (Nat.le_refl _) fun _ => row
    rw [List.take_length] at sampled
    have shown := finish_reading current same
    rw [all] at same shown
    have link : (finish v).link = { s.link with
        receive := .receiving (bulletinCells o b) (checkBits (bulletinBits o b)) } := link_of_unshown shown
    refine ⟨finish v, sampled, link, fun o' b' => ?_, ?_⟩
    · unfold cellsAgree
      rw [link]
      have some : (bulletinCells o b == []) = false := beq_false_of_ne fun empty => by
        rw [empty, List.length_nil] at whole
        omega
      dsimp only
      rw [some, Bool.false_or, beq_iff_eq, spells, Option.some.injEq, Prod.mk.injEq]
      exact and_congr eq_comm eq_comm
    · rw [link]
      exact settles_of_unshown same (settles_finish v)
  · have last : (bulletinCells o b).length - 1 < (bulletinCells o b).length := by omega
    obtain ⟨v, sampled, same⟩ := samples_reading short works rest receives current (o := o) (Nat.le_of_lt last)
      fun e => absurd e (Nat.ne_of_lt last)
    have shown := finish_reading current same
    have next : (sample (!(bulletinCells o b)[(bulletinCells o b).length - 1]) (finish v)).unshown =
        (reading o b (bulletinCells o b).length s).unshown := by
      rw [sample_unshown, shown, ← sample_unshown, sample_reading short works receives last,
        Nat.sub_add_cancel (by omega)]
    rw [all] at next
    generalize hw : sample (!(bulletinCells o b)[(bulletinCells o b).length - 1]) (finish v) = w at next
    have link : w.link = { s.link with
        receive := .receiving (bulletinCells o b) (checkBits (bulletinBits o b)) } := link_of_unshown next
    have station : onLink w = true := (onLink_of_unshown next).trans works
    have completed : completeRowless w = received o b w :=
      completeRowless_some station (by rw [link]) spells rowless
    have ran : exec (.samplingPoint (!(bulletinCells o b)[(bulletinCells o b).length - 1])) (finish v) =
        .next (finish (received o b w)) := by
      rw [← completed, ← hw]
      rfl
    refine ⟨finish (received o b w), ?_, ?_⟩
    · have cells := samples_concat _ _ sampled ran
      rwa [List.cons_append, List.take_concat_get' _ _ last, Nat.sub_add_cancel (by omega), List.take_length] at cells
    · refine settles_of_unshown ?_ (settles_finish (received o b w))
      rw [received_of_receiver receives, received_of_receiver (by rw [link]; exact receives), noteOrigin_unshown,
        noteOrigin_unshown o { s with link := _ }]
      have before : State.unshown { w with link := { w.link with receive := .waiting } } =
          State.unshown { s with link := { s.link with receive := .waiting } } :=
        congrArg (fun u : State => { u with link := { u.link with receive := .waiting } }) next
      rw [before]

end Sys2Proof.Machine

end

