-- ==== Sys2Proof/Proofs/LineEvents.lean ====
section
/-! SUPPORT. Rest gaps, samples, the end of a hold and receive errors, and O17 (R58, R59, R65, R70, R71). -/

namespace Sys2Proof.Machine

variable {s : State}

/-! ## The rest gap (R59) -/

/-- R59: the rest that a station sees which neither receives, sends nor holds the line. -/
theorem restGapSeen_rests (idle : ∀ bits check, s.link.receive ≠ .receiving bits check) (works : onLink s = true)
    (receives : s.link.sender = false) (released : s.link.hold = false) :
    restGapSeen s = { s with link := beginHead { s.link with receive := .atRest } } := by
  have seen : onLink s = true ∧ s.link.sender = false ∧ s.link.hold = false := ⟨works, receives, released⟩
  unfold restGapSeen
  split
  · rename_i bits check receiving
    exact absurd receiving (idle bits check)
  · exact if_pos seen
  · exact if_pos seen

/-- Log entry 7: any other station sees none. -/
theorem restGapSeen_stays (busy : onLink s = false ∨ s.link.sender = true ∨ s.link.hold = true ∨
    ∃ bits check, s.link.receive = .receiving bits check) : restGapSeen s = s := by
  have unseen (waits : ∀ bits check, s.link.receive ≠ .receiving bits check) :
      ¬ (onLink s = true ∧ s.link.sender = false ∧ s.link.hold = false) := by
    rintro ⟨works, receives, released⟩
    rcases busy with off | sends | holds | ⟨bits, check, receiving⟩
    · exact Bool.noConfusion (off.symm.trans works)
    · exact Bool.noConfusion (receives.symm.trans sends)
    · exact Bool.noConfusion (released.symm.trans holds)
    · exact waits bits check receiving
  unfold restGapSeen
  split
  · rfl
  · rename_i waiting
    exact if_neg (unseen (by simp [waiting]))
  · rename_i rest
    exact if_neg (unseen (by simp [rest]))

/-! ## A sample (R58, R65) -/

/-- R78: a station whose link is idle takes no cell and completes no bulletin. -/
theorem completeRowless_off (off : onLink s = false) : completeRowless s = s := by
  have deaf (o : StationNo) (b : Bulletin) : ¬ hears o b s := fun h => Bool.noConfusion (off.symm.trans h.1)
  unfold completeRowless
  split
  · split
    · split
      · rfl
      · exact complete_unheard _ _ (deaf _ _)
    · rfl
  · rfl
  · rfl

theorem sample_off (dominant : Bool) (off : onLink s = false) : sample dominant s = s := if_neg (by simp [off])

/-- R59: while waiting for rest no cell is taken. -/
theorem sample_waiting (dominant : Bool) (waits : s.link.receive = .waiting) : sample dominant s = s := by
  unfold sample
  rw [waits]
  exact ite_self s

theorem spelled_nil (check : BitVec 16) : spelled [] check = none := rfl

/-- R58, R71: a sample at rest, the read-back of a sender kept. -/
theorem sample_atRest (dominant : Bool) (works : onLink s = true) (rest : s.link.receive = .atRest) :
    sample dominant s = { s with link := { s.link with
      agreed := s.link.agreed && (!s.link.sender || sentBit s 0 == !dominant)
      receive := if dominant then .receiving [] 0xFFFF#16 else .atRest } } := by
  unfold sample
  rw [if_pos works, rest]
  rfl

/-- R58, R61, R65, R71: a sample in a bulletin; one past its last check cell joins nothing. -/
theorem sample_receiving (dominant : Bool) {bits : List Bool} {check : BitVec 16} (works : onLink s = true)
    (receives : s.link.receive = .receiving bits check) :
    sample dominant s = { s with link := { s.link with
      agreed := s.link.agreed && (cellsComplete bits || !s.link.sender || sentBit s (bits.length + 1) == !dominant)
      receive := .receiving (if cellsComplete bits then bits else bits ++ [!dominant])
        (if cellsComplete bits = false ∧ checked bits = true then checkBit check (!dominant) else check) } } := by
  unfold sample
  rw [if_pos works]
  dsimp only
  rw [receives]
  dsimp only
  cases whole : cellsComplete bits with
  | true => simp [← receives]
  | false => simp [State.mapLink, readBack, takeBit, whole]

/-- Log entry 23: what the cells complete by themselves. -/
theorem completeRowless_row {bits : List Bool} {check : BitVec 16} (receives : s.link.receive = .receiving bits check)
    (row : ∀ o b, spelled bits check = some (o, b) → hasRow b = true) : completeRowless s = s :=
  completeRowless_none fun bits' check' o b same spells => by
    cases same.symm.trans receives
    exact row o b spells

/-! ## Receive errors (R65) -/

/-- R65: an error that a receiver judges. -/
theorem takeError_judged (works : onLink s = true) (receives : s.link.sender = false)
    (begun : s.link.receive ≠ .waiting)
    (bad : ∀ bits check, s.link.receive = .receiving bits check → spelled bits check = none) :
    takeError s = { s with
      control := { s.control with
        flags := { s.control.flags with link := true }
        counters := s.control.counters.set 0 (min 255 (s.control.counters.get 0 + 1)) }
      link := { s.link with receive := .waiting } } := by
  have unread : readWhole s = false := by
    unfold readWhole
    split
    · rename_i bits check receiving
      rw [bad bits check receiving]
      rfl
    · rfl
    · rfl
  exact if_pos ⟨works, receives, begun, unread⟩

/-- Log entry 12: where none is judged. -/
theorem takeError_stays (none : onLink s = false ∨ s.link.sender = true ∨ s.link.receive = .waiting ∨
    ∃ bits check x, s.link.receive = .receiving bits check ∧ spelled bits check = some x) : takeError s = s := by
  refine if_neg ?_
  rintro ⟨works, receives, begun, unread⟩
  rcases none with off | sends | waits | ⟨bits, check, x, receiving, whole⟩
  · exact Bool.noConfusion (off.symm.trans works)
  · exact Bool.noConfusion (receives.symm.trans sends)
  · exact begun waits
  · unfold readWhole at unread
    rw [receiving] at unread
    dsimp only at unread
    rw [whole] at unread
    cases unread

/-- Settles O17: each command by what the receive state makes of it. -/
theorem restSamplesHoldsAndErrors : Obligations.RestSamplesHoldsAndErrors := by
  refine ⟨fun s => ⟨fun idle works receives released => ⟨fun empty => ?empty, fun e rest queue => ?head⟩,
      fun busy => settles_exec rfl (restGapSeen_stays busy)⟩,
    fun dominant s => ⟨fun deaf => ?deaf, fun works rest => ?atRest, fun bits check works receives => ?receiving⟩,
    fun s => ⟨settles_exec rfl rfl, fun works receives begun bad => settles_exec rfl
      (takeError_judged works receives begun bad), fun none => settles_exec rfl (takeError_stays none)⟩⟩
  case empty =>
    refine settles_exec rfl ((restGapSeen_rests idle works receives released).trans ?_)
    simp [beginHead, empty]
  case head =>
    refine settles_exec rfl ((restGapSeen_rests idle works receives released).trans ?_)
    simp [beginHead, queue]
  case deaf =>
    have none : completeRowless (sample dominant s) = s := by
      rcases deaf with off | waits
      · rw [sample_off dominant off, completeRowless_off off]
      · rw [sample_waiting dominant waits]
        exact completeRowless_none fun bits check o b receiving => by rw [waits] at receiving; cases receiving
    exact settles_exec rfl none
  case atRest =>
    refine settles_exec rfl (v := completeRowless (sample dominant s)) ?_
    rw [sample_atRest dominant works rest]
    refine completeRowless_none fun bits check o b receiving spells => ?_
    dsimp only at receiving
    split at receiving <;> cases receiving
    cases (spelled_nil _).symm.trans spells
  case receiving =>
    intro read formed u
    have taken : sample dominant s = u := sample_receiving dominant works receives
    refine ⟨fun row => settles_exec rfl (v := completeRowless (sample dominant s)) ?_, fun o b spells none =>
      settles_exec rfl (v := completeRowless (sample dominant s)) ?_⟩
    · rw [taken]
      exact completeRowless_row rfl row
    · rw [taken]
      exact completeRowless_some works rfl spells none

end Sys2Proof.Machine

end

