-- ==== Sys2Proof/Proofs/Completions.lean ====
section
/-! SUPPORT. What the link and the peer table make of a completion, and O18 (R66, R69, R71, R73, R81). -/

namespace Sys2Proof.Machine

/-! ## This station's own bulletin (R69, R73) -/

section
variable {o : StationNo} {b : Bulletin} {s : State}

/-- R71: this station's own bulletin is the one on the line. -/
theorem onLineBulletin_of_isOwn (own : isOwn o b s = true) : onLineBulletin s.link = some b := by
  unfold isOwn at own
  simp only [Bool.and_eq_true, beq_iff_eq] at own
  exact own.2

/-- The link once a bulletin of this station has left the queue. -/
def leftQueue (l : LinkCtl) : LinkCtl :=
  { l with queue := l.queue.filter fun e => !e.onLine, receive := .waiting, sender := false, agreed := false }

/-- R69, R71: an own bulletin leaves the queue; a CENSUS held aside for an own CENSUS is offered. -/
theorem received_own (own : isOwn o b s = true) : received o b s =
    match b with
    | .census _ => offerAside { s with link := leftQueue s.link }
    | _ => { s with link := leftQueue s.link } := by
  have line : onLineBulletin (s.mapLink fun l => { l with receive := .waiting }).link = some b :=
    onLineBulletin_of_isOwn own
  unfold received endOnLine noteOrigin
  rw [own]
  simp only [if_true]
  rw [line]
  cases b <;> rfl

/-- R73: an own bulletin with nothing held aside for it. -/
theorem received_own_left (own : isOwn o b s = true) (none : (∀ c, b ≠ .census c) ∨ s.link.aside = none) :
    received o b s = { s with link := leftQueue s.link } := by
  rw [received_own own]
  cases b with
  | census c =>
    have empty : s.link.aside = Option.none := none.resolve_left fun other => other c rfl
    change (match s.link.aside with
      | some k => offer (.census k) { s with link := { leftQueue s.link with aside := Option.none } }
      | Option.none => { s with link := leftQueue s.link }) = _
    rw [empty]
  | _ => rfl

/-- R73: an own CENSUS with another held aside. -/
theorem received_own_aside {c k : CensusPayload} (own : isOwn o (.census c) s = true) (held : s.link.aside = some k) :
    received o (.census c) s = offer (.census k) { s with link := { leftQueue s.link with aside := none } } := by
  rw [received_own own]
  change (match s.link.aside with
    | some k => offer (.census k) { s with link := { leftQueue s.link with aside := none } }
    | none => { s with link := leftQueue s.link }) = _
  rw [held]

/-- R59: away from rest an offer begins nothing. -/
theorem offer_link_waiting (x : Bulletin) {s : State} (waits : s.link.receive = .waiting) :
    (offer x s).link = { s.link with queue := (offerTo x s.link).queue, aside := (offerTo x s.link).aside } := by
  rw [offer_link]
  exact if_neg fun rest => by
    rw [waits] at rest
    cases rest.1

theorem received_own_link (own : isOwn o b s = true) :
    (received o b s).link.receive = .waiting ∧ (received o b s).link.sender = false ∧
      (received o b s).peers = s.peers := by
  by_cases none : (∀ c, b ≠ .census c) ∨ s.link.aside = none
  · rw [received_own_left own none]
    exact ⟨rfl, rfl, rfl⟩
  · obtain ⟨census, held⟩ := not_or.mp none
    obtain ⟨c, rfl⟩ := not_forall_not.mp census
    obtain ⟨k, held⟩ := Option.ne_none_iff_exists'.mp held
    rw [received_own_aside own held, offer_link_waiting _ rfl]
    exact ⟨rfl, rfl, (offer_frame _ _).2.2.2.2.2.2.2.2.1⟩

/-! ## Another bulletin (R69, R71, R81) -/

/-- The link once another bulletin has completed: a sender here has lost arbitration. -/
def heardAnother (l : LinkCtl) : LinkCtl :=
  if l.sender then yieldLine { l with receive := .waiting } else { l with receive := .waiting }

theorem heardAnother_eq (l : LinkCtl) : (heardAnother l).receive = .waiting ∧ (heardAnother l).sender = false := by
  unfold heardAnother yieldLine asideInPlace
  cases sender : l.sender <;> cases l.aside <;> simp

theorem received_foreign (foreign : isOwn o b s = false) :
    received o b s = noteOrigin o false { s with link := heardAnother s.link } := by
  have ended : endOnLine false s = { s with link := heardAnother s.link } := by
    unfold endOnLine heardAnother State.mapLink
    simp only [Bool.false_eq_true, if_false]
    by_cases sender : s.link.sender = true
    · rw [if_pos sender, if_pos sender]
    · rw [if_neg sender, if_neg sender]
  unfold received
  rw [foreign, ended]

/-- R71: one of this station's number that it was not sending. -/
theorem received_collided (foreign : isOwn o b s = false) (same : o = strap s) : received o b s = { s with
    link := heardAnother s.link
    control := { s.control with
      flags := { s.control.flags with link := true }
      counters := s.control.counters.set 1 (min 255 (s.control.counters.get 1 + 1)) } } := by
  rw [received_foreign foreign]
  exact if_pos same

/-- R81: one of another station makes it PRESENT. -/
theorem received_heard (foreign : isOwn o b s = false) (other : o ≠ strap s) : received o b s = { s with
    link := heardAnother s.link
    peers := { s.peers with table := s.peers.table.modify o fun e =>
      { e with presence := .present, silence := some (3 * s.control.image.censusInterval) } } } := by
  rw [received_foreign foreign]
  exact if_neg other

theorem isOwn_of_ne (other : o ≠ strap s) : isOwn o b s = false := by
  unfold isOwn
  rw [beq_false_of_ne other]
  simp

end

/-! ## The peer table after the blocks have acted (R66, R81, R88) -/

/-- The peer table of `t` is that of `s`, but for the record of station `o`. -/
def peersKept (o : StationNo) (s t : State) : Prop :=
  (peer t o).presence = (peer s o).presence ∧ (peer t o).silence = (peer s o).silence ∧
    ∀ j, j ≠ o → peer t j = peer s j

section
variable {o : StationNo} {s t u : State}

theorem peersKept_of_eq (h : t.peers = s.peers) : peersKept o s t := by
  unfold peersKept peer
  rw [h]
  exact ⟨rfl, rfl, fun _ _ => rfl⟩

theorem peersKept.trans (h : peersKept o s t) (g : t.peers = u.peers) : peersKept o s u := by
  unfold peersKept peer at *
  rwa [← g]

/-- R85, R88: a change of the origin's record alone. -/
theorem mapPeer_peersKept {f : Peer → Peer} (presence : ∀ e, (f e).presence = e.presence)
    (silence : ∀ e, (f e).silence = e.silence) : peersKept o s (mapPeer o f s) := by
  have reads (j : StationNo) : peer (mapPeer o f s) j = if j = o then f (peer s o) else peer s j := Tab.get_modify _ _ _ _
  refine ⟨?_, ?_, fun j other => ?_⟩
  · rw [reads, if_pos rfl, presence]
  · rw [reads, if_pos rfl, silence]
  · rw [reads, if_neg other]

theorem gatherRecord_peersKept {f : CensusRecord → CensusRecord} : peersKept o s (gatherRecord o f s) := by
  have recorded (e : Peer) : (match e.record with
      | some r => if r.state = CensusState.listenOnly then e else { e with record := some (f r) }
      | none => e).presence = e.presence ∧ (match e.record with
      | some r => if r.state = CensusState.listenOnly then e else { e with record := some (f r) }
      | none => e).silence = e.silence := by
    split
    · split <;> exact ⟨rfl, rfl⟩
    · exact ⟨rfl, rfl⟩
  unfold gatherRecord
  split
  · exact mapPeer_peersKept (fun e => (recorded e).1) fun e => (recorded e).2
  · exact peersKept_of_eq rfl

theorem compareSignature_peers (r : CensusRecord) (s : State) : (compareSignature r s).peers = s.peers := by
  unfold compareSignature
  split <;> simp

theorem storeRecord_peersKept {r : CensusRecord} : peersKept o s (storeRecord o r s) :=
  mapPeer_peersKept (fun _ => rfl) fun _ => rfl

theorem reconcile_peers (modes : Tab 32 Bool) (s : State) : (reconcile o modes s).peers = s.peers :=
  eachUp_keeps State.peers _ (fun m t => by
    unfold makeFromCensus
    (repeat' split) <;> simp) s

theorem takeCensus_peersKept {x : CensusPayload} {own : Bool} : peersKept o s (takeCensus o x own s) := by
  have handed (t : State) : (handOn o (recordOf x) t).peers = t.peers := by
    unfold handOn
    split <;> rw [reconcile_peers]
    simp
  unfold takeCensus
  dsimp only
  split
  · exact peersKept_of_eq rfl
  · split
    · exact peersKept_of_eq (compareSignature_peers _ _)
    · exact storeRecord_peersKept.trans (by rw [handed, compareSignature_peers])

theorem gatherCensus_peersKept {x : CensusPayload} {own : Bool} : peersKept o s (gatherCensus o x own s) := by
  unfold gatherCensus
  dsimp only
  split
  · exact peersKept_of_eq rfl
  · split
    · exact peersKept_of_eq (compareSignature_peers _ _)
    · exact storeRecord_peersKept.trans (compareSignature_peers _ _).symm

theorem raiseBanks_peers {f : BankNo → State → State} (each : ∀ b s, (f b s).peers = s.peers) (s : State) :
    (eachUp 4 f s).peers = s.peers := eachUp_keeps State.peers f each s

theorem takeGameStart_peers (x : Byte) (s : State) : (takeGameStart x s).peers = s.peers := by
  have raised (b : BankNo) (s : State) : (raiseMarkedBank b s).peers = s.peers := by
    unfold raiseMarkedBank
    (repeat' split) <;> simp
  unfold takeGameStart newGame freshContexts
  split
  · simp [raiseBanks_peers raised]
  · rfl

theorem takePlayerUp_peers (x : Byte) (s : State) : (takePlayerUp x s).peers = s.peers := by
  have darkened (b : BankNo) (s : State) : (darkenFaulted b s).peers = s.peers := by
    unfold darkenFaulted
    (repeat' split) <;> simp
  have raised (b : BankNo) (s : State) : (raiseBank b s).peers = s.peers := by
    unfold raiseBank
    (repeat' split) <;> simp
  unfold takePlayerUp swapPlayers loadPlayer
  split
  · split
    · simp [raiseBanks_peers raised, raiseBanks_peers darkened]
    · rfl
  · rfl

theorem takeCollect_peers {x y : Byte} (own : Bool) (s : State) : (takeCollect x y own s).peers = s.peers := by
  have settled (m : ModeId) : (settleCollect m y s).peers = s.peers := by
    unfold settleCollect
    dsimp only
    split <;> simp
  unfold takeCollect
  split
  · rfl
  · rw [collectEffect_eq]
    dsimp only
    split
    · exact settled _
    · rfl

theorem clearFaultsNow_peers (s : State) : (clearFaultsNow s).peers = s.peers := by
  have driver (d : DriverNo) (s : State) : (clearDriver d s).peers = s.peers := by
    unfold clearDriver
    dsimp only
    (repeat' split) <;> simp
  have restarted (s : State) : (eachPocket restartPocket s).peers = s.peers :=
    eachUp_keeps State.peers _ (fun p t => by split <;> simp) s
  have bank (b : BankNo) (s : State) : (restartBank b s).peers = s.peers := by
    unfold restartBank
    (repeat' split) <;> simp
  have again (s : State) : (accountingAgain (switchAgain s)).peers = s.peers := by
    unfold accountingAgain switchAgain
    (repeat' split) <;> simp
  unfold clearFaultsNow
  dsimp only
  rw [again, raiseBanks_peers bank, restarted, eachUp_keeps State.peers clearDriver driver]
  rfl

end

section
variable {c : Instr} {o : StationNo} {b : Bulletin}

/-- R66: what a command that is a bulletin does once it is received: in the game states a block acts, in JOINING and
LISTEN-ONLY the Peer View gathers; of the peer table only the origin's record is theirs. -/
theorem exec_completion (h : bulletinOf c = some (o, b)) : ∃ act gather : Bool → State → State,
    (∀ s, exec c s = .next (finish (complete o b act gather s))) ∧
      ∀ own u, (∀ a, b = .restart a → targets u a = false) →
        peersKept o u (act own u) ∧ peersKept o u (gather own u) := by
  have acts {act gather : Bool → State → State} (ran : ∀ s, exec c s = .next (finish (complete o b act gather s)))
      (act' : ∀ own u, (act own u).peers = u.peers) (gather' : ∀ own u, peersKept o u (gather own u)) :
      ∃ act gather : Bool → State → State, (∀ s, exec c s = .next (finish (complete o b act gather s))) ∧
        ∀ own u, (∀ a, b = .restart a → targets u a = false) →
          peersKept o u (act own u) ∧ peersKept o u (gather own u) :=
    ⟨act, gather, ran, fun own u _ => ⟨peersKept_of_eq (act' own u), gather' own u⟩⟩
  have still (own : Bool) (u : State) : peersKept o u (nothing own u) := peersKept_of_eq rfl
  cases c with
  | tilt o =>
    cases h
    exact acts (fun _ => rfl) (fun _ u => by unfold takeTilt; dsimp only; split <;> simp) still
  | gameStart o n => cases h; exact acts (fun _ => rfl) (fun _ u => takeGameStart_peers n u) still
  | gameEnd o =>
    cases h
    exact acts (fun _ => rfl) (fun _ u => by unfold takeGameEnd; simp) still
  | playerUp o p => cases h; exact acts (fun _ => rfl) (fun _ u => takePlayerUp_peers p u) still
  | serve o n =>
    cases h
    exact acts (fun _ => rfl) (fun _ u => by unfold takeServe; (repeat' split) <;> simp) still
  | lock o p =>
    cases h
    exact acts (fun _ => rfl) (fun _ u => by simp) fun _ _ => gatherRecord_peersKept
  | trough o n r =>
    cases h
    refine acts (fun _ => rfl) (fun _ u => by simp) fun _ _ => ?_
    unfold gatherTrough
    split
    · exact gatherRecord_peersKept
    · exact peersKept_of_eq rfl
  | missing o n =>
    cases h
    refine acts (fun _ => rfl) (fun _ u => by simp) fun _ _ => ?_
    unfold gatherMissing
    split
    · exact gatherRecord_peersKept
    · exact peersKept_of_eq rfl
  | modeStart o m d =>
    cases h
    exact acts (fun _ => rfl) (fun _ u => by unfold takeModeStart; split <;> simp) still
  | modeEnd o m =>
    cases h
    exact acts (fun _ => rfl) (fun _ u => by unfold takeModeEnd; (repeat' split) <;> simp) still
  | collect o m p =>
    cases h
    exact acts (fun _ => rfl) (fun own u => takeCollect_peers own u) still
  | jackpotAdd o m =>
    cases h
    exact acts (fun _ => rfl) (fun _ u => by unfold takeJackpotAdd; (repeat' split) <;> simp) still
  | featureSet o a f r p =>
    cases h
    exact acts (fun _ => rfl) (fun _ u => by unfold takeFeatureSet; (repeat' split) <;> simp) still
  | award o p =>
    cases h
    exact acts (fun _ => rfl) (fun _ u => by unfold takeAward takeCombo; split <;> simp) still
  | census o p =>
    cases h
    exact ⟨_, _, fun _ => rfl, fun _ _ _ => ⟨takeCensus_peersKept, gatherCensus_peersKept⟩⟩
  | status o i d => cases h; exact acts (fun _ => rfl) (fun _ _ => rfl) still
  | query o a i x =>
    cases h
    have asked (u : State) : (takeQuery a i x u).peers = u.peers := by
      unfold takeQuery
      split <;> simp
    exact acts (fun _ => rfl) (fun _ => asked) fun _ u => peersKept_of_eq (asked u)
  | fire o a d =>
    cases h
    exact acts (fun _ => rfl) (fun _ u => by unfold takeFire; (repeat' split) <;> simp) still
  | clearFaults o a =>
    cases h
    exact acts (fun _ => rfl) (fun _ u => by unfold takeClearFaults; split <;> simp [clearFaultsNow_peers]) still
  | clearCounts o a =>
    cases h
    exact acts (fun _ => rfl) (fun _ u => by unfold takeClearCounts; split <;> simp) still
  | clearBoth o a =>
    cases h
    exact acts (fun _ => rfl) (fun _ u => by unfold takeClearBoth; split <;> simp [clearFaultsNow_peers]) still
  | restart o a =>
    cases h
    refine ⟨_, _, fun _ => rfl, fun _ u elsewhere => ?_⟩
    have stays : takeRestart a u = u := if_neg (by simp [elsewhere a rfl])
    exact ⟨peersKept_of_eq (by rw [stays]), peersKept_of_eq (by rw [stays])⟩
  | _ => cases h

/-- Settles O18: the completion by whose it is, and the peer table after the blocks by `exec_completion`. -/
theorem theLinkTakesACompletion : Obligations.TheLinkTakesACompletion := by
  refine ⟨fun o b s => ⟨?waits, fun own => ?own, fun foreign => ?foreign⟩, fun c o b s bulletin => ?command⟩
  case waits =>
    cases own : isOwn o b s with
    | true => exact (received_own_link own).1
    | false =>
      by_cases same : o = strap s
      · rw [received_collided own same]
        exact (heardAnother_eq s.link).1
      · rw [received_heard own same]
        exact (heardAnother_eq s.link).1
  case own =>
    obtain ⟨-, sender, peers⟩ := received_own_link own
    refine ⟨peers, sender, received_own_left own, fun c k census held => ?_⟩
    subst census
    exact received_own_aside own held
  case foreign =>
    have another (receives : s.link.sender = false) : heardAnother s.link = { s.link with receive := .waiting } :=
      if_neg (by simp [receives])
    by_cases same : o = strap s
    · rw [received_collided foreign same]
      exact ⟨(heardAnother_eq s.link).2, another, fun _ => ⟨rfl, rfl⟩, fun other => absurd same other⟩
    · rw [received_heard foreign same]
      exact ⟨(heardAnother_eq s.link).2, another, fun own => absurd own same, fun _ =>
        ⟨rfl, Tab.get_modify_self _ _ _, fun j other => Tab.get_modify_other _ _ other⟩⟩
  case command =>
    obtain ⟨act, gather, ran, kept⟩ := exec_completion bulletin
    have deaf (unheard : ¬ hears o b s) : ∃ t, exec c s = .next t ∧ settles s t :=
      settles_exec (ran s) (complete_unheard act gather unheard)
    refine ⟨fun waits => deaf (not_hears_waiting waits), deaf, fun heard other elsewhere => ?_⟩
    have away : ∀ a, b = .restart a → targets (received o b s) a = false := fun a restart => by
      have kept : strap (received o b s) = strap s := strap_of_setup (received_setup o b s)
      unfold targets
      rw [kept]
      exact elsewhere a restart
    obtain ⟨acted, gathered⟩ := kept (isOwn o b s) (received o b s) away
    have table (j : StationNo) : peer (received o b s) j = if j = o then { peer s o with
        presence := .present, silence := some (3 * s.control.image.censusInterval) } else peer s j := by
      rw [received_heard (isOwn_of_ne other) other]
      exact Tab.get_modify _ _ _ _
    have left : peersKept o (received o b s) (finish (complete o b act gather s)) := by
      rw [complete_heard act gather heard]
      split
      · exact acted.trans (finish_frame _).2.2.2.2.2.2.2.2.1.symm
      · exact gathered.trans (finish_frame _).2.2.2.2.2.2.2.2.1.symm
    obtain ⟨presence, silence, others⟩ := left
    rw [table, if_pos rfl] at presence silence
    exact ⟨_, ran s, presence, silence, fun j far => by rw [others j far, table, if_neg far]⟩

end

end Sys2Proof.Machine

end

