-- ==== Sys2Proof/Proofs/Arbitration.lean ====
section
/-! SUPPORT. The arbitration field, lost arbitration and clashes, and O15 (R26, R62, R69, R70, R73, R100). -/

namespace Sys2Proof

/-! ## The arbitration field (R62) -/

theorem natOf_append (x y : List Bool) : natOf (x ++ y) = 2 ^ y.length * natOf x + natOf y := by
  induction x with
  | nil => simp [natOf]
  | cons b x ih =>
    rw [List.cons_append, natOf_cons, natOf_cons, ih, List.length_append, Nat.pow_add]
    ring

/-- R62: of two fields the one with the 0 where they first differ is the lower number. -/
theorem natOf_lt_of_first_difference {i : Nat} : ∀ {x y : List Bool}, x.length = y.length →
    x.take i = y.take i → x[i]? = some false → y[i]? = some true → natOf x < natOf y := by
  induction i with
  | zero =>
    intro x y length _ low high
    cases x with
    | nil => cases low
    | cons a x =>
      cases y with
      | nil => cases high
      | cons b y =>
        cases low
        cases high
        have below := natOf_lt x
        rw [List.length_cons, List.length_cons, Nat.add_right_cancel_iff] at length
        rw [natOf_cons, natOf_cons, ← length]
        simp only [Bool.toNat_false, Bool.toNat_true]
        omega
  | succ i ih =>
    intro x y length same low high
    cases x with
    | nil => cases low
    | cons a x =>
      cases y with
      | nil => cases high
      | cons b y =>
        rw [List.take_succ_cons, List.take_succ_cons, List.cons.injEq] at same
        obtain ⟨rfl, same⟩ := same
        rw [List.length_cons, List.length_cons, Nat.add_right_cancel_iff] at length
        have lower := ih length same low high
        rw [natOf_cons, natOf_cons, length]
        omega

section
variable (o : StationNo) (b : Bulletin)

/-- R62: the arbitration field is class, kind, origin. -/
theorem take_arbitration : (bulletinCells o b).take 12 = bitsOf 2 b.cls ++ (bitsOf 6 b.kindCode ++ bitsOf 4 o.val) := by
  have whole : (bulletinCells o b).take 12 = (bulletinCells o b).take 2 ++
      (((bulletinCells o b).drop 2).take 6 ++ ((bulletinCells o b).drop 8).take 4) := by
    rw [← List.drop_drop (i := 6) (j := 2), ← List.take_add, ← List.take_add]
  rw [whole, take_class, take_kind, take_origin]

theorem arbitration_length : ((bulletinCells o b).take 12).length = 12 := by
  rw [take_arbitration]
  simp

theorem natOf_arbitration : natOf ((bulletinCells o b).take 12) = 1024 * b.cls + 16 * b.kindCode + o.val := by
  have cls := cls_lt b
  have kind := kindCode_lt b
  have origin : o.val < 2 ^ 4 := o.isLt
  rw [take_arbitration, natOf_append, natOf_append, natOf_bitsOf, natOf_bitsOf, natOf_bitsOf, List.length_append,
    bitsOf_length, bitsOf_length, Nat.mod_eq_of_lt cls, Nat.mod_eq_of_lt kind, Nat.mod_eq_of_lt origin]
  omega

end

/-- R62: senders of different origins differ in the field. -/
theorem arbitration_differs {o₁ o₂ : StationNo} (b₁ b₂ : Bulletin) (other : o₁ ≠ o₂) :
    (bulletinCells o₁ b₁).take 12 ≠ (bulletinCells o₂ b₂).take 12 := fun same => by
  have number := congrArg natOf same
  rw [natOf_arbitration, natOf_arbitration] at number
  have first := o₁.isLt
  have second := o₂.isLt
  exact other (Fin.ext (by omega))

/-- R62: the lower field has the lower class, kind or origin, in this order. -/
theorem arbitration_order {o₁ o₂ : StationNo} {b₁ b₂ : Bulletin}
    (lower : natOf ((bulletinCells o₁ b₁).take 12) < natOf ((bulletinCells o₂ b₂).take 12)) :
    b₁.cls < b₂.cls ∨ (b₁.cls = b₂.cls ∧ (b₁.kindCode < b₂.kindCode ∨ (b₁.kindCode = b₂.kindCode ∧ o₁ < o₂))) := by
  rw [natOf_arbitration, natOf_arbitration] at lower
  have first := o₁.isLt
  have second := o₂.isLt
  have kind₁ := kindCode_lt b₁
  have kind₂ := kindCode_lt b₂
  rw [Fin.lt_def]
  omega

namespace Machine

section
variable {s : State} {e : TxEntry}

/-! ## Lost arbitration (R69) -/

/-- R73: where a CENSUS is held aside, it takes the place of the queued one. -/
theorem asideInPlace_eq (l : LinkCtl) : asideInPlace l = { l with
    queue := (match l.aside with
      | some c => replaceCensus c
      | none => id) l.queue
    aside := none } := by
  obtain ⟨queue, aside, receive, sender, agreed, hold⟩ := l
  cases aside <;> rfl

/-- R62, R69: a sender whose cells show the loss goes on as a receiver. -/
theorem loseArbitration_sender (sends : s.link.sender = true) (lost : showsLoss s = true) :
    loseArbitration s = { s with link := { s.link with
      queue := match s.link.aside with
        | some c => replaceCensus c (s.link.queue.map fun e => { e with onLine := false })
        | none => s.link.queue.map fun e => { e with onLine := false }
      aside := none, sender := false, agreed := false
      receive := match s.link.receive with
        | .receiving bits check => .receiving bits check
        | .waiting | .atRest => .receiving [] 0xFFFF#16 } } := by
  unfold loseArbitration State.mapLink yieldLine
  rw [if_pos ⟨sends, lost⟩]
  simp only [asideInPlace_eq]
  cases s.link.aside <;> rfl

theorem loseArbitration_receiver (receives : s.link.sender = false) : loseArbitration s = s :=
  if_neg fun sends => Bool.noConfusion (receives.symm.trans sends.1)

/-! ## Clashes (R70) -/

/-- R70: the first two clashes of an entry put it back with its attempt count raised. -/
theorem takeClash_retry (sends : s.link.sender = true) (onLine : (s.link.queue.find? fun x => x.onLine) = some e)
    (fewer : e.attempts < 2) : takeClash s = { raiseCounter .clashes s with link := { s.link with
      queue := (match s.link.aside with
        | some c => replaceCensus c
        | none => id) (s.link.queue.map fun (x : TxEntry) =>
          if x.onLine then { x with attempts := x.attempts + 1, onLine := false } else x)
      aside := none, sender := false, agreed := false, hold := true, receive := .waiting } } := by
  have line : ((raiseCounter .clashes s).link.queue.find? fun x => x.onLine) = some e := onLine
  unfold takeClash
  rw [if_pos sends]
  dsimp only
  rw [line]
  dsimp only
  rw [if_pos fewer]
  unfold retryOnLine
  simp only [State.mapLink, asideInPlace_eq]
  rfl

/-- R70: the state once the third clash has dropped the entry on the line. -/
def clashDropped (s : State) : State :=
  { setFlag .link (raiseCounter .clashes s) with link := { s.link with
    queue := s.link.queue.filter fun x => !x.onLine
    sender := false, agreed := false, hold := true, receive := .waiting } }

/-- R70: the third clash drops the entry, and the block that queued it is told. -/
theorem takeClash_drop (sends : s.link.sender = true) (onLine : (s.link.queue.find? fun x => x.onLine) = some e)
    (third : 2 ≤ e.attempts) : takeClash s = toldDropped e.bulletin (clashDropped s) := by
  have line : ((raiseCounter .clashes s).link.queue.find? fun x => x.onLine) = some e := onLine
  unfold takeClash
  rw [if_pos sends]
  dsimp only
  rw [line]
  dsimp only
  rw [if_neg (Nat.not_lt.mpr third)]
  rfl

/-- R26: the COLLECT-pending mark of a dropped COLLECT is cleared. -/
theorem toldDropped_collect {m : Byte} (p : Byte) (id : m.toNat < 32) : toldDropped (.collect m p) s =
    { s with rules := { s.rules with collects := s.rules.collects.set ⟨m.toNat, id⟩ none } } := by
  have mode : modeOf m = some ⟨m.toNat, id⟩ := dif_pos id
  unfold toldDropped
  dsimp only
  rw [mode]
  rfl

/-- R100: the end queued mark of a dropped MODE END is cleared. -/
theorem toldDropped_modeEnd {m : Byte} {x : ModeEntry} (id : m.toNat < 32)
    (entry : s.modes.get ⟨m.toNat, id⟩ = some x) : toldDropped (.modeEnd m) s =
    { s with modes := s.modes.set ⟨m.toNat, id⟩ (some { x with endQueued := false }) } := by
  have mode : modeOf m = some ⟨m.toNat, id⟩ := dif_pos id
  unfold toldDropped
  dsimp only
  rw [mode]
  dsimp only
  rw [entry]
  rfl

/-- R73: a CENSUS held aside for a dropped CENSUS is offered anew. -/
theorem toldDropped_census (c : CensusPayload) {x : CensusPayload} (held : s.link.aside = some x) :
    toldDropped (.census c) s = offer (.census x) { s with link := { s.link with aside := none } } := by
  unfold toldDropped offerAside
  dsimp only
  rw [held]
  rfl

theorem toldDropped_other {b : Bulletin} (collect : ∀ m p, b ≠ .collect m p) (ends : ∀ m, b ≠ .modeEnd m)
    (census : ∀ c, b ≠ .census c) : toldDropped b s = s := by
  cases b with
  | collect m p => exact absurd rfl (collect m p)
  | modeEnd m => exact absurd rfl (ends m)
  | census c => exact absurd rfl (census c)
  | _ => rfl

end

/-- Settles O15: the field as one number; the entry on the line by its attempt count. -/
theorem arbitrationAndClashes : Obligations.ArbitrationAndClashes := by
  refine ⟨fun o₁ o₂ b₁ b₂ => ⟨arbitration_differs b₁ b₂, fun i same low high => ?_⟩, fun s => ⟨fun sends lost => ?_,
    fun receives => settles_exec rfl (loseArbitration_receiver receives)⟩, fun s e sends onLine =>
    ⟨fun fewer => settles_exec rfl (takeClash_retry sends onLine fewer), fun third => ?third⟩⟩
  · have length : ((bulletinCells o₁ b₁).take 12).length = ((bulletinCells o₂ b₂).take 12).length :=
      (arbitration_length o₁ b₁).trans (arbitration_length o₂ b₂).symm
    exact arbitration_order (natOf_lt_of_first_difference length same low high)
  · exact settles_exec rfl (loseArbitration_sender sends lost)
  case third =>
    have told {b : Bulletin} {u : State} (is : e.bulletin = b) (comes : toldDropped b (clashDropped s) = u) :
        ∃ t, exec .clash s = .next t ∧ settles u t :=
      settles_exec rfl ((takeClash_drop sends onLine third).trans (is ▸ comes))
    exact ⟨fun m p is id => told is (toldDropped_collect p id), fun m x is id entry => told is
      (toldDropped_modeEnd id entry), fun c x is held => told is (toldDropped_census c held),
      fun collect ends census => told rfl (toldDropped_other collect ends census)⟩

end Machine

end Sys2Proof

end

