-- ==== Sys2Proof/Proofs/Offers.lean ====
section
/-! SUPPORT. Where an offer enters the transmit queue and what gives way to it, and O16 (R59, R72 to R77). -/

namespace Sys2Proof.Machine

/-! ## Where an entry is placed, and which entry is the youngest (R68, R74, R75) -/

/-- R68: a placed entry stands behind the entries of its class and the lower ones, before the higher ones. -/
theorem place_split (e : TxEntry) (q : List TxEntry) : ∃ front back, place e q = front ++ e :: back ∧
    q = front ++ back ∧ (∀ x ∈ front, x.bulletin.cls ≤ e.bulletin.cls) ∧
      ∀ x ∈ back.head?, e.bulletin.cls < x.bulletin.cls := by
  induction q with
  | nil => exact ⟨[], [], rfl, rfl, by simp, by simp⟩
  | cons y ys ih =>
    unfold place
    split
    · rename_i ahead
      obtain ⟨front, back, placed, queue, behind, before⟩ := ih
      refine ⟨y :: front, back, congrArg (y :: ·) placed, congrArg (y :: ·) queue, fun x hx => ?_, before⟩
      rcases List.mem_cons.mp hx with rfl | hx
      · exact ahead
      · exact behind x hx
    · rename_i behind
      refine ⟨[], y :: ys, rfl, rfl, by simp, fun x hx => ?_⟩
      cases hx
      exact Nat.lt_of_not_le behind

section
variable {p : TxEntry → Bool} {f : TxEntry → TxEntry} {e : TxEntry} {q back : List TxEntry}

theorem takeYoungest_none (none : ∀ k ∈ q, p k = false) : takeYoungest p q = Option.none := by
  induction q with
  | nil => rfl
  | cons x xs ih =>
    unfold takeYoungest
    rw [ih fun k hk => none k (List.mem_cons_of_mem _ hk)]
    exact if_neg (by simp [none x List.mem_cons_self])

theorem takeYoungest_append (front : List TxEntry) (this : p e = true) (last : ∀ k ∈ back, p k = false) :
    takeYoungest p (front ++ e :: back) = some (e, front ++ back) := by
  induction front with
  | nil =>
    rw [List.nil_append, List.nil_append]
    unfold takeYoungest
    rw [takeYoungest_none last]
    exact if_pos this
  | cons x front ih =>
    rw [List.cons_append, List.cons_append]
    unfold takeYoungest
    rw [ih]

theorem exists_takeYoungest (he : e ∈ q) (this : p e = true) : ∃ r, takeYoungest p q = some r := by
  induction q with
  | nil => cases he
  | cons x xs ih =>
    unfold takeYoungest
    split
    · exact ⟨_, rfl⟩
    · rename_i nowhere
      rcases List.mem_cons.mp he with rfl | he
      · exact ⟨_, if_pos this⟩
      · obtain ⟨r, taken⟩ := ih he
        cases nowhere.symm.trans taken

theorem changeYoungest_none (none : ∀ k ∈ q, p k = false) : changeYoungest p f q = Option.none := by
  induction q with
  | nil => rfl
  | cons x xs ih =>
    unfold changeYoungest
    rw [ih fun k hk => none k (List.mem_cons_of_mem _ hk)]
    exact if_neg (by simp [none x List.mem_cons_self])

theorem changeYoungest_append (front : List TxEntry) (this : p e = true) (last : ∀ k ∈ back, p k = false) :
    changeYoungest p f (front ++ e :: back) = some (front ++ f e :: back) := by
  induction front with
  | nil =>
    rw [List.nil_append, List.nil_append]
    unfold changeYoungest
    rw [changeYoungest_none last]
    exact if_pos this
  | cons x front ih =>
    rw [List.cons_append, List.cons_append]
    unfold changeYoungest
    rw [ih]

/-- An entry on the line, or one that fails the test, is passed over. -/
theorem passed_over {k : TxEntry} {test : Bool} (h : k.onLine = true ∨ test = false) : (!k.onLine && test) = false := by
  rcases h with line | fails
  · rw [line]
    rfl
  · rw [fails]
    exact Bool.and_false _

theorem class_passed_over {k : TxEntry} {n : Nat} (h : k.onLine = true ∨ k.bulletin.cls ≠ n) :
    (!k.onLine && k.bulletin.cls == n) = false := passed_over (h.imp id beq_false_of_ne)

end

/-! ## Merges and evictions (R74, R75) -/

section
variable {a x : AwardPayload} {e : TxEntry} {q front back : List TxEntry}

/-- R74: an AWARD merges into the last one of its player off the line. -/
theorem mergeInto_append (off : e.onLine = false) (award : e.bulletin = .award x) (same : x.player = a.player)
    (last : ∀ k ∈ back, k.onLine = true ∨ k.isAwardOf a.player = false) :
    mergeInto a (front ++ e :: back) = some (front ++ { e with bulletin := .award (mergeAwards x a) } :: back) := by
  have this : (!e.onLine && e.isAwardOf a.player) = true := by
    simp [off, TxEntry.isAwardOf, award, same]
  unfold mergeInto
  rw [changeYoungest_append front this fun k hk => passed_over (last k hk)]
  simp only [award]

theorem mergeInto_none (none : ∀ k ∈ q, k.onLine = true ∨ k.isAwardOf a.player = false) :
    mergeInto a q = Option.none :=
  changeYoungest_none fun k hk => passed_over (none k hk)

/-- R75: the last ROUTINE entry off the line gives way. -/
theorem evict_routine (off : e.onLine = false) (routine : e.bulletin.cls = 3)
    (last : ∀ k ∈ back, k.onLine = true ∨ k.bulletin.cls ≠ 3) :
    evict (front ++ e :: back) = some (front ++ back, true) := by
  have this : (!e.onLine && e.bulletin.cls == 3) = true := by simp [off, routine]
  unfold evict
  rw [takeYoungest_append front this fun k hk => class_passed_over (last k hk)]

/-- R75: with none, the last AWARD off the line does, merging into another of its player where there is one. -/
theorem evict_award (queue : q = front ++ e :: back) (off : e.onLine = false) (award : e.bulletin = .award x)
    (none : ∀ k ∈ q, k.onLine = true ∨ k.bulletin.cls ≠ 3) (last : ∀ k ∈ back, k.onLine = true ∨ k.bulletin.cls ≠ 2) :
    evict q = some (match mergeInto x (front ++ back) with
      | some merged => (merged, false)
      | Option.none => (front ++ back, true)) := by
  have this : (!e.onLine && e.bulletin.cls == 2) = true := by simp [off, award, Bulletin.cls]
  unfold evict
  rw [takeYoungest_none fun k hk => class_passed_over (none k hk)]
  dsimp only
  rw [queue, takeYoungest_append front this fun k hk => class_passed_over (last k hk)]
  dsimp only
  rw [award]
  dsimp only
  cases mergeInto x (front ++ back) <;> rfl

/-- R75: where every entry off the line is URGENT or GAME none gives way. -/
theorem evict_none (low : ∀ k ∈ q, k.onLine = false → k.bulletin.cls ≤ 1) : evict q = Option.none := by
  have passed {n : Nat} (n_pos : 1 < n) (k : TxEntry) (hk : k ∈ q) : (!k.onLine && k.bulletin.cls == n) = false := by
    refine class_passed_over ((Bool.eq_false_or_eq_true k.onLine).imp id fun off => ?_)
    have := low k hk off
    omega
  unfold evict
  rw [takeYoungest_none (passed (by decide)), takeYoungest_none (passed (by decide))]

/-- R75: one entry fewer, or one merged. -/
theorem evict_length {rest : List TxEntry} {drop : Bool} (h : evict q = some (rest, drop)) :
    q.length = rest.length + 1 := by
  unfold evict at h
  split at h
  · rename_i found
    cases h
    exact takeYoungest_length found
  · split at h
    · cases h
    · rename_i found
      have shorter := takeYoungest_length found
      split at h
      · split at h
        · rename_i merged
          cases h
          rw [mergeInto_length merged, shorter]
        · cases h
          exact shorter
      · cases h
        exact shorter

/-- R75: while a ROUTINE entry or an AWARD is off the line one gives way. -/
theorem exists_evict (high : ∃ k ∈ q, k.onLine = false ∧ 2 ≤ k.bulletin.cls) :
    ∃ rest drop, evict q = some (rest, drop) := by
  obtain ⟨k, hk, off, least⟩ := high
  unfold evict
  split
  · exact ⟨_, _, rfl⟩
  · rename_i noRoutine
    have two : k.bulletin.cls = 2 := by
      by_contra other
      have three : k.bulletin.cls = 3 := by
        have := cls_lt k.bulletin
        omega
      obtain ⟨_, found⟩ := exists_takeYoungest (p := fun e => !e.onLine && e.bulletin.cls == 3) hk
        (by simp [off, three])
      cases noRoutine.symm.trans found
    obtain ⟨_, found⟩ := exists_takeYoungest (p := fun e => !e.onLine && e.bulletin.cls == 2) hk
      (by simp [off, two])
    rw [found]
    dsimp only
    split
    · split <;> exact ⟨_, _, rfl⟩
    · exact ⟨_, _, rfl⟩

end

/-! ## Offers (R72 to R76) -/

/-- R73: neither a COLLECT for the mode id of `b` nor, for a CENSUS, a CENSUS is queued. -/
def entersAnew (b : Bulletin) (q : List TxEntry) : Prop :=
  (∀ m p, b = .collect m p → q.any (TxEntry.isCollectOf m) = false) ∧
    ∀ c, b = .census c → q.any TxEntry.isCensus = false

/-- What an offer of `b` comes to that enters the queue, others having given way. -/
def enters (b : Bulletin) (rest : List TxEntry) (aside : Option CensusPayload) (drop : Bool) : Offer :=
  { queue := place (freshEntry b) rest, aside := aside, taken := true, drop := drop, refused := false }

/-- What an offer comes to that is dropped. -/
def dropped (l : LinkCtl) : Offer := { queue := l.queue, aside := l.aside, taken := false, drop := true, refused := false }

section
variable {b : Bulletin} {l : LinkCtl} {e : TxEntry} {q front back : List TxEntry}

theorem offerTo_anew (anew : entersAnew b l.queue) :
    offerTo b l = if l.queue.length < 16 then enters b l.queue l.aside false else offerFull b l := by
  obtain ⟨collect, census⟩ := anew
  cases b with
  | collect m p => exact if_neg (by simp [collect m p rfl])
  | census c =>
    have absent := census c rfl
    have offLine : (l.queue.any fun e => e.isCensus && e.onLine) = false := by
      rw [List.any_eq_false] at absent ⊢
      intro e he both
      exact absent e he (Bool.and_elim_left both)
    unfold offerTo
    dsimp only
    rw [if_neg (by simp [offLine]), if_neg (by simp [absent])]
    rfl
  | _ => rfl

/-- R72: with room. -/
theorem offerTo_room (anew : entersAnew b l.queue) (room : l.queue.length < 16) :
    offerTo b l = enters b l.queue l.aside false := (offerTo_anew anew).trans (if_pos room)

theorem offerTo_full (anew : entersAnew b l.queue) (full : l.queue.length = 16) : offerTo b l = offerFull b l :=
  (offerTo_anew anew).trans (if_neg (by omega))

/-- R73: a CENSUS takes the place of the queued one, or is held aside while that is on the line. -/
theorem offerTo_census {c : CensusPayload} (queued : l.queue.any TxEntry.isCensus = true) :
    offerTo (.census c) l = if (l.queue.any fun e => e.isCensus && e.onLine) = true then
        { queue := l.queue, aside := some c, taken := true, drop := false, refused := false }
      else { queue := replaceCensus c l.queue, aside := none, taken := true, drop := false, refused := false } := by
  unfold offerTo
  dsimp only
  rw [if_pos queued]

/-- R72, R77: an offer to a queue with room drops and refuses nothing. -/
theorem offerTo_room_silent (b : Bulletin) (room : l.queue.length < 16) :
    (offerTo b l).drop = false ∧ (offerTo b l).refused = false := by
  by_cases anew : entersAnew b l.queue
  · rw [offerTo_room anew room]
    exact ⟨rfl, rfl⟩
  · cases b with
    | collect m p =>
      have queued : l.queue.any (TxEntry.isCollectOf m) = true := by
        by_contra absent
        exact anew ⟨fun n _ is => (by cases is; exact Bool.eq_false_iff.mpr absent), nofun⟩
      have refused : offerTo (.collect m p) l =
          { queue := l.queue, aside := l.aside, taken := false, drop := false, refused := false } := if_pos queued
      rw [refused]
      exact ⟨rfl, rfl⟩
    | census c =>
      refine offerTo_census_queued c ?_
      by_contra absent
      exact anew ⟨nofun, fun _ _ => Bool.eq_false_iff.mpr absent⟩
    | _ => exact absurd ⟨nofun, nofun⟩ anew

theorem entersAnew_award (a : AwardPayload) : entersAnew (.award a) q :=
  ⟨nofun, nofun⟩

theorem entersAnew_low (low : b.cls ≤ 1) (collect : ∀ m p, b = .collect m p → q.any (TxEntry.isCollectOf m) = false) :
    entersAnew b q :=
  ⟨collect, fun c is => by
    rw [is] at low
    exact absurd low (show ¬ 3 ≤ 1 by decide)⟩

/-- Entries that gave way were none that stood in the way of `b`. -/
theorem entersAnew_subset {r : List TxEntry} (fewer : r ⊆ q) (anew : entersAnew b q) : entersAnew b r := by
  have absent {p : TxEntry → Bool} (none : q.any p = false) : r.any p = false := by
    rw [List.any_eq_false] at none ⊢
    exact fun e he => none e (fewer he)
  exact ⟨fun m p is => absent (anew.1 m p is), fun c is => absent (anew.2 c is)⟩

theorem append_subset : front ++ back ⊆ front ++ e :: back :=
  (List.Sublist.append_left (List.sublist_cons_self e back) front).subset

theorem gaveWay_length (queue : q = front ++ e :: back) (full : q.length = 16) : (front ++ back).length = 15 := by
  rw [queue, List.length_append, List.length_cons] at full
  rw [List.length_append]
  omega

/-- R72: the queue without the entry that gave way has room. -/
theorem offerTo_withoutOne (queue : l.queue = front ++ e :: back) (full : l.queue.length = 16)
    (anew : entersAnew b l.queue) :
    offerTo b { l with queue := front ++ back } = enters b (front ++ back) l.aside false := by
  have short : (front ++ back).length < 16 := by
    rw [gaveWay_length queue full]
    decide
  exact offerTo_room (l := { l with queue := front ++ back }) (entersAnew_subset (queue ▸ append_subset) anew) short

/-- R74 to R76: an offer to a full queue at which one entry gave way, by the offer to the queue without it. -/
theorem offerTo_gaveWay {drop : Bool} (queue : l.queue = front ++ e :: back) (full : l.queue.length = 16)
    (anew : entersAnew b l.queue) (gave : offerFull b l = enters b (front ++ back) l.aside drop) :
    offerTo b l = { offerTo b { l with queue := front ++ back } with taken := true, drop := drop } := by
  rw [offerTo_full anew full, gave, offerTo_withoutOne queue full anew]
  rfl

/-! ### By class, at a full queue -/

/-- R74: an AWARD. -/
theorem offerFull_award {a : AwardPayload} (unmerged : mergeInto a l.queue = none) : offerFull (.award a) l =
    match takeYoungest (fun e => !e.onLine && e.bulletin.cls == 3 && !e.isCensus) l.queue with
    | some (_, rest) => enters (.award a) rest l.aside true
    | none => dropped l := by
  unfold offerFull
  dsimp only
  rw [unmerged]
  rfl

/-- R75: an URGENT or GAME bulletin. -/
theorem offerFull_low (low : b.cls ≤ 1) : offerFull b l =
    match evict l.queue with
    | some (rest, drop) => enters b rest l.aside drop
    | none => { queue := l.queue, aside := l.aside, taken := false, drop := true, refused := true } := by
  have other : b.cls ≠ 3 := by omega
  cases b with
  | award a => exact absurd low (show ¬ 2 ≤ 1 by decide)
  | census c => exact absurd low (show ¬ 3 ≤ 1 by decide)
  | _ =>
    unfold offerFull
    exact (if_neg other).trans rfl

/-- The STATUS test of an AWARD that is offered: ROUTINE and not a CENSUS. -/
theorem status_passed_over {k : TxEntry} (h : k.onLine = true ∨ k.bulletin.cls ≠ 3 ∨ k.isCensus = true) :
    (!k.onLine && k.bulletin.cls == 3 && !k.isCensus) = false := by
  rw [Bool.and_assoc]
  refine passed_over (h.imp id fun other => ?_)
  rcases other with other | census
  · rw [beq_false_of_ne other]
    rfl
  · rw [census]
    exact Bool.and_false _

end

/-! ## What an offer changes (R59, R77) -/

section
variable {b : Bulletin} {s : State}

/-- R77: the counter and the flag of an offer. -/
def offerControl (b : Bulletin) (s : State) : Control :=
  { s.control with
    flags := if (offerTo b s.link).refused then { s.control.flags with transmit := true } else s.control.flags
    counters := if (offerTo b s.link).drop then s.control.counters.set 2 (min 255 (s.control.counters.get 2 + 1))
      else s.control.counters }

theorem offer_eq (b : Bulletin) (s : State) : offer b s = { s with
    control := offerControl b s
    link := beginIfAtRest { s.link with queue := (offerTo b s.link).queue, aside := (offerTo b s.link).aside } } := by
  unfold offer offerControl
  obtain ⟨queue, aside, taken, drop, refused⟩ := offerTo b s.link
  cases drop <;> cases refused <;> rfl

/-- R75: an URGENT or GAME bulletin enters a full queue where one gives way. -/
theorem offer_low_taken (full : s.link.queue.length = 16) (low : b.cls ≤ 1) (anew : entersAnew b s.link.queue)
    (high : ∃ e ∈ s.link.queue, e.onLine = false ∧ 2 ≤ e.bulletin.cls) :
    offerTaken b s = true ∧ (offer b s).link.queue.length = 16 ∧ (∃ e ∈ (offer b s).link.queue, e.bulletin = b) ∧
      (offer b s).control.flags = s.control.flags := by
  obtain ⟨rest, drop, gave⟩ := exists_evict high
  have entered : offerTo b s.link = enters b rest s.link.aside drop := by
    rw [offerTo_full anew full, offerFull_low low, gave]
  have shorter := evict_length gave
  refine ⟨by rw [offerTaken, entered]; rfl, ?_, ?_, ?_⟩
  · have kept := congrArg List.length (beginIfAtRest_keys
      { s.link with queue := (offerTo b s.link).queue, aside := (offerTo b s.link).aside })
    rw [offer_link]
    simp only [keys, List.length_map] at kept
    rw [kept, entered]
    change (place (freshEntry b) rest).length = 16
    rw [place_length]
    omega
  · rw [offer_link]
    refine mem_beginIfAtRest (e := freshEntry b) ?_
    rw [entered]
    exact (place_perm _ _).mem_iff.mpr List.mem_cons_self
  · rw [offer_eq, offerControl, entered]
    rfl

/-- R75, R77: it is refused where none does. -/
theorem offer_low_refused (full : s.link.queue.length = 16) (low : b.cls ≤ 1) (anew : entersAnew b s.link.queue)
    (all : ∀ e ∈ s.link.queue, e.onLine = false → e.bulletin.cls ≤ 1) :
    offerTaken b s = false ∧ (offer b s).control = { s.control with
      flags := { s.control.flags with transmit := true }
      counters := s.control.counters.set 2 (min 255 (s.control.counters.get 2 + 1)) } := by
  have refused : offerTo b s.link =
      { queue := s.link.queue, aside := s.link.aside, taken := false, drop := true, refused := true } := by
    rw [offerTo_full anew full, offerFull_low low, evict_none all]
  refine ⟨by rw [offerTaken, refused], ?_⟩
  rw [offer_eq, offerControl, refused]
  rfl

end

/-! ## O16 -/

/-- R72, R73: an offer to a queue with room. -/
theorem offerTo_with_room (b : Bulletin) (l : LinkCtl) (room : l.queue.length < 16) :
    (∀ m p, b = .collect m p → l.queue.any (TxEntry.isCollectOf m) = true →
      (offerTo b l).queue = l.queue ∧ (offerTo b l).taken = false) ∧
    ((∀ m p, b = .collect m p → l.queue.any (TxEntry.isCollectOf m) = false) →
      (∀ c, b = .census c → l.queue.any TxEntry.isCensus = false) →
      (offerTo b l).taken = true ∧ (offerTo b l).aside = l.aside ∧
      ∃ front back, (offerTo b l).queue = front ++ { bulletin := b, attempts := 0, onLine := false } :: back ∧
        l.queue = front ++ back ∧ (∀ e ∈ front, e.bulletin.cls ≤ b.cls) ∧
        ∀ e ∈ back.head?, b.cls < e.bulletin.cls) ∧
    (offerTo b l).drop = false ∧ (offerTo b l).refused = false := by
  refine ⟨fun m p is queued => ?_, fun collect census => ?_, offerTo_room_silent b room⟩
  · have refused : offerTo (.collect m p) l =
        { queue := l.queue, aside := l.aside, taken := false, drop := false, refused := false } := if_pos queued
    rw [is, refused]
    exact ⟨rfl, rfl⟩
  · rw [offerTo_room ⟨collect, census⟩ room]
    exact ⟨rfl, rfl, place_split (freshEntry b) l.queue⟩

/-- R73: a CENSUS offered while one is queued. -/
theorem offerTo_queued_census (c : CensusPayload) (l : LinkCtl) (queued : l.queue.any TxEntry.isCensus = true) :
    let o := offerTo (.census c) l
    let onLine := l.queue.any fun e => e.isCensus && e.onLine
    o.taken = true ∧ o.drop = false ∧ o.refused = false ∧ o.queue.length = l.queue.length ∧
    (onLine = true → o.queue = l.queue ∧ o.aside = some c) ∧
    (onLine = false → o.aside = none ∧ ∀ (n : Nat) (e : TxEntry), l.queue[n]? = some e →
      (e.isCensus = true → o.queue[n]? = some { bulletin := .census c, attempts := 0, onLine := e.onLine }) ∧
      (e.isCensus = false → o.queue[n]? = some e)) := by
  dsimp only
  rw [offerTo_census queued]
  cases (l.queue.any fun e => e.isCensus && e.onLine) with
  | true => exact ⟨rfl, rfl, rfl, rfl, fun _ => ⟨rfl, rfl⟩, fun off => Bool.noConfusion off⟩
  | false =>
    refine ⟨rfl, rfl, rfl, replaceCensus_length c l.queue, fun on => Bool.noConfusion on, fun _ => ⟨rfl, fun n e at_n => ?_⟩⟩
    have there : (replaceCensus c l.queue)[n]? =
        some (if e.isCensus then { e with bulletin := .census c, attempts := 0 } else e) := by
      unfold replaceCensus
      rw [List.getElem?_map, at_n]
      rfl
    exact ⟨fun census => there.trans (by rw [if_pos census]), fun other => there.trans (by simp [other])⟩

/-- R74: an AWARD merged into the last of its player, at a full queue. -/
theorem offerTo_merged {a x : AwardPayload} {e : TxEntry} {front back : List TxEntry} {l : LinkCtl}
    (queue : l.queue = front ++ e :: back) (full : l.queue.length = 16) (single : a.coalesced = false)
    (off : e.onLine = false) (award : e.bulletin = .award x) (same : x.player = a.player)
    (last : ∀ k ∈ back, k.onLine = true ∨ k.isAwardOf a.player = false) :
    offerTo (.award a) l =
      { queue := front ++ { e with bulletin := .award {
          coalesced := true, settled := x.settled || a.settled, combo := x.combo || a.combo
          player := a.player, switch := if x.coalesced then BitVec.ofNat 8 (min 255 (x.switch.toNat + 1)) else 2
          amount := x.amount + a.amount, tally := a.tally } } :: back
        aside := l.aside, taken := true, drop := false, refused := false } := by
  have merged : mergeInto a l.queue = some (front ++ { e with bulletin := .award (mergeAwards x a) } :: back) := by
    rw [queue, mergeInto_append off award same last]
  have count : awardCount a = 1 := if_neg (by simp [single])
  have sum : mergeAwards x a = {
      coalesced := true, settled := x.settled || a.settled, combo := x.combo || a.combo
      player := a.player, switch := if x.coalesced then BitVec.ofNat 8 (min 255 (x.switch.toNat + 1)) else 2
      amount := x.amount + a.amount, tally := a.tally } := by
    unfold mergeAwards
    rw [count, same]
    unfold awardCount
    cases x.coalesced <;> rfl
  rw [offerTo_full (entersAnew_award a) full, ← sum]
  unfold offerFull
  dsimp only
  rw [merged]

/-- R74: an AWARD with none of its player to merge into, at a full queue. -/
theorem offerTo_award_full {a : AwardPayload} {e : TxEntry} {front back : List TxEntry} {l : LinkCtl}
    (full : l.queue.length = 16) (none : ∀ k ∈ l.queue, k.onLine = true ∨ k.isAwardOf a.player = false) :
    (l.queue = front ++ e :: back → e.onLine = false → e.bulletin.cls = 3 → e.isCensus = false →
      (∀ k ∈ back, k.onLine = true ∨ k.bulletin.cls ≠ 3 ∨ k.isCensus = true) →
      offerTo (.award a) l =
        { offerTo (.award a) { l with queue := front ++ back } with taken := true, drop := true }) ∧
    ((∀ k ∈ l.queue, k.onLine = true ∨ k.bulletin.cls ≠ 3 ∨ k.isCensus = true) → offerTo (.award a) l = dropped l) := by
  have anew : entersAnew (.award a) l.queue := entersAnew_award a
  refine ⟨fun queue off routine status last => offerTo_gaveWay queue full anew ?_, fun nothing => ?_⟩
  · have this : (!e.onLine && e.bulletin.cls == 3 && !e.isCensus) = true := by simp [off, routine, status]
    rw [offerFull_award (mergeInto_none none), queue,
      takeYoungest_append front this fun k hk => status_passed_over (last k hk)]
  · rw [offerTo_full anew full, offerFull_award (mergeInto_none none),
      takeYoungest_none fun k hk => status_passed_over (nothing k hk)]

/-- R76: a STATUS, at a full queue. -/
theorem offerTo_status_full (item : Byte) (data : List Byte) {l : LinkCtl} (full : l.queue.length = 16) :
    offerTo (.status item data) l = dropped l :=
  offerTo_full ⟨nofun, nofun⟩ full

/-- R76: a CENSUS, at a full queue that holds none. -/
theorem offerTo_census_full {c : CensusPayload} {e : TxEntry} {front back : List TxEntry} {l : LinkCtl}
    (full : l.queue.length = 16) (absent : l.queue.any TxEntry.isCensus = false) :
    (l.queue = front ++ e :: back → e.onLine = false → e.isStatus = true →
      (∀ k ∈ back, k.onLine = true ∨ k.isStatus = false) →
      offerTo (.census c) l =
        { offerTo (.census c) { l with queue := front ++ back } with taken := true, drop := true }) ∧
    ((∀ k ∈ l.queue, k.onLine = true ∨ k.isStatus = false) → offerTo (.census c) l = dropped l) := by
  have anew : entersAnew (.census c) l.queue := ⟨nofun, fun _ _ => absent⟩
  refine ⟨fun queue off status last => offerTo_gaveWay queue full anew ?_, fun nothing => ?_⟩
  · have this : (!e.onLine && e.isStatus) = true := by simp [off, status]
    unfold offerFull
    dsimp only
    rw [queue, takeYoungest_append front this fun k hk => passed_over (last k hk)]
    rfl
  · rw [offerTo_full anew full]
    unfold offerFull
    dsimp only
    rw [takeYoungest_none fun k hk => passed_over (nothing k hk)]
    rfl

/-- R75: a merged entry leaves room, as one that gave way does. -/
theorem offerTo_evicted_merged {b : Bulletin} {g : TxEntry} {y : AwardPayload} {sum : AwardPayload}
    {e : TxEntry} {front back older newer : List TxEntry} {l : LinkCtl} (queue : l.queue = front ++ e :: back)
    (full : l.queue.length = 16) (low : b.cls ≤ 1) (anew : entersAnew b l.queue)
    (rest : front ++ back = older ++ g :: newer) (award : g.bulletin = .award y)
    (gave : evict l.queue = some (older ++ { g with bulletin := .award sum } :: newer, false)) :
    offerTo b l = offerTo b { l with queue := older ++ { g with bulletin := .award sum } :: newer } := by
  have short : (older ++ { g with bulletin := .award sum } :: newer).length < 16 := by
    have := evict_length gave
    omega
  have fewer : entersAnew b (older ++ g :: newer) := entersAnew_subset (by rw [queue, ← rest]; exact append_subset) anew
  have still : entersAnew b (older ++ { g with bulletin := .award sum } :: newer) := by
    refine entersAnew_low low fun m p is => ?_
    have none := fewer.1 m p is
    have notCollect : TxEntry.isCollectOf m g = false := by simp [TxEntry.isCollectOf, award]
    rw [List.any_append, List.any_cons, notCollect] at none
    rw [List.any_append, List.any_cons]
    exact none
  rw [offerTo_full anew full, offerFull_low low, gave,
    offerTo_room (l := { l with queue := older ++ { g with bulletin := .award sum } :: newer }) still short]

/-- Settles O16: an offer by the room in the queue and the class, and at a full queue by what gives way. -/
theorem anOfferEntersOrGivesWay : Obligations.AnOfferEntersOrGivesWay := by
  refine ⟨offerTo_with_room, offerTo_queued_census, fun b s full low collect =>
    ⟨offer_low_taken full low (entersAnew_low low collect), offer_low_refused full low (entersAnew_low low collect)⟩,
    fun a x e front back l queue full single off award same last =>
      offerTo_merged queue full single off award same last,
    fun a e front back l full none => offerTo_award_full full none,
    fun item data c e front back l full => ⟨offerTo_status_full item data full, fun absent =>
      offerTo_census_full full absent⟩, ?evicted, ?changes⟩
  case evicted =>
    intro b e g x y front back older newer l full low collect queue off
    have anew : entersAnew b l.queue := entersAnew_low low fun m p is => by
      rw [is] at collect
      exact collect
    have gaveWay (gave : evict l.queue = some (front ++ back, true)) :
        offerTo b l = { offerTo b { l with queue := front ++ back } with drop := true } := by
      rw [offerTo_full anew full, offerFull_low low, gave, offerTo_withoutOne queue full anew]
      rfl
    refine ⟨fun routine last => gaveWay (queue ▸ evict_routine off routine last), fun award none last =>
      ⟨fun alone => gaveWay ?_, fun rest gOff gAward same newest => ?_⟩⟩
    · rw [evict_award queue off award none last, mergeInto_none alone]
    · have merged : mergeInto x (front ++ back) =
          some (older ++ { g with bulletin := .award (mergeAwards y x) } :: newer) := by
        rw [rest, mergeInto_append gOff gAward same newest]
      have gave := evict_award queue off award none last
      rw [merged] at gave
      have comes := offerTo_evicted_merged queue full low anew rest gAward gave
      unfold mergeAwards at comes
      rw [same] at comes
      exact comes
  case changes =>
    intro b s
    refine ⟨fun idle => ?_, fun e rest atRest receives released queue => ?_⟩
    · rw [offer_eq]
      have still : beginIfAtRest { s.link with queue := (offerTo b s.link).queue, aside := (offerTo b s.link).aside } =
          { s.link with queue := (offerTo b s.link).queue, aside := (offerTo b s.link).aside } := by
        unfold beginIfAtRest
        split
        · rename_i free
          obtain ⟨rests, receives, released⟩ := free
          rcases idle with busy | sends | holds | empty
          · exact absurd rests busy
          · cases receives.symm.trans sends
          · cases released.symm.trans holds
          · unfold beginHead
            rw [empty]
        · rfl
      rw [still]
      rfl
    · rw [offer_eq]
      unfold beginIfAtRest beginHead
      rw [if_pos ⟨atRest, receives, released⟩, queue]
      rfl

end Sys2Proof.Machine

end

