-- ==== Sys2Proof/Proofs/StatusAndFire.lean ====
section
/-! SUPPORT. The data of each STATUS and the fault byte by their bits, QUERY and FIRE, and O59 (R64, R66, R177, R188,
R191, R192). -/

namespace Sys2Proof.Machine

/-! ## Bytes of a STATUS (R64, R192) -/

@[simp] theorem byte_toNat (n : Nat) : (byte n).toNat = n % 256 := BitVec.toNat_ofNat _ _

/-- The cells of a table by number. -/
theorem cells_getElem? {n : Nat} {α : Type} (t : Tab n α) (i : Fin n) : t.cells[i.val]? = some (t.get i) :=
  List.getElem?_eq_getElem _

section
variable (s : State)

theorem code_lt (d : Detail) : d.code < 4 := by cases d <;> decide

theorem resting_code_lt (r : Resting) : r.code < 8 := by cases r <;> decide

theorem halfByte_lt (f : FeatureNo) : halfByte s f < 16 := by
  have := resting_code_lt (resting s f)
  unfold halfByte
  split <;> omega

/-- Four numbers of two bits in one byte, each read back. -/
theorem quarters {a b c d : Nat} (ha : a < 4) (hb : b < 4) (hc : c < 4) (hd : d < 4) {i : Nat} (hi : i < 4) :
    (byte (a + 4 * b + 16 * c + 64 * d)).toNat / 4 ^ i % 4 = [a, b, c, d].getD i 0 := by
  have whole : (byte (a + 4 * b + 16 * c + 64 * d)).toNat = a + 4 * b + 16 * c + 64 * d := by
    rw [byte_toNat]
    exact Nat.mod_eq_of_lt (by omega)
  rw [whole]
  match i, hi with
  | 0, _ | 1, _ | 2, _ | 3, _ => simp; omega

theorem detailsByte_quarter (k : Nat) {i : Nat} (hi : i < 4) : (detailsByte s k).toNat / 4 ^ i % 4 =
    (s.drivers.units.cells.map fun u => u.detail.code).getD (4 * k + i) 0 := by
  have coded (i : Nat) : (s.drivers.units.cells.map fun u => u.detail.code).getD i 0 < 4 := by
    rw [List.getD_eq_getElem?_getD, List.getElem?_map]
    cases s.drivers.units.cells[i]? with
    | none => exact Nat.zero_lt_succ _
    | some u => exact code_lt u.detail
  unfold detailsByte
  dsimp only
  rw [quarters (coded _) (coded _) (coded _) (coded _) hi]
  match i, hi with
  | 0, _ | 1, _ | 2, _ | 3, _ => rfl

/-- R192 item 1: the detail of driver `d`, in two bits of its byte. -/
theorem detailsByte_code (d : DriverNo) :
    (detailsByte s (d.val / 4)).toNat / 4 ^ (d.val % 4) % 4 = (unit s d).detail.code := by
  rw [detailsByte_quarter s _ (Nat.mod_lt _ (by decide)), Nat.div_add_mod, List.getD_eq_getElem?_getD,
    List.getElem?_map, cells_getElem?]
  rfl

/-- R192 items 5 and 6: the feature by its half-byte, the even one in the high half. -/
theorem featureBytes_half {base : Fin 17} {f : FeatureNo} {j : Nat} (below : j < 8)
    (place : f.val = base.val + 2 * j ∨ f.val = base.val + 2 * j + 1) : ∃ b, (featureBytes s base)[j]? = some b ∧
      (if f.val = base.val + 2 * j then b.toNat / 16 else b.toNat % 16) = halfByte s f := by
  have high := halfByte_lt s ⟨base.val + 2 * j, by omega⟩
  have low := halfByte_lt s ⟨base.val + 2 * j + 1, by omega⟩
  refine ⟨byte (16 * halfByte s ⟨base.val + 2 * j, by omega⟩ + halfByte s ⟨base.val + 2 * j + 1, by omega⟩), ?_, ?_⟩
  · unfold featureBytes
    rw [List.getElem?_map, List.getElem?_eq_getElem (by simpa using below)]
    simp
  · rw [byte_toNat, Nat.mod_eq_of_lt (by omega)]
    rcases place with even | odd
    · rw [if_pos even]
      have this : f = ⟨base.val + 2 * j, by omega⟩ := Fin.ext even
      rw [this]
      omega
    · rw [if_neg (by omega)]
      have this : f = ⟨base.val + 2 * j + 1, by omega⟩ := Fin.ext odd
      rw [this]
      omega

theorem featureBytes_length (base : Fin 17) : (featureBytes s base).length = 8 := by simp [featureBytes]

theorem modesBytes_length (t : Tab 32 Bool) : (modesBytes t).length = 4 := by simp [modesBytes]

/-! ## The data by item (R192) -/

variable (x : Byte)

/-- R192 item 0: the tally of the player that the argument names. -/
theorem statusData_tally {p : Player} (named : x.toNat = p.val + 1) :
    statusData 0 x s = x :: fourBytes (s.rules.tallies.get p) := by
  have player : playerOf 4 x = some p := playerOf_eq_some.mpr ⟨named, by omega⟩
  change (match playerOf 4 x with
    | some p => x :: fourBytes (s.rules.tallies.get p)
    | none => []) = _
  rw [player]

theorem statusData_noPlayer (none : x.toNat = 0 ∨ 4 < x.toNat) : statusData 0 x s = [] := by
  have player : playerOf 4 x = Option.none := dif_neg (by omega)
  change (match playerOf 4 x with
    | some p => x :: fourBytes (s.rules.tallies.get p)
    | Option.none => []) = _
  rw [player]

/-- R192 item 1: the flags, the mask and the details. -/
theorem statusData_flags : ∃ a b, statusData 1 x s = [faultByte s, maskByte s, a, b] ∧
    ∀ d : DriverNo, ((if d.val < 4 then a else b).toNat / 4 ^ (d.val % 4)) % 4 = (unit s d).detail.code := by
  refine ⟨detailsByte s 0, detailsByte s 1, rfl, fun d => ?_⟩
  have half : (if d.val < 4 then detailsByte s 0 else detailsByte s 1) = detailsByte s (d.val / 4) := by
    split
    · rw [Nat.div_eq_of_lt (by assumption)]
    · rw [show d.val / 4 = 1 by omega]
  rw [half, detailsByte_code]

/-- R192 item 2: the counters. -/
theorem statusData_counters : (statusData 2 x s).length = 8 ∧
    ∀ k : Fin 8, (statusData 2 x s)[k.val]? = some (BitVec.ofNat 8 (s.control.counters.get k)) := by
  have data : statusData 2 x s = s.control.counters.cells.map byte := rfl
  rw [data]
  refine ⟨by rw [List.length_map, s.control.counters.size], fun k => ?_⟩
  rw [List.getElem?_map, cells_getElem?]
  rfl

/-- R192 item 3: the accounting. -/
theorem statusData_accounting : (statusData 3 x s).map BitVec.toNat =
    [(s.balls.trough.getD 7) % 256, totalHeld s % 256, totalStuck s % 256, s.balls.missing % 256,
      s.balls.inPlay % 256, if s.balls.phase = .multi then 1 else 0] := by
  have data : statusData 3 x s = [byte (s.balls.trough.getD 7), byte (totalHeld s), byte (totalStuck s),
    byte s.balls.missing, byte s.balls.inPlay, byte (if s.balls.phase = .multi then 1 else 0)] := rfl
  have flag : (if s.balls.phase = .multi then 1 else 0) % 256 = if s.balls.phase = .multi then 1 else 0 := by
    split <;> rfl
  rw [data]
  simp only [List.map_cons, List.map_nil, byte_toNat, flag]

/-- R192 item 4: the modes and their count. -/
theorem statusData_modes :
    statusData 4 x s = modesBytes (s.modes.map Option.isSome) ++ [BitVec.ofNat 8 (modeCount s)] := rfl

theorem statusData_mode (m : ModeId) : ∃ b, (statusData 4 x s)[m.val / 8]? = some b ∧
    b.getLsbD (m.val % 8) = (s.modes.get m).isSome := by
  have inside : m.val / 8 < (modesBytes (s.modes.map Option.isSome)).length := by
    rw [modesBytes_length]
    omega
  refine ⟨(modesBytes (s.modes.map Option.isSome)).getD (m.val / 8) 0, ?_, ?_⟩
  · rw [statusData_modes, List.getElem?_append_left inside, List.getD_eq_getElem _ _ inside,
      List.getElem?_eq_getElem inside]
  · rw [modesBytes_getLsbD, Tab.get_map]

theorem statusData_modeCount : (statusData 4 x s).length = 5 ∧
    (statusData 4 x s)[4]? = some (BitVec.ofNat 8 (modeCount s)) := by
  have four := modesBytes_length (s.modes.map Option.isSome)
  rw [statusData_modes]
  exact ⟨by rw [List.length_append, four]; rfl, by rw [List.getElem?_append_right (by omega), four]; rfl⟩

/-- R192 items 5 and 6: the features. -/
theorem statusData_feature (f : FeatureNo) : ∃ b,
    (statusData (if f.val < 16 then 5 else 6) x s)[f.val % 16 / 2]? = some b ∧
      (if f.val % 2 = 0 then b.toNat / 16 else b.toNat % 16) =
        (resting s f).code + if litByOverlay s f then 8 else 0 := by
  have below : f.val % 16 / 2 < 8 := by omega
  have from_base {base : Fin 17} (sixteen : base.val + f.val % 16 = f.val) (even : base.val % 2 = 0) :
      ∃ b, (featureBytes s base)[f.val % 16 / 2]? = some b ∧
        (if f.val % 2 = 0 then b.toNat / 16 else b.toNat % 16) = halfByte s f := by
    obtain ⟨b, there, half⟩ := featureBytes_half s (base := base) (f := f) below (by omega)
    refine ⟨b, there, ?_⟩
    rw [← half]
    exact if_congr (by omega) rfl rfl
  by_cases low : f.val < 16
  · rw [if_pos low]
    exact from_base (base := 0) (by simp; omega) rfl
  · rw [if_neg low]
    have := f.isLt
    exact from_base (base := 16) (by simp; omega) rfl

/-- R192 item 7: the station. -/
theorem statusData_station : ∃ b, statusData 7 x s = [s.control.image.format, b, s.control.image.signature, BitVec.ofNat 8
      (match s.control.station with
        | .joining => 1
        | .idle => 2
        | .ready => 3
        | .play => 4
        | .tilt => 5
        | .listenOnly => 6
        | _ => 0)] ∧
    b.getLsbD 0 = isTrough s ∧ b.getLsbD 1 = s.control.retained ∧ b.toNat < 4 := by
  refine ⟨byte ((if isTrough s then 1 else 0) + (if s.control.retained then 2 else 0)), ?_, ?_⟩
  · have data : statusData 7 x s =
      [s.control.image.format, byte ((if isTrough s then 1 else 0) + (if s.control.retained then 2 else 0)),
        s.control.image.signature, byte s.control.station.code] := rfl
    rw [data]
    cases s.control.station <;> rfl
  · cases isTrough s <;> cases s.control.retained <;> decide

/-- R192: an item above 7 has no data. -/
theorem statusData_none {item : Byte} (above : 7 < item.toNat) : statusData item x s = [] := by
  obtain ⟨n, number⟩ : ∃ n, item.toNat = n + 8 := ⟨item.toNat - 8, by omega⟩
  unfold statusData
  rw [number]
  rfl

/-! ## The fault byte (R64, R188) -/

theorem driverFlag_iff : driverFlag s = true ↔ ∃ d, (unit s d).detail ≠ .none := by
  unfold driverFlag Tab.any
  rw [List.any_eq_true]
  constructor
  · rintro ⟨u, mem, detail⟩
    obtain ⟨i, inside, rfl⟩ := List.mem_iff_getElem.mp mem
    exact ⟨⟨i, s.drivers.units.size ▸ inside⟩, bne_iff_ne.mp detail⟩
  · rintro ⟨d, detail⟩
    exact ⟨_, List.getElem_mem _, bne_iff_ne.mpr detail⟩

theorem faultByte_bits : let f := s.control.flags
    let b := faultByte s
    b.getLsbD 0 = f.link ∧ b.getLsbD 1 = f.config ∧ (b.getLsbD 2 = true ↔ ∃ d, (unit s d).detail ≠ .none) ∧
    b.getLsbD 3 = f.ejector ∧ b.getLsbD 4 = f.supply ∧ b.getLsbD 5 = f.accounting ∧ b.getLsbD 6 = f.transmit ∧
    b.getLsbD 7 = f.switch := by
  have bit {i : Nat} (h : i < 8) : (faultByte s).getLsbD i =
      [s.control.flags.link, s.control.flags.config, driverFlag s, s.control.flags.ejector, s.control.flags.supply,
        s.control.flags.accounting, s.control.flags.transmit, s.control.flags.switch].getD i false :=
    byteOf_getLsbD _ _ _ _ _ _ _ _ h
  dsimp only
  rw [← driverFlag_iff, bit (i := 0) (by decide), bit (i := 1) (by decide), bit (i := 2) (by decide),
    bit (i := 3) (by decide), bit (i := 4) (by decide), bit (i := 5) (by decide), bit (i := 6) (by decide),
    bit (i := 7) (by decide)]
  exact ⟨rfl, rfl, Iff.rfl, rfl, rfl, rfl, rfl, rfl⟩

end

/-! ## STATUS, QUERY and FIRE (R66, R177, R192) -/

section
variable {o : StationNo} {b : Bulletin} {target item x : Byte} {s : State}

theorem targets_received : targets (received o b s) target = (target.toNat == s.control.strap.val) := by
  have strapped : (received o b s).control.strap = s.control.strap := strap_of_setup (received_setup o b s)
  unfold targets strap
  rw [strapped]

/-- R192: a QUERY, wherever the link works. -/
theorem query_received (heard : hears o (.query target item x) s) :
    ∃ t, exec (.query o target item x) s = .next t ∧
      settles (takeQuery target item x (received o (.query target item x) s)) t :=
  settles_exec rfl ((complete_heard _ _ heard).trans (ite_self _))

/-- R177: a FIRE of this station in IDLE. -/
theorem takeFire_idle {d : DriverNo} (names : item.toNat = d.val) (mine : targets s target = true)
    (idle : s.control.station = .idle) : takeFire target item s = request d .search 100 .fire s := by
  have driver : driverOf item = some d := by
    unfold driverOf
    rw [dif_pos (by omega)]
    exact congrArg some (Fin.ext names)
  unfold takeFire
  rw [if_pos ⟨mine, idle⟩, driver]

/-- R177: any other FIRE. -/
theorem takeFire_ignored (other : targets s target = false ∨ s.control.station ≠ .idle ∨ 8 ≤ item.toNat) :
    takeFire target item s = s := by
  unfold takeFire
  split
  · rename_i taken
    obtain ⟨mine, idle⟩ := taken
    rcases other with elsewhere | busy | above
    · cases elsewhere.symm.trans mine
    · exact absurd idle busy
    · have driver : driverOf item = none := dif_neg (by omega)
      rw [driver]
  · rfl

end

/-- Settles O59: the commands by `received`, the data by item, the fault byte by bit. -/
theorem statusQueryAndFire : Obligations.StatusQueryAndFire := by
  refine ⟨fun o target item x data s => ⟨fun heard => settles_exec rfl ((complete_heard _ _ heard).trans (ite_self _)),
    fun heard => ⟨fun mine => ?mine, fun elsewhere => ?elsewhere⟩, fun heard =>
    ⟨fun d names mine idle => ?fired, fun other => ?ignored⟩⟩, fun s x => ?data, fun s x => ?counts,
    faultByte_bits⟩
  case mine =>
    have asked := query_received heard
    unfold takeQuery at asked
    rwa [if_pos (targets_received.trans (beq_iff_eq.mpr mine))] at asked
  case elsewhere =>
    have asked := query_received heard
    unfold takeQuery at asked
    rwa [if_neg (by simp [targets_received, elsewhere])] at asked
  case fired =>
    refine settles_exec rfl ((complete_heard _ _ heard).trans ?_)
    have game : inGame s = true := by
      unfold inGame
      rw [idle]
      rfl
    rw [if_pos game]
    exact takeFire_idle names (targets_received.trans (beq_iff_eq.mpr mine)) ((received_station _ _ _).trans idle)
  case ignored =>
    refine settles_exec rfl ((complete_heard _ _ heard).trans ?_)
    have still : takeFire target item (received o (.fire target item) s) = received o (.fire target item) s :=
      takeFire_ignored (by
        rw [targets_received, received_station]
        exact other.imp_left beq_false_of_ne)
    rw [still]
    exact ite_self _
  case data =>
    obtain ⟨eight, counter⟩ := statusData_counters s x
    exact ⟨fun p named => statusData_tally s x named, statusData_noPlayer s x, statusData_flags s x, eight, counter,
      statusData_accounting s x, featureBytes_length s 0, featureBytes_length s 16, statusData_feature s x,
      statusData_mode s x, fun item above => statusData_none s x above⟩
  case counts =>
    obtain ⟨five, count⟩ := statusData_modeCount s x
    exact ⟨five, count, statusData_station s x⟩

end Sys2Proof.Machine

end

