-- ==== Sys2Proof/Proofs/CensusTimers.lean ====
section
/-! SUPPORT. The silence and census timers: what the offers of a census interval leave in the transmit queue, and O48
(R81 to R83, R100, R137). -/

namespace Sys2Proof.Machine

/-! ## The bulletins of a queue (R68, R72, R73) -/

/-- The bulletins of a queue's entries, in order. -/
def bulletins (q : List TxEntry) : List Bulletin := q.map TxEntry.bulletin

section
variable {b x : Bulletin} {c : CensusPayload} {l : LinkCtl} {q : List TxEntry} {s : State}

theorem mem_bulletins : x ∈ bulletins q ↔ ∃ k ∈ q, k.bulletin = x := List.mem_map

theorem bulletins_length : (bulletins q).length = q.length := List.length_map ..

/-- R59: the begin of the head changes no bulletin. -/
theorem bulletins_beginIfAtRest : bulletins (beginIfAtRest l).queue = bulletins l.queue := by
  unfold beginIfAtRest beginHead
  split
  · cases queue : l.queue with
    | nil => rw [queue]
    | cons head rest => rfl
  · rfl

theorem any_isCensus_iff : q.any TxEntry.isCensus = true ↔ ∃ c, .census c ∈ bulletins q := by
  rw [List.any_eq_true]
  constructor
  · rintro ⟨e, he, census⟩
    obtain ⟨c, is⟩ := census_of_isCensus (b := e.bulletin) census
    exact ⟨c, mem_bulletins.mpr ⟨e, he, is⟩⟩
  · rintro ⟨c, member⟩
    obtain ⟨e, he, is⟩ := mem_bulletins.mp member
    refine ⟨e, he, ?_⟩
    unfold TxEntry.isCensus
    rw [is]

/-- R72: an offer that enters the queue adds its bulletin and no other. -/
theorem bulletins_offer (anew : entersAnew b s.link.queue) (room : s.link.queue.length < 16) :
    (bulletins (offer b s).link.queue).Perm (b :: bulletins s.link.queue) := by
  rw [offer_link, bulletins_beginIfAtRest]
  dsimp only
  rw [offerTo_room anew room]
  exact (place_perm (freshEntry b) s.link.queue).map TxEntry.bulletin

theorem entersAnew_modeEnd (m : Byte) : entersAnew (.modeEnd m) q := ⟨nofun, nofun⟩
theorem entersAnew_trough (n r : Byte) : entersAnew (.trough n r) q := ⟨nofun, nofun⟩

theorem offerTaken_of_room (anew : entersAnew b s.link.queue) (room : s.link.queue.length < 16) :
    offerTaken b s = true := by
  unfold offerTaken
  rw [offerTo_room anew room]
  rfl

/-- R73: replacing the queued CENSUS keeps every bulletin of another kind. -/
theorem mem_bulletins_replaceCensus (other : ∀ d, x ≠ .census d) :
    x ∈ bulletins (replaceCensus c q) ↔ x ∈ bulletins q := by
  induction q with
  | nil => rfl
  | cons e q ih =>
    change x ∈ ((if e.isCensus then _ else e : TxEntry).bulletin :: bulletins (replaceCensus c q)) ↔
      x ∈ e.bulletin :: bulletins q
    rw [List.mem_cons, List.mem_cons, ih]
    refine or_congr_left ?_
    split
    · rename_i census
      obtain ⟨d, is⟩ := census_of_isCensus (b := e.bulletin) census
      rw [is]
      exact iff_of_false (other c) (other d)
    · rfl

/-- R73: replacing the queued CENSUS leaves the new one queued. -/
theorem census_mem_replaceCensus (queued : q.any TxEntry.isCensus = true) :
    .census c ∈ bulletins (replaceCensus c q) := by
  obtain ⟨e, he, census⟩ := List.any_eq_true.mp queued
  exact mem_bulletins.mpr ⟨_, List.mem_map.mpr ⟨e, he, rfl⟩, by rw [if_pos census]⟩

/-- R72, R73: what the queue holds after a CENSUS is offered to it, where there is room or one is queued. -/
structure CensusOffered (q r : List TxEntry) : Prop where
  queued : ∃ c, .census c ∈ bulletins r
  others : ∀ x, (∀ d, x ≠ .census d) → (x ∈ bulletins r ↔ x ∈ bulletins q)
  length : r.length ≤ q.length + 1

theorem offer_census (room : s.link.queue.length < 16 ∨ s.link.queue.any TxEntry.isCensus = true) :
    CensusOffered s.link.queue (offer (.census c) s).link.queue := by
  by_cases queued : s.link.queue.any TxEntry.isCensus = true
  · have kept : bulletins (offer (.census c) s).link.queue = bulletins (offerTo (.census c) s.link).queue := by
      rw [offer_link, bulletins_beginIfAtRest]
    have length := congrArg List.length kept
    rw [bulletins_length, bulletins_length] at length
    by_cases sending : (s.link.queue.any fun e => e.isCensus && e.onLine) = true
    · rw [offerTo_census queued, if_pos sending] at kept length
      refine ⟨?_, fun x _ => by rw [kept], length.le.trans (Nat.le_succ _)⟩
      rw [kept]
      exact any_isCensus_iff.mp queued
    · rw [offerTo_census queued, if_neg sending] at kept length
      refine ⟨⟨c, kept ▸ census_mem_replaceCensus queued⟩, fun x other => ?_, ?_⟩
      · rw [kept]
        exact mem_bulletins_replaceCensus other
      · exact (length.trans (replaceCensus_length c _)).le.trans (Nat.le_succ _)
  · have entered := bulletins_offer (b := .census c) (s := s) ⟨nofun, fun _ _ => Bool.eq_false_iff.mpr queued⟩
      (room.resolve_right queued)
    refine ⟨⟨c, entered.mem_iff.mpr List.mem_cons_self⟩, fun x other => ?_, ?_⟩
    · rw [entered.mem_iff, List.mem_cons, or_iff_right (other c)]
    · have length := entered.length_eq
      rw [List.length_cons, bulletins_length, bulletins_length] at length
      exact length.le

/-- R84: the end of a step leaves every bulletin but the CENSUS as it was. -/
theorem mem_bulletins_finish (other : ∀ d, x ≠ .census d) :
    x ∈ bulletins (finish s).link.queue ↔ x ∈ bulletins s.link.queue := by
  rw [finish_link]
  cases built : lastCensus s.link with
  | none => rfl
  | some d =>
    dsimp only
    split
    · rfl
    · exact (offer_census (.inr (any_census_of_lastCensus built))).others x other

/-- R84: the end of a step leaves a CENSUS queued. -/
theorem any_isCensus_finish (queued : s.link.queue.any TxEntry.isCensus = true) :
    (finish s).link.queue.any TxEntry.isCensus = true := by
  rw [finish_link]
  cases built : lastCensus s.link with
  | none => exact queued
  | some d =>
    dsimp only
    split
    · exact queued
    · exact any_isCensus_iff.mpr (offer_census (.inr queued)).queued

end

/-! ## The MODE ENDs owed (R99, R100) -/

section
variable {m : ModeId} {e : ModeEntry} {l : List ModeId} {s t : State}

/-- R100: an entry owned here whose time is over and whose end is not queued. -/
theorem endOwed_iff (entry : s.modes.get m = some e) :
    endOwed s m = true ↔ e.owner = strap s ∧ e.time = .expired ∧ e.endQueued = false := by
  unfold endOwed
  rw [entry]
  simp only [Bool.and_eq_true, beq_iff_eq, Bool.not_eq_true', and_assoc]

theorem endOwed_of_none (none : s.modes.get m = none) : endOwed s m = false := by
  unfold endOwed
  rw [none]

theorem endOwed_congr (strap : strap t = strap s) (entry : t.modes.get m = s.modes.get m) :
    endOwed t m = endOwed s m := by
  unfold endOwed
  rw [entry, strap]

@[simp] theorem offerModeEnd_setup : (offerModeEnd m s).control.setup = s.control.setup := by
  unfold offerModeEnd
  dsimp only
  split <;> simp

/-- R99: with room in the queue a MODE END enters it, and its entry is marked. -/
theorem offerModeEnd_link : (offerModeEnd m s).link = (offer (.modeEnd (modeByte m)) s).link := by
  unfold offerModeEnd
  dsimp only
  split <;> rfl

theorem offerModeEnd_modes (entry : s.modes.get m = some e) (room : s.link.queue.length < 16) :
    (offerModeEnd m s).modes = s.modes.set m (some { e with endQueued := true }) := by
  have offered : (offer (.modeEnd (modeByte m)) s).modes = s.modes := by simp
  have taken : offerTaken (.modeEnd (modeByte m)) s = true := offerTaken_of_room (entersAnew_modeEnd _) room
  unfold offerModeEnd
  dsimp only
  rw [offered, entry, taken]
  dsimp only
  rw [Bool.or_true]
  exact congrArg (·.set m (some { e with endQueued := true })) offered

/-- R100: `t` is `s` with the MODE ENDs owed by the modes of `l` offered once more. -/
structure Reoffered (s : State) (l : List ModeId) (t : State) : Prop where
  setup : t.control.setup = s.control.setup
  length : t.link.queue.length = s.link.queue.length + l.countP (endOwed s)
  modes : ∀ m, t.modes.get m =
    if m ∈ l ∧ endOwed s m = true then (s.modes.get m).map fun e => { e with endQueued := true } else s.modes.get m
  carried : ∀ x, x ∈ bulletins t.link.queue ↔
    x ∈ bulletins s.link.queue ∨ ∃ m ∈ l, endOwed s m = true ∧ x = .modeEnd (modeByte m)

/-- R100: one more mode. -/
theorem Reoffered.step (h : Reoffered s l t) (new : m ∉ l)
    (room : s.link.queue.length + (l ++ [m]).countP (endOwed s) ≤ 16) :
    Reoffered s (l ++ [m]) (if endOwed t m then offerModeEnd m t else t) := by
  obtain ⟨setup, length, modes, carried⟩ := h
  have untouched : t.modes.get m = s.modes.get m := (modes m).trans (if_neg fun h => new h.1)
  rw [endOwed_congr (strap_of_setup setup) untouched]
  rw [List.countP_append] at room
  cases owed : endOwed s m with
  | false =>
    have same (k : ModeId) : k ∈ l ++ [m] ∧ endOwed s k = true ↔ k ∈ l ∧ endOwed s k = true := by
      rw [List.mem_append, List.mem_singleton]
      refine ⟨fun h => ⟨h.1.resolve_right fun is => ?_, h.2⟩, fun h => ⟨.inl h.1, h.2⟩⟩
      exact Bool.false_ne_true (owed.symm.trans (is ▸ h.2))
    refine ⟨setup, ?_, fun k => ?_, fun x => ?_⟩
    · rw [List.countP_append, List.countP_singleton, owed]
      exact length
    · simp only [same]
      exact modes k
    · refine (carried x).trans (or_congr_right (exists_congr fun k => ?_))
      rw [← and_assoc, ← and_assoc, same]
  | true =>
    rw [List.countP_singleton, owed, if_pos rfl] at room
    obtain ⟨e, entry⟩ : ∃ e, s.modes.get m = some e := Option.ne_none_iff_exists'.mp fun none =>
      Bool.false_ne_true ((endOwed_of_none none).symm.trans owed)
    have short : t.link.queue.length < 16 := by omega
    have entered := bulletins_offer (s := t) (entersAnew_modeEnd (modeByte m)) short
    refine ⟨?_, ?_, fun k => ?_, fun x => ?_⟩
    · exact offerModeEnd_setup.trans setup
    · have longer := entered.length_eq
      rw [List.length_cons, bulletins_length, bulletins_length] at longer
      change (offerModeEnd m t).link.queue.length = _
      rw [offerModeEnd_link, longer, length, List.countP_append, List.countP_singleton, owed, if_pos rfl, Nat.add_assoc]
    · change (offerModeEnd m t).modes.get k = _
      rw [offerModeEnd_modes (untouched.trans entry) short, Tab.get_set]
      by_cases self : k = m
      · subst self
        rw [if_pos rfl, if_pos ⟨List.mem_append_right _ List.mem_cons_self, owed⟩, entry]
        rfl
      · rw [if_neg self, modes k]
        simp only [List.mem_append, List.mem_singleton, self, or_false]
    · change x ∈ bulletins (offerModeEnd m t).link.queue ↔ _
      rw [offerModeEnd_link, entered.mem_iff, List.mem_cons, carried]
      simp only [List.mem_append, List.mem_singleton, or_and_right, exists_or, exists_eq_left, owed, true_and]
      rw [or_comm, or_assoc]

/-- R100: the modes of a list, one after another. -/
theorem reoffered_foldl (once : l.Nodup) (room : s.link.queue.length + l.countP (endOwed s) ≤ 16) :
    Reoffered s l (l.foldl (fun t m => if endOwed t m then offerModeEnd m t else t) s) := by
  induction l using List.reverseRecOn with
  | nil => exact ⟨rfl, rfl, fun m => (if_neg fun h => List.not_mem_nil h.1).symm, fun x => by simp⟩
  | append_singleton l m ih =>
    have apart := List.nodup_append.mp once
    have before : s.link.queue.length + l.countP (endOwed s) ≤ 16 := by
      rw [List.countP_append] at room
      omega
    rw [List.foldl_append]
    exact (ih apart.1 before).step (fun h => apart.2.2 m h m List.mem_cons_self rfl) room

/-- R100: at a census interval every MODE END owed is offered once more. -/
theorem reofferModeEnds_reoffered (room : s.link.queue.length + (List.finRange 32).countP (endOwed s) ≤ 16) :
    Reoffered s (List.finRange 32) (reofferModeEnds s) := reoffered_foldl (List.nodup_finRange 32) room

/-- R100: with none owed, nothing is offered. -/
theorem reofferModeEnds_none (none : ∀ m, endOwed s m = false) : reofferModeEnds s = s :=
  eachUp_fixed fun m => if_neg (by simp [none m])

@[simp] theorem reofferModeEnds_setup : (reofferModeEnds s).control.setup = s.control.setup :=
  eachUp_keeps (fun t : State => t.control.setup) _ (fun m t => by split <;> simp) s

@[simp] theorem reofferModeEnds_frame (s : State) :
      (reofferModeEnds s).rules = s.rules ∧
      (reofferModeEnds s).pockets = s.pockets ∧
      (reofferModeEnds s).balls = s.balls ∧
      (reofferModeEnds s).trough = s.trough ∧
      (reofferModeEnds s).peers = s.peers ∧
      (reofferModeEnds s).drivers = s.drivers := by
  refine ⟨?_, ?_, ?_, ?_, ?_, ?_⟩ <;> exact eachUp_keeps _ _ (fun m t => by split <;> simp) s

end

/-! ## The TROUGH of a census interval (R137) -/

section
variable {n : Nat} {s : State}

theorem any_isTrough_iff {q : List TxEntry} : q.any TxEntry.isTrough = true ↔ ∃ c r, .trough c r ∈ bulletins q := by
  rw [List.any_eq_true]
  constructor
  · rintro ⟨e, he, trough⟩
    unfold TxEntry.isTrough at trough
    split at trough
    · rename_i c r is
      exact ⟨c, r, mem_bulletins.mpr ⟨e, he, is⟩⟩
    · cases trough
  · rintro ⟨c, r, member⟩
    obtain ⟨e, he, is⟩ := mem_bulletins.mp member
    refine ⟨e, he, ?_⟩
    unfold TxEntry.isTrough
    rw [is]

/-- R137: a TROUGH of the count, its reason by T. -/
theorem repeatTrough_offers (count : s.trough.count = some n) (differs : s.balls.trough ≠ some n)
    (none : s.link.queue.any TxEntry.isTrough = false) :
    repeatTrough s = offer (.trough (BitVec.ofNat 8 n)
      (match s.balls.trough with
        | some v => if v < n then 1 else 2
        | Option.none => 2)) s := by
  unfold repeatTrough
  rw [count]
  dsimp only
  rw [if_neg (by simp [differs, none])]
  rfl

/-- R137: while the count is unknown, none (log entry 46). -/
theorem repeatTrough_unknown (unknown : s.trough.count = none) : repeatTrough s = s := by
  unfold repeatTrough
  rw [unknown]

/-- R137: with room, every other bulletin stays. -/
theorem mem_bulletins_repeatTrough {x : Bulletin} (other : ∀ c r, x ≠ .trough c r) (room : s.link.queue.length < 16) :
    x ∈ bulletins (repeatTrough s).link.queue ↔ x ∈ bulletins s.link.queue := by
  unfold repeatTrough
  split
  · rfl
  · split
    · rfl
    · rw [(bulletins_offer (entersAnew_trough _ _) room).mem_iff, List.mem_cons, or_iff_right (other _ _)]

end

/-! ## The two timers (R81, R82) -/

section
variable {s : State}

/-- R82: the census timer restarted and the CENSUS offered. -/
def censusSent (s : State) : State :=
  { offer (.census (censusNow s)) s with peers := { s.peers with timer := some s.control.image.censusInterval } }

/-- R82: an expiry: the CENSUS, and in the game states what is owed. -/
theorem censusDue_eq (runs : s.peers.timer.isSome = true) : censusDue s =
    if inGame s = true then
      if isTrough s = true then repeatTrough (reofferModeEnds (censusSent s)) else reofferModeEnds (censusSent s)
    else censusSent s := by
  have sent : offer (.census (censusNow s)) (s.mapPeers fun v =>
      { v with timer := some s.control.image.censusInterval }) = censusSent s := by
    rw [offer_eq]
    unfold censusSent
    rw [offer_eq]
    rfl
  have setup : (censusSent s).control.setup = s.control.setup := offer_setup _ s
  have troughAfter : isTrough (reofferModeEnds (censusSent s)) = isTrough s :=
    isTrough_of_setup (reofferModeEnds_setup.trans setup)
  rw [← inGame_of_setup setup, ← troughAfter, ← sent]
  exact if_pos runs

theorem censusDue_peers (runs : s.peers.timer.isSome = true) :
    (censusDue s).peers = { s.peers with timer := some s.control.image.censusInterval } := by
  rw [censusDue_eq runs]
  split
  · split <;> simp <;> rfl
  · rfl

/-- R82: where nothing but the CENSUS is due. -/
theorem censusDue_plain (runs : s.peers.timer.isSome = true)
    (plain : inGame s = false ∨ ((∀ m, endOwed s m = false) ∧ isTrough s = false)) : censusDue s = censusSent s := by
  rw [censusDue_eq runs]
  rcases plain with out | ⟨calm, plain⟩
  · rw [if_neg (by simp [out])]
  · have none (m : ModeId) : endOwed (censusSent s) m = false :=
      (endOwed_congr (strap_of_setup (offer_setup _ s)) (congrArg (·.get m) (offer_frame _ s).2.2.2.2.1)).trans (calm m)
    rw [plain, reofferModeEnds_none none]
    exact ite_self _

end

/-! ## What a census interval leaves -/

/-- R100, R137: a state with every MODE END owed offered, and at the trough station its TROUGH repeated. -/
def intervalPassed (s : State) : State :=
  if isTrough s = true then repeatTrough (reofferModeEnds (censusSent s)) else reofferModeEnds (censusSent s)

section
variable {s : State} {m : ModeId} {e : ModeEntry}

theorem censusSent_offered (room : s.link.queue.length < 16) : CensusOffered s.link.queue (censusSent s).link.queue :=
  offer_census (.inl room)

theorem endOwed_censusSent : endOwed (censusSent s) = endOwed s := by
  have modes : (censusSent s).modes = s.modes := (offer_frame _ s).2.2.2.2.1
  exact funext fun m => endOwed_congr (strap_of_setup (offer_setup _ s)) (congrArg (·.get m) modes)

variable (room : s.link.queue.length + (List.finRange 32).countP (endOwed s) + 2 ≤ 16)
include room

theorem reoffered_censusSent : Reoffered (censusSent s) (List.finRange 32) (reofferModeEnds (censusSent s)) := by
  have longer := (censusSent_offered (s := s) (by omega)).length
  refine reofferModeEnds_reoffered ?_
  rw [endOwed_censusSent]
  omega

theorem room_after_modeEnds : (reofferModeEnds (censusSent s)).link.queue.length < 16 := by
  have longer := (censusSent_offered (s := s) (by omega)).length
  rw [(reoffered_censusSent room).length, endOwed_censusSent]
  omega

/-- R82, R100: but for the TROUGH, the queue after a census interval holds what it held, a CENSUS and the MODE ENDs. -/
theorem mem_bulletins_interval {x : Bulletin} (census : ∀ c, x ≠ .census c) (trough : ∀ n r, x ≠ .trough n r) :
    x ∈ bulletins (finish (intervalPassed s)).link.queue ↔
      x ∈ bulletins s.link.queue ∨ ∃ m, endOwed s m = true ∧ x = .modeEnd (modeByte m) := by
  have sent := (reoffered_censusSent room).carried x
  rw [(censusSent_offered (by omega)).others x census, endOwed_censusSent] at sent
  rw [mem_bulletins_finish census]
  unfold intervalPassed
  split
  · rw [mem_bulletins_repeatTrough trough (room_after_modeEnds room), sent]
    simp only [List.mem_finRange, true_and]
  · rw [sent]
    simp only [List.mem_finRange, true_and]

/-- R137: a TROUGH is queued after the MODE ENDs where one was queued before. -/
theorem trough_mem_after_modeEnds {n r : Byte} :
    .trough n r ∈ bulletins (reofferModeEnds (censusSent s)).link.queue ↔ .trough n r ∈ bulletins s.link.queue := by
  rw [(reoffered_censusSent room).carried, (censusSent_offered (by omega)).others _ (by simp), or_iff_left]
  rintro ⟨m, -, -, is⟩
  cases is

/-- R82: the CENSUS offered is still queued. -/
theorem census_queued_after_interval : (finish (intervalPassed s)).link.queue.any TxEntry.isCensus = true := by
  obtain ⟨c, queued⟩ := (censusSent_offered (s := s) (by omega)).queued
  have sent := ((reoffered_censusSent room).carried _).mpr (.inl queued)
  refine any_isCensus_finish (any_isCensus_iff.mpr ⟨c, ?_⟩)
  unfold intervalPassed
  split
  · exact (mem_bulletins_repeatTrough (by simp) (room_after_modeEnds room)).mpr sent
  · exact sent

/-- R100: the modes whose end was owed are marked; every other entry stays. -/
theorem modes_after_interval : (finish (intervalPassed s)).modes.get m =
    if endOwed s m = true then (s.modes.get m).map fun e => { e with endQueued := true } else s.modes.get m := by
  have sent := (reoffered_censusSent room).modes m
  simp only [List.mem_finRange, true_and, endOwed_censusSent] at sent
  have kept : (intervalPassed s).modes = (reofferModeEnds (censusSent s)).modes := by
    unfold intervalPassed
    split <;> simp
  have modes : (censusSent s).modes = s.modes := (offer_frame _ s).2.2.2.2.1
  rw [(finish_frame _).2.2.2.2.1, kept, sent, modes]

/-- R137: the TROUGH that the trough station repeats. -/
theorem trough_mem_after_interval {n : Nat} (here : isTrough s = true) (count : s.trough.count = some n)
    (differs : s.balls.trough ≠ some n) (none : ∀ q r, .trough q r ∉ bulletins s.link.queue) :
    .trough (BitVec.ofNat 8 n) (match s.balls.trough with
      | some v => if v < n then 1 else 2
      | Option.none => 2) ∈ bulletins (finish (intervalPassed s)).link.queue := by
  have trough : (reofferModeEnds (censusSent s)).trough = s.trough := by simp [censusSent]
  have balls : (reofferModeEnds (censusSent s)).balls = s.balls := by simp [censusSent]
  have absent : (reofferModeEnds (censusSent s)).link.queue.any TxEntry.isTrough = false := by
    rw [Bool.eq_false_iff, Ne, any_isTrough_iff]
    rintro ⟨q, r, queued⟩
    exact none q r ((trough_mem_after_modeEnds room).mp queued)
  unfold intervalPassed
  rw [mem_bulletins_finish (by simp), if_pos here,
    repeatTrough_offers (n := n) (by rw [trough, count]) (by rwa [balls]) absent,
    (bulletins_offer (entersAnew_trough _ _) (room_after_modeEnds room)).mem_iff, balls]
  exact List.mem_cons_self

/-- R137: with the trough count unknown no TROUGH is offered. -/
theorem trough_mem_before_interval {q r : Byte} (unknown : s.trough.count = none)
    (queued : .trough q r ∈ bulletins (finish (intervalPassed s)).link.queue) :
    .trough q r ∈ bulletins s.link.queue := by
  have trough : (reofferModeEnds (censusSent s)).trough = s.trough := by simp [censusSent]
  unfold intervalPassed at queued
  rw [mem_bulletins_finish (by simp), repeatTrough_unknown (s := reofferModeEnds _) (by rw [trough, unknown]),
    ite_self] at queued
  exact (trough_mem_after_modeEnds room).mp queued

end

/-- R81: a silence timer that runs out makes its station ABSENT. -/
theorem silenceExpires_eq {s : State} {j : StationNo} (runs : (peer s j).silence.isSome = true) :
    silenceExpires j s = { s with peers := { s.peers with
      table := s.peers.table.set j { peer s j with presence := .absent, silence := none } } } := if_pos runs

/-- Settles O48: the silence timer by its test, the census timer by `censusDue_eq`, what is owed by
`reoffered_censusSent`. -/
theorem silenceAndCensusTimersExpire : Obligations.SilenceAndCensusTimersExpire := by
  refine ⟨fun s => ⟨fun j => ⟨fun runs => settles_exec rfl (silenceExpires_eq runs),
    fun stopped => settles_exec rfl (if_neg (by simp [stopped]))⟩, fun runs => ?timer,
    fun stopped => settles_exec rfl (if_neg (by simp [stopped]))⟩, fun s runs game room => ?owed⟩
  case timer =>
    exact ⟨finish (censusDue s), rfl, ((finish_frame _).2.2.2.2.2.2.2.2.1).trans (censusDue_peers runs),
      fun plain => settles_of_eq (censusDue_plain runs plain)⟩
  case owed =>
    have due : censusDue s = intervalPassed s := (censusDue_eq runs).trans (if_pos game)
    have ran : exec .censusTimerExpiry s = .next (finish (intervalPassed s)) :=
      congrArg (fun v => Host.Outcome.next (finish v)) due
    have kept : (intervalPassed s).rules = s.rules ∧ (intervalPassed s).balls = s.balls ∧
        (intervalPassed s).pockets = s.pockets ∧ (intervalPassed s).trough = s.trough ∧
        (intervalPassed s).drivers = s.drivers := by
      unfold intervalPassed
      split <;> simp [censusSent]
    have peers : (intervalPassed s).peers.timer = some s.control.image.censusInterval := by
      rw [← due, censusDue_peers runs]
    refine ⟨_, ran, by simpa using peers, List.any_eq_true.mp (census_queued_after_interval room),
      fun m e entry owner time unqueued => ⟨?_, ?_⟩, fun m e entry other => ?_, fun m none => ?_,
      fun n here count differs none => ?_, fun unknown k member q r is => ?_, by simpa using kept⟩
    · have owed := (endOwed_iff entry).mpr ⟨owner, time, unqueued⟩
      exact mem_bulletins.mp ((mem_bulletins_interval room (by simp) (by simp)).mpr (.inr ⟨m, owed, rfl⟩))
    · rw [modes_after_interval room, if_pos ((endOwed_iff entry).mpr ⟨owner, time, unqueued⟩), entry]
      rfl
    · have settled : ¬ endOwed s m = true := fun owed => by
        obtain ⟨owner, time, unqueued⟩ := (endOwed_iff entry).mp owed
        rcases other with h | h | h
        · exact h owner
        · exact h time
        · exact Bool.false_ne_true (unqueued.symm.trans h)
      rw [modes_after_interval room, if_neg settled, entry]
    · rw [modes_after_interval room, if_neg (by simp [endOwed_of_none none]), none]
    · refine mem_bulletins.mp (trough_mem_after_interval room here count differs fun q r queued => ?_)
      obtain ⟨k, member, is⟩ := mem_bulletins.mp queued
      exact none k member q r is
    · exact mem_bulletins.mp (trough_mem_before_interval room unknown (mem_bulletins.mpr ⟨k, member, is⟩))

end Sys2Proof.Machine

end

