-- ==== Sys2Proof/Proofs/ServesOwed.lean ====
section
/-! SUPPORT. The serves that a judgement owes and clears (R139 to R141, R143). -/

namespace Sys2Proof.Machine

section
variable {d : DriverNo} {n : Nat} {s t w : State}

/-! ## A serve begun (R140, R141) -/

/-- R140: no serve is in progress. -/
def atRest (s : State) : Prop := s.trough.phase = .idle ∨ s.trough.phase = .waiting

/-- R140: the trough holds a ball, and its count has been taken since the last confirm. -/
def serveReady (s : State) : Prop := s.trough.recount = false ∧ 0 < s.trough.count.getD 0

/-- R141: there is no trough eject driver, or it is FAULTED. -/
def serveDead (s : State) : Prop := ∀ d, troughDriver s = some d → (unit s d).phase = .faulted

/-- R141: a serve that fails at once. -/
def serveFailed (s : State) : State := { s with
  control := { s.control with flags := { s.control.flags with ejector := true } }
  trough := { s.trough with pending := 0, phase := .idle, attempt := 1, window := none, recount := false } }

/-- R140: a serve asked for at attempt 1. -/
def serveAsked (d : DriverNo) (s : State) : State := { s with
  trough := { s.trough with phase := .serveWait, attempt := 1, window := none }
  drivers := (request d .eject 100 .trough s).drivers }

theorem not_atRest (busy : s.trough.phase = .serveWait ∨ s.trough.phase = .serving) : ¬ atRest s := by
  unfold atRest
  rcases busy with h | h <;> simp [h]

theorem serveNext_busy (busy : s.trough.phase = .serveWait ∨ s.trough.phase = .serving) : serveNext s = s :=
  if_neg (not_atRest busy)

theorem serveNext_done (rest : atRest s) (none : s.trough.pending = 0) :
    serveNext s = { s with trough := { s.trough with phase := .idle, recount := false } } :=
  (if_pos rest).trans (if_pos none)

theorem serveNext_waits (rest : atRest s) (owes : s.trough.pending ≠ 0) (unready : ¬ serveReady s) :
    serveNext s = { s with trough := { s.trough with phase := .waiting } } :=
  (if_pos rest).trans ((if_neg owes).trans (if_neg unready))

theorem serveNext_starts (rest : atRest s) (owes : s.trough.pending ≠ 0) (ready : serveReady s) :
    serveNext s = startServe 1 s :=
  (if_pos rest).trans ((if_neg owes).trans (if_pos ready))

/-- R168: a request of a block changes the Driver Controller alone. -/
theorem request_eq {band : Band} {r : Requester} (h : band ≠ .direct) :
    request d band n r s = { s with drivers := (request d band n r s).drivers } := by
  unfold request
  cases answered : answer d band s with
  | dropped => exact absurd answered (answer_ne_dropped h)
  | merged => dsimp only; split <;> rfl
  | faulted | skipped | refused | queued => rfl

/-- R140: the controller in SERVE-WAIT at attempt 1, its pulse still to be asked for. -/
def serveEntered (s : State) : State := { s with
  trough := { s.trough with phase := .serveWait, attempt := 1, window := none } }

/-- R141: the serve fails at once. -/
theorem startServe_dead (dead : serveDead s) : startServe 1 s = serveFailed s := by
  change askServe (serveEntered s) = _
  cases named : troughDriver s with
  | none =>
    have none : troughDriver (serveEntered s) = none := named
    unfold askServe
    rw [none]
    rfl
  | some d =>
    exact (askServe_eq (s := serveEntered s) named).trans (if_pos (dead d named))

/-- R140: the serve is asked for at 100 %. -/
theorem startServe_asks (named : troughDriver s = some d) (works : (unit s d).phase ≠ .faulted) :
    startServe 1 s = serveAsked d s := by
  have asked : startServe 1 s = request d .eject 100 .trough (serveEntered s) :=
    (askServe_eq (s := serveEntered s) named).trans (if_neg works)
  have drivers : (request d .eject 100 .trough (serveEntered s)).drivers = (request d .eject 100 .trough s).drivers :=
    request_drivers_congr rfl
  rw [asked, request_eq (by simp), drivers]
  rfl

/-! ## A serve owed (R139, R143) -/

/-- R139: `n` more serves pending. -/
def serveRaised (n : Nat) (s : State) : State := { s with
  trough := { s.trough with pending := min 6 (s.trough.pending + n) } }

theorem oweServes_here (here : isTrough s = true) : oweServes n s = serveNext (serveRaised n s) := if_pos here
theorem oweServes_elsewhere (elsewhere : isTrough s = false) : oweServes n s = s := if_neg (by simp [elsewhere])

/-- R139, R140: with none of its serves dead the trough station's pending serves rise. -/
theorem oweServes_pending (here : isTrough s = true) (named : troughDriver s = some d)
    (works : (unit s d).phase ≠ .faulted) :
    (oweServes n s).trough.pending = min 6 (s.trough.pending + n) := by
  rw [oweServes_here here]
  by_cases rest : atRest (serveRaised n s)
  · by_cases none : (serveRaised n s).trough.pending = 0
    · rw [serveNext_done rest none]
      rfl
    · by_cases ready : serveReady (serveRaised n s)
      · rw [serveNext_starts rest none ready, startServe_asks (s := serveRaised n s) named works]
        rfl
      · rw [serveNext_waits rest none ready]
        rfl
  · exact congrArg (fun t : State => t.trough.pending) (if_neg rest)

/-- R139 to R141, R143: one ball owed where none is pending. -/
theorem oweServes_owesOne (here : isTrough s = true) (none : s.trough.pending = 0) :
    owesOne True s (oweServes 1 s) := by
  have raised : serveRaised 1 s = { s with trough := { s.trough with pending := 1 } } := by
    unfold serveRaised
    rw [none]
    rfl
  have owes : (serveRaised 1 s).trough.pending ≠ 0 := by simp [raised]
  rw [oweServes_here here]
  refine ⟨fun busy => ?_, fun rest => ⟨fun unready => ?_, fun ready dead => ?_, fun d ready named works => ?_⟩⟩
  · rw [serveNext_busy (s := serveRaised 1 s) busy, raised]
  · rw [serveNext_waits (s := serveRaised 1 s) rest owes unready, raised]
  · rw [serveNext_starts (s := serveRaised 1 s) rest owes ready, startServe_dead (s := serveRaised 1 s) dead, raised]
    exact ⟨rfl, rfl⟩
  · rw [serveNext_starts (s := serveRaised 1 s) rest owes ready,
      startServe_asks (s := serveRaised 1 s) named works, raised]
    exact ⟨rfl, fun _ => request_drivers_congr rfl⟩

/-- R143: what `owesOne` says of `t` it says of any later state with the same Trough Controller, and from any earlier
one whose trough eject driver is alike. -/
theorem owesOne.transfer {calm : Prop} {s' t' : State} (owes : owesOne True s t) (before : s.trough = s'.trough)
    (driver : troughDriver s = troughDriver s')
    (faulted : ∀ d, (unit s d).phase = .faulted ↔ (unit s' d).phase = .faulted)
    (after : t'.trough = t.trough) (ejector : t.control.flags.ejector = true → t'.control.flags.ejector = true)
    (still : calm → s.drivers = s'.drivers ∧ t'.drivers = t.drivers) : owesOne calm s' t' := by
  unfold owesOne at owes ⊢
  simp only [before, driver, ne_eq, faulted, ← after] at owes
  obtain ⟨busy, rest⟩ := owes
  refine ⟨busy, fun rests => ?_⟩
  obtain ⟨waits, dies, asks⟩ := rest rests
  refine ⟨waits, fun ready dead => ?_, fun d ready named works => ?_⟩
  · obtain ⟨flag, trough⟩ := dies ready dead
    exact ⟨ejector flag, trough⟩
  · obtain ⟨trough, drivers⟩ := asks d ready named works
    refine ⟨trough, fun calm => ?_⟩
    obtain ⟨same, kept⟩ := still calm
    rw [kept, drivers trivial]
    exact request_drivers_congr same

/-- R139: of Station Control a serve owed changes EJECTOR alone, which it may set. -/
theorem oweServes_control : (oweServes n s).control = s.control ∨
    (oweServes n s).control = { s.control with flags := { s.control.flags with ejector := true } } := by
  cases here : isTrough s with
  | false => exact .inl (congrArg State.control (oweServes_elsewhere here))
  | true =>
    rw [oweServes_here here]
    unfold serveNext
    split
    · split
      · exact .inl rfl
      · split
        · by_cases dead : serveDead (serveRaised n s)
          · rw [startServe_dead dead]
            exact .inr rfl
          · obtain ⟨d, named, works⟩ : ∃ d, troughDriver (serveRaised n s) = some d ∧
                (unit (serveRaised n s) d).phase ≠ .faulted := by
              unfold serveDead at dead
              push Not at dead
              exact dead
            rw [startServe_asks named works]
            exact .inl rfl
        · exact .inl rfl
    · exact .inl rfl

/-! ## Serves cleared (R139) -/

/-- R139: the Trough Controller with the serves not yet requested cleared. -/
def TroughCtl.cleared (t : TroughCtl) : TroughCtl :=
  if t.phase = .serveWait ∨ t.phase = .serving then { t with pending := min 1 t.pending }
  else { t with pending := 0, phase := .idle, recount := false }

/-- R139: clearing the serves changes the Trough Controller alone. -/
theorem clearServes_eq : clearServes s = { s with trough := s.trough.cleared } := by
  change serveNext { s with trough := { s.trough with
    pending := if s.trough.phase = .serveWait ∨ s.trough.phase = .serving then min 1 s.trough.pending else 0 } } = _
  unfold TroughCtl.cleared
  by_cases busy : s.trough.phase = .serveWait ∨ s.trough.phase = .serving
  · rw [if_pos busy, if_pos busy]
    exact serveNext_busy busy
  · have rest : atRest s := by
      unfold atRest
      cases phase : s.trough.phase <;> simp [phase] at busy ⊢
    rw [if_neg busy, if_neg busy]
    exact serveNext_done rest rfl

end

end Sys2Proof.Machine

end

