-- ==== Sys2Proof/Proofs/Judgements.lean ====
section
/-! SUPPORT. What the judgements change (R103, R104, R142 to R144): the multiball phase, a ball over, a B of 0. -/

namespace Sys2Proof

/-- The pass of number `k`, which the others' passes neither anticipate nor undo: what `g` reads of the result it reads
of that pass alone. -/
theorem eachUp_at {σ τ : Type} {n : Nat} (g : σ → τ) (P : σ → Prop) (f : Fin n → σ → σ) (k : Fin n) {s : σ}
    (start : P s) (keeps : ∀ i t, P t → P (f i t)) (others : ∀ i t, i ≠ k → g (f i t) = g t) :
    ∃ t, P t ∧ g t = g s ∧ g (eachUp n f s) = g (f k t) := by
  have stays (l : List (Fin n)) (absent : k ∉ l) (t : σ) : g (l.foldl (fun t i => f i t) t) = g t := by
    induction l generalizing t with
    | nil => rfl
    | cons i l ih =>
      rw [List.mem_cons, not_or] at absent
      rw [List.foldl_cons, ih absent.2, others i t (Ne.symm absent.1)]
  obtain ⟨before, after, split⟩ := List.append_of_mem (List.mem_finRange k)
  have once := List.nodup_finRange n
  rw [split, List.nodup_append, List.nodup_cons] at once
  obtain ⟨-, ⟨absentAfter, -⟩, apart⟩ := once
  have absentBefore : k ∉ before := fun h => apart k h k List.mem_cons_self rfl
  refine ⟨before.foldl (fun t i => f i t) s, foldl_inv P _ (fun t i => keeps i t) _ _ start,
    stays before absentBefore s, ?_⟩
  rw [eachUp, split, List.foldl_append, List.foldl_cons, stays after absentAfter]

end Sys2Proof

namespace Sys2Proof.Machine

section
variable {m k : ModeId} {d : DriverNo} {n : Nat} {o : StationNo} {p : ModeId → ModeEntry → Bool} {e : ModeEntry}
variable {s t u : State}

/-! ## Entries made and ended (R94 to R97, R172) -/

/-- `t` is `s` with its mode table changed, the hold bindings following; refused starts may have been counted, and no
driver has become FAULTED or ceased to be. -/
structure ModesMoved (s t : State) : Prop where
  rest : t = { s with
    control := { s.control with counters := t.control.counters }, modes := t.modes, drivers := t.drivers }
  faulted : ∀ d, ((unit t d).phase = .faulted) = ((unit s d).phase = .faulted)

theorem ModesMoved.refl : ModesMoved s s := ⟨rfl, fun _ => rfl⟩

theorem ModesMoved.trans (h : ModesMoved s t) (g : ModesMoved t u) : ModesMoved s u := by
  refine ⟨?_, fun d => (g.faulted d).trans (h.faulted d)⟩
  have first := h.rest
  refine g.rest.trans ?_
  rw [first]

theorem ModesMoved.ite {q : Prop} [Decidable q] (h : ModesMoved s t) (g : ModesMoved s u) :
    ModesMoved s (if q then t else u) := by
  split
  · exact h
  · exact g

/-- R172: the hold bindings that follow a change of the mode table. -/
theorem ModesMoved.changeLit {g : State → State} (h : ModesMoved s (g s)) : ModesMoved s (changeLit g s) := by
  refine h.trans ⟨?_, fun d => eachUp_keeps (fun t => (unit t d).phase = .faulted) _ (fun _ _ => followLit_faulted) _⟩
  have changed := changeLit_eq g s
  generalize Machine.changeLit g s = t at changed ⊢
  rw [changed]

theorem putMode_moves {x : Option ModeEntry} : ModesMoved s (putMode m x s) := ⟨rfl, fun _ => rfl⟩

theorem endMode_moves : ModesMoved s (endMode m s) := putMode_moves.changeLit

theorem startMode_moves : ModesMoved s (startMode m o n s) := by
  unfold startMode
  split
  · exact .refl
  · dsimp only
    refine .ite ?_ .refl
    split
    · exact putMode_moves
    · exact .ite putMode_moves.changeLit ⟨rfl, fun _ => rfl⟩

theorem endModes_moves : ModesMoved s (endModes p s) := by
  refine eachUp_inv (ModesMoved s) _ (fun m t ht => ht.trans ?_) s .refl
  split
  · exact .ite endMode_moves .refl
  · exact .refl

theorem startMultiModes_moves : ModesMoved s (startMultiModes s) := by
  unfold startMultiModes
  split
  · exact .refl
  · refine eachUp_inv (ModesMoved s) _ (fun m t ht => ht.trans ?_) s .refl
    split
    · exact .ite startMode_moves .refl
    · exact .refl

theorem endMode_control : (endMode m s).control = s.control := by
  rw [endMode_eq]

theorem endModes_control : (endModes p s).control = s.control :=
  eachUp_keeps State.control _ (fun m t => by
    split
    · split
      · exact endMode_control
      · rfl
    · rfl) s

theorem get_endMode : (endMode m s).modes.get k = if k = m then none else s.modes.get k := by
  rw [endMode_eq]
  exact Tab.get_set _ _ _ _

/-- R95: the entries that satisfy `p` end, and no other. -/
theorem get_endModes : (endModes p s).modes.get m = (s.modes.get m).filter fun e => !p m e := by
  obtain ⟨t, -, same, ended⟩ := eachUp_at (fun t : State => t.modes.get m) (fun _ => True)
    (fun m t => match t.modes.get m with
      | some e => if p m e then endMode m t else t
      | none => t) m (s := s) trivial (fun _ _ _ => trivial) fun k t other => by
        split
        · split
          · rw [get_endMode, if_neg (Ne.symm other)]
          · rfl
        · rfl
  refine ended.trans ?_
  rw [same]
  cases entry : s.modes.get m with
  | none => rw [same, entry]; rfl
  | some e =>
    dsimp only
    cases ends : p m e with
    | true => rw [if_pos rfl, get_endMode, if_pos rfl, Option.filter_some, ends]; rfl
    | false => rw [if_neg (by simp), same, entry, Option.filter_some, ends]; rfl

/-- R97: a mode has an entry, owned by `o`. -/
def ownedBy (o : StationNo) (m : ModeId) (s : State) : Prop := ∃ e, s.modes.get m = some e ∧ e.owner = o

theorem changeLit_modes (g : State → State) : (changeLit g s).modes = (g s).modes := (changeLit_frame g s).2.2.2.2.1

/-- R97: a start leaves an entry its owner. -/
theorem startMode_owned {j : StationNo} (owned : ownedBy o m s) : ownedBy o m (startMode k j n s) := by
  obtain ⟨e, entry, owner⟩ := owned
  have stays : ownedBy o m s := ⟨e, entry, owner⟩
  unfold startMode
  split
  · exact stays
  · dsimp only
    split
    · split
      · rename_i x at_
        by_cases same : m = k
        · subst same
          have extended : some x = some e := at_.symm.trans entry
          cases extended
          exact ⟨_, Tab.get_set_self _ _ _, owner⟩
        · exact ⟨e, (Tab.get_set_other _ _ same).trans entry, owner⟩
      · rename_i free
        have other : m ≠ k := fun same => by
          subst same
          exact absurd (entry.symm.trans free) (by simp)
        split
        · exact ⟨e, (congrArg (·.get m) (changeLit_modes _)).trans ((Tab.get_set_other _ _ other).trans entry), owner⟩
        · exact stays
    · exact stays

theorem startMultiModes_owned (owned : ownedBy o m s) : ownedBy o m (startMultiModes s) := by
  unfold startMultiModes
  split
  · exact owned
  · refine eachUp_inv (ownedBy o m) _ (fun k t ht => ?_) s owned
    split
    · split
      · exact startMode_owned ht
      · exact ht
    · exact ht

/-- R103: with no mode that starts with multiball none is started. -/
theorem startMultiModes_none (none : ∀ m d, modeDef s m = some d → d.startsMulti = false) : startMultiModes s = s := by
  unfold startMultiModes
  split
  · rfl
  · refine eachUp_inv (fun t => t = s) _ (fun m t ht => ?_) s rfl
    subst ht
    split
    · rename_i d defined
      exact if_neg (by simp [none m d defined])
    · rfl

/-! ## The multiball phase (R103, R104, R142) -/

/-- R142: the phase that the in-play count gives. -/
def phaseJudged (s : State) : Phase :=
  if s.balls.phase = .single ∧ inPlay s = true ∧ 2 ≤ s.balls.inPlay then .multi
  else if s.balls.phase = .multi ∧ s.balls.inPlay ≤ 1 then .single
  else s.balls.phase

theorem judgePhase_moves : ModesMoved (setPhase (phaseJudged s) s) (judgePhase s) := by
  unfold phaseJudged judgePhase
  split
  · exact startMultiModes_moves
  · split
    · exact endModes_moves
    · exact .refl

/-- R142: in PLAY the phase follows B. -/
theorem phaseJudged_play (play : inPlay s = true) :
    phaseJudged s = if 2 ≤ s.balls.inPlay then .multi else .single := by
  unfold phaseJudged
  cases phase : s.balls.phase <;> by_cases many : 2 ≤ s.balls.inPlay <;> simp [play, many] <;> omega

/-- R142: where the phase stays, nothing is done. -/
theorem judgePhase_stays (same : phaseJudged s = s.balls.phase) : judgePhase s = s := by
  unfold phaseJudged at same
  unfold judgePhase
  split
  · rename_i turns
    rw [if_pos turns, turns.1] at same
    cases same
  · rename_i stays
    rw [if_neg stays] at same
    split
    · rename_i turns
      rw [if_pos turns, turns.1] at same
      cases same
    · rfl

/-- R142: outside PLAY a SINGLE phase stays, and so it does while at most one ball is in play. -/
theorem phaseJudged_single (single : s.balls.phase = .single) (few : inPlay s = false ∨ s.balls.inPlay < 2) :
    phaseJudged s = .single := by
  unfold phaseJudged
  rw [single]
  rcases few with out | few
  · simp [out]
  · rw [if_neg (by omega)]
    simp

/-- R103, R104: an entry ends, or keeps its owner. -/
theorem judgePhase_owned (owned : ownedBy o m s) :
    (judgePhase s).modes.get m = none ∨ ownedBy o m (judgePhase s) := by
  unfold judgePhase
  split
  · exact .inr (startMultiModes_owned (s := setPhase .multi s) owned)
  · split
    · obtain ⟨e, entry, owner⟩ := owned
      have kept : (endMultiModes (setPhase .single s)).modes.get m = _ := get_endModes
      rw [show (setPhase .single s).modes.get m = some e from entry] at kept
      have either (q : ModeEntry → Bool) : (some e).filter q = none ∨ (some e).filter q = some e := by
        rw [Option.filter_some]
        exact (ite_eq_or_eq _ _ _).symm
      exact (either _).imp kept.trans fun stays => ⟨e, kept.trans stays, owner⟩
    · exact .inr owned

/-- R103: where no mode starts with multiball, a phase that does not turn SINGLE leaves the modes. -/
theorem judgePhase_modes (none : ∀ m d, modeDef s m = some d → d.startsMulti = false)
    (single : s.balls.phase = .single) : (judgePhase s).modes = s.modes := by
  unfold judgePhase
  split
  · rw [startMultiModes_none (s := setPhase .multi s) none]
    rfl
  · rw [if_neg (by simp [single])]

/-! ## A ball over (R144) -/

/-- R144: the mode table empty, the combo and the search ended, the phase SINGLE, the serves cleared, READY. -/
theorem ballOver_eq : ballOver s = { s with
    control := { s.control with station := .ready }
    rules := { s.rules with combo := 0, comboTimer := none }
    modes := (endAllModes (setPhase .single s)).modes
    balls := { s.balls with phase := .single, search := .idle, round := 0, todo := [], searchTimer := none }
    trough := s.trough.cleared
    drivers := (endAllModes (setPhase .single s)).drivers } := by
  have ended : ModesMoved (setPhase .single s) (endAllModes (setPhase .single s)) := endModes_moves
  have control : (endAllModes (setPhase .single s)).control = s.control := endModes_control
  unfold ballOver
  rw [clearServes_eq]
  generalize endAllModes (setPhase .single s) = t at ended control ⊢
  rw [ended.rest, control]
  rfl

theorem ballOver_modes : (ballOver s).modes.get m = none := by
  have ended : (endAllModes (setPhase .single s)).modes.get m = _ := get_endModes
  have same : (ballOver s).modes = (endAllModes (setPhase .single s)).modes := by
    rw [ballOver_eq]
  rw [same, ended]
  cases (setPhase .single s).modes.get m <;> rfl

/-! ## A B of 0 (R143) -/

section
variable {cause : ZeroCause} {before : Nat} {started : Bool}

/-- R143: T is known and B is 0. -/
def zeroJudged (s : State) : Prop := s.balls.trough.isSome = true ∧ s.balls.inPlay = 0

/-- R143: a B of 0 in TILT, or by a drain in PLAY, ends the ball. -/
def zeroEnds (cause : ZeroCause) (before : Nat) (s : State) : Prop :=
  zeroJudged s ∧ (s.control.station = .tilt ∨ (s.control.station = .play ∧ cause.drains = true ∧ 0 < before))

theorem judged_of_zeroJudged (zero : zeroJudged s) : ¬ (s.balls.trough = none ∨ s.balls.inPlay ≠ 0) := by
  obtain ⟨known, none⟩ := zero
  rintro (unknown | some)
  · rw [unknown] at known
    cases known
  · exact some none

theorem judgeZero_ends (ends : zeroEnds cause before s) : judgeZero cause before started s = ballOver s := by
  obtain ⟨zero, tilt | ⟨play, drains, was⟩⟩ := ends
  · unfold judgeZero
    rw [if_neg (judged_of_zeroJudged zero), tilt]
  · unfold judgeZero
    rw [if_neg (judged_of_zeroJudged zero), play]
    exact if_pos ⟨drains, was⟩

/-- R143: a ball that has gone elsewhere is replaced. -/
theorem judgeZero_replaces (zero : zeroJudged s) (stays : ¬ zeroEnds cause before s) (play : s.control.station = .play)
    (replaces : cause.replaces = true) :
    judgeZero cause before started s = if s.trough.pending = 0 ∧ started = false then oweServes 1 s else s := by
  have undrained : ¬ (cause.drains = true ∧ 0 < before) := fun h => stays ⟨zero, .inr ⟨play, h⟩⟩
  unfold judgeZero replaceBall
  rw [if_neg (judged_of_zeroJudged zero), play]
  dsimp only
  rw [if_neg undrained, if_pos replaces]
  simp only [Bool.not_eq_true']

theorem judgeZero_stays (stays : ¬ zeroEnds cause before s)
    (other : ¬ zeroJudged s ∨ s.control.station ≠ .play ∨ cause.replaces = false) :
    judgeZero cause before started s = s := by
  by_cases zero : zeroJudged s
  · unfold judgeZero
    rw [if_neg (judged_of_zeroJudged zero)]
    split
    · rename_i tilt
      exact absurd ⟨zero, .inl tilt⟩ stays
    · rename_i play
      have undrained : ¬ (cause.drains = true ∧ 0 < before) := fun h => stays ⟨zero, .inr ⟨play, h⟩⟩
      have kept := (other.resolve_left fun h => h zero).resolve_left fun h => h play
      rw [if_neg undrained, if_neg (by simp [kept])]
    · rfl
  · refine if_pos ?_
    unfold zeroJudged at zero
    by_contra judged
    obtain ⟨known, none⟩ := not_or.mp judged
    exact zero ⟨Option.isSome_iff_ne_none.mpr known, not_not.mp none⟩

/-- R139: of Station Control a serve owed changes EJECTOR alone. -/
theorem oweServes_setup {n : Nat} : (oweServes n s).control.setup = s.control.setup := by
  rcases oweServes_control (n := n) (s := s) with same | ejector
  · rw [same]
  · rw [ejector]
    rfl

/-- R143: what does not end the ball owes one, or nothing. -/
theorem judgeZero_cases (stays : ¬ zeroEnds cause before s) :
    judgeZero cause before started s = s ∨
      (isTrough s = true ∧ zeroJudged s ∧ s.control.station = .play ∧ cause.replaces = true ∧ s.trough.pending = 0) ∧
        judgeZero cause before started s = oweServes 1 s := by
  by_cases other : ¬ zeroJudged s ∨ s.control.station ≠ .play ∨ cause.replaces = false
  · exact .inl (judgeZero_stays stays other)
  · simp only [not_or, not_not, Bool.not_eq_false] at other
    obtain ⟨zero, play, replaces⟩ := other
    rw [judgeZero_replaces zero stays play replaces]
    split
    · rename_i owes
      cases here : isTrough s with
      | true => exact .inr ⟨⟨rfl, zero, play, replaces, owes.1⟩, rfl⟩
      | false => exact .inl (oweServes_elsewhere here)
    · exact .inl rfl

/-- R143: what does not end the ball leaves the setup, the Rule Engine, the mode table and the Ball Accounting Unit. -/
theorem judgeZero_kept (stays : ¬ zeroEnds cause before s) :
    (judgeZero cause before started s).control.setup = s.control.setup ∧
      (judgeZero cause before started s).rules = s.rules ∧ (judgeZero cause before started s).modes = s.modes ∧
      (judgeZero cause before started s).balls = s.balls := by
  rcases judgeZero_cases (started := started) stays with same | ⟨-, owes⟩
  · rw [same]
    exact ⟨rfl, rfl, rfl, rfl⟩
  · rw [owes]
    obtain ⟨-, -, -, rules, modes, -, balls, -⟩ := oweServes_frame 1 s
    exact ⟨oweServes_setup, rules, modes, balls⟩

end

end

end Sys2Proof.Machine

end

