-- ==== Sys2Proof/Proofs/CensusModes.lean ====
section
/-! SUPPORT. The mode table under a census (R87, R105, R172). -/

namespace Sys2Proof.Machine

section
variable {m k : ModeId} {o : StationNo} {reports : Tab 32 Bool} {e : ModeEntry} {d : ModeDef} {s t : State}

/-! ## One mode reconciled (R105) -/

/-- R105: mode `m` reconciled with what a census of `o` reports. -/
def reconcileAt (o : StationNo) (reports : Tab 32 Bool) (m : ModeId) (t : State) : State :=
  if reports.get m then
    if t.control.station = .play ∨ t.control.station = .tilt then makeFromCensus changeLit m o t else t
  else
    match t.modes.get m with
    | some e => if e.owner = o then endMode m t else t
    | none => t

theorem makeFromCensus_moves : ModesMoved t (makeFromCensus changeLit m o t) := by
  unfold makeFromCensus
  split
  · exact .ite putMode_moves.changeLit .refl
  · exact .refl

theorem reconcileAt_moves : ModesMoved t (reconcileAt o reports m t) := by
  unfold reconcileAt
  refine .ite (.ite makeFromCensus_moves .refl) ?_
  split
  · exact .ite endMode_moves .refl
  · exact .refl

theorem changeLit_control {g : State → State} (same : (g t).control = t.control) :
    (changeLit g t).control = t.control := by
  rw [changeLit_eq]
  exact same

theorem reconcileAt_control : (reconcileAt o reports m t).control = t.control := by
  unfold reconcileAt makeFromCensus
  split
  · split
    · split
      · split
        · exact changeLit_control rfl
        · rfl
      · rfl
    · rfl
  · split
    · split
      · exact endMode_control
      · rfl
    · rfl

/-- R105: an entry that stands is not made again. -/
theorem makeFromCensus_stands (entry : t.modes.get m = some e) : makeFromCensus changeLit m o t = t := by
  unfold makeFromCensus
  rw [entry]
  cases modeDef t m <;> rfl

/-- R105: without a definition none is made. -/
theorem makeFromCensus_undefined (undefined : modeDef t m = none) : makeFromCensus changeLit m o t = t := by
  unfold makeFromCensus
  rw [undefined]

/-- R105: one with a definition is made while the table has room. -/
theorem makeFromCensus_fresh (free : t.modes.get m = none) (defined : modeDef t m = some d) (room : modeCount t < 12) :
    (makeFromCensus changeLit m o t).modes.get m = some (freshMode d o (timeOf d.duration)) := by
  unfold makeFromCensus
  rw [defined, free]
  dsimp only
  rw [if_pos (show modeCount t < Config.modeMax from room), changeLit_modes]
  exact Tab.get_set_self _ _ _

theorem get_makeFromCensus_other (other : k ≠ m) :
    (makeFromCensus changeLit m o t).modes.get k = t.modes.get k := by
  unfold makeFromCensus
  split
  · split
    · rw [changeLit_modes]
      exact Tab.get_set_other _ _ other
    · rfl
  · rfl

theorem get_reconcileAt_other (other : k ≠ m) : (reconcileAt o reports m t).modes.get k = t.modes.get k := by
  unfold reconcileAt
  split
  · split
    · exact get_makeFromCensus_other other
    · rfl
  · split
    · split
      · rw [get_endMode, if_neg other]
      · rfl
    · rfl

/-- R105: no mode is made that the census does not report. -/
theorem isSome_reconcileAt (some : ((reconcileAt o reports m t).modes.get m).isSome = true) :
    (t.modes.get m).isSome = true ∨ reports.get m = true := by
  cases reported : reports.get m with
  | true => exact .inr rfl
  | false =>
    left
    unfold reconcileAt at some
    rw [reported, if_neg (by simp)] at some
    cases entry : t.modes.get m with
    | none => rw [entry] at some; rw [← entry]; exact some
    | some e => rfl

/-! ## Every mode reconciled -/

theorem reconcile_moves : ModesMoved s (reconcile o reports s) :=
  eachUp_inv (ModesMoved s) _ (fun _ _ h => h.trans reconcileAt_moves) s .refl

theorem reconcile_control : (reconcile o reports s).control = s.control :=
  eachUp_keeps State.control (reconcileAt o reports) (fun _ _ => reconcileAt_control) s

/-- R105: a census changes the mode table, and the drivers by their hold bindings, alone. -/
theorem reconcile_eq : reconcile o reports s = { s with
    modes := (reconcile o reports s).modes, drivers := (reconcile o reports s).drivers } := by
  have moved := (reconcile_moves (o := o) (reports := reports) (s := s)).rest
  rwa [reconcile_control] at moved

/-- R105: while a census is taken, Station Control stands, and only modes that it reports are added. -/
structure Reconciling (reports : Tab 32 Bool) (s t : State) : Prop where
  control : t.control = s.control
  made : ∀ k, (t.modes.get k).isSome = true → (s.modes.get k).isSome = true ∨ reports.get k = true

theorem Reconciling.step (h : Reconciling reports s t) : Reconciling reports s (reconcileAt o reports m t) := by
  refine ⟨reconcileAt_control.trans h.control, fun k some => ?_⟩
  by_cases same : k = m
  · subst same
    exact (isSome_reconcileAt some).elim (h.made k) .inr
  · rw [get_reconcileAt_other same] at some
    exact h.made k some

/-- R105: what becomes of a mode is what its own pass makes of it. -/
theorem get_reconcile : ∃ t, Reconciling reports s t ∧ t.modes.get m = s.modes.get m ∧
    (reconcile o reports s).modes.get m = (reconcileAt o reports m t).modes.get m :=
  eachUp_at (fun t : State => t.modes.get m) (Reconciling reports s) (reconcileAt o reports) m
    ⟨rfl, fun _ some => .inl some⟩ (fun _ _ h => h.step) fun _ _ other => get_reconcileAt_other (Ne.symm other)

/-- R105: of the modes that the census does not report, its origin's own end and the others stay. -/
theorem get_reconcile_unreported (unreported : reports.get m = false) :
    (reconcile o reports s).modes.get m = (s.modes.get m).filter fun e => e.owner != o := by
  obtain ⟨t, -, same, done⟩ := get_reconcile (o := o) (reports := reports) (s := s) (m := m)
  rw [done, ← same]
  unfold reconcileAt
  rw [unreported, if_neg (by simp)]
  cases entry : t.modes.get m with
  | none => exact entry
  | some e =>
    dsimp only
    rw [Option.filter_some]
    by_cases own : e.owner = o
    · rw [if_pos own, get_endMode, if_pos rfl, if_neg (by simp [own])]
    · rw [if_neg own, entry, if_pos (by simp [own])]

/-- R105: a reported mode that has an entry keeps it. -/
theorem get_reconcile_stands (reported : reports.get m = true) (entry : s.modes.get m = some e) :
    (reconcile o reports s).modes.get m = some e := by
  obtain ⟨t, -, same, done⟩ := get_reconcile (o := o) (reports := reports) (s := s) (m := m)
  have entry := same.trans entry
  rw [done]
  unfold reconcileAt
  rw [if_pos reported, makeFromCensus_stands entry, ite_self]
  exact entry

/-- R105: outside PLAY and TILT none is made, and none without a definition. -/
theorem get_reconcile_unmade (none : s.modes.get m = none)
    (idle : ¬ (s.control.station = .play ∨ s.control.station = .tilt) ∨ modeDef s m = Option.none) :
    (reconcile o reports s).modes.get m = Option.none := by
  obtain ⟨t, going, same, done⟩ := get_reconcile (o := o) (reports := reports) (s := s) (m := m)
  have free := same.trans none
  have setup := congrArg Control.setup going.control
  cases reported : reports.get m with
  | false => rw [get_reconcile_unreported reported, none]; rfl
  | true =>
    rw [done]
    unfold reconcileAt
    rw [if_pos reported, station_of_setup setup]
    rcases idle with out | undefined
    · rw [if_neg out]
      exact free
    · have undefined : modeDef t m = Option.none := (congrArg (·.modes.get m) (image_of_setup setup)).trans undefined
      rw [makeFromCensus_undefined undefined, ite_self]
      exact free

theorem countP_or_le {α : Type} (p q : α → Bool) (l : List α) :
    l.countP (fun a => p a || q a) ≤ l.countP p + l.countP q := by
  induction l with
  | nil => exact Nat.le_refl 0
  | cons a l ih =>
    rw [List.countP_cons, List.countP_cons, List.countP_cons]
    cases p a <;> cases q a <;> simp <;> omega

/-- R105: with at most 12 modes in the table and reported, there is room for one more of them. -/
theorem Reconciling.room (h : Reconciling reports s t)
    (few : modeCount s + (List.finRange 32).countP (fun m => reports.get m) ≤ 12) (free : t.modes.get m = none)
    (reported : reports.get m = true) : modeCount t < 12 := by
  have fewer : (List.finRange 32).countP (fun k => (t.modes.get k).isSome) <
      (List.finRange 32).countP (fun k => (s.modes.get k).isSome || reports.get k) :=
    countP_finRange_lt m (fun k some => by simpa using h.made k some) (by rw [free]; rfl)
      (by rw [reported, Bool.or_true])
  have either := countP_or_le (fun k => (s.modes.get k).isSome) (fun k => reports.get k) (List.finRange 32)
  unfold modeCount at few ⊢
  rw [Tab.count_eq] at few ⊢
  omega

/-- R105: in PLAY and TILT a reported mode with a definition and no entry is made. -/
theorem get_reconcile_makes (playing : s.control.station = .play ∨ s.control.station = .tilt)
    (few : modeCount s + (List.finRange 32).countP (fun m => reports.get m) ≤ 12) (reported : reports.get m = true)
    (free : s.modes.get m = none) (defined : modeDef s m = some d) :
    (reconcile o reports s).modes.get m = some (freshMode d o (timeOf d.duration)) := by
  obtain ⟨t, going, same, done⟩ := get_reconcile (o := o) (reports := reports) (s := s) (m := m)
  have free := same.trans free
  have setup := congrArg Control.setup going.control
  have defined : modeDef t m = some d := (congrArg (·.modes.get m) (image_of_setup setup)).trans defined
  rw [done]
  unfold reconcileAt
  rw [if_pos reported, if_pos ((station_of_setup setup).symm ▸ playing)]
  exact makeFromCensus_fresh free defined (going.room few free reported)

/-- R105: a census that reports exactly the modes in the table changes nothing. -/
theorem reconcile_agrees (agrees : ∀ m, reports.get m = (s.modes.get m).isSome) : reconcile o reports s = s := by
  refine eachUp_fixed (f := reconcileAt o reports) fun m => ?_
  unfold reconcileAt
  rw [agrees]
  cases entry : s.modes.get m with
  | none => rfl
  | some e =>
    rw [makeFromCensus_stands entry, ite_self]
    rfl

end

/-! ## The hold bindings of entries that end (R87, R172) -/

section
variable {v s t : State} {f : FeatureNo} {o : StationNo} {x y : DriverCtl} {mid last table : Tab 32 (Option ModeEntry)}

/-- `s` with another mode table. -/
def State.withModes (table : Tab 32 (Option ModeEntry)) (s : State) : State := { s with modes := table }

/-- R20: entries that end light no feature. -/
theorem isLit_withModes_le (fewer : ∀ m, (table.get m).isSome = true → (s.modes.get m).isSome = true) :
    isLit (s.withModes table) f = true → isLit s f = true := by
  have overlay : overlaid (s.withModes table) f = true → overlaid s f = true := by
    rw [overlaid_iff, overlaid_iff]
    rintro ⟨m, link, entry⟩
    exact ⟨m, link, fewer m entry⟩
  unfold isLit
  rw [effective_eq, effective_eq, show resting (s.withModes table) f = resting s f from rfl]
  split
  · exact id
  · cases lights : overlaid (s.withModes table) f with
    | true => rw [overlay lights]; exact id
    | false =>
      rw [if_neg (by simp)]
      split
      · exact fun _ => rfl
      · exact id

/-- The feature table of `s` with OFF in the place of each feature that is not lit in `v`: it lights what `v` does. -/
def litTable (v s : State) : Tab 32 Resting := .ofFn fun f => if isLit v f then resting s f else .off

theorem isLit_litTable (dims : isLit v f = true → isLit s f = true) :
    isLit (s.withFeatures (litTable v s)) f = isLit v f := by
  have rests : (litTable v s).get f = if isLit v f then resting s f else .off := Tab.get_ofFn _ f
  cases lit : isLit v f with
  | true =>
    rw [lit, if_pos rfl] at rests
    rw [isLit_withFeatures rests, dims lit]
  | false =>
    rw [lit, if_neg (by simp)] at rests
    exact isLit_of_off_or_held (s := s.withFeatures (litTable v s)) (.inl rests)

/-- R172: drivers released as some entries end and then more are released as all of them end. -/
theorem holdsFollow_withModes_trans (dims : ∀ f, isLit (s.withModes mid) f = true → isLit s f = true)
    (dimsMore : ∀ f, isLit (s.withModes last) f = true → isLit (s.withModes mid) f = true)
    (first : holdsFollow s (s.withModes mid) x)
    (second : holdsFollow ((s.withModes mid).withDrivers x) ((s.withModes last).withDrivers x) y) :
    holdsFollow s (s.withModes last) y := by
  have atMid (f : FeatureNo) : isLit (s.withFeatures (litTable (s.withModes mid) s)) f = isLit (s.withModes mid) f :=
    isLit_litTable (dims f)
  have atLast (f : FeatureNo) : isLit (s.withFeatures (litTable (s.withModes last) s)) f = isLit (s.withModes last) f :=
    isLit_litTable fun lit => dims f (dimsMore f lit)
  have whole : holdsFollow s (s.withFeatures (litTable (s.withModes last) s)) y := by
    refine holdsFollow_trans (mid := litTable (s.withModes mid) s) (x := x) (fun f lit => dims f (atMid f ▸ lit))
      (fun f lit => (atMid f).trans (dimsMore f (atLast f ▸ lit))) ?_ ?_
    · exact holdsFollow_congr (v := s.withModes mid) rfl (fun _ => rfl) (fun _ _ _ => rfl) (fun _ f _ => atMid f) first
    · exact holdsFollow_congr (v := (s.withModes last).withDrivers x) rfl (fun _ => rfl) (fun _ f _ => atMid f)
        (fun _ f _ => atLast f) second
  exact holdsFollow_congr (v := s.withFeatures (litTable (s.withModes last) s)) rfl (fun _ => rfl) (fun _ _ _ => rfl)
    (fun _ f _ => (atLast f).symm) whole

/-- R87, R172: `t` is `s` with some entries ended, and the hold bindings following. -/
structure Endings (s t : State) : Prop where
  rest : t = (s.withModes t.modes).withDrivers t.drivers
  fewer : ∀ m, (t.modes.get m).isSome = true → (s.modes.get m).isSome = true
  follows : holdsFollow s (s.withModes t.modes) t.drivers

theorem Endings.refl : Endings s s := ⟨rfl, fun _ => id, holdsFollow_refl⟩

/-- R95, R172: one more entry ends. -/
theorem Endings.endMode (h : Endings s t) {m : ModeId} : Endings s (endMode m t) := by
  have modes : (Machine.endMode m t).modes = t.modes.set m none := by rw [endMode_eq]
  have fewer (k : ModeId) (some : ((t.modes.set m none).get k).isSome = true) : (t.modes.get k).isSome = true := by
    rw [Tab.get_set] at some
    split at some
    · cases some
    · exact some
  have lower (f : FeatureNo) : isLit (s.withModes t.modes) f = true → isLit s f = true := isLit_withModes_le h.fewer
  have lowest (f : FeatureNo) : isLit (s.withModes (t.modes.set m none)) f = true →
      isLit (s.withModes t.modes) f = true :=
    isLit_withModes_le (s := s.withModes t.modes) fewer
  have next : holdsFollow t (t.withModes (t.modes.set m none)) (Machine.endMode m t).drivers := changeLit_follows _ t
  refine ⟨?_, fun k some => h.fewer k (fewer k (modes ▸ some)), ?_⟩
  · have rest := h.rest
    have ended := endMode_eq (m := m) (s := t)
    generalize Machine.endMode m t = u at ended ⊢
    rw [ended, rest]
    rfl
  · rw [modes]
    generalize Machine.endMode m t = u at next ⊢
    have rest := h.rest
    refine holdsFollow_withModes_trans lower lowest h.follows ?_
    generalize t.modes = table at rest next ⊢
    generalize t.drivers = x at rest next ⊢
    subst rest
    exact next

/-- R87: a census of LISTEN-ONLY ends its origin's entries. -/
theorem reconcile_endings : Endings s (reconcile o (.fill 32 false) s) := by
  refine eachUp_inv (Endings s) (reconcileAt o (.fill 32 false)) (fun m t h => ?_) s .refl
  unfold reconcileAt
  rw [Tab.get_fill, if_neg (by simp)]
  split
  · split
    · exact h.endMode
    · exact h
  · exact h

end

end Sys2Proof.Machine

end

