-- ==== Sys2Proof/Proofs/KeptViews.lean ====
section
/-! SUPPORT. What the judgements after a LOCK and a CENSUS leave of the accounting view (R133, R134), and the blocks as
a completion finds them (R66). -/

namespace Sys2Proof.Machine

section
variable {o : StationNo} {b : Bulletin} {r : CensusRecord} {cause : ZeroCause} {n : Nat} {x : Bool} {s t u : State}

/-! ## The accounting view kept -/

/-- What is counted stands in `t` as in `s`: the view, B, the credits, the tallies and the pockets, with the image and
the straps; CONFIG is not cleared. -/
structure KeepsView (s t : State) : Prop where
  image : t.control.image = s.control.image
  strap : t.control.strap = s.control.strap
  config : s.control.flags.config = true → t.control.flags.config = true
  tallies : t.rules.tallies = s.rules.tallies
  pockets : t.pockets = s.pockets
  peers : t.balls.peers = s.balls.peers
  trough : t.balls.trough = s.balls.trough
  missing : t.balls.missing = s.balls.missing
  inPlay : t.balls.inPlay = s.balls.inPlay
  credits : t.balls.credits = s.balls.credits

theorem KeepsView.refl : KeepsView s s := ⟨rfl, rfl, id, rfl, rfl, rfl, rfl, rfl, rfl, rfl⟩

theorem KeepsView.trans (h : KeepsView s t) (g : KeepsView t u) : KeepsView s u where
  image := g.image.trans h.image
  strap := g.strap.trans h.strap
  config := g.config ∘ h.config
  tallies := g.tallies.trans h.tallies
  pockets := g.pockets.trans h.pockets
  peers := g.peers.trans h.peers
  trough := g.trough.trans h.trough
  missing := g.missing.trans h.missing
  inPlay := g.inPlay.trans h.inPlay
  credits := g.credits.trans h.credits

theorem KeepsView.sameView (h : KeepsView s t) : SameView s t :=
  ⟨h.image, h.strap, h.trough, h.missing, h.peers, congrArg (·.pockets.sum fun p => p.held) h.pockets,
    congrArg (·.pockets.sum fun p => p.stuck) h.pockets⟩

/-- R134: a B that is the view's count stays so. -/
theorem KeepsView.counted (h : KeepsView s t) (counted : s.balls.inPlay = inPlayCount s) :
    t.balls.inPlay = inPlayCount t := by rw [h.inPlay, h.sameView.counts.1, counted]

theorem ModesMoved.keepsView (h : ModesMoved s t) : KeepsView s t := by
  rw [h.rest]
  exact ⟨rfl, rfl, id, rfl, rfl, rfl, rfl, rfl, rfl, rfl⟩

theorem judgePhase_keepsView : KeepsView s (judgePhase s) :=
  KeepsView.trans (t := setPhase (phaseJudged s) s) ⟨rfl, rfl, id, rfl, rfl, rfl, rfl, rfl, rfl, rfl⟩
    judgePhase_moves.keepsView

theorem ballOver_keepsView : KeepsView s (ballOver s) := by
  rw [ballOver_eq]
  exact ⟨rfl, rfl, id, rfl, rfl, rfl, rfl, rfl, rfl, rfl⟩

theorem oweServes_keepsView : KeepsView s (oweServes n s) := by
  have frame := oweServes_frame n s
  have control (g : Control → Prop)
      (flag : g s.control → g { s.control with flags := { s.control.flags with ejector := true } })
      (start : g s.control) :
      g (oweServes n s).control := by
    rcases oweServes_control (n := n) (s := s) with same | ejector
    · rwa [same]
    · rw [ejector]
      exact flag start
  refine ⟨control (fun c => c.image = s.control.image) id rfl, control (fun c => c.strap = s.control.strap) id rfl,
    fun set => control (fun c => c.flags.config = true) id set, ?_, ?_, ?_, ?_, ?_, ?_, ?_⟩
  all_goals simp only [frame]

theorem judgeZero_keepsView : KeepsView s (judgeZero cause n x s) := by
  by_cases ends : zeroEnds cause n s
  · rw [judgeZero_ends ends]
    exact ballOver_keepsView
  · by_cases other : ¬ zeroJudged s ∨ s.control.station ≠ .play ∨ cause.replaces = false
    · rw [judgeZero_stays ends other]
      exact .refl
    · simp only [not_or, not_not, Bool.not_eq_false] at other
      obtain ⟨zero, play, replaces⟩ := other
      rw [judgeZero_replaces zero ends play replaces]
      split
      · exact oweServes_keepsView
      · exact .refl

theorem reconcile_keepsView {reports : Tab 32 Bool} : KeepsView s (reconcile o reports s) := reconcile_moves.keepsView

theorem finish_keepsView : KeepsView s (finish s) := by
  have control := finish_control s
  have frame := finish_frame s
  generalize finish s = t at control frame ⊢
  obtain ⟨-, -, -, rules, -, pockets, balls, -, -, -⟩ := frame
  exact ⟨by rw [control], by rw [control], by rw [control]; exact id, by rw [rules], pockets, by rw [balls],
    by rw [balls], by rw [balls], by rw [balls], by rw [balls]⟩

/-! ## The blocks as a completion finds them -/

/-- What the blocks that act on a completion read stands in `t` as in `s`. -/
structure Untouched (s t : State) : Prop where
  setup : t.control.setup = s.control.setup
  rules : t.rules = s.rules
  modes : t.modes = s.modes
  pockets : t.pockets = s.pockets
  balls : t.balls = s.balls
  trough : t.trough = s.trough
  drivers : t.drivers = s.drivers

theorem Untouched.trans (h : Untouched s t) (g : Untouched t u) : Untouched s u where
  setup := g.setup.trans h.setup
  rules := g.rules.trans h.rules
  modes := g.modes.trans h.modes
  pockets := g.pockets.trans h.pockets
  balls := g.balls.trans h.balls
  trough := g.trough.trans h.trough
  drivers := g.drivers.trans h.drivers

theorem Untouched.image (h : Untouched s t) : t.control.image = s.control.image := image_of_setup h.setup
theorem Untouched.strap (h : Untouched s t) : strap t = strap s := strap_of_setup h.setup
theorem Untouched.station (h : Untouched s t) : t.control.station = s.control.station := station_of_setup h.setup

theorem received_untouched : Untouched s (received o b s) := by
  obtain ⟨-, -, -, rules, modes, pockets, balls, trough, drivers, -⟩ := received_frame o b s
  exact ⟨received_setup o b s, rules, modes, pockets, balls, trough, drivers⟩

/-- What a judgement reads beside the accounting view stands in `t` as in `s`: the setup, the Rule Engine, the pockets,
the Trough Controller, and which drivers are FAULTED. -/
structure Steady (s t : State) : Prop where
  setup : t.control.setup = s.control.setup
  rules : t.rules = s.rules
  pockets : t.pockets = s.pockets
  trough : t.trough = s.trough
  faulted : ∀ d, ((unit t d).phase = .faulted) = ((unit s d).phase = .faulted)

theorem Steady.refl : Steady s s := ⟨rfl, rfl, rfl, rfl, fun _ => rfl⟩

theorem Steady.trans (h : Steady s t) (g : Steady t u) : Steady s u where
  setup := g.setup.trans h.setup
  rules := g.rules.trans h.rules
  pockets := g.pockets.trans h.pockets
  trough := g.trough.trans h.trough
  faulted d := (g.faulted d).trans (h.faulted d)

theorem Untouched.steady (h : Untouched s t) : Steady s t :=
  ⟨h.setup, h.rules, h.pockets, h.trough, fun d => by unfold unit; rw [h.drivers]⟩

theorem Steady.station (h : Steady s t) : t.control.station = s.control.station := station_of_setup h.setup

theorem ModesMoved.steady (h : ModesMoved s t) : Steady s t := by
  refine ⟨?_, ?_, ?_, ?_, h.faulted⟩
  · rw [h.rest]
    rfl
  all_goals rw [h.rest]

theorem judgePhase_steady : Steady s (judgePhase s) :=
  Steady.trans (t := setPhase (phaseJudged s) s) ⟨rfl, rfl, rfl, rfl, fun _ => rfl⟩ judgePhase_moves.steady

/-- R142: the phase is as judged. -/
theorem judgePhase_phase : (judgePhase s).balls.phase = phaseJudged s := by
  rw [judgePhase_moves.rest]
  rfl

/-- R134: a recount of the view. -/
theorem recomputeB_steady {b : Balls} : Steady s (recomputeB { s with balls := b }) := by
  obtain ⟨-, -, -, rules, -, pockets, trough, -, -, drivers, -⟩ := recomputeB_frame { s with balls := b }
  refine ⟨recomputeB_setup _, rules, pockets, trough, fun d => ?_⟩
  unfold unit
  rw [drivers]

/-- The trough eject driver and its faults read alike. -/
theorem troughDriver_of_setup (h : t.control.setup = s.control.setup) : troughDriver t = troughDriver s :=
  congrArg (fun i : Image => (List.finRange 8).find? fun d => (i.drivers.get d).trough) (image_of_setup h)

/-- R134, R148: a recount leaves B as the view counts it. -/
theorem recomputeB_counted : (recomputeB s).balls.inPlay = inPlayCount (recomputeB s) := by
  have inPlay : (recomputeB s).balls.inPlay = inPlayCount s := by
    rw [recomputeB_eq]
    dsimp only
    split <;> rfl
  have view : SameView s (recomputeB s) := by
    have pockets : (recomputeB s).pockets = s.pockets := (recomputeB_frame s).2.2.2.2.2.1
    refine ⟨image_of_setup (recomputeB_setup s), strap_of_setup (recomputeB_setup s), ?_, ?_, ?_,
      congrArg (·.pockets.sum fun p => p.held) pockets, congrArg (·.pockets.sum fun p => p.stuck) pockets⟩
    all_goals
      rw [recomputeB_eq]
      dsimp only
      split <;> rfl
  rw [inPlay, view.counts.1]

/-- R134: what a recount leaves of the view. -/
theorem recomputeB_balls : (recomputeB s).balls.peers = s.balls.peers ∧ (recomputeB s).balls.trough = s.balls.trough ∧
    (recomputeB s).balls.missing = s.balls.missing ∧ (recomputeB s).balls.credits = s.balls.credits ∧
    (recomputeB s).balls.phase = s.balls.phase := by
  rw [recomputeB_eq]
  dsimp only
  split <;> exact ⟨rfl, rfl, rfl, rfl, rfl⟩

/-- R134: of the flags a recount sets ACCOUNTING alone. -/
theorem recomputeB_config (set : s.control.flags.config = true) : (recomputeB s).control.flags.config = true := by
  rw [recomputeB_eq]
  dsimp only
  split <;> exact set

end

end Sys2Proof.Machine

end

