-- ==== Sys2Proof/Proofs/CensusHandOn.lean ====
section
/-! SUPPORT. A peer's census handed on (R85 to R87, R105, R138, R143), and O49. -/

namespace Sys2Proof.Machine

section
variable {o : StationNo} {x : CensusPayload} {r : CensusRecord} {m : ModeId} {e : ModeEntry} {n : Nat} {k s t u : State}

/-! ## The record kept and compared (R85, R86) -/

theorem compareSignature_eq (game : inGame s = true) : compareSignature r s = { s with
    control := if r.state ≠ .listenOnly ∧ r.signature ≠ s.control.image.signature then
        { s.control with flags := { s.control.flags with config := true } }
      else s.control } := by
  have live : s.control.station ≠ .listenOnly := fun listens => by
    unfold inGame at game
    rw [listens] at game
    cases game
  unfold compareSignature
  by_cases differs : r.state ≠ .listenOnly ∧ r.signature ≠ s.control.image.signature
  · rw [if_pos ⟨live, differs⟩, if_pos differs]
    rfl
  · rw [if_neg fun h => differs h.2, if_neg differs]

/-- R85, R86: a peer's record stored and its signature compared. -/
def censusKnown (o : StationNo) (r : CensusRecord) (s : State) : State := compareSignature r (storeRecord o r s)

theorem censusKnown_eq (game : inGame s = true) : censusKnown o r s = { s with
    peers := { s.peers with table := s.peers.table.set o { peer s o with record := some r } }
    control := if r.state ≠ .listenOnly ∧ r.signature ≠ s.control.image.signature then
        { s.control with flags := { s.control.flags with config := true } }
      else s.control } := compareSignature_eq (s := storeRecord o r s) game

theorem censusKnown_untouched (game : inGame s = true) : Untouched s (censusKnown o r s) := by
  rw [censusKnown_eq game]
  refine ⟨?_, rfl, rfl, rfl, rfl, rfl, rfl⟩
  dsimp only
  split <;> rfl

/-- R85, R86: what the blocks are handed: the record stored, CONFIG set where the signatures differ. -/
theorem censusKnown_notes (game : inGame s = true) : (peer (censusKnown o r s) o).record = some r ∧
    (r.state ≠ .listenOnly → r.signature ≠ s.control.image.signature →
      (censusKnown o r s).control.flags.config = true) := by
  rw [censusKnown_eq game]
  refine ⟨congrArg Peer.record (Tab.get_set_self _ _ _), fun live differs => ?_⟩
  dsimp only
  rw [if_pos ⟨live, differs⟩]

theorem exec_census (heard : hears o (.census x) s) (game : inGame s = true) : exec (.census o x) s =
    .next (finish (takeCensus o x (isOwn o (.census x) s) (received o (.census x) s))) :=
  congrArg (fun v => Host.Outcome.next (finish v)) ((complete_heard _ _ heard).trans (if_pos game))

/-- R85, R87: a peer's census is handed on. -/
theorem exec_census_peer (heard : hears o (.census x) s) (game : inGame s = true) (other : o ≠ strap s) :
    exec (.census o x) s =
      .next (finish (handOn o (recordOf x) (censusKnown o (recordOf x) (received o (.census x) s)))) := by
  have apart : o ≠ strap (received o (.census x) s) := received_untouched.strap.symm ▸ other
  rw [exec_census heard game, isOwn_of_ne other]
  exact congrArg (fun v => Host.Outcome.next (finish v)) (if_neg apart)

/-- R71, R85: one of this station's own number is only compared. -/
theorem exec_census_own (heard : hears o (.census x) s) (game : inGame s = true) (same : o = strap s)
    (foreign : isOwn o (.census x) s = false) :
    exec (.census o x) s = .next (finish (compareSignature (recordOf x) (received o (.census x) s))) := by
  have same : o = strap (received o (.census x) s) := received_untouched.strap.symm ▸ same
  rw [exec_census heard game, foreign]
  exact congrArg (fun v => Host.Outcome.next (finish v)) (if_pos same)

/-! ## The counts handed on (R87, R138) -/

/-- R87, R138: the trough count that a census of the trough station reports. -/
def censusTrough (o : StationNo) (r : CensusRecord) (s : State) : Option Nat :=
  if s.control.image.troughStation = some o then r.trough else none

/-- R87, R138: the view with a census's counts in it, before B is counted again. -/
def censusBalls (o : StationNo) (r : CensusRecord) (s : State) : Balls :=
  let b := { s.balls with peers := s.balls.peers.set o { held := r.held, stuck := r.stuck } }
  match censusTrough o r s with
  | some n =>
    let d := match b.trough with
      | some v => n - v
      | none => 0
    { b with missing := b.missing - min d b.missing, trough := some n }
  | none => b

/-- R87, R134: the counts taken, B counted again. -/
def censusCounted (o : StationNo) (r : CensusRecord) (s : State) : State :=
  recomputeB { s with balls := censusBalls o r s }

/-- R138: the census raises the trough count. -/
def censusRise (o : StationNo) (r : CensusRecord) (s : State) : Bool :=
  match censusTrough o r s, s.balls.trough with
  | some n, some t => decide (t < n)
  | _, _ => false

/-- R143: what a census is for a B of 0, by what it raises: the trough count, other counts. -/
def causeOf (rise raised : Bool) : ZeroCause :=
  if rise then if raised then .drainAway else .drain else if raised then .away else .other

theorem causeOf_drains : ∀ rise raised, (causeOf rise raised).drains = rise := by decide
theorem causeOf_replaces : ∀ rise raised, (causeOf rise raised).replaces = raised := by decide

/-- R143: what a census is for a B of 0. -/
def censusCause (o : StationNo) (r : CensusRecord) (s : State) : ZeroCause :=
  causeOf (censusRise o r s) (raisesCounts r (s.balls.peers.get o))

theorem takeCensusCounts_eq : takeCensusCounts o r s =
    judgeZero (censusCause o r s) s.balls.inPlay false (judgePhase (censusCounted o r s)) := by
  have counted : (match censusTrough o r s with
      | some n => takeTroughView true n (s.mapBalls fun b =>
          { b with peers := b.peers.set o { held := r.held, stuck := r.stuck } })
      | none => recomputeB (s.mapBalls fun b =>
          { b with peers := b.peers.set o { held := r.held, stuck := r.stuck } })) = censusCounted o r s := by
    unfold censusCounted censusBalls
    cases censusTrough o r s <;> rfl
  rw [← counted]
  rfl

/-- R138: the census reports a rise of the trough count. -/
def censusRises (o : StationNo) (r : CensusRecord) (s : State) : Prop :=
  ∃ n v, s.control.image.troughStation = some o ∧ r.trough = some n ∧ s.balls.trough = some v ∧ v < n

/-- R87: the census raises a held or stuck count. -/
def censusRaises (o : StationNo) (r : CensusRecord) (s : State) : Prop :=
  ∃ p, (s.balls.peers.get o).held.get p < r.held.get p ∨ (s.balls.peers.get o).stuck.get p < r.stuck.get p

theorem raisesCounts_iff : raisesCounts r (s.balls.peers.get o) = true ↔ censusRaises o r s := by
  unfold raisesCounts censusRaises
  simp

theorem censusTrough_eq_some : censusTrough o r s = some n ↔
    s.control.image.troughStation = some o ∧ r.trough = some n := by
  unfold censusTrough
  split
  · rename_i here
    exact (and_iff_right here).symm
  · rename_i elsewhere
    exact iff_of_false (by simp) fun h => elsewhere h.1

theorem censusTrough_eq_none : censusTrough o r s = none ↔
    s.control.image.troughStation ≠ some o ∨ r.trough = none := by
  unfold censusTrough
  split
  · rename_i here
    exact (or_iff_right fun h => h here).symm
  · rename_i elsewhere
    exact iff_of_true rfl (.inl elsewhere)

/-- R143: a rise of T is a drain. -/
theorem censusCause_drains : (censusCause o r s).drains = true ↔ censusRises o r s := by
  unfold censusCause censusRise censusRises
  rw [causeOf_drains]
  constructor
  · intro rises
    split at rises
    · rename_i n v reports known
      obtain ⟨here, reported⟩ := censusTrough_eq_some.mp reports
      exact ⟨n, v, here, reported, known, of_decide_eq_true rises⟩
    · cases rises
  · rintro ⟨n, v, here, reported, known, lower⟩
    rw [censusTrough_eq_some.mpr ⟨here, reported⟩, known]
    exact decide_eq_true lower

/-- R143: a raised count calls for a replacement. -/
theorem censusCause_replaces : (censusCause o r s).replaces = true ↔ censusRaises o r s := by
  rw [← raisesCounts_iff, censusCause, causeOf_replaces]

/-- R138: the trough station's census moves T and recovers missing balls by its rise. -/
theorem censusBalls_reported (here : s.control.image.troughStation = some o) (reported : r.trough = some n) :
    (censusBalls o r s).trough = some n ∧ (censusBalls o r s).missing = s.balls.missing -
      (match s.balls.trough with
        | some v => min (n - v) s.balls.missing
        | none => 0) := by
  unfold censusBalls
  dsimp only
  rw [censusTrough_eq_some.mpr ⟨here, reported⟩]
  refine ⟨rfl, ?_⟩
  dsimp only
  cases s.balls.trough with
  | none => simp
  | some v => rfl

/-- R138: no other census moves them. -/
theorem censusBalls_unreported (unreported : s.control.image.troughStation ≠ some o ∨ r.trough = none) :
    censusBalls o r s = { s.balls with peers := s.balls.peers.set o { held := r.held, stuck := r.stuck } } := by
  unfold censusBalls
  dsimp only
  rw [censusTrough_eq_none.mpr unreported]

theorem censusBalls_counts : (censusBalls o r s).peers = s.balls.peers.set o { held := r.held, stuck := r.stuck } ∧
    (censusBalls o r s).credits = s.balls.credits ∧ (censusBalls o r s).phase = s.balls.phase := by
  unfold censusBalls
  dsimp only
  split <;> exact ⟨rfl, rfl, rfl⟩

/-! ## The judgement of a census (R142, R143) -/

/-- The counts taken and the phase judged, before B is judged for 0. -/
def censusJudged (o : StationNo) (r : CensusRecord) (s : State) : State := judgePhase (censusCounted o r s)

/-- R87, R105: a census handed on: counts, phase, B of 0, modes. -/
def censusTaken (o : StationNo) (r : CensusRecord) (s : State) : State :=
  reconcile o r.modes (judgeZero (censusCause o r s) s.balls.inPlay false (censusJudged o r s))

theorem handOn_live (live : r.state ≠ .listenOnly) : handOn o r s = censusTaken o r s := by
  unfold handOn censusTaken
  rw [if_neg live, takeCensusCounts_eq]
  rfl

theorem handOn_listenOnly (listens : r.state = .listenOnly) : handOn o r s = reconcile o (.fill 32 false) s :=
  if_pos listens

theorem censusJudged_steady : Steady s (censusJudged o r s) := recomputeB_steady.trans judgePhase_steady

theorem censusJudged_keepsView : KeepsView (censusCounted o r s) (censusJudged o r s) := judgePhase_keepsView

theorem censusTaken_keepsView : KeepsView (censusJudged o r s) (censusTaken o r s) :=
  judgeZero_keepsView.trans reconcile_keepsView

/-- R133, R138: the view after a census. -/
theorem censusTaken_view : KeepsView { s with balls := (censusCounted o r s).balls } (finish (censusTaken o r s)) := by
  have counted : KeepsView { s with balls := (censusCounted o r s).balls } (censusCounted o r s) := by
    obtain ⟨-, -, -, rules, -, pockets, -⟩ := recomputeB_frame { s with balls := censusBalls o r s }
    have setup := recomputeB_setup { s with balls := censusBalls o r s }
    exact ⟨image_of_setup setup, strap_of_setup setup, fun set => recomputeB_config set, congrArg (·.tallies) rules,
      pockets, rfl, rfl, rfl, rfl, rfl⟩
  exact ((counted.trans censusJudged_keepsView).trans censusTaken_keepsView).trans finish_keepsView

theorem censusCounted_balls : (censusCounted o r s).balls.peers =
      s.balls.peers.set o { held := r.held, stuck := r.stuck } ∧
    (censusCounted o r s).balls.trough = (censusBalls o r s).trough ∧
    (censusCounted o r s).balls.missing = (censusBalls o r s).missing ∧
    (censusCounted o r s).balls.credits = s.balls.credits ∧ (censusCounted o r s).balls.phase = s.balls.phase := by
  obtain ⟨peers, trough, missing, credits, phase⟩ := recomputeB_balls (s := { s with balls := censusBalls o r s })
  obtain ⟨set, same, kept⟩ := censusBalls_counts (o := o) (r := r) (s := s)
  exact ⟨peers.trans set, trough, missing, credits.trans same, phase.trans kept⟩

theorem censusTaken_counted :
    (finish (censusTaken o r s)).balls.inPlay = inPlayCount (finish (censusTaken o r s)) :=
  (((censusJudged_keepsView).trans censusTaken_keepsView).trans finish_keepsView).counted recomputeB_counted

/-- R143, R144: a census that ends the ball. -/
def censusEnds (o : StationNo) (r : CensusRecord) (s : State) : Prop :=
  zeroEnds (censusCause o r s) s.balls.inPlay (censusJudged o r s)

theorem zeroJudged_census : zeroJudged (censusJudged o r s) ↔
    (finish (censusTaken o r s)).balls.trough.isSome = true ∧ (finish (censusTaken o r s)).balls.inPlay = 0 := by
  have kept := (censusTaken_keepsView (o := o) (r := r) (s := s)).trans finish_keepsView
  rw [zeroJudged, kept.trough, kept.inPlay]

/-- R143, R144: in TILT a B of 0, in PLAY one by a rise of T from a B above 0. -/
theorem censusEnds_iff : censusEnds o r s ↔ (finish (censusTaken o r s)).balls.trough.isSome = true ∧
    (finish (censusTaken o r s)).balls.inPlay = 0 ∧
    (s.control.station = .tilt ∨ (s.control.station = .play ∧ censusRises o r s ∧ 0 < s.balls.inPlay)) := by
  unfold censusEnds zeroEnds
  rw [zeroJudged_census, censusJudged_steady.station, censusCause_drains, and_assoc]

/-- R144: a ball over: nothing of the mode table, the combo and the search is left, and none is made. -/
theorem censusTaken_ends (ends : censusEnds o r s) : (censusTaken o r s).control.station = .ready ∧
    (censusTaken o r s).balls.phase = .single ∧ (censusTaken o r s).balls.search = .idle ∧
    (censusTaken o r s).rules.combo = 0 ∧ (censusTaken o r s).rules.comboTimer = none ∧
    (∀ m, (censusTaken o r s).modes.get m = none) ∧ (censusTaken o r s).trough = s.trough.cleared := by
  have ended : censusTaken o r s = reconcile o r.modes (ballOver (censusJudged o r s)) := by
    unfold censusTaken
    rw [judgeZero_ends ends]
  have unmade (m : ModeId) : (censusTaken o r s).modes.get m = none := by
    have ready : (ballOver (censusJudged o r s)).control.station = .ready := by rw [ballOver_eq]
    rw [ended]
    exact get_reconcile_unmade ballOver_modes (.inl (by simp [ready]))
  rw [ended] at unmade ⊢
  rw [reconcile_eq] at unmade ⊢
  rw [ballOver_eq, censusJudged_steady.trough] at unmade ⊢
  exact ⟨rfl, rfl, rfl, rfl, rfl, unmade, rfl⟩

/-- R143: B judged for 0 after a census. -/
def censusZero (o : StationNo) (r : CensusRecord) (s : State) : State :=
  judgeZero (censusCause o r s) s.balls.inPlay false (censusJudged o r s)

theorem censusTaken_reconcile : censusTaken o r s = reconcile o r.modes (censusZero o r s) := rfl

theorem censusTaken_frame : (censusTaken o r s).control = (censusZero o r s).control ∧
    (censusTaken o r s).rules = (censusZero o r s).rules ∧ (censusTaken o r s).balls = (censusZero o r s).balls ∧
    (censusTaken o r s).trough = (censusZero o r s).trough := by
  rw [censusTaken_reconcile, reconcile_eq]
  exact ⟨rfl, rfl, rfl, rfl⟩

/-- R143: a census that ends no ball leaves the game state and the Rule Engine. -/
theorem censusTaken_stays (stays : ¬ censusEnds o r s) :
    (censusTaken o r s).control.station = s.control.station ∧ (censusTaken o r s).rules = s.rules := by
  obtain ⟨setup, rules, -, -⟩ := judgeZero_kept (started := false) stays
  obtain ⟨control, kept, -, -⟩ := censusTaken_frame (o := o) (r := r) (s := s)
  rw [control, kept]
  exact ⟨(station_of_setup setup).trans censusJudged_steady.station, rules.trans censusJudged_steady.rules⟩

/-- R142: where the phase stays, nothing is started and nothing ends by it. -/
theorem censusJudged_calm (same : (censusJudged o r s).balls.phase = s.balls.phase) :
    censusJudged o r s = censusCounted o r s := by
  refine judgePhase_stays ?_
  rw [← judgePhase_phase, censusCounted_balls.2.2.2.2]
  exact same

theorem censusCounted_frame : (censusCounted o r s).modes = s.modes ∧ (censusCounted o r s).drivers = s.drivers := by
  obtain ⟨-, -, -, -, modes, -, -, -, -, drivers, -⟩ := recomputeB_frame { s with balls := censusBalls o r s }
  exact ⟨modes, drivers⟩

/-- R142: a SINGLE phase stays outside PLAY, and while at most one ball is in play. -/
theorem censusJudged_single (single : s.balls.phase = .single)
    (few : s.control.station ≠ .play ∨ (censusJudged o r s).balls.inPlay < 2) :
    censusJudged o r s = censusCounted o r s := by
  refine censusJudged_calm ?_
  have steady : (censusCounted o r s).control.station = s.control.station :=
    (recomputeB_steady (s := s) (b := censusBalls o r s)).station
  rw [censusJudged, judgePhase_phase, single]
  refine phaseJudged_single (censusCounted_balls.2.2.2.2.trans single) (few.imp (fun out => ?_) fun few => ?_)
  · unfold inPlay
    rw [steady]
    exact beq_false_of_ne out
  · rwa [censusJudged_keepsView.inPlay] at few

/-- R105: with no ball over and the phase as it was, a mode that the census does not report stays but for its
origin's. -/
theorem get_censusTaken_unreported (stays : ¬ censusEnds o r s) (same : (censusTaken o r s).balls.phase = s.balls.phase)
    (unreported : r.modes.get m = false) :
    (censusTaken o r s).modes.get m = (s.modes.get m).filter fun e => e.owner != o := by
  obtain ⟨-, -, modes, balls⟩ := judgeZero_kept (started := false) stays
  have phase : (censusJudged o r s).balls.phase = s.balls.phase := by
    rw [← same, censusTaken_frame.2.2.1]
    exact congrArg Balls.phase balls.symm
  rw [censusJudged_calm phase, censusCounted_frame.1] at modes
  rw [censusTaken_reconcile, get_reconcile_unreported unreported]
  unfold censusZero
  rw [censusJudged_calm phase, modes]

/-- R105: an entry of its origin's that a census does not report ends. -/
theorem get_censusTaken_own (owned : ownedBy o m s) (unreported : r.modes.get m = false) :
    (censusTaken o r s).modes.get m = none := by
  by_cases ends : censusEnds o r s
  · obtain ⟨-, -, -, -, -, none, -⟩ := censusTaken_ends ends
    exact none m
  · obtain ⟨-, -, modes, -⟩ := judgeZero_kept (started := false) ends
    have counted : ownedBy o m (censusCounted o r s) := by
      unfold ownedBy
      rwa [censusCounted_frame.1]
    rw [censusTaken_reconcile, get_reconcile_unreported unreported]
    unfold censusZero
    rw [modes]
    rcases judgePhase_owned counted with none | ⟨e, entry, owner⟩
    · exact (congrArg _ none).trans rfl
    · refine (congrArg _ entry).trans ?_
      rw [Option.filter_some, if_neg (by simp [owner])]

/-- R87, R105: in IDLE and READY no mode is made, and the entries of other owners stay. -/
theorem get_censusTaken_idle (idle : s.control.station = .idle ∨ s.control.station = .ready)
    (single : s.balls.phase = .single) : (s.modes.get m = none → (censusTaken o r s).modes.get m = none) ∧
      ∀ e, s.modes.get m = some e → e.owner ≠ o → (censusTaken o r s).modes.get m = some e := by
  have playless : s.control.station ≠ .play ∧ s.control.station ≠ .tilt := by
    rcases idle with is | is <;> rw [is] <;> exact ⟨by simp, by simp⟩
  have stays : ¬ censusEnds o r s := fun ends => (censusEnds_iff.mp ends).2.2.elim playless.2 fun h => playless.1 h.1
  obtain ⟨setup, -, modes, -⟩ := judgeZero_kept (started := false) stays
  have calm := censusJudged_single (o := o) (r := r) single (.inl playless.1)
  have modes : (censusZero o r s).modes = s.modes := by
    refine modes.trans ?_
    rw [calm, censusCounted_frame.1]
  have station : (censusZero o r s).control.station = s.control.station :=
    (station_of_setup setup).trans censusJudged_steady.station
  rw [censusTaken_reconcile]
  refine ⟨fun none => ?_, fun e entry other => ?_⟩
  · refine get_reconcile_unmade (by rw [modes, none]) (.inl ?_)
    rw [station]
    exact not_or.mpr playless
  · cases reported : r.modes.get m with
    | true => exact get_reconcile_stands reported (by rw [modes, entry])
    | false =>
      rw [get_reconcile_unreported reported, modes, entry, Option.filter_some,
        if_pos (by simp [other])]

/-! ## The ball that a census owes (R143) -/

/-- R143: a census owes one ball at the trough station. -/
def censusOwes (o : StationNo) (r : CensusRecord) (s : State) : Prop :=
  isTrough s = true ∧ s.control.station = .play ∧ zeroJudged (censusJudged o r s) ∧ censusRaises o r s ∧
    s.trough.pending = 0

theorem censusZero_unowed (stays : ¬ censusEnds o r s) (unowed : ¬ censusOwes o r s) :
    censusZero o r s = censusJudged o r s := by
  refine (judgeZero_cases (started := false) stays).resolve_right ?_
  rintro ⟨⟨here, zero, play, replaces, pending⟩, -⟩
  have steady := censusJudged_steady (o := o) (r := r) (s := s)
  exact unowed ⟨(isTrough_of_setup steady.setup).symm.trans here, steady.station.symm.trans play, zero,
    censusCause_replaces.mp replaces, steady.trough ▸ pending⟩

theorem censusZero_owed (stays : ¬ censusEnds o r s) (owed : censusOwes o r s) :
    censusZero o r s = oweServes 1 (censusJudged o r s) := by
  obtain ⟨-, play, zero, raises, pending⟩ := owed
  have steady := censusJudged_steady (o := o) (r := r) (s := s)
  refine (judgeZero_replaces zero stays (steady.station.trans play) (censusCause_replaces.mpr raises)).trans (if_pos ?_)
  rw [steady.trough]
  exact ⟨pending, rfl⟩

/-- R143: a census that owes no ball leaves the Trough Controller. -/
theorem censusTaken_unowed (stays : ¬ censusEnds o r s) (unowed : ¬ censusOwes o r s) :
    (censusTaken o r s).trough = s.trough := by
  rw [censusTaken_frame.2.2.2, censusZero_unowed stays unowed, censusJudged_steady.trough]

/-- R139 to R141, R143: one that does owes it as the trough and its driver stand. -/
theorem censusTaken_owed (handed : Untouched s k) (stays : ¬ censusEnds o r k) (owed : censusOwes o r k) :
    owesOne (s.balls.phase = .single ∧ ∀ m, r.modes.get m = (s.modes.get m).isSome) s (finish (censusTaken o r k)) := by
  have steady := handed.steady.trans (censusJudged_steady (o := o) (r := r))
  have zero := censusZero_owed stays owed
  obtain ⟨control, -, -, trough⟩ := censusTaken_frame (o := o) (r := r) (s := k)
  obtain ⟨here, -, ⟨-, none⟩, -, pending⟩ := owed
  have owes : owesOne True (censusJudged o r k) (oweServes 1 (censusJudged o r k)) :=
    oweServes_owesOne ((isTrough_of_setup censusJudged_steady.setup).trans here)
      (by rw [censusJudged_steady.trough, pending])
  refine owes.transfer steady.trough (troughDriver_of_setup steady.setup) (fun d => iff_of_eq (steady.faulted d)) ?_
    (fun set => ?_) ?_
  · rw [← zero, ← trough]
    exact (finish_frame _).2.2.2.2.2.2.2.1
  · rw [← zero, ← control] at set
    rw [finish_control]
    exact set
  · rintro ⟨single, agrees⟩
    have single : k.balls.phase = .single := by rw [handed.balls, single]
    have calm : censusJudged o r k = censusCounted o r k := censusJudged_single single (.inr (by rw [none]; decide))
    have modes : (oweServes 1 (censusJudged o r k)).modes = s.modes := by
      rw [(oweServes_frame 1 _).2.2.2.2.1, calm, censusCounted_frame.1, handed.modes]
    have drivers : (finish (censusTaken o r k)).drivers = (censusTaken o r k).drivers := by simp
    refine ⟨by rw [calm, censusCounted_frame.2, handed.drivers], ?_⟩
    rw [drivers, censusTaken_reconcile, zero, reconcile_agrees fun m => by rw [modes]; exact agrees m]

/-! ## The modes that a census makes (R105) -/

/-- R105: a SINGLE phase, no rise of T and no mode that starts with multiball: the modes reconciled are those that
stood. -/
theorem censusTaken_standing (elsewhere : s.control.image.troughStation ≠ some o)
    (playing : s.control.station = .play ∨ (s.control.station = .tilt ∧ s.balls.trough = none))
    (single : s.balls.phase = .single) (none : ∀ m d, modeDef s m = some d → d.startsMulti = false) :
    (censusZero o r s).modes = s.modes ∧ (censusZero o r s).control.setup = s.control.setup := by
  have trough : (censusBalls o r s).trough = s.balls.trough := by rw [censusBalls_unreported (.inl elsewhere)]
  have known : (censusJudged o r s).balls.trough = s.balls.trough :=
    (censusJudged_keepsView.trough.trans censusCounted_balls.2.1).trans trough
  have stays : ¬ censusEnds o r s := by
    rintro ⟨⟨view, -⟩, ends⟩
    rw [censusJudged_steady.station, censusCause_drains] at ends
    rcases playing with play | ⟨tilt, unknown⟩
    · rw [play] at ends
      obtain ⟨-, ⟨n, v, here, -⟩, -⟩ := ends.resolve_left (by simp)
      exact elsewhere here
    · rw [known, unknown] at view
      cases view
  obtain ⟨setup, -, modes, -⟩ := judgeZero_kept (started := false) stays
  have image : (censusCounted o r s).control.image = s.control.image := image_of_setup recomputeB_steady.setup
  have starts : (censusJudged o r s).modes = (censusCounted o r s).modes := by
    refine judgePhase_modes (fun m d defined => none m d ?_) (censusCounted_balls.2.2.2.2.trans single)
    unfold modeDef at defined ⊢
    rwa [image] at defined
  exact ⟨(modes.trans starts).trans censusCounted_frame.1, setup.trans censusJudged_steady.setup⟩

end

/-! ## O49 -/

section
variable {o : StationNo} {x : CensusPayload} {s k : State}

theorem Untouched.holdsFollow {table : Tab 32 (Option ModeEntry)} {d : DriverCtl} (h : Untouched s k)
    (follows : Machine.holdsFollow k (k.withModes table) d) : Machine.holdsFollow s { s with modes := table } d := by
  have rests (f : FeatureNo) : resting s f = resting k f := by
    unfold resting
    rw [h.rules]
  exact holdsFollow_congr (v := k.withModes table) h.drivers.symm
    (fun d => congrArg (·.drivers.get d) h.image.symm) (fun _ f _ => isLit_congr h.image.symm h.modes.symm (rests f))
    (fun _ f _ => isLit_congr (s := k.withModes table) (t := { s with modes := table }) h.image.symm rfl (rests f))
    follows

/-- R85, R86: a peer's census is handed on from a state that has stored and compared it. -/
theorem census_known (heard : hears o (.census x) s) (game : inGame s = true) (other : o ≠ strap s) :
    ∃ k, exec (.census o x) s = .next (finish (handOn o (recordOf x) k)) ∧ Untouched s k ∧
      (peer k o).record = some (recordOf x) ∧
      ((recordOf x).state ≠ .listenOnly → (recordOf x).signature ≠ s.control.image.signature →
        k.control.flags.config = true) := by
  have received : Untouched s (received o (.census x) s) := received_untouched
  have gameHere := (inGame_of_setup received.setup).trans game
  obtain ⟨record, config⟩ := censusKnown_notes (o := o) (r := recordOf x) gameHere
  rw [received.image] at config
  exact ⟨_, exec_census_peer heard game other, received.trans (censusKnown_untouched gameHere), record, config⟩

/-- R85, R86, R87: what a peer's census leaves of the records, the counts and the modes. -/
theorem census_handed (heard : hears o (.census x) s) (game : inGame s = true) (other : o ≠ strap s) :
    let r := recordOf x
    ∃ t, exec (.census o x) s = .next t ∧ (peer t o).record = some r ∧
       (r.state ≠ .listenOnly → t.balls.peers.get o = { held := r.held, stuck := r.stuck }) ∧
       (r.state = .listenOnly → t.balls.peers = s.balls.peers ∧ t.balls.inPlay = s.balls.inPlay) ∧
       (∀ j, j ≠ o → t.balls.peers.get j = s.balls.peers.get j) ∧
       (r.state ≠ .listenOnly → r.signature ≠ s.control.image.signature → t.control.flags.config = true) ∧
       (∀ m e, s.modes.get m = some e → e.owner = o → x.modes.get m = false → r.state ≠ .listenOnly →
         t.modes.get m = none) ∧
       (∀ m, s.control.station = .idle ∨ s.control.station = .ready → s.balls.phase = .single →
         s.modes.get m = none → t.modes.get m = none) ∧
       (∀ m e, s.control.station = .idle ∨ s.control.station = .ready → s.balls.phase = .single →
         s.modes.get m = some e → e.owner ≠ o → t.modes.get m = some e) ∧
       t.rules.tallies = s.rules.tallies ∧ t.balls.credits = s.balls.credits ∧ t.pockets = s.pockets := by
  intro r
  obtain ⟨k, ran, handed, record, config⟩ := census_known heard game other
  obtain ⟨-, rules, modes, pockets, balls, -, -⟩ := id handed
  refine ⟨_, ran, ?_⟩
  by_cases live : r.state = .listenOnly
  · rw [handOn_listenOnly live]
    have kept : KeepsView k (finish (reconcile o (.fill 32 false) k)) := reconcile_keepsView.trans finish_keepsView
    have peers : (finish (reconcile o (.fill 32 false) k)).peers = k.peers := by
      rw [(finish_frame _).2.2.2.2.2.2.2.2.1, reconcile_peers]
    have ended (m : ModeId) : (finish (reconcile o (.fill 32 false) k)).modes.get m =
        (s.modes.get m).filter fun e => e.owner != o := by
      rw [(finish_frame _).2.2.2.2.1, get_reconcile_unreported (Tab.get_fill _ _), modes]
    refine ⟨by unfold peer; rw [peers]; exact record, fun h => absurd live h,
      fun _ => ⟨by rw [kept.peers, balls], by rw [kept.inPlay, balls]⟩, fun j _ => by rw [kept.peers, balls],
      fun h => absurd live h, fun _ _ _ _ _ h => absurd live h, fun m _ _ none => ?_, fun m e _ _ entry differs => ?_,
      by rw [kept.tallies, rules], by rw [kept.credits, balls], by rw [kept.pockets, pockets]⟩
    · rw [ended, none]
      rfl
    · rw [ended, entry, Option.filter_some, if_pos (by simp [differs])]
  · rw [handOn_live live]
    have kept := censusTaken_view (o := o) (r := r) (s := k)
    obtain ⟨counts, -, -, credits, -⟩ := censusCounted_balls (o := o) (r := r) (s := k)
    have peers : (finish (censusTaken o r k)).peers = k.peers := by
      rw [(finish_frame _).2.2.2.2.2.2.2.2.1]
      unfold censusTaken
      rw [reconcile_peers, (judgeZero_frame _ _ _ _).2.2.2.2.2.1, censusJudged, (judgePhase_frame _).2.2.2.2.2.2.2.1]
      exact (recomputeB_frame _).2.2.2.2.2.2.2.2.1
    have modesAfter : (finish (censusTaken o r k)).modes = (censusTaken o r k).modes := (finish_frame _).2.2.2.2.1
    refine ⟨by unfold peer; rw [peers]; exact record, fun _ => ?_, fun h => absurd h live, fun j apart => ?_,
      fun h differs => kept.config (config h differs), fun m e entry owner unreported _ => ?_,
      fun m idle single none => ?_, fun m e idle single entry differs => ?_,
      by rw [kept.tallies]; exact congrArg _ rules, ?_, by rw [kept.pockets]; exact pockets⟩
    · rw [kept.peers, counts, Tab.get_set_self]
    · rw [kept.peers, counts, Tab.get_set_other _ _ apart, balls]
    · rw [modesAfter]
      exact get_censusTaken_own ⟨e, by rw [modes, entry], owner⟩ unreported
    · rw [modesAfter]
      exact (get_censusTaken_idle (handed.station ▸ idle) (by rw [balls, single])).1 (by rw [modes, none])
    · rw [modesAfter]
      exact (get_censusTaken_idle (handed.station ▸ idle) (by rw [balls, single])).2 e (by rw [modes, entry]) differs
    · rw [kept.credits, credits, balls]

/-- R86: of a census of this station's own number that it was not sending the signature is compared. -/
theorem census_own (heard : hears o (.census x) s) (game : inGame s = true) (same : o = strap s)
    (foreign : isOwn o (.census x) s = false) : let r := recordOf x
    ∃ t, exec (.census o x) s = .next t ∧
      let u := received o (.census x) s
      settles { u with control := if r.state ≠ .listenOnly ∧ r.signature ≠ s.control.image.signature then
          { u.control with flags := { u.control.flags with config := true } }
        else u.control } t := by
  have compared := compareSignature_eq (r := recordOf x)
    ((inGame_of_setup (received_untouched (o := o) (b := .census x)).setup).trans game)
  rw [received_untouched.image] at compared
  exact ⟨_, exec_census_own heard game same foreign, settles_of_eq compared⟩

/-- R87, R172: a census of LISTEN-ONLY ends its origin's entries and does nothing else. -/
theorem census_listenOnly (heard : hears o (.census x) s) (game : inGame s = true) (other : o ≠ strap s)
    (listens : (recordOf x).state = .listenOnly) : let r := recordOf x
    let others : Tab 32 (Option ModeEntry) := s.modes.map fun k => k.filter fun e => e.owner != o
    ∃ t, exec (.census o x) s = .next t ∧
       (let u := received o (.census x) s
        settles { u with
          peers := { u.peers with table := u.peers.table.set o { peer u o with record := some r } }
          modes := others, drivers := t.drivers } t) ∧
       holdsFollow s { s with modes := others } t.drivers := by
  have here : Untouched s (received o (.census x) s) := received_untouched
  have known := censusKnown_eq (o := o) (r := recordOf x) ((inGame_of_setup here.setup).trans game)
  have handed := here.trans (censusKnown_untouched (o := o) (r := recordOf x) ((inGame_of_setup here.setup).trans game))
  have ran := exec_census_peer heard game other
  rw [if_neg fun differs => differs.1 listens] at known
  rw [handOn_listenOnly listens] at ran
  generalize received o (.census x) s = u at known handed ran ⊢
  have modes : (reconcile o (.fill 32 false) (censusKnown o (recordOf x) u)).modes =
      s.modes.map fun k => k.filter fun e => e.owner != o := Tab.ext_get fun m => by
    rw [get_reconcile_unreported (Tab.get_fill _ _), Tab.get_map, handed.modes]
  have drivers := (finish_frame (reconcile o (.fill 32 false) (censusKnown o (recordOf x) u))).2.2.2.2.2.2.2.2.2
  refine ⟨_, ran, settles_of_eq ?_, ?_⟩
  · rw [drivers]
    refine reconcile_eq.trans ?_
    rw [modes, known]
  · rw [drivers, ← modes]
    exact handed.holdsFollow reconcile_endings.follows

/-- R143, R144: what a peer's census with counts does to a ball, and what it owes. -/
theorem census_judged (heard : hears o (.census x) s) (game : inGame s = true) (other : o ≠ strap s)
    (live : (recordOf x).state ≠ .listenOnly) : let r := recordOf x
    let others : Tab 32 (Option ModeEntry) := s.modes.map fun k => k.filter fun e => e.owner != o
    ∃ t, exec (.census o x) s = .next t ∧
       let rises := ∃ n v, s.control.image.troughStation = some o ∧ r.trough = some n ∧ s.balls.trough = some v ∧ v < n
       let ended := t.balls.trough.isSome = true ∧ t.balls.inPlay = 0 ∧
         (s.control.station = .tilt ∨ (s.control.station = .play ∧ rises ∧ 0 < s.balls.inPlay))
       t.balls.inPlay = inPlayCount t ∧
       (ended → t.control.station = .ready ∧ t.balls.phase = .single ∧ t.balls.search = .idle ∧
         t.rules.combo = 0 ∧ t.rules.comboTimer = none ∧ (∀ m, t.modes.get m = none) ∧
         t.trough = (if s.trough.phase = .serveWait ∨ s.trough.phase = .serving then
             { s.trough with pending := min 1 s.trough.pending }
           else { s.trough with pending := 0, phase := .idle, recount := false })) ∧
       (¬ ended → t.control.station = s.control.station ∧ t.rules = s.rules ∧
         (t.balls.phase = s.balls.phase → ∀ m, x.modes.get m = false → t.modes.get m = others.get m) ∧
         let raised := ∃ p, (s.balls.peers.get o).held.get p < r.held.get p ∨
           (s.balls.peers.get o).stuck.get p < r.stuck.get p
         let owed := isTrough s = true ∧ s.control.station = .play ∧ t.balls.trough.isSome = true ∧
           t.balls.inPlay = 0 ∧ raised ∧ s.trough.pending = 0
         (¬ owed → t.trough = s.trough) ∧
         (owed → owesOne (s.balls.phase = .single ∧ ∀ m, x.modes.get m = (s.modes.get m).isSome) s t)) := by
  intro r others
  obtain ⟨k, ran, handed, -, -⟩ := census_known heard game other
  rw [handOn_live live] at ran
  refine ⟨_, ran, ?_⟩
  have control := finish_control (censusTaken o r k)
  obtain ⟨-, -, -, rules, modes, -, balls, trough, -, -⟩ := finish_frame (censusTaken o r k)
  have ends := censusEnds_iff (o := o) (r := r) (s := k)
  have owes : censusOwes o r k ↔ _ := and_congr_right' (and_congr_right' (and_congr_left' zeroJudged_census))
  have counted := censusTaken_counted (o := o) (r := r) (s := k)
  unfold censusRises at ends
  unfold censusRaises at owes
  rw [handed.station, handed.balls, handed.image] at ends
  rw [handed.station, handed.balls, isTrough_of_setup handed.setup, handed.trough, and_assoc] at owes
  refine ⟨counted, fun ended => ?_, fun going => ?_⟩
  · obtain ⟨ready, single, search, combo, timer, none, cleared⟩ := censusTaken_ends (ends.mpr ended)
    rw [handed.trough] at cleared
    refine ⟨by rw [control]; exact ready, by rw [balls]; exact single, by rw [balls]; exact search,
      by rw [rules]; exact combo, by rw [rules]; exact timer, fun m => by rw [modes]; exact none m, ?_⟩
    rw [trough, cleared]
    rfl
  · have going : ¬ censusEnds o r k := fun h => going (ends.mp h)
    obtain ⟨station, same⟩ := censusTaken_stays going
    refine ⟨by rw [control]; exact station.trans handed.station, by rw [rules, same, handed.rules],
      fun phase m unreported => ?_, fun unowed => ?_, fun owed => ?_⟩
    · rw [balls, ← handed.balls] at phase
      rw [modes, get_censusTaken_unreported going phase unreported, handed.modes]
      exact (Tab.get_map _ _ _).symm
    · rw [trough, censusTaken_unowed going fun h => unowed (owes.mp h), handed.trough]
    · exact censusTaken_owed handed going (owes.mpr owed)

/-- R105, R138: the trough count that a peer's census moves and the modes that it makes. -/
theorem census_makes (heard : hears o (.census x) s) (game : inGame s = true) (other : o ≠ strap s)
    (live : (recordOf x).state ≠ .listenOnly) : let r := recordOf x
     ∃ t, exec (.census o x) s = .next t ∧
       (∀ n, s.control.image.troughStation = some o → r.trough = some n →
         t.balls.trough = some n ∧ t.balls.missing = s.balls.missing -
           (match s.balls.trough with
            | some v => min (n - v) s.balls.missing
            | none => 0)) ∧
       (s.control.image.troughStation ≠ some o ∨ r.trough = none →
         t.balls.trough = s.balls.trough ∧ t.balls.missing = s.balls.missing) ∧
       (s.control.image.troughStation ≠ some o →
         s.control.station = .play ∨ (s.control.station = .tilt ∧ s.balls.trough = none) → s.balls.phase = .single →
         (∀ m d, modeDef s m = some d → d.startsMulti = false) →
         modeCount s + (List.finRange 32).countP (fun m => x.modes.get m) ≤ 12 →
         ∀ m, x.modes.get m = true →
           (∀ e, s.modes.get m = some e → t.modes.get m = some e) ∧
           (∀ d, s.modes.get m = none → modeDef s m = some d →
             t.modes.get m = some (freshMode d o (timeOf d.duration))) ∧
           (s.modes.get m = none → modeDef s m = none → t.modes.get m = none)) := by
  intro r
  obtain ⟨k, ran, handed, -, -⟩ := census_known heard game other
  rw [handOn_live live] at ran
  have kept := censusTaken_view (o := o) (r := r) (s := k)
  obtain ⟨-, trough, missing, -, -⟩ := censusCounted_balls (o := o) (r := r) (s := k)
  have trough := kept.trough.trans trough
  have missing := kept.missing.trans missing
  have modesAfter : (finish (censusTaken o r k)).modes = (censusTaken o r k).modes := (finish_frame _).2.2.2.2.1
  refine ⟨_, ran, fun n here reported => ?_, fun unreported => ?_,
    fun elsewhere playing single none few m reports => ?_⟩
  · obtain ⟨known, recovered⟩ := censusBalls_reported (s := k) (handed.image.symm ▸ here) reported
    rw [handed.balls] at recovered
    exact ⟨trough.trans known, missing.trans recovered⟩
  · have same := censusBalls_unreported (s := k) (handed.image.symm ▸ unreported)
    rw [same, handed.balls] at trough missing
    exact ⟨trough, missing⟩
  · have defs (m : ModeId) : modeDef k m = modeDef s m := congrArg (·.modes.get m) handed.image
    obtain ⟨modes, setup⟩ := censusTaken_standing (o := o) (r := r) (s := k) (handed.image.symm ▸ elsewhere)
      (by rw [handed.station, handed.balls]; exact playing) (by rw [handed.balls, single])
      fun m d defined => none m d ((defs m).symm.trans defined)
    rw [handed.modes] at modes
    have defsZero (m : ModeId) : modeDef (censusZero o r k) m = modeDef s m :=
      (congrArg (·.modes.get m) (image_of_setup setup)).trans (defs m)
    have station : (censusZero o r k).control.station = s.control.station :=
      (station_of_setup setup).trans handed.station
    rw [modesAfter, censusTaken_reconcile]
    refine ⟨fun e entry => get_reconcile_stands reports (by rw [modes, entry]), fun d free defined => ?_,
      fun free undefined => get_reconcile_unmade (by rw [modes, free]) (.inr ((defsZero m).trans undefined))⟩
    refine get_reconcile_makes ?_ ?_ reports (by rw [modes, free]) ((defsZero m).trans defined)
    · rw [station]
      exact playing.imp id And.left
    · unfold modeCount at few ⊢
      rw [modes]
      exact few

end

/-- Settles O49: the census stored and compared, then its counts, the phase, a B of 0 and the modes in turn. -/
theorem aCensusIsHandedOn : Obligations.ACensusIsHandedOn :=
  ⟨fun _ _ _ heard game => ⟨fun other => census_handed heard game other,
      fun same foreign => census_own heard game same foreign⟩,
    fun _ _ _ heard game other => ⟨fun listens => census_listenOnly heard game other listens,
      fun live => census_judged heard game other live⟩,
    fun _ _ _ heard game other live => census_makes heard game other live⟩

end Sys2Proof.Machine

end

