-- ==== Sys2Proof/Proofs/MultiballStarts.lean ====
section
/-! SUPPORT. The multiball release and start (R89, R128, R146). -/

namespace Sys2Proof.Machine

section
variable {p q : PocketNo} {l : List PocketNo} {d : DriverNo} {n : Nat} {s t u : State}

/-! ## Pockets that join the release (R128) -/

/-- R128: pocket `p` takes up the release: it is fitted and holds balls. -/
def takesUp (s : State) (p : PocketNo) : Prop := (pocketCfg s p).isSome = true ∧ 0 < (pocket s p).held

/-- R128: pocket `p` stands where a pocket joins the release list. -/
def awaitsRelease (s : State) (p : PocketNo) : Prop := (pocket s p).phase = .stable ∨ (pocket s p).phase = .kickoutWait

/-- R128: pocket `p` joins the release list. -/
def joinsRelease (s : State) (p : PocketNo) : Bool :=
  (pocketCfg s p).isSome && decide (0 < (pocket s p).held) &&
    ((pocket s p).phase == .stable || (pocket s p).phase == .kickoutWait)

theorem joinsRelease_iff : joinsRelease s p = true ↔ takesUp s p ∧ awaitsRelease s p := by
  unfold joinsRelease takesUp awaitsRelease
  simp

/-- R128: a pocket in RELEASE-WAIT that owes every ball it keeps. -/
def PocketState.released (x : PocketState) : PocketState :=
  { x with phase := .releaseWait, kickout := none, pending := x.through + x.held + x.resting }

/-- R128: what becomes of one pocket: its held and stuck balls stay, and in the list it owes every ball it keeps. -/
theorem joinRelease_eq : ∃ y : PocketState, y.held = (pocket s p).held ∧ y.stuck = (pocket s p).stuck ∧
    (joinsRelease s p = true → y = (pocket s p).released) ∧
    joinRelease p s = { s with pockets := { s.pockets with
      pockets := s.pockets.pockets.set p y
      release := s.pockets.release ++ if joinsRelease s p then [p] else [] } } := by
  by_cases takes : takesUp s p
  · refine ⟨{ pocket s p with
      kickout := none, pending := (pocket s p).through + (pocket s p).held + (pocket s p).resting
      phase := if (pocket s p).phase = .stable ∨ (pocket s p).phase = .kickoutWait then .releaseWait
        else (pocket s p).phase }, rfl, rfl, fun joins => ?_, ?_⟩
    · unfold PocketState.released
      have waits : (pocket s p).phase = .stable ∨ (pocket s p).phase = .kickoutWait := (joinsRelease_iff.mp joins).2
      rw [if_pos waits]
    · refine (if_pos takes).trans ?_
      by_cases waits : awaitsRelease s p
      · rw [if_pos (joinsRelease_iff.mpr ⟨takes, waits⟩)]
        exact if_pos waits
      · rw [if_neg fun joins => waits (joinsRelease_iff.mp joins).2, List.append_nil]
        exact if_neg waits
  · have stays : joinRelease p s = s := if_neg takes
    refine ⟨pocket s p, rfl, rfl, fun joins => absurd (joinsRelease_iff.mp joins).1 takes, ?_⟩
    rw [stays, if_neg fun joins => takes (joinsRelease_iff.mp joins).1, List.append_nil]
    unfold pocket
    rw [Tab.set_get]

/-- R128: the pockets of `l` have taken up the release, those that wait in list order. -/
structure Joined (s : State) (l : List PocketNo) (t : State) : Prop where
  rest : t = { s with pockets := t.pockets }
  turn : t.pockets.turn = s.pockets.turn
  held : ownHeld t = ownHeld s
  stuck : ownStuck t = ownStuck s
  release : t.pockets.release = s.pockets.release ++ l.filter (joinsRelease s)
  done : ∀ p ∈ l, joinsRelease s p = true → pocket t p = (pocket s p).released
  ahead : ∀ p, p ∉ l → pocket t p = pocket s p

theorem Joined.step (h : Joined s l t) (new : p ∉ l) : Joined s (l ++ [p]) (joinRelease p t) := by
  obtain ⟨rest, turn, held, stuck, release, done, ahead⟩ := h
  have own := ahead p new
  have joins : joinsRelease t p = joinsRelease s p := by
    unfold joinsRelease
    rw [own, rest]
    rfl
  obtain ⟨y, sameHeld, sameStuck, frees, changed⟩ := joinRelease_eq (s := t) (p := p)
  rw [joins] at frees changed
  have total (g : PocketState → Nat) (same : g y = g (pocket t p)) :
      (t.pockets.pockets.set p y).sum g = t.pockets.pockets.sum g := by
    refine (sum_set_congr t.pockets.pockets p g same).trans ?_
    unfold pocket
    rw [Tab.set_get]
  have reads (q : PocketNo) : pocket (joinRelease p t) q = if q = p then y else pocket t q := by
    rw [changed]
    exact Tab.get_set _ _ _ _
  refine ⟨?_, ?_, ?_, ?_, ?_, fun q member frees' => ?_, fun q absent => ?_⟩
  · rw [changed, rest]
  · rw [changed, ← turn]
  · rw [changed, ← held]
    exact total _ sameHeld
  · rw [changed, ← stuck]
    exact total _ sameStuck
  · rw [changed, List.filter_append, ← List.append_assoc, ← release, List.filter_cons, List.filter_nil]
  · rw [reads]
    by_cases same : q = p
    · rw [if_pos same, same, frees (same ▸ frees'), own]
    · rw [if_neg same]
      exact done q ((List.mem_append.mp member).resolve_right fun h => same (List.mem_singleton.mp h)) frees'
  · rw [List.mem_append, List.mem_singleton, not_or] at absent
    rw [reads, if_neg absent.2, ahead q absent.1]

theorem joined_foldl (once : l.Nodup) : Joined s l (l.foldl (fun t p => joinRelease p t) s) := by
  induction l using List.reverseRecOn with
  | nil => exact ⟨rfl, rfl, rfl, rfl, (List.append_nil _).symm, fun _ h => absurd h List.not_mem_nil, fun _ _ => rfl⟩
  | append_singleton l p ih =>
    obtain ⟨before, -, apart⟩ := List.nodup_append.mp once
    rw [List.foldl_append]
    exact (ih before).step fun member => apart p member p List.mem_cons_self rfl

/-- R128: a release begun where none stands: the pockets that wait, in pocket order, and the turn timer. -/
structure ReleaseBegun (rank : Nat) (s t : State) : Prop where
  rest : t = { s with pockets := t.pockets }
  held : ownHeld t = ownHeld s
  stuck : ownStuck t = ownStuck s
  turn : t.pockets.turn = .waiting (rank * s.control.image.releaseSpacing)
  release : t.pockets.release = (List.finRange 4).filter (joinsRelease s)
  pockets : ∀ p ∈ t.pockets.release, pocket t p = (pocket s p).released

theorem beginRelease_begins {rank : Nat} (none : s.pockets.release = []) (idle : s.pockets.turn = .idle) :
    ReleaseBegun rank s (beginRelease rank s) := by
  have joined : Joined s (List.finRange 4) (eachUp 4 joinRelease s) := joined_foldl (List.nodup_finRange 4)
  have begun : beginRelease rank s = (eachUp 4 joinRelease s).mapPockets fun k =>
      if k.turn = .idle then
        { k with turn := .waiting (rank * (eachUp 4 joinRelease s).control.image.releaseSpacing) }
      else k := rfl
  generalize eachUp 4 joinRelease s = t at joined begun
  obtain ⟨rest, turn, held, stuck, release, done, -⟩ := joined
  have started : beginRelease rank s = { t with pockets := { t.pockets with
      turn := .waiting (rank * t.control.image.releaseSpacing) } } := by
    exact begun.trans (congrArg (fun k => { t with pockets := k }) (if_pos (turn.trans idle)))
  rw [none, List.nil_append] at release
  rw [started]
  refine ⟨by rw [rest], held, stuck, by rw [rest], release, fun p member => ?_⟩
  have listed : p ∈ (List.finRange 4).filter (joinsRelease s) := release ▸ member
  exact done p (List.mem_finRange p) (List.mem_filter.mp listed).2

/-! ## The start (R146) -/

/-- R146: the current player's credit spent. -/
def creditSpent (s : State) : State := { s with
  balls := { s.balls with credits := s.balls.credits.set s.rules.current 0 } }

/-- R128: the release of a station that holds balls. -/
def releaseDue (s : State) : State := if 0 < ownHeld s then beginRelease (releaseRank s) s else s

theorem startMultiball_single (single : s.control.image.installed = 1) : startMultiball s = creditSpent s :=
  if_pos single

theorem startMultiball_many (many : s.control.image.installed ≠ 1) :
    startMultiball s = oweServes (shortfall (creditSpent s)) (releaseDue (creditSpent s)) := if_neg many

/-- R89: stations alike in what is counted hold alike. -/
theorem SameView.heldAt (h : SameView s t) : heldAt t = heldAt s := by
  funext j
  have strap : Machine.strap t = Machine.strap s := h.strap
  unfold Machine.heldAt
  rw [strap, h.held, h.peers]

theorem SameView.trans (h : SameView s t) (g : SameView t u) : SameView s u where
  image := g.image.trans h.image
  strap := g.strap.trans h.strap
  trough := g.trough.trans h.trough
  missing := g.missing.trans h.missing
  peers := g.peers.trans h.peers
  held := g.held.trans h.held
  stuck := g.stuck.trans h.stuck

/-- R89: the rank, as the stations below that hold balls. -/
theorem releaseRank_eq : releaseRank s =
    (List.finRange 16).countP fun j => decide (j < strap s) && decide (0 < heldAt s j) :=
  List.countP_eq_length_filter.symm

/-- R128: with 1 installed ball, or none held here, no pocket is released. -/
theorem startMultiball_unreleased (h : s.control.image.installed = 1 ∨ ownHeld s = 0) :
    (startMultiball s).pockets = s.pockets := by
  by_cases single : s.control.image.installed = 1
  · rw [startMultiball_single single]
    rfl
  · have empty : ¬ 0 < ownHeld (creditSpent s) := by
      rw [Nat.not_lt, Nat.le_zero]
      exact h.resolve_left single
    have due : releaseDue (creditSpent s) = creditSpent s := if_neg empty
    rw [startMultiball_many single, due, (oweServes_frame _ _).2.2.2.2.2.1]
    rfl

section
variable (none : s.pockets.release = []) (idle : s.pockets.turn = .idle)
include none idle

/-- R128: a release due leaves all but the pockets, and there the held and stuck balls. -/
theorem releaseDue_keeps : releaseDue s = { s with pockets := (releaseDue s).pockets } ∧
    ownHeld (releaseDue s) = ownHeld s ∧ ownStuck (releaseDue s) = ownStuck s := by
  unfold releaseDue
  split
  · have begun := beginRelease_begins (rank := releaseRank s) none idle
    exact ⟨begun.rest, begun.held, begun.stuck⟩
  · exact ⟨rfl, rfl, rfl⟩

/-- R146: what a start leaves: all but the credit, the pockets, the serves, and the drivers and flags of a serve. -/
theorem startMultiball_keeps : SameView s (startMultiball s) ∧ (startMultiball s).control.setup = s.control.setup ∧
    (startMultiball s).balls = (creditSpent s).balls := by
  by_cases single : s.control.image.installed = 1
  · rw [startMultiball_single single]
    exact ⟨⟨rfl, rfl, rfl, rfl, rfl, rfl, rfl⟩, rfl, rfl⟩
  · rw [startMultiball_many single]
    obtain ⟨rest, held, stuck⟩ := releaseDue_keeps (s := creditSpent s) none idle
    have owed := oweServes_keepsView (n := shortfall (creditSpent s)) (s := releaseDue (creditSpent s))
    have balls : (releaseDue (creditSpent s)).balls = (creditSpent s).balls := by rw [rest]
    have control : (releaseDue (creditSpent s)).control = s.control := by
      rw [rest]
      rfl
    have view : SameView s (releaseDue (creditSpent s)) :=
      ⟨by rw [control], by rw [control], by rw [balls]; rfl, by rw [balls]; rfl, by rw [balls]; rfl, held, stuck⟩
    refine ⟨view.trans owed.sameView, ?_, ?_⟩
    · rw [oweServes_setup, control]
    · rw [(oweServes_frame _ _).2.2.2.2.2.2.1, balls]

/-- R128: otherwise each that waits joins the list, and the turn timer runs for the rank. -/
theorem startMultiball_released (many : s.control.image.installed ≠ 1) (holds : 0 < ownHeld s) :
    (startMultiball s).pockets.turn = .waiting (((List.finRange 16).countP fun j =>
        decide (j < strap s) && decide (0 < heldAt s j)) * s.control.image.releaseSpacing) ∧
      (startMultiball s).pockets.release = (List.finRange 4).filter (joinsRelease s) ∧
      ∀ p ∈ (startMultiball s).pockets.release, pocket (startMultiball s) p = (pocket s p).released := by
  have begun := beginRelease_begins (s := creditSpent s) (rank := releaseRank (creditSpent s)) none idle
  have due : releaseDue (creditSpent s) = beginRelease (releaseRank (creditSpent s)) (creditSpent s) := if_pos holds
  have pockets : (startMultiball s).pockets = (beginRelease (releaseRank (creditSpent s)) (creditSpent s)).pockets := by
    rw [startMultiball_many many, due, (oweServes_frame _ _).2.2.2.2.2.1]
  unfold pocket
  rw [pockets]
  obtain ⟨-, -, -, turn, release, freed⟩ := begun
  exact ⟨turn.trans (by rw [releaseRank_eq]; rfl), release, freed⟩

/-- R146: elsewhere than at the trough station, and with 1 installed ball, no serve is owed. -/
theorem startMultiball_unserved (h : isTrough s = false ∨ s.control.image.installed = 1) :
    (startMultiball s).trough = s.trough := by
  by_cases single : s.control.image.installed = 1
  · rw [startMultiball_single single]
    rfl
  · obtain ⟨rest, -⟩ := releaseDue_keeps (s := creditSpent s) none idle
    have control : (releaseDue (creditSpent s)).control = s.control := by
      rw [rest]
      rfl
    have elsewhere : isTrough (releaseDue (creditSpent s)) = false := by
      unfold isTrough
      rw [control]
      exact h.resolve_right single
    rw [startMultiball_many single, oweServes_elsewhere elsewhere, rest]
    rfl

/-- R146: with a working trough eject driver the trough station owes the shortfall. -/
theorem startMultiball_pending (many : s.control.image.installed ≠ 1) (here : isTrough s = true)
    (named : troughDriver s = some d) (works : (unit s d).phase ≠ .faulted) :
    (startMultiball s).trough.pending = min 6 (s.trough.pending + shortfall (creditSpent s)) := by
  obtain ⟨rest, -⟩ := releaseDue_keeps (s := creditSpent s) none idle
  have control : (releaseDue (creditSpent s)).control = s.control := by
    rw [rest]
    rfl
  have trough : (releaseDue (creditSpent s)).trough = s.trough := by
    rw [rest]
    rfl
  have drivers : (releaseDue (creditSpent s)).drivers = s.drivers := by
    rw [rest]
    rfl
  have setup := congrArg Control.setup control
  rw [startMultiball_many many, oweServes_pending ((isTrough_of_setup setup).trans here)
    ((troughDriver_of_setup setup).trans named) (by unfold unit; rw [drivers]; exact works), trough]

end

end

end Sys2Proof.Machine

end

