-- ==== Sys2Proof/Proofs/LocksTaken.lean ====
section
/-! SUPPORT. A LOCK taken (R133, R142, R143, R145 to R147), and O47. -/

namespace Sys2Proof.Machine

section
variable {o : StationNo} {x : LockPayload} {p : Player} {cause : ZeroCause} {n : Nat} {s t u : State}

/-! ## The counts (R133) -/

/-- R133: the counts that a peer's LOCK carries are kept. -/
def lockCounted (o : StationNo) (x : LockPayload) (s : State) : State :=
  if o = strap s then s else keepLockCounts o x s

/-- R133: the counts of pocket and player that a LOCK names, as carried. -/
def lockCounts (x : LockPayload) (k : PeerCounts) : PeerCounts :=
  { held := k.held.set x.pocket x.held.toNat, stuck := k.stuck.set x.pocket x.stuck.toNat }

/-- R133: the view after the LOCK `x` of `o`: this station's own changes nothing, a peer's its counts, and B follows. -/
structure LockView (o : StationNo) (x : LockPayload) (s t : State) : Prop where
  own : o = strap s → t.balls.peers = s.balls.peers ∧ t.balls.inPlay = s.balls.inPlay
  peer : o ≠ strap s → t.balls.peers.get o = lockCounts x (s.balls.peers.get o) ∧ t.balls.inPlay = inPlayCount t
  others : ∀ j, j ≠ o → t.balls.peers.get j = s.balls.peers.get j
  trough : t.balls.trough = s.balls.trough
  missing : t.balls.missing = s.balls.missing

theorem LockView.congr (h : LockView o x s t) (view : SameView t u) (inPlay : u.balls.inPlay = t.balls.inPlay) :
    LockView o x s u := by
  refine ⟨fun own => ?_, fun other => ?_, fun j apart => ?_, view.trough.trans h.trough, view.missing.trans h.missing⟩
  · rw [view.peers, inPlay]
    exact h.own own
  · rw [view.peers, inPlay, view.counts.1]
    exact h.peer other
  · rw [view.peers]
    exact h.others j apart

theorem countOf_small {b : Byte} (small : b.toNat ≤ 3) : countOf b = b.toNat := if_pos small

/-- What a LOCK's counts leave: all but the Ball Accounting Unit, and there the credits and the phase. -/
theorem lockCounted_keeps : Steady s (lockCounted o x s) ∧ (lockCounted o x s).modes = s.modes ∧
    (lockCounted o x s).drivers = s.drivers ∧ (lockCounted o x s).balls.credits = s.balls.credits ∧
    (lockCounted o x s).balls.phase = s.balls.phase := by
  unfold lockCounted
  split
  · exact ⟨.refl, rfl, rfl, rfl, rfl⟩
  · obtain ⟨-, -, -, -, modes, -, -, -, -, drivers, -⟩ := keepLockCounts_frame o x s
    obtain ⟨-, -, -, credits, phase⟩ := recomputeB_balls (s := s.mapBalls fun b =>
      { b with peers := b.peers.modify o fun k =>
        { held := k.held.set x.pocket (countOf x.held), stuck := k.stuck.set x.pocket (countOf x.stuck) } })
    exact ⟨recomputeB_steady, modes, drivers, credits, phase⟩

theorem lockCounted_view (held : x.held.toNat ≤ 3) (stuck : x.stuck.toNat ≤ 3) :
    LockView o x s (lockCounted o x s) := by
  unfold lockCounted
  by_cases own : o = strap s
  · rw [if_pos own]
    exact ⟨fun _ => ⟨rfl, rfl⟩, fun other => absurd own other, fun _ _ => rfl, rfl, rfl⟩
  · rw [if_neg own]
    obtain ⟨peers, trough, missing, -⟩ := recomputeB_balls (s := s.mapBalls fun b =>
      { b with peers := b.peers.modify o fun k =>
        { held := k.held.set x.pocket (countOf x.held), stuck := k.stuck.set x.pocket (countOf x.stuck) } })
    have peers : (keepLockCounts o x s).balls.peers = s.balls.peers.set o (lockCounts x (s.balls.peers.get o)) := by
      refine peers.trans ?_
      unfold lockCounts
      rw [← countOf_small held, ← countOf_small stuck]
      rfl
    exact ⟨fun same => absurd same own, fun _ => ⟨by rw [peers, Tab.get_set_self], recomputeB_counted⟩,
      fun j apart => by rw [peers, Tab.get_set_other _ _ apart], trough, missing⟩

/-! ## The credit (R145) -/

/-- R145: the LOCK raises the credit of player `p`. -/
def earns (x : LockPayload) (s : State) (p : Player) : Prop :=
  (x.event = 0 ∨ x.event = 2) ∧ x.credit = 1 ∧ x.player.toNat = p.val + 1 ∧ p.val + 1 ≤ s.control.playerCount

theorem creditSet_small {b : Byte} (small : b.toNat ≤ 1) : creditSet b = true ↔ b = 1 := by
  unfold creditSet
  constructor
  · intro set
    split at set
    · rename_i one
      exact BitVec.eq_of_toNat_eq one
    · rw [if_pos (by omega)] at set
      cases set
  · rintro rfl
    rfl

/-- R145: the player credited in PLAY and TILT. -/
theorem creditedPlayer_eq_some (credit : x.credit.toNat ≤ 1)
    (playing : s.control.station = .play ∨ s.control.station = .tilt) : creditedPlayer x s = some p ↔ earns x s p := by
  have station : s.control.station = .ready ∨ s.control.station = .play ∨ s.control.station = .tilt := .inr playing
  have test : ((x.event = lockHeld ∨ x.event = lockKickThrough) ∧ creditSet x.credit = true ∧
      (s.control.station = .ready ∨ s.control.station = .play ∨ s.control.station = .tilt)) ↔
        (x.event = 0 ∨ x.event = 2) ∧ x.credit = 1 :=
    and_congr_right' (by rw [creditSet_small credit, and_iff_left station])
  unfold creditedPlayer earns
  by_cases due : (x.event = 0 ∨ x.event = 2) ∧ x.credit = 1
  · rw [if_pos (test.mpr due), playerOf_eq_some, and_iff_right due.1, and_iff_right due.2]
    exact and_congr_right fun names => by rw [names]
  · rw [if_neg fun h => due (test.mp h)]
    exact iff_of_false nofun fun h => due ⟨h.1, h.2.1⟩

/-- R145: in IDLE none is. -/
theorem creditedPlayer_idle (idle : s.control.station = .idle) : creditedPlayer x s = none :=
  if_neg fun h => by simp [idle] at h

theorem creditedPlayer_of_setup (setup : t.control.setup = s.control.setup) :
    creditedPlayer x t = creditedPlayer x s := by
  have count : t.control.playerCount = s.control.playerCount := playerCount_of_setup setup
  unfold creditedPlayer
  rw [station_of_setup setup, count]

/-- R145: the credit of the player that the LOCK names, of those `who` gives. -/
def creditedTo (who : Option Player) (s : State) : State :=
  match who with
  | some p => raiseCredit p s
  | none => s

theorem creditedTo_eq {who : Option Player} : creditedTo who s = { s with
    balls := { s.balls with credits := (creditedTo who s).balls.credits } } := by
  cases who <;> rfl

theorem creditedTo_credits {who : Option Player} : (creditedTo who s).balls.credits.get p =
    if who = some p then min 4 (s.balls.credits.get p + 1) else s.balls.credits.get p := by
  cases who with
  | none => rfl
  | some q =>
    refine (Tab.get_modify _ _ _ _).trans ?_
    by_cases same : p = q
    · rw [if_pos same, if_pos (by rw [same]), same]
      rfl
    · rw [if_neg same, if_neg fun h => same (Option.some.inj h).symm]

/-! ## The judgement (R142, R143, R146) -/

/-- R133, R145: the counts and the credit of a LOCK taken. -/
def lockCredited (o : StationNo) (x : LockPayload) (s : State) : State :=
  creditedTo (creditedPlayer x s) (lockCounted o x s)

/-- R142: and the phase judged. -/
def lockJudged (o : StationNo) (x : LockPayload) (s : State) : State := judgePhase (lockCredited o x s)

/-- R146: the LOCK starts a multiball. -/
def lockStarts (o : StationNo) (x : LockPayload) (s : State) : Bool :=
  match creditedPlayer x s with
  | some p => multiballDue p (lockJudged o x s)
  | none => false

/-- R143: what a LOCK is for a B of 0. -/
def lockCause (x : LockPayload) : ZeroCause := if x.event = lockHeld ∨ x.event = lockJammed then .away else .other

theorem takeLock_eq : takeLock o x s = restartQuiet (judgeZero (lockCause x) s.balls.inPlay (lockStarts o x s)
    (if lockStarts o x s then startMultiball (lockJudged o x s) else lockJudged o x s)) := by
  have who := creditedPlayer_of_setup (x := x) (lockCounted_keeps (o := o) (x := x) (s := s)).1.setup
  unfold lockStarts lockJudged lockCredited
  rw [← who]
  rfl

theorem lockCause_drains : (lockCause x).drains = false := by
  unfold lockCause
  split <;> rfl

theorem lockCause_replaces : (lockCause x).replaces = true ↔ x.event = 0 ∨ x.event = 3 := by
  unfold lockCause
  split
  · rename_i away
    exact iff_of_true rfl away
  · rename_i other
    exact iff_of_false nofun other

theorem lockCredited_steady : Steady s (lockCredited o x s) := by
  refine (lockCounted_keeps (o := o) (x := x)).1.trans ?_
  unfold lockCredited
  rw [creditedTo_eq]
  exact ⟨rfl, rfl, rfl, rfl, fun _ => rfl⟩

theorem lockJudged_steady : Steady s (lockJudged o x s) := lockCredited_steady.trans judgePhase_steady

theorem lockJudged_keepsView : KeepsView (lockCredited o x s) (lockJudged o x s) := judgePhase_keepsView

theorem lockJudged_view (held : x.held.toNat ≤ 3) (stuck : x.stuck.toNat ≤ 3) :
    LockView o x s (lockJudged o x s) := by
  have credited : SameView (lockCounted o x s) (lockCredited o x s) ∧
      (lockCredited o x s).balls.inPlay = (lockCounted o x s).balls.inPlay := by
    unfold lockCredited
    rw [creditedTo_eq]
    exact ⟨⟨rfl, rfl, rfl, rfl, rfl, rfl, rfl⟩, rfl⟩
  exact (lockCounted_view held stuck).congr (credited.1.trans lockJudged_keepsView.sameView)
    (lockJudged_keepsView.inPlay.trans credited.2)

/-- R138: a LOCK leaves T. -/
theorem lockJudged_trough : (lockJudged o x s).balls.trough = s.balls.trough := by
  have counted : (lockCounted o x s).balls.trough = s.balls.trough := by
    unfold lockCounted
    split
    · rfl
    · exact recomputeB_balls.2.1
  rw [lockJudged_keepsView.trough, lockCredited, creditedTo_eq]
  exact counted

theorem lockJudged_credits : (lockJudged o x s).balls.credits.get p =
    if creditedPlayer x s = some p then min 4 (s.balls.credits.get p + 1) else s.balls.credits.get p := by
  rw [lockJudged_keepsView.credits, lockCredited, creditedTo_credits, lockCounted_keeps.2.2.2.1]

theorem lockCredited_frame : (lockCredited o x s).modes = s.modes ∧ (lockCredited o x s).drivers = s.drivers ∧
    (lockCredited o x s).balls.phase = s.balls.phase := by
  obtain ⟨-, modes, drivers, -, phase⟩ := lockCounted_keeps (o := o) (x := x) (s := s)
  unfold lockCredited
  rw [creditedTo_eq]
  exact ⟨modes, drivers, phase⟩

/-- R142: in PLAY the phase follows B. -/
theorem lockJudged_phase (play : s.control.station = .play) : (lockJudged o x s).balls.phase =
    if 2 ≤ (lockJudged o x s).balls.inPlay then .multi else .single := by
  have plays : inPlay (lockCredited o x s) = true := beq_iff_eq.mpr (lockCredited_steady.station.trans play)
  rw [lockJudged_keepsView.inPlay]
  exact judgePhase_phase.trans (phaseJudged_play plays)

/-- R142: a SINGLE phase stays outside PLAY, and while at most one ball is in play. -/
theorem lockJudged_single (single : s.balls.phase = .single)
    (few : s.control.station ≠ .play ∨ (lockJudged o x s).balls.inPlay < 2) :
    lockJudged o x s = lockCredited o x s := by
  have phase := (lockCredited_frame (o := o) (x := x) (s := s)).2.2.trans single
  refine judgePhase_stays ((phaseJudged_single phase (few.imp (fun out => ?_) fun few => ?_)).trans phase.symm)
  · unfold inPlay
    rw [lockCredited_steady.station]
    exact beq_false_of_ne out
  · rwa [lockJudged_keepsView.inPlay] at few

/-! ## The quiet timer (R147) and the end of the step -/

theorem restartQuiet_keepsView : KeepsView s (restartQuiet s) := by
  rw [restartQuiet_eq]
  unfold State.stirredBy
  cases inGame s <;> exact ⟨rfl, rfl, id, rfl, rfl, rfl, rfl, rfl, rfl, rfl⟩

theorem rested_keepsView : KeepsView s (finish (restartQuiet s)) := restartQuiet_keepsView.trans finish_keepsView

/-- R147: in a game state the quiet timer restarts; what the judgements decide stays. -/
theorem rested_frame (game : inGame s = true) : (finish (restartQuiet s)).control.station = s.control.station ∧
    (finish (restartQuiet s)).control.flags = s.control.flags ∧ (finish (restartQuiet s)).rules = s.rules ∧
    (finish (restartQuiet s)).modes = s.modes ∧ (finish (restartQuiet s)).trough = s.trough ∧
    (finish (restartQuiet s)).drivers = s.drivers ∧ (finish (restartQuiet s)).balls.phase = s.balls.phase ∧
    (finish (restartQuiet s)).balls.quiet = some (s.control.image.searchDelay * 1000) := by
  have control := finish_control (restartQuiet s)
  obtain ⟨-, -, -, rules, modes, -, balls, trough, -, drivers⟩ := finish_frame (restartQuiet s)
  rw [restartQuiet_inGame game] at control rules modes balls trough drivers ⊢
  exact ⟨by rw [control], by rw [control], rules, modes, trough, drivers, by rw [balls], by rw [balls]⟩

/-! ## A LOCK that starts no multiball -/

/-- R143: B judged for 0 after a LOCK that starts no multiball. -/
def lockZero (o : StationNo) (x : LockPayload) (s : State) : State :=
  judgeZero (lockCause x) s.balls.inPlay false (lockJudged o x s)

theorem takeLock_unstarted (unstarted : lockStarts o x s = false) : takeLock o x s = restartQuiet (lockZero o x s) := by
  rw [takeLock_eq, unstarted]
  rfl

theorem multiballDue_iff : multiballDue p s = true ↔
    s.control.station = .play ∧ p = s.rules.current ∧ s.control.image.threshold ≤ s.balls.credits.get p := by
  unfold multiballDue inPlay
  simp only [Bool.and_eq_true, beq_iff_eq, decide_eq_true_eq, and_assoc]

/-- R146: a multiball starts in PLAY, as the current player's credit is raised to the threshold. -/
theorem lockStarts_iff (credit : x.credit.toNat ≤ 1) : lockStarts o x s = true ↔ s.control.station = .play ∧
    earns x s s.rules.current ∧ s.control.image.threshold ≤ min 4 (s.balls.credits.get s.rules.current + 1) := by
  have steady := lockJudged_steady (o := o) (x := x) (s := s)
  have image : (lockJudged o x s).control.image = s.control.image := image_of_setup steady.setup
  unfold lockStarts
  constructor
  · intro starts
    cases who : creditedPlayer x s with
    | none => rw [who] at starts; cases starts
    | some p =>
      rw [who] at starts
      obtain ⟨play, current, reached⟩ := multiballDue_iff.mp starts
      have play := steady.station.symm.trans play
      rw [lockJudged_credits, if_pos who, image] at reached
      rw [steady.rules] at current
      subst current
      exact ⟨play, (creditedPlayer_eq_some credit (.inl play)).mp who, reached⟩
  · rintro ⟨play, earned, reached⟩
    have who := (creditedPlayer_eq_some credit (.inl play)).mpr earned
    rw [who]
    refine multiballDue_iff.mpr ⟨steady.station.trans play, by rw [steady.rules], ?_⟩
    rwa [lockJudged_credits, if_pos who, image]

theorem exec_lock (heard : hears o (.lock x) s) (game : inGame s = true) :
    exec (.lock o x) s = .next (finish (takeLock o x (received o (.lock x) s))) :=
  congrArg (fun v => Host.Outcome.next (finish v)) ((complete_heard _ _ heard).trans (if_pos game))

/-- R144: what B of 0 decides is a game state. -/
theorem lockZero_inGame (game : inGame s = true) : inGame (lockZero o x s) = true := by
  have judged : inGame (lockJudged o x s) = true := (inGame_of_setup lockJudged_steady.setup).trans game
  unfold lockZero
  by_cases ends : zeroEnds (lockCause x) s.balls.inPlay (lockJudged o x s)
  · rw [judgeZero_ends ends, ballOver_eq]
    rfl
  · exact (inGame_of_setup (judgeZero_kept ends).1).trans judged

/-- R133, R145, R147: what a LOCK that starts no multiball leaves of the counts, the pockets and the tallies. -/
theorem lock_kept (handed : Untouched s u) (game : inGame s = true) (held : x.held.toNat ≤ 3)
    (stuck : x.stuck.toNat ≤ 3) :
    let t := finish (restartQuiet (lockZero o x u))
    LockView o x s t ∧ t.pockets = s.pockets ∧
      t.balls.quiet = some (s.control.image.searchDelay * 1000) ∧ t.rules.tallies = s.rules.tallies ∧
      ∀ p, t.balls.credits.get p =
        if creditedPlayer x s = some p then min 4 (s.balls.credits.get p + 1) else s.balls.credits.get p := by
  intro t
  have kept : KeepsView (lockJudged o x u) t := judgeZero_keepsView.trans rested_keepsView
  have view := (lockJudged_view (o := o) (s := u) held stuck).congr kept.sameView kept.inPlay
  have steady := handed.steady.trans (lockJudged_steady (o := o) (x := x))
  have judged : inGame (lockZero o x u) = true := lockZero_inGame ((inGame_of_setup handed.setup).trans game)
  have delay : (lockZero o x u).control.image = s.control.image :=
    (judgeZero_keepsView.image).trans (image_of_setup steady.setup)
  refine ⟨?_, kept.pockets.trans steady.pockets, ?_, by rw [kept.tallies, steady.rules], fun p => ?_⟩
  · obtain ⟨own, peer, others, trough, missing⟩ := view
    rw [handed.strap, handed.balls] at own peer
    rw [handed.balls] at others trough missing
    exact ⟨own, peer, others, trough, missing⟩
  · rw [← delay]
    exact (rested_frame judged).2.2.2.2.2.2.2
  · rw [kept.credits, lockJudged_credits, creditedPlayer_of_setup handed.setup, handed.balls]

/-- R145: the credits in the terms of the player that the LOCK names. -/
theorem credited_earns (credit : x.credit.toNat ≤ 1) (playing : s.control.station = .play ∨ s.control.station = .tilt)
    {c : Tab 4 Nat} (credits : ∀ p, c.get p =
      if creditedPlayer x s = some p then min 4 (s.balls.credits.get p + 1) else s.balls.credits.get p) (p : Player) :
    (earns x s p → c.get p = min 4 (s.balls.credits.get p + 1)) ∧
      (¬ earns x s p → c.get p = s.balls.credits.get p) := by
  rw [credits, ← creditedPlayer_eq_some credit playing]
  exact ⟨fun earned => if_pos earned, fun unearned => if_neg unearned⟩

/-- R143: a LOCK never ends a ball in PLAY. -/
theorem lock_unended (tiltless : s.control.station ≠ .tilt) :
    ¬ zeroEnds (lockCause x) n s := by
  rintro ⟨-, tilt | ⟨-, drains, -⟩⟩
  · exact tiltless tilt
  · rw [lockCause_drains] at drains
    cases drains

/-- R142, R143: in PLAY the phase follows B, and no serve is owed but for a LOCK HELD or JAMMED that leaves B at 0. -/
theorem lock_play (handed : Untouched s u) (play : s.control.station = .play) :
    let t := finish (restartQuiet (lockZero o x u))
    t.control.station = .play ∧ t.balls.phase = (if 2 ≤ t.balls.inPlay then .multi else .single) ∧
      (isTrough s = false ∨ t.balls.inPlay ≠ 0 ∨ s.balls.trough = none ∨ s.trough.pending ≠ 0 ∨
        (x.event ≠ 0 ∧ x.event ≠ 3) → t.trough = s.trough) ∧
      (isTrough s = true → t.balls.inPlay = 0 → s.balls.trough.isSome = true → s.trough.pending = 0 →
        x.event = 0 ∨ x.event = 3 → owesOne (s.balls.phase = .single) s t) := by
  intro t
  have steady := handed.steady.trans (lockJudged_steady (o := o) (x := x))
  have playHere : (lockJudged o x u).control.station = .play := steady.station.trans play
  have stays : ¬ zeroEnds (lockCause x) u.balls.inPlay (lockJudged o x u) := lock_unended (by simp [playHere])
  obtain ⟨setup, -, -, balls⟩ := judgeZero_kept (started := false) stays
  have station : (lockZero o x u).control.station = .play := (station_of_setup setup).trans playHere
  have game : inGame (lockZero o x u) = true := by
    unfold inGame
    rw [station]
    rfl
  obtain ⟨stands, flags, -, -, trough, drivers, phase, -⟩ := rested_frame game
  have kept : KeepsView (lockJudged o x u) t := judgeZero_keepsView.trans rested_keepsView
  have known : (lockJudged o x u).balls.trough = s.balls.trough := by rw [lockJudged_trough, handed.balls]
  refine ⟨stands.trans station, ?_, fun unowed => ?_, fun here none known' pending away => ?_⟩
  · rw [kept.inPlay, ← lockJudged_phase (handed.station.trans play)]
    exact phase.trans (congrArg Balls.phase balls)
  · have unchanged : lockZero o x u = lockJudged o x u := by
      refine (judgeZero_cases (started := false) stays).resolve_right ?_
      rintro ⟨⟨here, ⟨view, none⟩, -, replaces, pending⟩, -⟩
      rw [isTrough_of_setup steady.setup] at here
      rw [steady.trough] at pending
      rw [known] at view
      rcases unowed with elsewhere | some | unknown | owes | other
      · exact Bool.false_ne_true (elsewhere.symm.trans here)
      · exact some (kept.inPlay.trans none)
      · rw [unknown] at view
        cases view
      · exact owes pending
      · exact (lockCause_replaces.mp replaces).elim other.1 other.2
    rw [trough, unchanged, steady.trough]
  · have zero : zeroJudged (lockJudged o x u) := ⟨by rw [known, known'], kept.inPlay.symm.trans none⟩
    have owed : lockZero o x u = oweServes 1 (lockJudged o x u) :=
      (judgeZero_replaces zero stays playHere (lockCause_replaces.mpr away)).trans
        (if_pos ⟨by rw [steady.trough, pending], rfl⟩)
    have owes : owesOne True (lockJudged o x u) (oweServes 1 (lockJudged o x u)) :=
      oweServes_owesOne ((isTrough_of_setup steady.setup).trans here) (by rw [steady.trough, pending])
    rw [← owed] at owes
    refine owes.transfer steady.trough (troughDriver_of_setup steady.setup) (fun d => iff_of_eq (steady.faulted d))
      trough (fun set => by rw [flags]; exact set) fun single => ⟨?_, drivers⟩
    rw [lockJudged_single (by rw [handed.balls, single]) (.inr (by rw [zero.2]; decide)), lockCredited_frame.2.1,
      handed.drivers]

/-- R133, R144: in TILT a LOCK that leaves B at 0 ends the ball. -/
theorem lock_tilt (handed : Untouched s u) (tilt : s.control.station = .tilt) :
    let t := finish (restartQuiet (lockZero o x u))
    (s.balls.trough = none ∨ t.balls.inPlay ≠ 0 → t.control.station = .tilt ∧ t.trough = s.trough) ∧
      (s.balls.trough.isSome = true → t.balls.inPlay = 0 → t.control.station = .ready ∧ t.balls.phase = .single ∧
        t.rules.combo = 0 ∧ ∀ m, t.modes.get m = none) := by
  intro t
  have steady := handed.steady.trans (lockJudged_steady (o := o) (x := x))
  have tiltHere : (lockJudged o x u).control.station = .tilt := steady.station.trans tilt
  have kept : KeepsView (lockJudged o x u) t := judgeZero_keepsView.trans rested_keepsView
  have known : (lockJudged o x u).balls.trough = s.balls.trough := by
    rw [lockJudged_trough, handed.balls]
  have gameHere : inGame (lockZero o x u) = true := lockZero_inGame (by
    unfold inGame
    rw [handed.station, tilt]
    rfl)
  obtain ⟨stands, -, rules, modes, trough, -, phase, -⟩ := rested_frame gameHere
  refine ⟨fun going => ?_, fun view none => ?_⟩
  · have unjudged : ¬ zeroJudged (lockJudged o x u) := by
      rintro ⟨view, none⟩
      rw [known] at view
      rcases going with unknown | some
      · rw [unknown] at view
        cases view
      · exact some (kept.inPlay.trans none)
    have unchanged : lockZero o x u = lockJudged o x u :=
      judgeZero_stays (fun ends => unjudged ends.1) (.inl unjudged)
    rw [stands, trough, unchanged]
    exact ⟨tiltHere, steady.trough⟩
  · have ends : zeroEnds (lockCause x) u.balls.inPlay (lockJudged o x u) :=
      ⟨⟨by rw [known, view], kept.inPlay.symm.trans none⟩, .inl tiltHere⟩
    have ended : lockZero o x u = ballOver (lockJudged o x u) := judgeZero_ends ends
    rw [stands, rules, modes, phase, ended]
    have emptied (m : ModeId) : (ballOver (lockJudged o x u)).modes.get m = Option.none := ballOver_modes
    refine ⟨?_, ?_, ?_, emptied⟩ <;> rw [ballOver_eq]

/-- R145: in IDLE a LOCK raises no credit and B of 0 decides nothing. -/
theorem lock_idle (handed : Untouched s u) (idle : s.control.station = .idle) :
    let t := finish (restartQuiet (lockZero o x u))
    t.control.station = .idle ∧ t.trough = s.trough ∧ t.rules = s.rules ∧
      (s.balls.phase = .single → t.modes = s.modes) := by
  intro t
  have steady := handed.steady.trans (lockJudged_steady (o := o) (x := x))
  have idleHere : (lockJudged o x u).control.station = .idle := steady.station.trans idle
  have unchanged : lockZero o x u = lockJudged o x u :=
    judgeZero_stays (lock_unended (by simp [idleHere])) (.inr (.inl (by simp [idleHere])))
  have game : inGame (lockZero o x u) = true := by
    unfold inGame
    rw [unchanged, idleHere]
    rfl
  obtain ⟨stands, -, rules, modes, trough, -⟩ := rested_frame game
  refine ⟨stands.trans (by rw [unchanged, idleHere]), trough.trans (by rw [unchanged, steady.trough]),
    rules.trans (by rw [unchanged, steady.rules]), fun single => modes.trans ?_⟩
  rw [unchanged, lockJudged_single (by rw [handed.balls, single]) (.inl (by rw [handed.station, idle]; simp)),
    lockCredited_frame.1, handed.modes]

/-! ## The multiball that a LOCK starts (R146) -/

/-- R128, R146: what the start leaves of the pockets and the serves. -/
structure LockStarted (s t : State) : Prop where
  unreleased : s.control.image.installed = 1 ∨ ownHeld s = 0 → t.pockets = s.pockets
  released : s.control.image.installed ≠ 1 → 0 < ownHeld s →
    t.pockets.turn = .waiting (((List.finRange 16).countP fun j =>
      decide (j < strap s) && decide (0 < heldAt t j)) * s.control.image.releaseSpacing) ∧
    t.pockets.release = (List.finRange 4).filter (joinsRelease s) ∧
    ∀ p ∈ t.pockets.release, pocket t p = (pocket s p).released
  unserved : isTrough s = false ∨ s.control.image.installed = 1 → t.trough = s.trough
  served : ∀ d, s.control.image.installed ≠ 1 → isTrough s = true → troughDriver s = some d →
    (unit s d).phase ≠ .faulted → ∃ k, t.trough.pending = min 6 (s.trough.pending + k) ∧
      k ≤ s.control.image.multiballBalls - (t.balls.inPlay + totalHeld t) ∧
      ∀ n, s.balls.trough = some n → k = min n (s.control.image.multiballBalls - (t.balls.inPlay + totalHeld t))

theorem startMultiball_starts (none : s.pockets.release = []) (idle : s.pockets.turn = .idle) :
    LockStarted s (startMultiball s) := by
  obtain ⟨view, -, balls⟩ := startMultiball_keeps none idle
  have inPlay : (startMultiball s).balls.inPlay = s.balls.inPlay := by rw [balls]; rfl
  have total : totalHeld (startMultiball s) = totalHeld s := by
    unfold totalHeld
    rw [view.heldAt]
  refine ⟨startMultiball_unreleased, fun many holds => ?_, startMultiball_unserved none idle,
    fun d many here named works => ⟨_, startMultiball_pending none idle many here named works, ?_, fun n known => ?_⟩⟩
  · rw [view.heldAt]
    exact startMultiball_released none idle many holds
  · rw [inPlay, total]
    exact shortfall_le (creditSpent s)
  · rw [inPlay, total]
    unfold shortfall
    rw [show (creditSpent s).balls.trough = some n from known]
    rfl

/-- R128, R146: a start read from a state that is steady before it and keeps the view after it. -/
theorem LockStarted.congr {w : State} (h : LockStarted t u) (before : Steady s t)
    (known : t.balls.trough = s.balls.trough) (after : KeepsView u w) (trough : w.trough = u.trough) : LockStarted s w := by
  obtain ⟨unreleased, released, unserved, served⟩ := h
  have image := image_of_setup before.setup
  have strap : strap t = strap s := strap_of_setup before.setup
  have own : pocket t = pocket s := by
    unfold pocket
    rw [before.pockets]
  have held : ownHeld t = ownHeld s := by
    unfold ownHeld
    rw [before.pockets]
  have joins : joinsRelease t = joinsRelease s := by
    unfold joinsRelease pocketCfg
    rw [own, image]
  have total : totalHeld w = totalHeld u := by
    unfold totalHeld
    rw [after.sameView.heldAt]
  have ownAfter : pocket w = pocket u := by
    unfold pocket
    rw [after.pockets]
  rw [image, held, before.pockets] at unreleased
  rw [image, held, strap, joins, own] at released
  rw [image, isTrough_of_setup before.setup, before.trough] at unserved
  rw [image, isTrough_of_setup before.setup, troughDriver_of_setup before.setup, before.trough, known] at served
  refine ⟨fun h => after.pockets.trans (unreleased h), ?_, fun h => trough.trans (unserved h), ?_⟩
  · rw [after.sameView.heldAt, after.pockets, ownAfter]
    exact released
  · rw [after.inPlay, total, trough]
    exact fun d many here named works => served d many here named fun faulted => works ((before.faulted d).mp faulted)

/-- R143: a LOCK that has started a multiball calls for no replacement. -/
theorem judgeZero_started (stays : ¬ zeroEnds cause n s) : judgeZero cause n true s = s := by
  by_cases other : ¬ zeroJudged s ∨ s.control.station ≠ .play ∨ cause.replaces = false
  · exact judgeZero_stays stays other
  · simp only [not_or, not_not, Bool.not_eq_false] at other
    obtain ⟨zero, play, replaces⟩ := other
    rw [judgeZero_replaces zero stays play replaces]
    exact if_neg (by simp)

theorem takeLock_started (starts : lockStarts o x s = true) (play : s.control.station = .play)
    (none : s.pockets.release = []) (idle : s.pockets.turn = .idle) :
    takeLock o x s = restartQuiet (startMultiball (lockJudged o x s)) := by
  have steady := lockJudged_steady (o := o) (x := x) (s := s)
  obtain ⟨-, setup, -⟩ := startMultiball_keeps (s := lockJudged o x s) (steady.pockets.symm ▸ none)
    (steady.pockets.symm ▸ idle)
  have station : (startMultiball (lockJudged o x s)).control.station = .play :=
    (station_of_setup setup).trans (steady.station.trans play)
  rw [takeLock_eq, starts]
  exact congrArg restartQuiet (judgeZero_started (lock_unended (by simp [station])))

/-- R88: a record that did not report LISTEN-ONLY is changed in place. -/
theorem mapRecord_kept {f : CensusRecord → CensusRecord} {r : CensusRecord} (record : (peer s o).record = some r)
    (live : r.state ≠ .listenOnly) : mapRecord o f s = { s with peers := { s.peers with
      table := s.peers.table.set o { peer s o with record := some (f r) } } } := by
  have changed : (match (peer s o).record with
      | some r => if r.state = .listenOnly then peer s o else { peer s o with record := some (f r) }
      | none => peer s o) = { peer s o with record := some (f r) } := by
    rw [record]
    exact if_neg live
  rw [← changed]
  rfl

end

/-! ## O47 -/

section
variable {o : StationNo} {x : LockPayload} {s : State}

/-- R128, R145, R146: a credited LOCK that brings the current player's credit to the threshold. -/
theorem lock_starts (heard : hears o (.lock x) s) (play : s.control.station = .play) (credit : x.credit = 1)
    (earned : earns x s s.rules.current) (held : x.held.toNat ≤ 3) (stuck : x.stuck.toNat ≤ 3)
    (reached : s.control.image.threshold ≤ min 4 (s.balls.credits.get s.rules.current + 1))
    (none : s.pockets.release = []) (idle : s.pockets.turn = .idle) :
    ∃ t, exec (.lock o x) s = .next t ∧ t.control.station = .play ∧
      t.balls.credits = s.balls.credits.set s.rules.current 0 ∧ LockView o x s t ∧
      t.balls.phase = (if 2 ≤ t.balls.inPlay then .multi else .single) ∧
      t.balls.quiet = some (s.control.image.searchDelay * 1000) ∧ LockStarted s t ∧
      t.rules.tallies = s.rules.tallies := by
  have handed : Untouched s (received o (.lock x) s) := received_untouched
  have ran := exec_lock heard (by unfold inGame; rw [play]; rfl)
  generalize received o (.lock x) s = u at handed ran
  have small : x.credit.toNat ≤ 1 := by rw [credit]; decide
  have rules := handed.rules
  have starts : lockStarts o x u = true := by
    refine (lockStarts_iff small).mpr ⟨handed.station.trans play, ?_, ?_⟩
    · unfold earns at earned ⊢
      rw [rules, playerCount_of_setup handed.setup]
      exact earned
    · rw [handed.image, handed.balls, rules]
      exact reached
  rw [takeLock_started starts (handed.station.trans play) (handed.pockets.symm ▸ none)
    (handed.pockets.symm ▸ idle)] at ran
  have steady := handed.steady.trans (lockJudged_steady (o := o) (x := x))
  have judgedView := lockJudged_view (o := o) (s := u) held stuck
  have credits (p : Player) := lockJudged_credits (o := o) (x := x) (s := u) (p := p)
  have phase := lockJudged_phase (o := o) (x := x) (handed.station.trans play)
  have known : (lockJudged o x u).balls.trough = s.balls.trough := by rw [lockJudged_trough, handed.balls]
  generalize lockJudged o x u = j at ran steady judgedView credits phase known
  have none : j.pockets.release = [] := steady.pockets.symm ▸ none
  have idle : j.pockets.turn = .idle := steady.pockets.symm ▸ idle
  obtain ⟨view, setup, balls⟩ := startMultiball_keeps none idle
  have started := startMultiball_starts none idle
  have rulesAfter : (startMultiball j).rules = j.rules := (startMultiball_frame j).2.2.2.1
  generalize startMultiball j = m at ran view setup balls started rulesAfter
  have station : m.control.station = .play := (station_of_setup setup).trans (steady.station.trans play)
  have kept : KeepsView m (finish (restartQuiet m)) := rested_keepsView
  obtain ⟨stands, -, rulesEnd, -, troughEnd, -, phaseEnd, quiet⟩ :=
    rested_frame (s := m) (by unfold inGame; rw [station]; rfl)
  have inPlay : (finish (restartQuiet m)).balls.inPlay = j.balls.inPlay := by
    rw [kept.inPlay, balls]
    rfl
  refine ⟨_, ran, stands.trans station, ?_, ?_, ?_, ?_, started.congr steady known kept troughEnd, ?_⟩
  · rw [kept.credits, balls]
    change j.balls.credits.set j.rules.current 0 = _
    rw [steady.rules]
    refine Tab.ext_get fun p => ?_
    rw [Tab.get_set, Tab.get_set, credits, handed.balls]
    by_cases current : p = s.rules.current
    · rw [if_pos current, if_pos current]
    · rw [if_neg current, if_neg current, if_neg]
      intro who
      obtain ⟨-, -, names, -⟩ := (creditedPlayer_eq_some small (.inl (handed.station.trans play))).mp who
      obtain ⟨-, -, named, -⟩ := earned
      exact current (Fin.ext (by omega))
  · have after := judgedView.congr (view.trans kept.sameView) inPlay
    obtain ⟨own, peer, others, trough, missing⟩ := after
    rw [handed.strap, handed.balls] at own peer
    rw [handed.balls] at others trough missing
    exact ⟨own, peer, others, trough, missing⟩
  · rw [inPlay, ← phase, phaseEnd, balls]
    rfl
  · rw [quiet, view.image, image_of_setup steady.setup]
  · rw [rulesEnd, rulesAfter, steady.rules]

/-- R128: with every pocket that holds balls fitted, those that join are those that hold and wait. -/
theorem joinsRelease_fitted (fitted : ∀ p, 0 < (pocket s p).held → (pocketCfg s p).isSome = true) :
    joinsRelease s = fun p =>
      decide (0 < (pocket s p).held) && ((pocket s p).phase == .stable || (pocket s p).phase == .kickoutWait) := by
  funext p
  unfold joinsRelease
  by_cases holds : 0 < (pocket s p).held
  · rw [fitted p holds, Bool.true_and]
  · rw [decide_eq_false holds, Bool.and_false]

/-- R88: a LOCK of a peer in JOINING moves the counts of its record. -/
theorem lock_gathered {r : CensusRecord} (heard : hears o (.lock x) s) (joins : s.control.station = .joining)
    (other : o ≠ strap s) (record : (peer s o).record = some r) (live : r.state ≠ .listenOnly)
    (held : x.held.toNat ≤ 3) (stuck : x.stuck.toNat ≤ 3) :
    let u := received o (.lock x) s
    ∃ t, exec (.lock o x) s = .next t ∧
      settles { u with peers := { u.peers with table := u.peers.table.set o { peer u o with record := some { r with
        held := r.held.set x.pocket x.held.toNat, stuck := r.stuck.set x.pocket x.stuck.toNat } } } } t := by
  intro u
  have out : inGame s = false := by
    unfold inGame
    rw [joins]
    rfl
  have ran : exec (.lock o x) s = .next (finish (gatherLock o x u)) :=
    congrArg (fun v => Host.Outcome.next (finish v)) ((complete_heard _ _ heard).trans (if_neg (by simp [out])))
  have joinsHere : joining u = true := beq_iff_eq.mpr (received_untouched.station.trans joins)
  have recordHere : (peer u o).record = some r := by
    have present := congrArg Peer.record (Tab.get_modify_self s.peers.table o fun e : Peer =>
      { e with presence := .present, silence := some (3 * s.control.image.censusInterval) })
    have heardFrom := congrArg (fun v => (peer v o).record) (received_heard (b := .lock x) (isOwn_of_ne other) other)
    exact (heardFrom.trans present).trans record
  refine ⟨_, ran, settles_of_eq ?_⟩
  rw [← countOf_small held, ← countOf_small stuck]
  exact (if_pos joinsHere).trans (mapRecord_kept recordHere live)

end

/-- Settles O47: a LOCK by whether it starts a multiball (`lockStarts_iff`); then the start by `lock_starts`, any other
by the station state, and one in JOINING by the record it changes. -/
theorem locksMoveCountsAndStartAMultiball : Obligations.LocksMoveCountsAndStartAMultiball := by
  refine ⟨fun o x s heard play event credit names within held stuck reached none idle _ fitted => ?starts,
    fun o x s heard credit held stuck => ?taken⟩
  case starts =>
    obtain ⟨t, ran, station, credits, view, phase, quiet, started, tallies⟩ :=
      lock_starts heard play credit ⟨event, credit, names, within⟩ held stuck reached none idle
    obtain ⟨unreleased, released, unserved, served⟩ := started
    rw [joinsRelease_fitted fitted] at released
    refine ⟨t, ran, station, credits, view.own, fun other => ?_, phase, quiet, unreleased, released, unserved,
      fun n d many here known named works => ?_, fun d many here _ named works => ?_, tallies⟩
    · obtain ⟨counts, inPlay⟩ := view.peer other
      exact ⟨inPlay, view.others, counts⟩
    · obtain ⟨k, pending, -, owed⟩ := served d many here named works
      rw [pending, owed n known]
    · obtain ⟨k, pending, most, -⟩ := served d many here named works
      rw [pending]
      omega
  case taken =>
    intro earnsCredit keeps raises
    have taken (game : inGame s = true) (unstarted : lockStarts o x (received o (.lock x) s) = false) :
        ∃ u, Untouched s u ∧ exec (.lock o x) s = .next (finish (restartQuiet (lockZero o x u))) ∧
          keeps (finish (restartQuiet (lockZero o x u))) ∧
          ∀ p, (finish (restartQuiet (lockZero o x u))).balls.credits.get p =
            if creditedPlayer x s = some p then min 4 (s.balls.credits.get p + 1) else s.balls.credits.get p := by
      obtain ⟨view, pockets, quiet, tallies, credits⟩ :=
        lock_kept (o := o) (x := x) (received_untouched (o := o) (b := .lock x) (s := s)) game held stuck
      refine ⟨_, received_untouched, ?_,
        ⟨view.own, view.peer, view.others, view.trough, view.missing, pockets, quiet, tallies⟩, credits⟩
      rw [exec_lock heard game, takeLock_unstarted unstarted]
    have unstarted (out : s.control.station ≠ .play) : lockStarts o x (received o (.lock x) s) = false :=
      Bool.eq_false_iff.mpr fun starts =>
        out (received_untouched.station.symm.trans ((lockStarts_iff credit).mp starts).1)
    refine ⟨fun play short => ?_, fun tilt => ?_, fun idle => ?_,
      fun r joins other record live => lock_gathered heard joins other record live held stuck⟩
    · have short : lockStarts o x (received o (.lock x) s) = false := Bool.eq_false_iff.mpr fun starts => by
        obtain ⟨-, earned, reached⟩ := (lockStarts_iff credit).mp starts
        have handed : Untouched s (received o (.lock x) s) := received_untouched
        unfold earns at earned
        rw [handed.rules, playerCount_of_setup handed.setup] at earned
        rw [handed.rules, handed.image, handed.balls] at reached
        exact short ⟨earned, reached⟩
      obtain ⟨u, handed, ran, kept, credits⟩ := taken (by unfold inGame; rw [play]; rfl) short
      obtain ⟨station, phase, unowed, owed⟩ := lock_play (o := o) (x := x) handed play
      exact ⟨_, ran, station, kept, credited_earns credit (.inl play) credits, phase, unowed, owed⟩
    · obtain ⟨u, handed, ran, kept, credits⟩ := taken (by unfold inGame; rw [tilt]; rfl) (unstarted (by simp [tilt]))
      exact ⟨_, ran, kept, credited_earns credit (.inr tilt) credits, lock_tilt handed tilt⟩
    · obtain ⟨u, handed, ran, kept, credits⟩ := taken (by unfold inGame; rw [idle]; rfl) (unstarted (by simp [idle]))
      obtain ⟨station, trough, rules, modes⟩ := lock_idle (o := o) (x := x) handed idle
      refine ⟨_, ran, station, kept, Tab.ext_get fun p => ?_, trough, rules, modes⟩
      rw [credits, creditedPlayer_idle idle]
      exact if_neg nofun

end Sys2Proof.Machine

end
